-- ==== Sys2Proof/Word.lean ====
section
/-! DEFINITION. The plain data types every other file uses: bytes, 16-bit words, moments on the line, and a
table of a fixed number of like records with one reader and one writer. -/

namespace Sys2Proof

/-- A byte of the local port, of a frame or of a message. -/
abbrev Byte := BitVec 8

/-- A 16-bit register: a counter, the own-turn count, an arrival stamp, a CRC value. -/
abbrev Word := BitVec 16

/-- A moment on this station's own clock, counted in periods of the 16.000 MHz clock input XIN (00_scope.md, Pins).
The part compares moments and never holds one in a register of a stated width, so it is a number, not a bit vector. -/
abbrev Moment := Nat

/-- Entry `i` of a table. -/
def look {α : Type} {n : Nat} (v : Vector α n) (i : Fin n) : α := v[i.val]

/-- The table with entry `i` replaced. -/
def put {α : Type} {n : Nat} (v : Vector α n) (i : Fin n) (a : α) : Vector α n := v.set i.val a

end Sys2Proof
end

