-- ==== Sys2Proof/Config.lean ====
section
/-! DEFINITION. What is fixed for the part and not part of its state. The spec leaves no value of a command's
result undefined, so there is no free value here (NOTES.md, Assumptions). The five values S, N, rate code, W and R are
state (CONFIGURE writes them, hardware reset clears them) and stand in Machine/State.lean. -/

namespace Sys2Proof

/-- Periods of XIN (16.000 MHz) in one microsecond; the unit of `Moment`. -/
def Config.xinPeriodsPerMicrosecond : Nat := 16

/-- The byte time at rate code 0 in microseconds (R1); each higher rate code halves it. -/
def Config.slowestByteTimeMicroseconds : Nat := 80

end Sys2Proof
end

