-- ==== Sys2Proof/Syntax.lean ====
section
/-! DEFINITION. The commands of the block: one constructor for each row of spec/opcode_table.json. A command is an
access at the local port, an edge of RST#, or an event on the line or of the part's own timing. The table gives no row an
operand field; the operands here are what the row's rule takes from outside the part. -/

namespace Sys2Proof

/-- One character as the receiver reads it from RXD (R1). -/
inductive LineChar where
  /-- A character with its stop bit at the idle level, and its eight data bits. It lasts one byte time. -/
  | data (b : Byte)
  /-- A faulty character (its stop bit is at the active level); `ends` is the moment the line returned to idle after
  it, which for a break is the end of the break (R2). -/
  | faulty (ends : Moment)
  deriving DecidableEq, Repr

/-- A command to the block. -/
inductive Instr where
  /-- RST# is asserted (R57). -/
  | hardwareReset
  /-- A write of `value` to the data location (R176). -/
  | dataWrite (value : Byte)
  /-- A read of the data location (R177). -/
  | dataRead
  /-- A write to the command/status location that finds BUSY set (R179). -/
  | commandWriteWhileBusy
  /-- A write to the command/status location of a code that is not in the command table (R180). -/
  | badCommand (code : Byte)
  /-- The CONFIGURE command, code 01h (R43). -/
  | configure
  /-- The JOIN command, code 02h (R46), taken at `moment`, with RXD found active or idle at that moment (R3). -/
  | join (moment : Moment) (rxdActive : Bool)
  /-- The LEAVE command, code 03h (R48). -/
  | leave
  /-- The READ STATUS command, code 04h (R55). -/
  | readStatus
  /-- The OPEN command, code 10h (R89). -/
  | openMailbox
  /-- The CLOSE command, code 11h (R93). -/
  | closeMailbox
  /-- The READ DIRECTORY START command, code 12h (R103). -/
  | readDirectoryStart
  /-- The READ DIRECTORY CONTINUE command, code 13h (R104). -/
  | readDirectoryContinue
  /-- The READ ROSTER command, code 14h (R84). -/
  | readRoster
  /-- The PUT command, code 20h (R119). -/
  | put
  /-- The TAKE command, code 21h (R135). -/
  | take
  /-- The CANCEL command, code 22h (R165). -/
  | cancel
  /-- The MAILBOX STATUS command, code 23h (R125). -/
  | mailboxStatus
  /-- The POP COMPLETION command, code 30h (R186). -/
  | popCompletion
  /-- The SET ATTENTION command, code 31h (R188). -/
  | setAttention
  /-- The READ COUNTERS command, code 32h (R192). -/
  | readCounters
  /-- The CLEAR COUNTERS command, code 33h (R193). -/
  | clearCounters
  /-- A piece of activity opens on RXD with the character `ch`, whose start bit begins at `start` (R2, R4). -/
  | activityOpens (ch : LineChar) (start : Moment)
  /-- Silence exceeds 2 byte times after a discarded or truncated activity (R7). -/
  | activityClosesBySilence
  /-- The last CRC character of a received frame is read; its start bit begins at `start` (R5, R8). -/
  | frameAssemblyComplete (ch : LineChar) (start : Moment)
  /-- W byte times have passed in a window with no activity (R25). -/
  | turnLapse
  /-- Silence reaches Q while SYNCED (R27). -/
  | quietRule
  /-- Silence reaches Q while UNSYNCED (R32). -/
  | quietResync
  /-- The moment at which the offered frame is to begin (R13). -/
  | frameTransmitStart
  /-- The echo of the own frame has matched completely (R15). -/
  | echoGood
  /-- An echo comparison of the own frame fails; the character it failed at ends at `ends` (R16). -/
  | collision (ends : Moment)
  /-- The 3 byte-time break ends (R16, R17). -/
  | breakEnd
  /-- The reply deadline of a request entry is reached (R159). -/
  | replyDeadline
  /-- The backstop of a parked take is reached (R163). -/
  | backstop
  /-- The deadline of a LATE entry is reached (R164). -/
  | lateDeadline
  /-- The deadline of a waiter is reached (R144). -/
  | waiterExpiry
  /-- The deadline of a SENT delivery slot is reached (R142). -/
  | deliveryDeadline
  /-- A character is read within a piece of activity; its start bit begins at `start` (R5, R7). -/
  | characterReceived (ch : LineChar) (start : Moment)
  /-- RST# is released (R57). -/
  | resetReleased
  /-- The internal work of the command being taken ends (R179). -/
  | commandResultWritten
  deriving DecidableEq, Repr

end Sys2Proof
end

