-- ==== Sys2Proof/Machine/State.lean ====
section
/-! DEFINITION. The state of the Dakcel 3220, block by block as the spec's chapters give it, and its value after hardware
reset. Everything is plain data. The functions that read and change it stand in the other files under Machine. -/

namespace Sys2Proof.Machine

/-! ### Names that several blocks use -/

/-- The station states (R41). -/
inductive StationState where
  | offline
  | seeking
  | active
  | leaving
  deriving DecidableEq, Repr

/-- The session-end causes (R52, R53). -/
inductive EndCause where
  | reset
  | left
  | leftUnannounced
  | duplicate
  deriving DecidableEq, Repr

/-- The causes of a station-absent event (R81). -/
inductive AbsenceCause where
  | silent
  | left
  deriving DecidableEq, Repr

/-- The status codes of 12.7: results of commands and finishing statuses of request entries. -/
inductive Status where
  | ok
  | stored
  | full
  | noSpace
  | noMailbox
  | delivered
  | empty
  | homeBusy
  | waitFull
  | expired
  | cancelled
  | closed
  | lost
  | noReply
  | homeLost
  | sessionEnd
  | taken
  | already
  | noSlot
  | tableFull
  | notHome
  | noCursor
  | unknownTag
  | notCancellable
  | nothing
  | notConfigured
  | badCommand
  | badState
  | badLength
  | badParam
  deriving DecidableEq, Repr

/-! ### Items (R9, 12.2) -/

/-- The DEST field of an item. -/
inductive Dest where
  | broadcast
  | station (n : Fin 32)
  deriving DecidableEq, Repr

/-- The results a PUT_REPLY carries. -/
inductive PutResult where
  | stored
  | full
  | noSpace
  | noMailbox
  deriving DecidableEq, Repr

/-- The results a TAKE_REPLY carries. -/
inductive TakeResult where
  | noMailbox
  | empty
  | parked
  | waitFull
  | homeBusy
  | expired
  deriving DecidableEq, Repr

/-- The results a CANCEL_REPLY carries. -/
inductive CancelResult where
  | removed
  | tooLate
  | unknown
  deriving DecidableEq, Repr

/-- The verdicts a DELIVER_ACK carries. -/
inductive AckVerdict where
  | accepted
  | stale
  deriving DecidableEq, Repr

/-- An item without its DEST field: the thirteen kinds with their fields. Bit m of a PRESENCE bitmap is mailbox m. -/
inductive ItemBody where
  | presence (bitmap : BitVec 64)
  | farewell
  | claim (mailbox : Fin 64)
  | release (mailbox : Fin 64)
  | dispute (mailbox : Fin 64)
  | put (mailbox : Fin 64) (tag : Byte) (data : List Byte)
  | putReply (tag : Byte) (result : PutResult)
  | take (mailbox : Fin 64) (tag : Byte) (priority : Fin 4) (wait : Byte)
  | takeReply (tag : Byte) (result : TakeResult)
  | deliver (tag : Byte) (dseq : Byte) (origin : Fin 32) (data : List Byte)
  | deliverAck (tag : Byte) (dseq : Byte) (verdict : AckVerdict)
  | cancel (mailbox : Fin 64) (tag : Byte)
  | cancelReply (tag : Byte) (result : CancelResult)
  deriving DecidableEq, Repr

/-- An item of a frame. -/
structure Item where
  dest : Dest
  body : ItemBody
  deriving DecidableEq, Repr

/-! ### Station Control (chapter 3) -/

/-- The five configured values (R43). Q and SIG are derived from them (R44) by `quietTime` and `signature` in
Machine/Operands.lean. -/
structure StationConfig where
  station : Fin 32
  cycle : Nat
  rate : Fin 4
  window : Nat
  replyLimit : Nat
  deriving DecidableEq, Repr

/-- Station Control. `config` is none while the configuration is invalid. -/
structure StationControl where
  state : StationState
  config : Option StationConfig
  lastCause : EndCause
  deriving DecidableEq, Repr

/-! ### Line Unit (chapter 1) -/

/-- The receive states. -/
inductive ReceiveState where
  | idle
  | assembling
  | discarding
  | echo
  deriving DecidableEq, Repr

/-- The transmit states. -/
inductive TransmitState where
  | off
  | sending
  | breaking
  deriving DecidableEq, Repr

/-- The Line Unit. `assembly` to `txInProgress` are the state the chapter's table names. The others are state it implies:
`ownActivity` says that the open piece of activity holds this station's own transmission, so that it gets no verdict (R16);
`lastCharEnd` is the end of the last character of the open piece of activity (R2); `txStart` is the moment the own frame's
sync character began and `echoed` how many of its characters have been read back matching (R15); `breakEnd` is the moment
the break under way ends, fixed when it begins (R17). -/
structure LineUnit where
  rx : ReceiveState
  assembly : List Byte
  endOfLast : Option Moment
  tx : TransmitState
  txBuffer : List Byte
  txInProgress : Bool
  ownActivity : Bool
  lastCharEnd : Moment
  txStart : Moment
  echoed : Nat
  breakEnd : Moment
  deriving DecidableEq, Repr

/-! ### Turn Tracker (chapter 2) -/

/-- The turn while SYNCED: its holder, the moment its window opened, and whether activity has opened since. -/
structure Rotation where
  holder : Fin 32
  opened : Moment
  activity : Bool
  deriving DecidableEq, Repr

/-- The Turn Tracker. `rotation` is none while UNSYNCED, when the holder is unknown and the window is none. The quiet
reference is the Line Unit's end of last activity, or `joinedAt` while that is none (R32). `quietApplied` says that the quiet
rule has been applied in the present silence (R27). `ownTurnOpen` says that an own turn has raised the count and the Frame
Assembler has not yet been offered the turn, because deadlines reached at the new count are still to act (R34). -/
structure TurnTracker where
  rotation : Option Rotation
  joinedAt : Option Moment
  quietApplied : Bool
  ownTurnCount : Word
  presenceCounter : Fin 4
  ownTurnOpen : Bool
  deriving DecidableEq, Repr

/-! ### Item Queue and Frame Assembler (chapter 4) -/

/-- Who is told "sent" for a queued item. -/
inductive Originator where
  | nobody
  | entry (slot : Fin 16)
  | delivery (slot : Fin 8)
  deriving DecidableEq, Repr

/-- A record of the item queue. -/
structure QueuedItem where
  item : Item
  originator : Originator
  onAir : Bool
  withdrawn : Bool
  deriving DecidableEq, Repr

/-- The frame on air: the items chosen at the last offer in frame order, and whether it holds PRESENCE or FAREWELL. -/
structure FrameOnAir where
  items : List Item
  presence : Bool
  farewell : Bool
  deriving DecidableEq, Repr

/-- The item queue, oldest first in each class. -/
structure ItemQueue where
  classA : List QueuedItem
  classB : List QueuedItem
  onAir : Option FrameOnAir
  deriving DecidableEq, Repr

/-! ### Roster Unit (chapter 5) -/

/-- The roster entry states (R74). -/
inductive Presence where
  | unknown
  | present
  | absent
  deriving DecidableEq, Repr

/-- A roster entry; `missed` is the missed-turn count, 0 to 8. -/
structure RosterEntry where
  presence : Presence
  missed : Nat
  deriving DecidableEq, Repr

/-! ### Directory Unit (chapter 6) -/

/-- The directory entry states (R88). -/
inductive DirEntry where
  | free
  | claiming
  | homed (h : Fin 32)
  | orphaned (h : Fin 32)
  deriving DecidableEq, Repr

/-- The Directory Unit. -/
structure Directory where
  entries : Vector DirEntry 64
  cursor : Option (Fin 64)
  deriving DecidableEq, Repr

/-! ### Mailbox Store (chapters 7 and 8) -/

/-- The hosted slot states (R110). -/
inductive SlotState where
  | free
  | claiming
  | opened
  deriving DecidableEq, Repr

/-- A hosted slot. Its delivery count is the number of delivery slots in use for it (`deliveryCount` in
Machine/Ops.lean). -/
structure HostedSlot where
  state : SlotState
  mailbox : Fin 64
  depth : Nat
  messages : List (Fin 64)
  waiters : List (Fin 32)
  deriving DecidableEq, Repr

/-- A message: its origin and its data, 1 to 24 bytes. -/
structure Message where
  origin : Fin 32
  data : List Byte
  deriving DecidableEq, Repr

/-- A waiter record in use (R130). `requester` is S for a local taker. -/
structure Waiter where
  hosted : Fin 16
  requester : Fin 32
  tag : Byte
  priority : Fin 4
  deadline : Option Word
  stamp : Word
  deriving DecidableEq, Repr

/-- The states of a delivery slot in use; the deadline is meaningful in SENT. -/
inductive DeliveryState where
  | unqueued
  | queued
  | sent (deadline : Word)
  deriving DecidableEq, Repr

/-- A delivery slot in use (R138). -/
structure Delivery where
  state : DeliveryState
  dseq : Byte
  hosted : Fin 16
  cell : Fin 64
  dest : Fin 32
  tag : Byte
  attempts : Nat
  deriving DecidableEq, Repr

/-- The remembered outcomes of a TAKE (chapter 7, exchange memory). -/
inductive TakeOutcome where
  | empty
  | parked
  | noMailbox
  | waitFull
  | homeBusy
  | delivering (slot : Fin 8)
  | returned
  | expired
  deriving DecidableEq, Repr

/-- The last kind of an exchange memory entry with its remembered outcome. -/
inductive Remembered where
  | put (r : PutResult)
  | take (o : TakeOutcome)
  | cancel (r : CancelResult)
  deriving DecidableEq, Repr

/-- A valid exchange memory entry. -/
structure Exchange where
  tag : Byte
  last : Remembered
  deriving DecidableEq, Repr

/-- The Mailbox Store. A pool cell is none while free, a waiter record while not in use, a delivery slot while FREE, an
exchange memory entry while invalid. `unqueued` is the order in which the UNQUEUED slots became so (R139). -/
structure MailboxStore where
  hosted : Vector HostedSlot 16
  pool : Vector (Option Message) 64
  waiters : Vector (Option Waiter) 32
  deliveries : Vector (Option Delivery) 8
  unqueued : List (Fin 8)
  exchange : Vector (Option Exchange) 32
  arrivalStamp : Word
  dseq : Byte
  deriving DecidableEq, Repr

/-! ### Request Engine (chapter 9) -/

/-- The kinds of request entry. -/
inductive RequestKind where
  | put
  | take
  | claim
  | release
  deriving DecidableEq, Repr

/-- The states of a request entry. -/
inductive EntryState where
  | free
  | waiting
  | queued
  | sent
  | parked
  | localParked
  | cancelWaiting
  | cancelQueued
  | cancelSent
  | late
  | held
  deriving DecidableEq, Repr

/-- The causes of a cancel. -/
inductive CancelCause where
  | localCause
  | backstopCause
  deriving DecidableEq, Repr

/-- The result area of a request entry; its length field is the length of `data`. -/
structure ResultArea where
  status : Option Status
  origin : Fin 32
  data : List Byte
  deriving DecidableEq, Repr

/-- A request entry. Its slot is its place in the table and its tag is formed from generation and slot (R152). -/
structure Entry where
  generation : BitVec 4
  kind : RequestKind
  mailbox : Fin 64
  home : Option (Fin 32)
  state : EntryState
  attempts : Nat
  deadline : Option Word
  priority : Fin 4
  wait : Byte
  data : List Byte
  result : ResultArea
  cancelRequested : Bool
  cancelCause : CancelCause
  deriving DecidableEq, Repr

/-- The Request Engine: the table, for each home the waiting order, and the held list. -/
structure RequestEngine where
  entries : Vector Entry 16
  waiting : Vector (List (Fin 16)) 32
  held : List (Fin 16)
  deriving DecidableEq, Repr

/-! ### Local Port (chapter 10) -/

/-- A completion record (R183). The kind of a request record follows the entry's kind (R173). -/
inductive Record where
  | request (kind : RequestKind) (tag : Byte) (status : Status) (mailbox : Fin 64) (origin : Fin 32) (data : List Byte)
  | stationAbsent (station : Fin 32) (cause : AbsenceCause)
  | stationPresent (station : Fin 32)
  | mailboxLost (mailbox : Fin 64)
  deriving DecidableEq, Repr

/-- The fourteen counters, in the order of R191. -/
structure Counters where
  framesSent : Word
  goodFrames : Word
  corruptActivity : Word
  collisions : Word
  turnSlips : Word
  foreignFrames : Word
  quietResyncs : Word
  itemsShed : Word
  requestRetransmissions : Word
  deliveryRetransmissions : Word
  staleAcks : Word
  directoryConflicts : Word
  noticesLost : Word
  messagesReturned : Word
  deriving DecidableEq, Repr

/-- The Local Port. `taking` is some while a command is being taken, that is while BUSY is set, and holds the result the
command will write (R179). The result length is the length of `result`. `dataOut` is what D7 to D0 carried at the last read
of the data location. -/
structure LocalPort where
  fifo : List Byte
  result : List Byte
  readPointer : Nat
  taking : Option (List Byte)
  overrun : Bool
  completions : List Record
  noticeLost : Bool
  stateChange : Bool
  maskCQ : Bool
  maskST : Bool
  counters : Counters
  dataOut : Byte
  deriving DecidableEq, Repr

/-! ### The whole part -/

/-- The state of the part, and the queue of the commands that are waiting, first in, first out. `rstAsserted` is the RST#
input held low. -/
structure State where
  rstAsserted : Bool
  control : StationControl
  line : LineUnit
  tracker : TurnTracker
  queue : ItemQueue
  roster : Vector RosterEntry 32
  directory : Directory
  store : MailboxStore
  engine : RequestEngine
  port : LocalPort
  pending : List Instr
  deriving DecidableEq, Repr

/-- The reasons for which a step could end in a fault. -/
inductive Fault where
  /-- Raised by no meaning: the spec gives every command an effect in every state, or says that it has none, so every
  command answers a next state. The type keeps one name so that it is not empty. Safe. -/
  | neverRaised
  deriving DecidableEq, Repr

/-- The reasons for which a step could be refused. -/
inductive Refusal where
  /-- Raised by an arm of `exec` whose command has no meaning yet; no arm does. Safe. -/
  | notModelled (mnemonic : String)
  deriving DecidableEq, Repr

/-! ### Reset values -/

/-- A FREE request entry with the given generation. Its other fields are set at the next allocation (R153). -/
def Entry.blank (generation : BitVec 4) : Entry where
  generation := generation
  kind := .put
  mailbox := 0
  home := none
  state := .free
  attempts := 0
  deadline := none
  priority := 0
  wait := 0
  data := []
  result := { status := none, origin := 0, data := [] }
  cancelRequested := false
  cancelCause := .localCause

/-- A FREE hosted slot (R126). -/
def HostedSlot.blank : HostedSlot where
  state := .free
  mailbox := 0
  depth := 0
  messages := []
  waiters := []

/-- A roster entry that is UNKNOWN with count 0 (R85 to R87). -/
def RosterEntry.blank : RosterEntry where
  presence := .unknown
  missed := 0

/-- All counters 0 (R193, R195). -/
def Counters.zero : Counters where
  framesSent := 0
  goodFrames := 0
  corruptActivity := 0
  collisions := 0
  turnSlips := 0
  foreignFrames := 0
  quietResyncs := 0
  itemsShed := 0
  requestRetransmissions := 0
  deliveryRetransmissions := 0
  staleAcks := 0
  directoryConflicts := 0
  noticesLost := 0
  messagesReturned := 0

/-- The Line Unit after hardware reset (R19). -/
def LineUnit.reset : LineUnit where
  rx := .idle
  assembly := []
  endOfLast := none
  tx := .off
  txBuffer := []
  txInProgress := false
  ownActivity := false
  lastCharEnd := 0
  txStart := 0
  echoed := 0
  breakEnd := 0

/-- The Turn Tracker after hardware reset (R40). -/
def TurnTracker.reset : TurnTracker where
  rotation := none
  joinedAt := none
  quietApplied := false
  ownTurnCount := 0
  presenceCounter := 0
  ownTurnOpen := false

/-- The item queue emptied (R72, R73). -/
def ItemQueue.empty : ItemQueue where
  classA := []
  classB := []
  onAir := none

/-- The directory after session end and hardware reset (R108, R109). -/
def Directory.reset : Directory where
  entries := Vector.replicate 64 .free
  cursor := none

/-- The Mailbox Store cleared, with the two running numbers given (R128, R129). -/
def MailboxStore.cleared (arrivalStamp : Word) (dseq : Byte) : MailboxStore where
  hosted := Vector.replicate 16 HostedSlot.blank
  pool := Vector.replicate 64 none
  waiters := Vector.replicate 32 none
  deliveries := Vector.replicate 8 none
  unqueued := []
  exchange := Vector.replicate 32 none
  arrivalStamp := arrivalStamp
  dseq := dseq

/-- The Request Engine after hardware reset (R175). -/
def RequestEngine.reset : RequestEngine where
  entries := Vector.replicate 16 (Entry.blank 0)
  waiting := Vector.replicate 32 []
  held := []

/-- The Local Port after hardware reset (R195). -/
def LocalPort.reset : LocalPort where
  fifo := []
  result := []
  readPointer := 0
  taking := none
  overrun := false
  completions := []
  noticeLost := false
  stateChange := false
  maskCQ := false
  maskST := false
  counters := Counters.zero
  dataOut := 0

/-- The machine right after hardware reset, RST# released (R57, and the reset rule of each block). -/
def State.reset : State where
  rstAsserted := false
  control := { state := .offline, config := none, lastCause := .reset }
  line := LineUnit.reset
  tracker := TurnTracker.reset
  queue := ItemQueue.empty
  roster := Vector.replicate 32 RosterEntry.blank
  directory := Directory.reset
  store := MailboxStore.cleared 0 0
  engine := RequestEngine.reset
  port := LocalPort.reset
  pending := []

end Sys2Proof.Machine
end

