-- ==== Sys2Proof/Machine/Operands.lean ====
section
/-! DEFINITION. The formats and codes of chapter 12: configuration values and what is derived from them, status codes,
commands with their codes, ranges and permitted states, items and frames as bytes, the CRC, and the layouts of results and
completion records. -/

namespace Sys2Proof.Machine

/-! ### Numbers and bytes -/

/-- A number as one byte. -/
def byteOf (n : Nat) : Byte := BitVec.ofNat 8 n

/-- A 16-bit value as two bytes, high byte first (chapter 12). -/
def wordBytes (w : Word) : List Byte := [w.extractLsb' 8 8, w.extractLsb' 0 8]

/-- The byte as a number below `n`, or none where it lies outside the range. -/
def below (n : Nat) (b : Byte) : Option (Fin n) := if h : b.toNat < n then some ⟨b.toNat, h⟩ else none

/-! ### Configuration (R1, R43, R44) -/

/-- One byte time at a rate code, in XIN periods (R1): 80, 40, 20 and 10 microseconds. -/
def byteTimeAt (rate : Fin 4) : Moment :=
  Config.slowestByteTimeMicroseconds * Config.xinPeriodsPerMicrosecond / 2 ^ rate.val

/-- One bit time at a rate code: one tenth of a byte time (R1). -/
def bitTimeAt (rate : Fin 4) : Moment := byteTimeAt rate / 10

/-- Q in byte times (R44). -/
def quietTime (c : StationConfig) : Nat := (c.cycle + 2) * c.window

/-- SIG (R44). -/
def signature (c : StationConfig) : Byte := byteOf (c.cycle + c.rate.val + c.window + c.replyLimit + 0x3C)

/-- The range check of CONFIGURE over its five parameter bytes (R43). -/
def parseConfig : List Byte → Option StationConfig
  | [s, n, rate, w, r] =>
    if hs : 2 ≤ n.toNat ∧ n.toNat ≤ 32 ∧ s.toNat < n.toNat then
      if hr : rate.toNat < 4 then
        if 4 ≤ w.toNat ∧ w.toNat ≤ 15 ∧ 2 ≤ r.toNat ∧ r.toNat ≤ 15 then
          some
            { station := ⟨s.toNat, by omega⟩, cycle := n.toNat, rate := ⟨rate.toNat, hr⟩, window := w.toNat,
              replyLimit := r.toNat }
        else none
      else none
    else none
  | _ => none

/-- The station number after `x` in the rotation (R23). -/
def nextStation (c : StationConfig) (x : Fin 32) : Fin 32 := Fin.ofNat 32 ((x.val + 1) % c.cycle)

/-! ### Codes -/

/-- The status codes of 12.7. -/
def statusCode : Status → Byte
  | .ok => 0x00
  | .stored => 0x01
  | .full => 0x02
  | .noSpace => 0x03
  | .noMailbox => 0x04
  | .delivered => 0x05
  | .empty => 0x06
  | .homeBusy => 0x07
  | .waitFull => 0x08
  | .expired => 0x09
  | .cancelled => 0x0A
  | .closed => 0x0B
  | .lost => 0x0C
  | .noReply => 0x0D
  | .homeLost => 0x0E
  | .sessionEnd => 0x0F
  | .taken => 0x10
  | .already => 0x11
  | .noSlot => 0x12
  | .tableFull => 0x13
  | .notHome => 0x14
  | .noCursor => 0x15
  | .unknownTag => 0x16
  | .notCancellable => 0x17
  | .nothing => 0x18
  | .notConfigured => 0x19
  | .badCommand => 0x80
  | .badState => 0x81
  | .badLength => 0x82
  | .badParam => 0x83

/-- The codes of the station state (12.3). -/
def stateCode : StationState → Byte
  | .offline => 0
  | .seeking => 1
  | .active => 2
  | .leaving => 3

/-- The codes of the last session-end cause (12.5). -/
def endCauseCode : EndCause → Byte
  | .reset => 0
  | .left => 1
  | .leftUnannounced => 2
  | .duplicate => 3

/-- The codes of the directory state (12.5). -/
def dirStateCode : DirEntry → Byte
  | .free => 0
  | .claiming => 1
  | .homed _ => 2
  | .orphaned _ => 3

/-- The home a directory entry is read out with at station `self` (R104, R125). -/
def dirHome (self : Fin 32) : DirEntry → Byte
  | .free => 0
  | .claiming => byteOf self.val
  | .homed h => byteOf h.val
  | .orphaned h => byteOf h.val

/-- The codes of a roster entry's state (12.5). -/
def presenceCode : Presence → Nat
  | .unknown => 0
  | .present => 1
  | .absent => 2

/-- A roster byte (12.5): the missed-turn count in bits 7 to 4, the state in bits 1 to 0. -/
def rosterByte (e : RosterEntry) : Byte := byteOf (e.missed * 16 + presenceCode e.presence)

/-- The codes of the causes of a STATION_ABSENT notice (12.6). -/
def absenceCode : AbsenceCause → Byte
  | .silent => 1
  | .left => 2

/-- The kind codes of request records (12.6). -/
def requestRecordCode : RequestKind → Byte
  | .put => 0x01
  | .take => 0x02
  | .claim => 0x03
  | .release => 0x04

/-- A completion record as POP COMPLETION returns it (12.6). -/
def recordBytes : Record → List Byte
  | .request k tag st m origin data =>
    [requestRecordCode k, tag, statusCode st, byteOf m.val, byteOf origin.val, byteOf data.length] ++ data
  | .stationAbsent x c => [0x08, byteOf x.val, absenceCode c]
  | .stationPresent x => [0x09, byteOf x.val, 0]
  | .mailboxLost m => [0x0A, byteOf m.val, 0]

/-! ### Commands (12.4, R56, R180) -/

/-- The seventeen commands. -/
inductive Command where
  | configure
  | join
  | leave
  | readStatus
  | openMailbox
  | closeMailbox
  | readDirectoryStart
  | readDirectoryContinue
  | readRoster
  | put
  | take
  | cancel
  | mailboxStatus
  | popCompletion
  | setAttention
  | readCounters
  | clearCounters
  deriving DecidableEq, Repr

/-- The command codes of 12.4. -/
def commandCode : Command → Byte
  | .configure => 0x01
  | .join => 0x02
  | .leave => 0x03
  | .readStatus => 0x04
  | .openMailbox => 0x10
  | .closeMailbox => 0x11
  | .readDirectoryStart => 0x12
  | .readDirectoryContinue => 0x13
  | .readRoster => 0x14
  | .put => 0x20
  | .take => 0x21
  | .cancel => 0x22
  | .mailboxStatus => 0x23
  | .popCompletion => 0x30
  | .setAttention => 0x31
  | .readCounters => 0x32
  | .clearCounters => 0x33

/-- All commands. -/
def allCommands : List Command :=
  [.configure, .join, .leave, .readStatus, .openMailbox, .closeMailbox, .readDirectoryStart, .readDirectoryContinue,
    .readRoster, .put, .take, .cancel, .mailboxStatus, .popCompletion, .setAttention, .readCounters, .clearCounters]

/-- Check 1 of R180: the command a code names, if any. -/
def commandOfCode (code : Byte) : Option Command := allCommands.find? fun c => commandCode c = code

/-- Check 2 of R180: the table of R56. -/
def permitted : Command → StationState → Bool
  | .configure, st => st = .offline
  | .join, st => st = .offline
  | .leave, st => st = .seeking || st = .active
  | .openMailbox, st => st = .seeking || st = .active
  | .closeMailbox, st => st = .seeking || st = .active
  | .put, st => st = .seeking || st = .active
  | .take, st => st = .seeking || st = .active
  | .cancel, st => st = .seeking || st = .active
  | .readStatus, _ => true
  | .readRoster, _ => true
  | .mailboxStatus, _ => true
  | .readDirectoryStart, _ => true
  | .readDirectoryContinue, _ => true
  | .popCompletion, _ => true
  | .setAttention, _ => true
  | .readCounters, _ => true
  | .clearCounters, _ => true

/-- Check 3 of R180: the FIFO holds exactly the command's parameter count; for PUT the second byte gives the data
length. -/
def lengthFits : Command → List Byte → Bool
  | .configure, p => p.length = 5
  | .openMailbox, p => p.length = 2
  | .closeMailbox, p => p.length = 1
  | .put, p =>
    match p with
    | _ :: l :: _ => p.length = 2 + l.toNat
    | _ => false
  | .take, p => p.length = 3
  | .cancel, p => p.length = 1
  | .mailboxStatus, p => p.length = 1
  | .setAttention, p => p.length = 1
  | .join, p => p.length = 0
  | .leave, p => p.length = 0
  | .readStatus, p => p.length = 0
  | .readDirectoryStart, p => p.length = 0
  | .readDirectoryContinue, p => p.length = 0
  | .readRoster, p => p.length = 0
  | .popCompletion, p => p.length = 0
  | .readCounters, p => p.length = 0
  | .clearCounters, p => p.length = 0

/-! ### Items as bytes (12.2) -/

/-- The wire results of a PUT_REPLY. -/
def putResultCode : PutResult → Byte
  | .stored => 0x01
  | .full => 0x02
  | .noSpace => 0x03
  | .noMailbox => 0x04

/-- The wire results of a TAKE_REPLY. -/
def takeResultCode : TakeResult → Byte
  | .noMailbox => 0x04
  | .empty => 0x05
  | .parked => 0x06
  | .waitFull => 0x07
  | .homeBusy => 0x08
  | .expired => 0x09

/-- The wire results of a CANCEL_REPLY. -/
def cancelResultCode : CancelResult → Byte
  | .removed => 0x0A
  | .tooLate => 0x0B
  | .unknown => 0x0C

/-- The verdicts of a DELIVER_ACK. -/
def verdictCode : AckVerdict → Byte
  | .accepted => 0x01
  | .stale => 0x02

/-- The reading of a PUT_REPLY result byte. -/
def putResultOf (b : Byte) : Option PutResult :=
  [PutResult.stored, .full, .noSpace, .noMailbox].find? fun r => putResultCode r = b

/-- The reading of a TAKE_REPLY result byte. -/
def takeResultOf (b : Byte) : Option TakeResult :=
  [TakeResult.noMailbox, .empty, .parked, .waitFull, .homeBusy, .expired].find? fun r => takeResultCode r = b

/-- The reading of a CANCEL_REPLY result byte. -/
def cancelResultOf (b : Byte) : Option CancelResult :=
  [CancelResult.removed, .tooLate, .unknown].find? fun r => cancelResultCode r = b

/-- The reading of a DELIVER_ACK verdict byte. -/
def verdictOf (b : Byte) : Option AckVerdict :=
  [AckVerdict.accepted, .stale].find? fun v => verdictCode v = b

/-- The DEST byte: a station number, or 3Fh for broadcast. -/
def destByte : Dest → Byte
  | .broadcast => 0x3F
  | .station n => byteOf n.val

/-- The reading of a DEST byte (R9). -/
def destOf (b : Byte) : Option Dest :=
  if b = 0x3F then some .broadcast else (below 32 b).map Dest.station

/-- The kind numbers of 12.2. -/
def kindByte : ItemBody → Byte
  | .presence _ => 0x01
  | .farewell => 0x02
  | .claim _ => 0x03
  | .release _ => 0x04
  | .dispute _ => 0x05
  | .put .. => 0x06
  | .putReply .. => 0x07
  | .take .. => 0x08
  | .takeReply .. => 0x09
  | .deliver .. => 0x0A
  | .deliverAck .. => 0x0B
  | .cancel .. => 0x0C
  | .cancelReply .. => 0x0D

/-- The kinds whose DEST is 3Fh (R9). -/
def isBroadcastKind : ItemBody → Bool
  | .presence _ => true
  | .farewell => true
  | .claim _ => true
  | .release _ => true
  | _ => false

/-- Byte `k` of a PRESENCE bitmap holds mailboxes 8k to 8k + 7, bit 0 the lowest (12.2). -/
def bitmapBytes (bitmap : BitVec 64) : List Byte :=
  [bitmap.extractLsb' 0 8, bitmap.extractLsb' 8 8, bitmap.extractLsb' 16 8, bitmap.extractLsb' 24 8,
    bitmap.extractLsb' 32 8, bitmap.extractLsb' 40 8, bitmap.extractLsb' 48 8, bitmap.extractLsb' 56 8]

/-- The fields of an item after DEST and KIND. -/
def fieldBytes : ItemBody → List Byte
  | .presence bitmap => bitmapBytes bitmap
  | .farewell => []
  | .claim m => [byteOf m.val]
  | .release m => [byteOf m.val]
  | .dispute m => [byteOf m.val]
  | .put m tag data => [byteOf m.val, tag, byteOf data.length] ++ data
  | .putReply tag r => [tag, putResultCode r]
  | .take m tag p w => [byteOf m.val, tag, byteOf p.val, w]
  | .takeReply tag r => [tag, takeResultCode r]
  | .deliver tag dseq origin data => [tag, dseq, byteOf origin.val, byteOf data.length] ++ data
  | .deliverAck tag dseq v => [tag, dseq, verdictCode v]
  | .cancel m tag => [byteOf m.val, tag]
  | .cancelReply tag r => [tag, cancelResultCode r]

/-- The bytes of an item. -/
def itemBytes (i : Item) : List Byte := [destByte i.dest, kindByte i.body] ++ fieldBytes i.body

/-- The bytes an item occupies in a payload (chapter 4, table of item sizes). -/
def itemSize : ItemBody → Nat
  | .farewell => 2
  | .claim _ => 3
  | .release _ => 3
  | .dispute _ => 3
  | .putReply .. => 4
  | .takeReply .. => 4
  | .cancelReply .. => 4
  | .cancel .. => 4
  | .deliverAck .. => 5
  | .take .. => 6
  | .presence _ => 10
  | .put _ _ data => 5 + data.length
  | .deliver _ _ _ data => 6 + data.length

/-- The data of a PUT or DELIVER: a length of 1 to 24 and that many bytes, with what follows them (R9). -/
def parseData (l : Byte) (rest : List Byte) : Option (List Byte × List Byte) :=
  if 1 ≤ l.toNat ∧ l.toNat ≤ 24 ∧ l.toNat ≤ rest.length then some (rest.take l.toNat, rest.drop l.toNat) else none

/-- The fields of an item of the given kind number, with the bytes that follow it (R9, 12.2). -/
def parseFields (kind : Byte) (rest : List Byte) : Option (ItemBody × List Byte) :=
  match kind.toNat, rest with
  | 0x01, b0 :: b1 :: b2 :: b3 :: b4 :: b5 :: b6 :: b7 :: t =>
    some (.presence (b7 ++ b6 ++ b5 ++ b4 ++ b3 ++ b2 ++ b1 ++ b0 : BitVec 64), t)
  | 0x02, t => some (.farewell, t)
  | 0x03, m :: t => (below 64 m).map fun m => (.claim m, t)
  | 0x04, m :: t => (below 64 m).map fun m => (.release m, t)
  | 0x05, m :: t => (below 64 m).map fun m => (.dispute m, t)
  | 0x06, m :: tag :: l :: t =>
    (below 64 m).bind fun m => (parseData l t).map fun d => (.put m tag d.1, d.2)
  | 0x07, tag :: r :: t => (putResultOf r).map fun r => (.putReply tag r, t)
  | 0x08, m :: tag :: p :: w :: t =>
    (below 64 m).bind fun m => (below 4 p).map fun p => (.take m tag p w, t)
  | 0x09, tag :: r :: t => (takeResultOf r).map fun r => (.takeReply tag r, t)
  | 0x0A, tag :: dseq :: o :: l :: t =>
    (below 32 o).bind fun o => (parseData l t).map fun d => (.deliver tag dseq o d.1, d.2)
  | 0x0B, tag :: dseq :: v :: t => (verdictOf v).map fun v => (.deliverAck tag dseq v, t)
  | 0x0C, m :: tag :: t => (below 64 m).map fun m => (.cancel m tag, t)
  | 0x0D, tag :: r :: t => (cancelResultOf r).map fun r => (.cancelReply tag r, t)
  | _, _ => none

/-- DEST fits the kind: 3Fh for the broadcast kinds, a station number for the others (R9). -/
def destFits (d : Dest) (b : ItemBody) : Bool :=
  match d with
  | .broadcast => isBroadcastKind b
  | .station _ => !isBroadcastKind b

/-- One item at the front of the payload (R9). -/
def parseItem : List Byte → Option (Item × List Byte)
  | d :: k :: rest =>
    (destOf d).bind fun dest => (parseFields k rest).bind fun r =>
      if destFits dest r.1 then some ({ dest := dest, body := r.1 }, r.2) else none
  | _ => none

/-- The item parse (R9): `count` items that use the payload up exactly. -/
def parseItems : Nat → List Byte → Option (List Item)
  | 0, payload => if payload = [] then some [] else none
  | n + 1, payload => (parseItem payload).bind fun r => (parseItems n r.2).map fun is => r.1 :: is

/-! ### CRC and frames (R5, R6, R65) -/

/-- One bit of the CRC register with polynomial 1021h. -/
def crcBit (crc : Word) : Word := if crc.msb then (crc <<< 1) ^^^ 0x1021#16 else crc <<< 1

/-- One byte into the CRC register, most significant bit first. -/
def crcByte (crc : Word) (b : Byte) : Word := Nat.repeat crcBit 8 (crc ^^^ (b.setWidth 16 <<< 8))

/-- The CRC over a list of bytes: start FFFFh, not inverted (R6). -/
def crc16 (bytes : List Byte) : Word := bytes.foldl crcByte 0xFFFF#16

/-- The payload of a list of items. -/
def payloadBytes (items : List Item) : List Byte := (items.map itemBytes).flatten

/-- A frame without its CRC (R65). -/
def frameBytes (c : StationConfig) (items : List Item) : List Byte :=
  [0xA7, signature c, byteOf c.station.val, byteOf items.length, byteOf (payloadBytes items).length] ++ payloadBytes items

/-- The CRC of a frame covers it from SIG through the last payload byte, and travels high byte first (R6). -/
def withCrc (frame : List Byte) : List Byte := frame ++ wordBytes (crc16 frame.tail)

/-- The header fields of a complete frame, its payload, and its two CRC characters (R5). -/
structure Frame where
  sig : Byte
  sender : Byte
  count : Byte
  payload : List Byte
  crc : List Byte
  deriving DecidableEq, Repr

/-- The fields of the assembly buffer once its counted length is complete (R5). -/
def splitFrame : List Byte → Option Frame
  | _ :: sig :: sender :: count :: len :: rest =>
    some { sig := sig, sender := sender, count := count, payload := rest.take len.toNat, crc := rest.drop len.toNat }
  | _ => none

/-- The range check of R5 over COUNT and LENGTH. -/
def rangeFits (count len : Byte) : Bool :=
  1 ≤ count.toNat && count.toNat ≤ 4 && 2 ≤ len.toNat && len.toNat ≤ 64

end Sys2Proof.Machine
end

