-- ==== Sys2Proof/WellFormed.lean ====
section
/-! DEFINITION. Which commands are well formed: the operands that the row's rule can give it. -/

namespace Sys2Proof

/-- A character's own bounds: a faulty character returns to idle no earlier than its start bit begins (R1, R2). -/
def LineChar.wellFormed : LineChar → Moment → Bool
  | .data _, _ => true
  | .faulty ends, start => start ≤ ends

/-- A command is well formed: BAD_COMMAND carries a code that is not in the command table (R180), and a character on the
line ends no earlier than it begins. -/
def Instr.wellFormed : Instr → Bool
  | .badCommand code => (Machine.commandOfCode code).isNone
  | .activityOpens ch start => ch.wellFormed start
  | .characterReceived ch start => ch.wellFormed start
  | .frameAssemblyComplete ch start => ch.wellFormed start
  | _ => true

end Sys2Proof
end

