-- ==== Sys2Proof/Machine/Flags.lean ====
section
/-! DEFINITION. The flags of the Local Port: the fourteen counters and how each rises, the latches, attention, the status
byte, and the two output pins TXE and ATTN# (R178, R181, R184, R189 to R191). -/

namespace Sys2Proof.Machine

/-! ### Counters (R18, R150, R191) -/

/-- A counter rises by one and stays at 65535. -/
def satInc (w : Word) : Word := if w = 0xFFFF#16 then w else w + 1#16

/-- The state with its Local Port changed. -/
def State.withPort (s : State) (p : LocalPort) : State := { s with port := p }

/-- The state with its counters changed. -/
def State.withCounters (s : State) (c : Counters) : State := s.withPort { s.port with counters := c }

/-- An own frame's echo is good (R15). -/
def countFrameSent (s : State) : State :=
  s.withCounters { s.port.counters with framesSent := satInc s.port.counters.framesSent }

/-- A GOOD verdict for a frame of another station (R10). -/
def countGoodFrame (s : State) : State :=
  s.withCounters { s.port.counters with goodFrames := satInc s.port.counters.goodFrames }

/-- A CORRUPT verdict (R10). -/
def countCorrupt (s : State) : State :=
  s.withCounters { s.port.counters with corruptActivity := satInc s.port.counters.corruptActivity }

/-- A failed echo comparison (R16). -/
def countCollision (s : State) : State :=
  s.withCounters { s.port.counters with collisions := satInc s.port.counters.collisions }

/-- A turn slip (R26). -/
def countTurnSlip (s : State) : State :=
  s.withCounters { s.port.counters with turnSlips := satInc s.port.counters.turnSlips }

/-- A FOREIGN verdict (R10). -/
def countForeign (s : State) : State :=
  s.withCounters { s.port.counters with foreignFrames := satInc s.port.counters.foreignFrames }

/-- Synchronisation regained by quiet time (R32). -/
def countQuietResync (s : State) : State :=
  s.withCounters { s.port.counters with quietResyncs := satInc s.port.counters.quietResyncs }

/-- A received item is shed (R71). -/
def countShed (s : State) : State :=
  s.withCounters { s.port.counters with itemsShed := satInc s.port.counters.itemsShed }

/-- A reply deadline re-queues an item (R159). -/
def countRequestRetransmission (s : State) : State :=
  s.withCounters { s.port.counters with requestRetransmissions := satInc s.port.counters.requestRetransmissions }

/-- A SENT delivery slot is re-queued (R141). -/
def countDeliveryRetransmission (s : State) : State :=
  s.withCounters { s.port.counters with deliveryRetransmissions := satInc s.port.counters.deliveryRetransmissions }

/-- A STALE acknowledgement matches a slot (R143). -/
def countStaleAck (s : State) : State :=
  s.withCounters { s.port.counters with staleAcks := satInc s.port.counters.staleAcks }

/-- A directory conflict (R101). -/
def countConflict (s : State) : State :=
  s.withCounters { s.port.counters with directoryConflicts := satInc s.port.counters.directoryConflicts }

/-- A notice finds the completion queue full (R184). -/
def countNoticeLost (s : State) : State :=
  s.withCounters { s.port.counters with noticesLost := satInc s.port.counters.noticesLost }

/-- A message goes back from a delivery slot to the head of its mailbox (R150). -/
def countMessageReturned (s : State) : State :=
  s.withCounters { s.port.counters with messagesReturned := satInc s.port.counters.messagesReturned }

/-- The fourteen counters as READ COUNTERS returns them, two bytes each in the order of R191. -/
def counterBytes (c : Counters) : List Byte :=
  wordBytes c.framesSent ++ wordBytes c.goodFrames ++ wordBytes c.corruptActivity ++ wordBytes c.collisions ++
  wordBytes c.turnSlips ++ wordBytes c.foreignFrames ++ wordBytes c.quietResyncs ++ wordBytes c.itemsShed ++
  wordBytes c.requestRetransmissions ++ wordBytes c.deliveryRetransmissions ++ wordBytes c.staleAcks ++
  wordBytes c.directoryConflicts ++ wordBytes c.noticesLost ++ wordBytes c.messagesReturned

/-! ### BUSY and the latches -/

/-- BUSY: a command is being taken (R179). -/
def LocalPort.busy (p : LocalPort) : Bool := p.taking.isSome

/-- The overrun latch is set (R181). -/
def setOverrun (s : State) : State := s.withPort { s.port with overrun := true }

/-- The notice-lost latch is set (R184). -/
def setNoticeLost (s : State) : State := s.withPort { s.port with noticeLost := true }

/-- A change of station state, with the state-change latch set at that moment (R42). -/
def enterState (st : StationState) (s : State) : State :=
  { s with control := { s.control with state := st }, port := { s.port with stateChange := true } }

/-! ### Attention, the status byte and the output pins -/

/-- Attention (R190). -/
def attention (s : State) : Bool :=
  (s.port.maskCQ && !s.port.completions.isEmpty) || (s.port.maskST && s.port.stateChange)

/-- The level of ATTN#: low (false) while attention is asserted (R190). -/
def attnPin (s : State) : Bool := !attention s

/-- TXE: asserted while the part sends a frame or a break (R14, R16). -/
def txePin (s : State) : Bool := s.line.tx ≠ .off

/-- The byte a read of the command/status location returns (R178, 12.3). -/
def statusByte (s : State) : Byte :=
  byteOf ((if s.port.busy then 0x80 else 0) + (if s.port.readPointer < s.port.result.length then 0x40 else 0) +
    (if s.port.completions.isEmpty then 0 else 0x20) + (if attention s then 0x10 else 0) +
    (if s.port.overrun then 0x08 else 0) + (if s.port.noticeLost then 0x04 else 0) + (stateCode s.control.state).toNat)

end Sys2Proof.Machine
end

