-- ==== Sys2Proof/Machine/Ops.lean ====
section
/-! DEFINITION. The named reads and updates of the state that several blocks share: the configuration in force, the silence
measurement, the completion queue, the item queue with enqueueing and withdrawal, and the records of the request table and
of the Mailbox Store. -/

namespace Sys2Proof.Machine

/-! ### Configuration in force -/

/-- S; 0 while unconfigured (R55, R57). -/
def self (s : State) : Fin 32 := (s.control.config.map StationConfig.station).getD 0

/-- N; 0 while unconfigured. -/
def cycleLength (s : State) : Nat := (s.control.config.map StationConfig.cycle).getD 0

/-- R; 0 while unconfigured. -/
def replyLimit (s : State) : Nat := (s.control.config.map StationConfig.replyLimit).getD 0

/-- W; 0 while unconfigured. -/
def turnWindow (s : State) : Nat := (s.control.config.map StationConfig.window).getD 0

/-- Q in byte times; absent, here 0, while unconfigured. -/
def quietLimit (s : State) : Nat := (s.control.config.map quietTime).getD 0

/-- One byte time at the configured rate; 0 while unconfigured. -/
def byteTime (s : State) : Moment := (s.control.config.map fun c => byteTimeAt c.rate).getD 0

/-- One bit time at the configured rate; 0 while unconfigured. -/
def bitTime (s : State) : Moment := (s.control.config.map fun c => bitTimeAt c.rate).getD 0

/-- The station number after `x`. -/
def successor (s : State) (x : Fin 32) : Fin 32 := (s.control.config.map fun c => nextStation c x).getD 0

/-- A deadline `n` own turns ahead of the count (R35). -/
def deadlineIn (n : Nat) (s : State) : Word := s.tracker.ownTurnCount + BitVec.ofNat 16 n

/-! ### The line as the other blocks read it -/

/-- The Line Unit watches the line and the Turn Tracker runs (R3, R21). -/
def joined (s : State) : Bool := s.control.state ≠ .offline

/-- The quiet reference: the end of last activity, or the moment of JOIN while that is none (R27, R32). -/
def quietReference (s : State) : Option Moment := s.line.endOfLast.or s.tracker.joinedAt

/-- The moment the silence from the quiet reference reaches Q (R27). -/
def quietMoment (s : State) : Option Moment := (quietReference s).map fun q => q + quietLimit s * byteTime s

/-- The moment a window ends (R25). -/
def lapseMoment (r : Rotation) (s : State) : Moment := r.opened + turnWindow s * byteTime s

/-- At least one byte time of silence precedes the moment `start` (R4). -/
def silenceBefore (start : Moment) (s : State) : Bool :=
  match quietReference s with
  | some q => q + byteTime s ≤ start
  | none => false

/-- A frame has been offered and its first character has not begun (R13). -/
def frameWaiting (s : State) : Bool := s.line.tx = .off && !s.line.txBuffer.isEmpty

/-! ### Updates of one block -/

/-- The state with its item queue changed. -/
def State.withQueue (s : State) (q : ItemQueue) : State := { s with queue := q }

/-- The state with its Mailbox Store changed. -/
def State.withStore (s : State) (m : MailboxStore) : State := { s with store := m }

/-- The state with its Request Engine changed. -/
def State.withEngine (s : State) (e : RequestEngine) : State := { s with engine := e }

/-- The state with its Line Unit changed. -/
def State.withLine (s : State) (l : LineUnit) : State := { s with line := l }

/-- The state with its Turn Tracker changed. -/
def State.withTracker (s : State) (t : TurnTracker) : State := { s with tracker := t }

/-! ### The completion queue (R182, R184) -/

/-- The completion queue holds fewer than 16 records. -/
def completionRoom (s : State) : Bool := s.port.completions.length < 16

/-- A record enters at the tail. -/
def appendRecord (r : Record) (s : State) : State :=
  s.withPort { s.port with completions := s.port.completions ++ [r] }

/-- A notice is raised (R184). -/
def raiseNotice (r : Record) (s : State) : State :=
  if completionRoom s then appendRecord r s else setNoticeLost (countNoticeLost s)

/-! ### The item queue (R58 to R63) -/

/-- The free places of the class A list. -/
def freePlaces (s : State) : Nat := 24 - s.queue.classA.length

/-- The class A list holds fewer than 24 items. -/
def answerRoom (s : State) : Bool := 0 < freePlaces s

/-- A new item record. -/
def newItem (i : Item) (o : Originator) : QueuedItem := { item := i, originator := o, onAir := false, withdrawn := false }

/-- A class A item is appended if the list has a free place, and refused otherwise (R59). -/
def enqueueA (i : Item) (o : Originator) (s : State) : State :=
  if answerRoom s then s.withQueue { s.queue with classA := s.queue.classA ++ [newItem i o] } else s

/-- An answer without an originator to station `x`. -/
def answer (x : Fin 32) (b : ItemBody) (s : State) : State := enqueueA { dest := .station x, body := b } .nobody s

/-- A class B item is always taken (R59). -/
def enqueueB (i : Item) (o : Originator) (s : State) : State :=
  s.withQueue { s.queue with classB := s.queue.classB ++ [newItem i o] }

/-- The list after a withdrawal that names `o`: its item not on air leaves, one on air is marked (R61, R63). -/
def withdrawFrom (o : Originator) (l : List QueuedItem) : List QueuedItem :=
  (l.filter fun q => !(q.originator = o && !q.onAir)).map fun q =>
    if q.originator = o then { q with withdrawn := true } else q

/-- A request entry's item is withdrawn. -/
def withdrawEntry (i : Fin 16) (s : State) : State :=
  s.withQueue { s.queue with classB := withdrawFrom (.entry i) s.queue.classB }

/-- A delivery slot's DELIVER is withdrawn. -/
def withdrawDelivery (d : Fin 8) (s : State) : State :=
  s.withQueue { s.queue with classA := withdrawFrom (.delivery d) s.queue.classA }

/-- The entry's item is on air and not withdrawn: the answer to the Request Engine's question of R62. -/
def itemOnAir (i : Fin 16) (s : State) : Bool :=
  s.queue.classB.any fun q => q.originator = .entry i && q.onAir && !q.withdrawn

/-! ### The request table -/

/-- Request entry `i`. -/
def entry (i : Fin 16) (s : State) : Entry := look s.engine.entries i

/-- Request entry `i` replaced. -/
def setEntry (i : Fin 16) (e : Entry) (s : State) : State :=
  s.withEngine { s.engine with entries := put s.engine.entries i e }

/-- The tag of slot `i` with generation `g`: generation × 16 + slot (R152). -/
def tagOf (g : BitVec 4) (i : Fin 16) : Byte := g ++ BitVec.ofNat 4 i.val

/-- The tag of entry `i`. -/
def entryTag (i : Fin 16) (s : State) : Byte := tagOf (entry i s).generation i

/-- The slot a tag names (R160). -/
def slotOfTag (t : Byte) : Fin 16 := ⟨t.toNat % 16, Nat.mod_lt _ (by decide)⟩

/-- The lowest-numbered FREE entry (R153). -/
def freeEntry (s : State) : Option (Fin 16) := (List.finRange 16).find? fun i => (entry i s).state = .free

/-- An entry is live while it is in use and not HELD (R152). -/
def isLive (e : Entry) : Bool := e.state ≠ .free && e.state ≠ .held

/-- The number of entries that satisfy `p`. -/
def countEntries (p : Entry → Bool) (s : State) : Nat := (List.finRange 16).countP fun i => p (entry i s)

/-- The states in which an entry holds an open exchange (R156). -/
def isOpenState : EntryState → Bool
  | .queued => true
  | .sent => true
  | .cancelQueued => true
  | .cancelSent => true
  | _ => false

/-- An exchange with home `h` is open. -/
def exchangeOpen (h : Fin 32) (s : State) : Bool :=
  (List.finRange 16).any fun i => (entry i s).home = some h && isOpenState (entry i s).state

/-- The waiting order of home `h`. -/
def waitingOrder (h : Fin 32) (s : State) : List (Fin 16) := look s.engine.waiting h

/-- The waiting order of home `h` replaced. -/
def setWaiting (h : Fin 32) (l : List (Fin 16)) (s : State) : State :=
  s.withEngine { s.engine with waiting := put s.engine.waiting h l }

/-- Entry `i` joins the tail of the waiting order of `h` (R156). -/
def joinWaiting (i : Fin 16) (h : Fin 32) (s : State) : State := setWaiting h (waitingOrder h s ++ [i]) s

/-- Entry `i` leaves the waiting order of its home, where it stands in one. -/
def leaveWaiting (i : Fin 16) (s : State) : State :=
  match (entry i s).home with
  | some h => setWaiting h ((waitingOrder h s).filter fun j => j ≠ i) s
  | none => s

/-! ### The directory -/

/-- Directory entry `m`. -/
def dirEntry (m : Fin 64) (s : State) : DirEntry := look s.directory.entries m

/-- Directory entry `m` replaced. -/
def setDirEntry (m : Fin 64) (e : DirEntry) (s : State) : State :=
  { s with directory := { s.directory with entries := put s.directory.entries m e } }

/-! ### The Mailbox Store -/

/-- Hosted slot `h`. -/
def hostedSlot (h : Fin 16) (s : State) : HostedSlot := look s.store.hosted h

/-- Hosted slot `h` replaced. -/
def setHosted (h : Fin 16) (x : HostedSlot) (s : State) : State :=
  s.withStore { s.store with hosted := put s.store.hosted h x }

/-- The hosted slot that is OPEN with mailbox `m`. -/
def openSlotOf (m : Fin 64) (s : State) : Option (Fin 16) :=
  (List.finRange 16).find? fun h => (hostedSlot h s).state = .opened && (hostedSlot h s).mailbox = m

/-- The hosted slot that is CLAIMING or OPEN with mailbox `m`. -/
def usedSlotOf (m : Fin 64) (s : State) : Option (Fin 16) :=
  (List.finRange 16).find? fun h => (hostedSlot h s).state ≠ .free && (hostedSlot h s).mailbox = m

/-- The lowest-numbered FREE hosted slot (R89). -/
def freeHosted (s : State) : Option (Fin 16) := (List.finRange 16).find? fun h => (hostedSlot h s).state = .free

/-- The hosted count of READ STATUS (R55). -/
def hostedCount (s : State) : Nat := (List.finRange 16).countP fun h => (hostedSlot h s).state ≠ .free

/-- Delivery slot `d`; none while FREE. -/
def delivery (d : Fin 8) (s : State) : Option Delivery := look s.store.deliveries d

/-- Delivery slot `d` replaced. -/
def setDelivery (d : Fin 8) (x : Option Delivery) (s : State) : State :=
  s.withStore { s.store with deliveries := put s.store.deliveries d x }

/-- The lowest-numbered FREE delivery slot (R137). -/
def freeDeliverySlot (s : State) : Option (Fin 8) := (List.finRange 8).find? fun d => (delivery d s).isNone

/-- The delivery count of hosted slot `h` (chapter 7, hosted slot fields). -/
def deliveryCount (h : Fin 16) (s : State) : Nat :=
  (List.finRange 8).countP fun d => ((delivery d s).map fun x => decide (x.hosted = h)).getD false

/-- The load of hosted slot `h` (R111). -/
def load (h : Fin 16) (s : State) : Nat := (hostedSlot h s).messages.length + deliveryCount h s

/-- Message cell `c`; none while free. -/
def cell (c : Fin 64) (s : State) : Option Message := look s.store.pool c

/-- Message cell `c` replaced. -/
def setCell (c : Fin 64) (x : Option Message) (s : State) : State :=
  s.withStore { s.store with pool := put s.store.pool c x }

/-- The lowest-numbered free cell (R112). -/
def freeCell (s : State) : Option (Fin 64) := (List.finRange 64).find? fun c => (cell c s).isNone

/-- Waiter record `w`; none while not in use. -/
def waiter (w : Fin 32) (s : State) : Option Waiter := look s.store.waiters w

/-- Waiter record `w` replaced. -/
def setWaiter (w : Fin 32) (x : Option Waiter) (s : State) : State :=
  s.withStore { s.store with waiters := put s.store.waiters w x }

/-- The lowest-numbered waiter record not in use (R130). -/
def freeWaiter (s : State) : Option (Fin 32) := (List.finRange 32).find? fun w => (waiter w s).isNone

/-- The waiter record of requester `x` with tag `t` (R133, R146). -/
def waiterOf (x : Fin 32) (t : Byte) (s : State) : Option (Fin 32) :=
  (List.finRange 32).find? fun w => ((waiter w s).map fun r => r.requester = x && r.tag = t).getD false

/-- The delivery slot addressed to station `x` with tag `t` (R133, R146). -/
def deliveryTo (x : Fin 32) (t : Byte) (s : State) : Option (Fin 8) :=
  (List.finRange 8).find? fun d => ((delivery d s).map fun r => r.dest = x && r.tag = t).getD false

/-- Exchange memory entry `x`; none while invalid. -/
def exchange (x : Fin 32) (s : State) : Option Exchange := look s.store.exchange x

/-- Exchange memory entry `x` replaced. -/
def setExchange (x : Fin 32) (e : Option Exchange) (s : State) : State :=
  s.withStore { s.store with exchange := put s.store.exchange x e }

/-- Exchange memory entry `x` is written for a request taken as new (R114). -/
def remember (x : Fin 32) (t : Byte) (r : Remembered) (s : State) : State := setExchange x (some { tag := t, last := r }) s

/-- Exchange memory entry `x` refers to a waiter or delivery slot of tag `t` through the outcome `o` (R122, chapter 8):
it is valid, names a TAKE with that tag, and remembers `o`. -/
def refersTo (x : Fin 32) (t : Byte) (o : TakeOutcome) (s : State) : Bool :=
  exchange x s = some { tag := t, last := .take o }

/-- The remembered outcome `o` of entry `x` becomes `o'` where the entry refers to tag `t` through `o`. -/
def revise (x : Fin 32) (t : Byte) (o o' : TakeOutcome) (s : State) : State :=
  if refersTo x t o s then remember x t (.take o') s else s

/-! ### A fold over table places in ascending order -/

/-- An operation at each of the places of a table, lowest number first. -/
def forEach {n : Nat} (f : Fin n → State → State) (s : State) : State := (List.finRange n).foldl (fun s i => f i s) s

end Sys2Proof.Machine
end

