-- ==== Sys2Proof/Machine/Engine.lean ====
section
/-! DEFINITION. The Request Engine (chapter 9): allocation, the request items, finishing and the held list, promotion,
sending and retransmission, cancelling, what comes back from a home, and the loss of a mailbox or a home. -/

namespace Sys2Proof.Machine

/-! ### Items of an entry -/

/-- The request item of an entry in slot `i`, built from the entry (R59, R154, R155, R171). -/
def requestItem (i : Fin 16) (e : Entry) : Item :=
  let tag := tagOf e.generation i
  match e.kind with
  | .put => { dest := .station (e.home.getD 0), body := .put e.mailbox tag e.data }
  | .take => { dest := .station (e.home.getD 0), body := .take e.mailbox tag e.priority e.wait }
  | .claim => { dest := .broadcast, body := .claim e.mailbox }
  | .release => { dest := .broadcast, body := .release e.mailbox }

/-- The CANCEL item of an entry in slot `i` (R163). -/
def cancelItem (i : Fin 16) (e : Entry) : Item :=
  { dest := .station (e.home.getD 0), body := .cancel e.mailbox (tagOf e.generation i) }

/-- Entry `i` becomes QUEUED with its request item at the tail of the class B list. -/
def queueRequest (i : Fin 16) (s : State) : State :=
  enqueueB (requestItem i (entry i s)) (.entry i) (setEntry i { entry i s with state := .queued, deadline := none } s)

/-- Entry `i` becomes CANCEL_QUEUED with its CANCEL item at the tail of the class B list. -/
def queueCancel (i : Fin 16) (s : State) : State :=
  enqueueB (cancelItem i (entry i s)) (.entry i)
    (setEntry i { entry i s with state := .cancelQueued, deadline := none } s)

/-! ### Finishing (R173, R174) -/

/-- The record an entry in slot `i` finishes with (R173): origin, length and data stand only in a TAKE_DONE with
DELIVERED. -/
def recordOf (i : Fin 16) (e : Entry) (st : Status) : Record :=
  .request e.kind (tagOf e.generation i) st e.mailbox (if st = .delivered then e.result.origin else 0)
    (if st = .delivered then e.result.data else [])

/-- Entry `i` becomes FREE with its generation raised (R153). -/
def freeTheEntry (i : Fin 16) (s : State) : State := setEntry i (Entry.blank ((entry i s).generation + 1)) s

/-- The result area of a finished entry. -/
def finishedResult (e : Entry) (st : Status) : ResultArea :=
  { status := some st, origin := if st = .delivered then e.result.origin else 0,
    data := if st = .delivered then e.result.data else [] }

/-- Entry `i` becomes HELD at the tail of the held list, its result area keeping the record's contents (R173). -/
def holdEntry (i : Fin 16) (st : Status) (s : State) : State :=
  let e := entry i s
  let s := setEntry i { e with state := .held, deadline := none, result := finishedResult e st } s
  s.withEngine { s.engine with held := s.engine.held ++ [i] }

/-- Entry `i` finishes with status `st` (R173). Its queued item is withdrawn and it leaves the waiting order. -/
def finish (i : Fin 16) (st : Status) (s : State) : State :=
  let s := leaveWaiting i (withdrawEntry i s)
  if completionRoom s then freeTheEntry i (appendRecord (recordOf i (entry i s) st) s) else holdEntry i st s

/-- The head of the held list moves into the freed place of the completion queue (R174). -/
def moveHeldIn (s : State) : State :=
  match s.engine.held with
  | [] => s
  | i :: rest =>
    let s := s.withEngine { s.engine with held := rest }
    freeTheEntry i (appendRecord (recordOf i (entry i s) ((entry i s).result.status.getD .ok)) s)

/-! ### Promotion (R157) -/

/-- A waiting entry that is promoted queues its item. -/
def promoteEntry (i : Fin 16) (s : State) : State :=
  if (entry i s).state = .cancelWaiting then
    queueCancel i (setEntry i { entry i s with attempts := 0 } s)
  else queueRequest i s

/-- The head of the waiting order of `h` is promoted, if the order is not empty and no exchange with `h` is open. -/
def promote (h : Fin 32) (s : State) : State :=
  match waitingOrder h s with
  | [] => s
  | i :: rest => if exchangeOpen h s then s else promoteEntry i (setWaiting h rest s)

/-- Promotion for the home of an entry, where it has one. -/
def promoteFor (home : Option (Fin 32)) (s : State) : State :=
  match home with
  | some h => promote h s
  | none => s

/-- Entry `i` finishes, and promotion is looked at for its home when that has been taken in full. -/
def finishAndPromote (i : Fin 16) (st : Status) (s : State) : State := promoteFor (entry i s).home (finish i st s)

/-! ### New requests (R154, R155, R171) -/

/-- The entry a command allocates in slot `i` (R153). -/
def newEntry (i : Fin 16) (kind : RequestKind) (m : Fin 64) (home : Option (Fin 32)) (s : State) : Entry :=
  { Entry.blank (entry i s).generation with kind := kind, mailbox := m, home := home }

/-- A new entry with home `h` becomes QUEUED with its item, or WAITING behind an open exchange (R154). -/
def startRequest (i : Fin 16) (h : Fin 32) (e : Entry) (s : State) : State :=
  if exchangeOpen h s then joinWaiting i h (setEntry i { e with state := .waiting } s)
  else queueRequest i (setEntry i e s)

/-- A remote put (R154). -/
def remotePut (i : Fin 16) (h : Fin 32) (m : Fin 64) (data : List Byte) (s : State) : State :=
  startRequest i h { newEntry i .put m (some h) s with data := data } s

/-- A remote take (R155). -/
def remoteTake (i : Fin 16) (h : Fin 32) (m : Fin 64) (p : Fin 4) (w : Byte) (s : State) : State :=
  startRequest i h { newEntry i .take m (some h) s with priority := p, wait := w } s

/-- A CLAIM or RELEASE entry, directly in QUEUED with its broadcast item (R171). -/
def broadcastRequest (i : Fin 16) (kind : RequestKind) (m : Fin 64) (s : State) : State :=
  queueRequest i (setEntry i (newEntry i kind m none s) s)

/-- The CLAIM or RELEASE entry of mailbox `m` in QUEUED (R171). -/
def broadcastEntry (kind : RequestKind) (m : Fin 64) (s : State) : Option (Fin 16) :=
  (List.finRange 16).find? fun i =>
    (entry i s).kind = kind && (entry i s).mailbox = m && (entry i s).state = .queued

/-- The CLAIM or RELEASE entry of mailbox `m` finishes (R90, R92, R94). -/
def finishBroadcast (kind : RequestKind) (m : Fin 64) (st : Status) (s : State) : State :=
  match broadcastEntry kind m s with
  | some i => finish i st s
  | none => s

/-! ### Sending, retransmission and deadlines (R158, R159, R163, R164, R166) -/

/-- Entry `i` is told "sent" (R158). -/
def entrySent (i : Fin 16) (s : State) : State :=
  let e := entry i s
  match e.state, e.kind with
  | .queued, .claim => s
  | .queued, .release => s
  | .queued, _ => setEntry i { e with state := .sent, deadline := some (deadlineIn (replyLimit s) s) } s
  | .cancelQueued, _ => setEntry i { e with state := .cancelSent, deadline := some (deadlineIn (replyLimit s) s) } s
  | _, _ => s

/-- The reply deadline of entry `i` acts (R159). -/
def replyDeadline (i : Fin 16) (s : State) : State :=
  let e := entry i s
  if e.attempts < 3 then
    let s := countRequestRetransmission (setEntry i { e with attempts := e.attempts + 1 } s)
    if e.state = .cancelSent then queueCancel i s else queueRequest i s
  else finishAndPromote i .noReply s

/-- A parked take begins cancelling (R163). -/
def beginCancel (i : Fin 16) (cause : CancelCause) (s : State) : State :=
  let e := { entry i s with attempts := 0, deadline := none, cancelCause := cause }
  match e.home with
  | some h =>
    if exchangeOpen h s then joinWaiting i h (setEntry i { e with state := .cancelWaiting } s)
    else queueCancel i (setEntry i e s)
  | none => s

/-- The late deadline of entry `i` acts (R164). -/
def lateDeadline (i : Fin 16) (s : State) : State := finishAndPromote i .noReply s

/-- The deadline of entry `i` is reached at the present count (R35). -/
def entryDue (i : Fin 16) (s : State) : Bool := (entry i s).deadline = some s.tracker.ownTurnCount

/-- The lowest-numbered entry whose deadline is reached (R166). -/
def dueEntry (s : State) : Option (Fin 16) := (List.finRange 16).find? fun i => entryDue i s

/-- The deadline of entry `i` acts, by the entry's state, if it is reached (R166). -/
def actOnEntry (i : Fin 16) (s : State) : State :=
  if entryDue i s then
    match (entry i s).state with
    | .sent => replyDeadline i s
    | .cancelSent => replyDeadline i s
    | .parked => beginCancel i .backstopCause s
    | .late => lateDeadline i s
    | _ => s
  else s

/-! ### What comes back (R160 to R162, R164) -/

/-- A state in which the entry's request has gone out and no reply has been taken: SENT, or QUEUED after an attempt. -/
def awaitsReply (e : Entry) : Bool := e.state = .sent || (e.state = .queued && 0 < e.attempts)

/-- CANCEL_SENT, or CANCEL_QUEUED after an attempt. -/
def awaitsCancelReply (e : Entry) : Bool := e.state = .cancelSent || (e.state = .cancelQueued && 0 < e.attempts)

/-- The states in which a take is being cancelled. -/
def isCancelState (e : Entry) : Bool := e.state = .cancelWaiting || e.state = .cancelQueued || e.state = .cancelSent

/-- The entry is in use with tag `t`, home `x` and the kind given (R160). -/
def entryMatches (x : Fin 32) (t : Byte) (kind : RequestKind) (s : State) : Bool :=
  let e := entry (slotOfTag t) s
  e.state ≠ .free && entryTag (slotOfTag t) s = t && e.home = some x && e.kind = kind

/-- The finishing status of a PUT_REPLY result. -/
def putStatus : PutResult → Status
  | .stored => .stored
  | .full => .full
  | .noSpace => .noSpace
  | .noMailbox => .noMailbox

/-- A PUT_REPLY from `x` (R161). -/
def takePutReply (x : Fin 32) (t : Byte) (r : PutResult) (s : State) : State :=
  if entryMatches x t .put s && awaitsReply (entry (slotOfTag t) s) then finishAndPromote (slotOfTag t) (putStatus r) s
  else s

/-- The backstop of a take that parks (R161): count + wait + R + 2, or none for a wait of 255. -/
def backstopOf (w : Byte) (s : State) : Option Word :=
  if w = 255#8 then none else some (deadlineIn (w.toNat + replyLimit s + 2) s)

/-- A PARKED reply taken by entry `i` (R161): its queued item is withdrawn, and the cancel-requested flag decides. -/
def takeParked (i : Fin 16) (s : State) : State :=
  let s := withdrawEntry i s
  let e := entry i s
  if e.cancelRequested then
    queueCancel i (setEntry i { e with attempts := 0, cancelCause := .localCause } s)
  else promoteFor e.home (setEntry i { e with state := .parked, deadline := backstopOf e.wait s } s)

/-- A TAKE_REPLY from `x` (R161). -/
def takeTakeReply (x : Fin 32) (t : Byte) (r : TakeResult) (s : State) : State :=
  let i := slotOfTag t
  if entryMatches x t .take s then
    match r with
    | .parked => if awaitsReply (entry i s) then takeParked i s else s
    | .empty => if awaitsReply (entry i s) then finishAndPromote i .empty s else s
    | .noMailbox => if awaitsReply (entry i s) then finishAndPromote i .noMailbox s else s
    | .waitFull => if awaitsReply (entry i s) then finishAndPromote i .waitFull s else s
    | .homeBusy => if awaitsReply (entry i s) then finishAndPromote i .homeBusy s else s
    | .expired =>
      if awaitsReply (entry i s) || (entry i s).state = .parked || isCancelState (entry i s) then
        finishAndPromote i .expired s
      else s
  else s

/-- A CANCEL_REPLY from `x` (R164). -/
def takeCancelReply (x : Fin 32) (t : Byte) (r : CancelResult) (s : State) : State :=
  let i := slotOfTag t
  if entryMatches x t .take s && awaitsCancelReply (entry i s) then
    match r with
    | .tooLate =>
      let s := withdrawEntry i s
      promoteFor (entry i s).home
        (setEntry i { entry i s with state := .late, deadline := some (deadlineIn (4 * replyLimit s + 4) s) } s)
    | _ => finishAndPromote i (if (entry i s).cancelCause = .localCause then .cancelled else .expired) s
  else s

/-- The entry takes a DELIVER in this state (R162). -/
def acceptsDeliver (e : Entry) : Bool :=
  awaitsReply e || e.state = .parked || isCancelState e || e.state = .late

/-- A DELIVER from `x` (R162): shed, accepted by a live matching take, or answered STALE. -/
def takeDeliver (x : Fin 32) (t dseq : Byte) (origin : Fin 32) (data : List Byte) (s : State) : State :=
  let i := slotOfTag t
  if !answerRoom s then countShed s
  else if entryMatches x t .take s && acceptsDeliver (entry i s) then
    let home := (entry i s).home
    let s := setEntry i { entry i s with result := { status := none, origin := origin, data := data } } s
    promoteFor home (answer x (.deliverAck t dseq .accepted) (finish i .delivered s))
  else answer x (.deliverAck t dseq .stale) s

/-! ### A mailbox or a home disappears (R168, R169) -/

/-- What a mailbox-gone event does to entry `i` (R168). -/
def goneAt (m : Fin 64) (h : Fin 32) (i : Fin 16) (s : State) : State :=
  if (entry i s).mailbox = m && (entry i s).home = some h then
    match (entry i s).state with
    | .waiting => finish i .noMailbox s
    | .queued => finish i .noMailbox s
    | .parked => finish i .closed s
    | .cancelWaiting => finish i .closed s
    | .cancelQueued => finish i .closed s
    | _ => s
  else s

/-- A mailbox-gone event for `m` from `h` (R168). -/
def mailboxGone (m : Fin 64) (h : Fin 32) (s : State) : State := promote h (forEach (goneAt m h) s)

/-- Entry `i` finishes HOME_LOST if its home is `x` (R169). -/
def homeLostAt (x : Fin 32) (i : Fin 16) (s : State) : State :=
  if (entry i s).home = some x && isLive (entry i s) then finish i .homeLost s else s

/-- The station-absent event of `x` at the Request Engine (R169). -/
def homeLost (x : Fin 32) (s : State) : State := forEach (homeLostAt x) s

end Sys2Proof.Machine
end

