-- ==== Sys2Proof/Machine/Store.lean ====
section
/-! DEFINITION. The Mailbox Store (chapters 7 and 8): delivery slots and their DELIVERs, pairing, waiters, the placing of a
message, the PUT, TAKE, CANCEL and DELIVER_ACK items, deadlines, the discard of a mailbox and the absence of a taker. -/

namespace Sys2Proof.Machine

/-! ### Delivery slots (R137 to R143) -/

/-- The DELIVER of a delivery slot, built from the slot and its cell (R138, R141). -/
def deliverItem (x : Delivery) (s : State) : Item :=
  let msg := (cell x.cell s).getD { origin := 0, data := [] }
  { dest := .station x.dest, body := .deliver x.tag x.dseq msg.origin msg.data }

/-- The order in which slots became UNQUEUED, replaced. -/
def setUnqueued (l : List (Fin 8)) (s : State) : State := s.withStore { s.store with unqueued := l }

/-- Slot `d` with contents `x` hands its DELIVER to the item queue: QUEUED if class A has a place, otherwise UNQUEUED at
the end of that order (R138, R139, R141). -/
def queueDeliver (d : Fin 8) (x : Delivery) (s : State) : State :=
  if answerRoom s then
    setDelivery d (some { x with state := .queued }) (enqueueA (deliverItem x s) (.delivery d) s)
  else setUnqueued (s.store.unqueued ++ [d]) (setDelivery d (some { x with state := .unqueued }) s)

/-- Delivery slot `d` is filled (R138). -/
def fillDelivery (d : Fin 8) (h : Fin 16) (c : Fin 64) (x : Fin 32) (t : Byte) (s : State) : State :=
  queueDeliver d { state := .queued, dseq := s.store.dseq, hosted := h, cell := c, dest := x, tag := t, attempts := 1 }
    (s.withStore { s.store with dseq := s.store.dseq + 1 })

/-- A free class A place offered to the UNQUEUED slot `d` (R139). -/
def offerPlaceTo (d : Fin 8) (s : State) : State :=
  if answerRoom s then
    let s := setUnqueued (s.store.unqueued.filter fun e => e ≠ d) s
    match delivery d s with
    | some x => queueDeliver d x s
    | none => s
  else s

/-- The free class A places are offered to the UNQUEUED slots, oldest first (R60, R139). -/
def offerPlaces (s : State) : State := s.store.unqueued.foldl (fun s d => offerPlaceTo d s) s

/-- A SENT slot is re-queued (R141). -/
def requeueDelivery (d : Fin 8) (x : Delivery) (s : State) : State :=
  countDeliveryRetransmission (queueDeliver d x s)

/-- Slot `d` becomes FREE: its DELIVER is withdrawn and it leaves the UNQUEUED order. -/
def vacate (d : Fin 8) (s : State) : State :=
  setDelivery d none (setUnqueued (s.store.unqueued.filter fun e => e ≠ d) (withdrawDelivery d s))

/-- Slot `d` becomes FREE together with its cell (R121, R143). -/
def freeDelivery (d : Fin 8) (s : State) : State :=
  match delivery d s with
  | some x => vacate d (setCell x.cell none s)
  | none => s

/-- Slot `d` becomes FREE and its message goes back to the head of its mailbox (R113, R133, R142, R147). -/
def returnMessage (d : Fin 8) (s : State) : State :=
  match delivery d s with
  | some x =>
    let hs := hostedSlot x.hosted s
    countMessageReturned (vacate d (setHosted x.hosted { hs with messages := x.cell :: hs.messages } s))
  | none => s

/-! ### Waiters (R130, R131) -/

/-- The priority of the waiter in record `w`; the lowest for a record not in use. -/
def priorityOf (w : Fin 32) (s : State) : Fin 4 := ((waiter w s).map Waiter.priority).getD 3

/-- The waiter list with record `w` of priority `p` inserted after every waiter of equal or higher priority (R131). -/
def insertWaiter (w : Fin 32) (p : Fin 4) (s : State) (l : List (Fin 32)) : List (Fin 32) :=
  l.takeWhile (fun v => priorityOf v s ≤ p) ++ w :: l.dropWhile (fun v => priorityOf v s ≤ p)

/-- The deadline of a waiter that waits `w` own turns; none for 255 (R130). -/
def waiterDeadline (w : Byte) (s : State) : Option Word := if w = 255#8 then none else some (deadlineIn w.toNat s)

/-- A waiter is made in record `w` at hosted slot `h` (R130, R131). -/
def makeWaiter (w : Fin 32) (h : Fin 16) (x : Fin 32) (t : Byte) (p : Fin 4) (wait : Byte) (s : State) : State :=
  let hs := hostedSlot h s
  let r : Waiter :=
    { hosted := h, requester := x, tag := t, priority := p, deadline := waiterDeadline wait s,
      stamp := s.store.arrivalStamp }
  let s1 := setHosted h { hs with waiters := insertWaiter w p s hs.waiters } (setWaiter w (some r) s)
  s1.withStore { s1.store with arrivalStamp := s1.store.arrivalStamp + 1 }

/-- Waiter `w` leaves its list and its record returns to the pool (R130). -/
def removeWaiter (w : Fin 32) (s : State) : State :=
  match waiter w s with
  | some r =>
    let hs := hostedSlot r.hosted s
    setWaiter w none (setHosted r.hosted { hs with waiters := hs.waiters.filter fun v => v ≠ w } s)
  | none => s

/-- The waiter is a taker of this station's own local processor (R117, R130). -/
def isLocal (r : Waiter) (s : State) : Bool := r.requester = self s

/-- The message `msg` is handed to the local waiter `r` in record `w`: it is copied into the taker's request entry, the
waiter leaves its list, and the entry finishes DELIVERED (R117, R136, R170). -/
def serveLocal (w : Fin 32) (r : Waiter) (msg : Message) (s : State) : State :=
  let i := slotOfTag r.tag
  let s := removeWaiter w s
  finish i .delivered
    (setEntry i { entry i s with result := { status := none, origin := msg.origin, data := msg.data } } s)

/-- The cell `c` of hosted slot `h` is taken into delivery slot `d` for the remote waiter `r` in record `w`: the waiter
leaves its list, and the memory entry that refers to it records DELIVERING (R117, R136, R138). -/
def serveRemote (w : Fin 32) (r : Waiter) (d : Fin 8) (h : Fin 16) (c : Fin 64) (s : State) : State :=
  fillDelivery d h c r.requester r.tag
    (revise r.requester r.tag .parked (.delivering d) (removeWaiter w s))

/-- The head message of hosted slot `h` leaves its list. -/
def dropHead (h : Fin 16) (s : State) : State :=
  let hs := hostedSlot h s
  setHosted h { hs with messages := hs.messages.tail } s

/-! ### Pairing (R136, R137) -/

/-- One pairing at hosted slot `h`; none where pairing stops. Remote heads are served if `remote` is set and a delivery
slot is FREE. -/
def pairOnce (remote : Bool) (h : Fin 16) (s : State) : Option State :=
  match (hostedSlot h s).messages, (hostedSlot h s).waiters with
  | c :: _, w :: _ =>
    match waiter w s, cell c s with
    | some r, some msg =>
      if isLocal r s then some (serveLocal w r msg (setCell c none (dropHead h s)))
      else if remote then
        match freeDeliverySlot s with
        | some d => some (serveRemote w r d h c (dropHead h s))
        | none => none
      else none
    | _, _ => none
  | _, _ => none

/-- Pairing repeated at most `n` times. -/
def pairTimes (remote : Bool) (h : Fin 16) : Nat → State → State
  | 0, s => s
  | n + 1, s =>
    match pairOnce remote h s with
    | some s' => pairTimes remote h n s'
    | none => s

/-- Pairing at hosted slot `h` until it stops: each pairing takes one stored message. -/
def pairAt (remote : Bool) (h : Fin 16) (s : State) : State :=
  pairTimes remote h (hostedSlot h s).messages.length s

/-- Pairing looked at on an occasion of R136: local heads are served first, and then the FREE delivery slots are handed
out in hosted slot order (R137). A mailbox that the occasion has not touched holds no message beside a local head, and
none beside a remote head while a delivery slot is FREE (R131), so looking at it changes nothing (LOG 17). Where one absence
leaves local heads beside messages at several mailboxes, the spec does not order them: the model takes hosted slot order
(LOG 31). -/
def pairing (s : State) : State := forEach (pairAt true) (forEach (pairAt false) s)

/-! ### Placing a message (R117, R120) -/

/-- Where an arriving message goes. -/
inductive Placement where
  | handLocal (w : Fin 32) (r : Waiter)
  | handRemote (w : Fin 32) (r : Waiter) (d : Fin 8) (c : Fin 64)
  | store (c : Fin 64)
  | full
  | noSpace
  deriving DecidableEq, Repr

/-- The placement when the head waiter cannot be served at once (R117). -/
def placeStored (h : Fin 16) (s : State) : Placement :=
  if (hostedSlot h s).depth ≤ load h s then .full
  else
    match freeCell s with
    | some c => .store c
    | none => .noSpace

/-- The placement of a message arriving at hosted slot `h` (R117). -/
def placement (h : Fin 16) (s : State) : Placement :=
  match (hostedSlot h s).waiters with
  | [] => placeStored h s
  | w :: _ =>
    match waiter w s with
    | none => placeStored h s
    | some r =>
      if isLocal r s then .handLocal w r
      else if load h s < (hostedSlot h s).depth then
        match freeDeliverySlot s, freeCell s with
        | some d, some c => .handRemote w r d c
        | _, _ => placeStored h s
      else placeStored h s

/-- The outcome of a placement (R117). -/
def placementResult : Placement → PutResult
  | .full => .full
  | .noSpace => .noSpace
  | _ => .stored

/-- The message is placed (R117). -/
def place (p : Placement) (h : Fin 16) (msg : Message) (s : State) : State :=
  match p with
  | .handLocal w r => serveLocal w r msg s
  | .handRemote w r d c => serveRemote w r d h c (setCell c (some msg) s)
  | .store c =>
    let s := setCell c (some msg) s
    let hs := hostedSlot h s
    pairing (setHosted h { hs with messages := hs.messages ++ [c] } s)
  | .full => s
  | .noSpace => s

/-! ### PUT items (R115, R116) -/

/-- A PUT from `x` taken as new (R116 steps 2 to 4). -/
def takeNewPut (x : Fin 32) (m : Fin 64) (t : Byte) (data : List Byte) (s : State) : State :=
  if !answerRoom s then countShed s
  else
    match openSlotOf m s with
    | none => answer x (.putReply t .noMailbox) (remember x t (.put .noMailbox) s)
    | some h =>
      let p := placement h s
      let r := placementResult p
      place p h { origin := x, data := data } (answer x (.putReply t r) (remember x t (.put r) s))

/-- A PUT item from `x` (R115, R116). -/
def takePut (x : Fin 32) (m : Fin 64) (t : Byte) (data : List Byte) (s : State) : State :=
  match exchange x s with
  | some { tag := t', last := .put r } =>
    if t' = t then (if answerRoom s then answer x (.putReply t r) s else countShed s) else takeNewPut x m t data s
  | _ => takeNewPut x m t data s

/-! ### TAKE items (R132 to R134) -/

/-- The old waiter or delivery slot of the pair (x, t) is removed or released (R133 step 2). -/
def clearOldPair (x : Fin 32) (t : Byte) (s : State) : State :=
  let s :=
    match waiterOf x t s with
    | some w => removeWaiter w s
    | none => s
  match deliveryTo x t s with
  | some d => returnMessage d s
  | none => s

/-- The outcomes a TAKE taken as new can have (R133). -/
inductive TakeCourse where
  | reply (r : TakeResult)
  | deliver (d : Fin 8) (c : Fin 64)
  | park (w : Fin 32)
  deriving DecidableEq, Repr

/-- Step 5 of R133. -/
def waitCourse (h : Fin 16) (wait : Byte) (s : State) : TakeCourse :=
  if wait = 0#8 then (if (hostedSlot h s).messages.isEmpty then .reply .empty else .reply .homeBusy)
  else
    match freeWaiter s with
    | some w => .park w
    | none => .reply .waitFull

/-- Steps 4 and 5 of R133. -/
def takeCourse (h : Fin 16) (wait : Byte) (s : State) : TakeCourse :=
  match (hostedSlot h s).messages, (hostedSlot h s).waiters with
  | c :: _, [] =>
    match freeDeliverySlot s with
    | some d => .deliver d c
    | none => waitCourse h wait s
  | _, _ => waitCourse h wait s

/-- The remembered outcome of a TAKE_REPLY given at once. -/
def repliedOutcome : TakeResult → TakeOutcome
  | .noMailbox => .noMailbox
  | .empty => .empty
  | .parked => .parked
  | .waitFull => .waitFull
  | .homeBusy => .homeBusy
  | .expired => .expired

/-- A TAKE is answered at once with a TAKE_REPLY, which the exchange memory remembers. -/
def replyTake (x : Fin 32) (t : Byte) (r : TakeResult) (s : State) : State :=
  answer x (.takeReply t r) (remember x t (.take (repliedOutcome r)) s)

/-- A TAKE from `x` taken as new (R133). -/
def takeNewTake (x : Fin 32) (m : Fin 64) (t : Byte) (p : Fin 4) (wait : Byte) (s : State) : State :=
  if !answerRoom s then countShed s
  else
    let s := clearOldPair x t s
    let s :=
      match openSlotOf m s with
      | none => replyTake x t .noMailbox s
      | some h =>
        match takeCourse h wait s with
        | .reply r => replyTake x t r s
        | .deliver d c => fillDelivery d h c x t (remember x t (.take (.delivering d)) (dropHead h s))
        | .park w => replyTake x t .parked (makeWaiter w h x t p wait s)
    offerPlaces (pairing s)

/-- A repeated TAKE whose outcome was DELIVERING(d) (R132). -/
def repeatDelivering (x : Fin 32) (t : Byte) (d : Fin 8) (s : State) : State :=
  match delivery d s with
  | some y =>
    match y.state with
    | .sent _ =>
      if y.dest = x && y.tag = t then
        (if answerRoom s then requeueDelivery d y s else countShed s)
      else s
    | _ => s
  | none => s

/-- The remembered reply of a TAKE is repeated, or the item is shed (R132). -/
def repeatTakeReply (x : Fin 32) (t : Byte) (r : TakeResult) (s : State) : State :=
  if answerRoom s then answer x (.takeReply t r) s else countShed s

/-- A TAKE item from `x` (R132, R133). -/
def takeTake (x : Fin 32) (m : Fin 64) (t : Byte) (p : Fin 4) (wait : Byte) (s : State) : State :=
  match exchange x s with
  | some { tag := t', last := .take o } =>
    if t' = t then
      match o with
      | .parked => repeatTakeReply x t .parked s
      | .empty => repeatTakeReply x t .empty s
      | .noMailbox => repeatTakeReply x t .noMailbox s
      | .waitFull => repeatTakeReply x t .waitFull s
      | .homeBusy => repeatTakeReply x t .homeBusy s
      | .delivering d => repeatDelivering x t d s
      | .returned => takeNewTake x m t p wait s
      | .expired => takeNewTake x m t p wait s
    else takeNewTake x m t p wait s
  | _ => takeNewTake x m t p wait s

/-! ### CANCEL and DELIVER_ACK items (R143, R146) -/

/-- A CANCEL is answered, and the exchange memory remembers the outcome. -/
def replyCancel (x : Fin 32) (t : Byte) (r : CancelResult) (s : State) : State :=
  answer x (.cancelReply t r) (remember x t (.cancel r) s)

/-- A CANCEL from `x` taken as new (R146 steps 2 to 5). -/
def takeNewCancel (x : Fin 32) (t : Byte) (s : State) : State :=
  if !answerRoom s then countShed s
  else
    match waiterOf x t s with
    | some w => pairing (replyCancel x t .removed (removeWaiter w s))
    | none => replyCancel x t (if (deliveryTo x t s).isSome then .tooLate else .unknown) s

/-- A CANCEL item from `x` (R146). The mailbox number is not used. -/
def takeCancel (x : Fin 32) (t : Byte) (s : State) : State :=
  match exchange x s with
  | some { tag := t', last := .cancel r } =>
    if t' = t then (if answerRoom s then answer x (.cancelReply t r) s else countShed s) else takeNewCancel x t s
  | _ => takeNewCancel x t s

/-- The delivery slot an acknowledgement matches (R143). -/
def ackedSlot (x : Fin 32) (t dseq : Byte) (s : State) : Option (Fin 8) :=
  (List.finRange 8).find? fun d =>
    ((delivery d s).map fun r => r.dest = x && r.tag = t && r.dseq = dseq).getD false

/-- A DELIVER_ACK from `x` (R143). A class A place its withdrawal frees is offered before the slot is handed out. -/
def takeDeliverAck (x : Fin 32) (t dseq : Byte) (v : AckVerdict) (s : State) : State :=
  match ackedSlot x t dseq s with
  | some d =>
    let s := pairing (offerPlaces (freeDelivery d s))
    if v = .stale then countStaleAck s else s
  | none => s

/-! ### Deadlines (R142, R144, R145) -/

/-- The deadline of waiter `w` is reached at the present count. -/
def waiterDue (w : Fin 32) (s : State) : Bool :=
  ((waiter w s).map fun r => decide (r.deadline = some s.tracker.ownTurnCount)).getD false

/-- The lowest-numbered waiter record whose deadline is reached (R145). -/
def dueWaiter (s : State) : Option (Fin 32) := (List.finRange 32).find? fun w => waiterDue w s

/-- Waiter `w` expires (R144). -/
def expireWaiter (w : Fin 32) (s : State) : State :=
  match waiter w s with
  | some r =>
    let s' := removeWaiter w s
    if isLocal r s then pairing (finish (slotOfTag r.tag) .expired s')
    else pairing (answer r.requester (.takeReply r.tag .expired) (revise r.requester r.tag .parked .expired s'))
  | none => s

/-- Waiter `w` expires if its deadline is reached. -/
def actOnWaiter (w : Fin 32) (s : State) : State := if waiterDue w s then expireWaiter w s else s

/-- The deadline of delivery slot `d` is reached at the present count. -/
def deliveryDue (d : Fin 8) (s : State) : Bool :=
  ((delivery d s).map fun r => decide (r.state = .sent s.tracker.ownTurnCount)).getD false

/-- The lowest-numbered SENT delivery slot whose deadline is reached (R145). -/
def dueDelivery (s : State) : Option (Fin 8) := (List.finRange 8).find? fun d => deliveryDue d s

/-- The deadline of the SENT delivery slot `d` acts: a new sending, or the give-up after four (R142). -/
def deliveryDeadline (d : Fin 8) (s : State) : State :=
  match delivery d s with
  | some x =>
    if x.attempts < 4 then requeueDelivery d { x with attempts := x.attempts + 1 } s
    else pairing (revise x.dest x.tag (.delivering d) .returned (returnMessage d s))
  | none => s

/-- The deadline of delivery slot `d` acts if it is reached. -/
def actOnDelivery (d : Fin 8) (s : State) : State := if deliveryDue d s then deliveryDeadline d s else s

/-- Delivery slot `d` is told "sent" (R140). -/
def deliverySent (d : Fin 8) (s : State) : State :=
  match delivery d s with
  | some x => setDelivery d (some { x with state := .sent (deadlineIn (replyLimit s) s) }) s
  | none => s

/-! ### Discard and absence (R121 to R123, R147) -/

/-- A waiter of the discarded mailbox is removed: a local one with its entry finishing, a remote one with the exchange
memory adjusted (R121 steps 1 and 2, R122). -/
def discardWaiter (st : Status) (wantLocal : Bool) (w : Fin 32) (s : State) : State :=
  match waiter w s with
  | some r =>
    if isLocal r s = wantLocal then
      if wantLocal then finish (slotOfTag r.tag) st (removeWaiter w s)
      else revise r.requester r.tag .parked .noMailbox (removeWaiter w s)
    else s
  | none => s

/-- A delivery slot of the discarded mailbox is freed with its cell, with the exchange memory adjusted (R121 step 3). -/
def discardDelivery (h : Fin 16) (d : Fin 8) (s : State) : State :=
  match delivery d s with
  | some x =>
    if x.hosted = h then revise x.dest x.tag (.delivering d) .noMailbox (freeDelivery d s) else s
  | none => s

/-- The five steps of the discard of the mailbox in hosted slot `h` (R121). -/
def discardSteps (st : Status) (h : Fin 16) (s : State) : State :=
  let s := (hostedSlot h s).waiters.foldl (fun s w => discardWaiter st true w s) s
  let s := (hostedSlot h s).waiters.foldl (fun s w => discardWaiter st false w s) s
  let s := forEach (discardDelivery h) s
  let s := (hostedSlot h s).messages.foldl (fun s c => setCell c none s) s
  setHosted h HostedSlot.blank s

/-- The discard of a mailbox and the two offers that follow it (R121). -/
def discard (st : Status) (h : Fin 16) (s : State) : State := offerPlaces (pairing (discardSteps st h s))

/-- A waiter of the absent station is removed (R147 step 1). -/
def dropWaiterOf (x : Fin 32) (w : Fin 32) (s : State) : State :=
  if ((waiter w s).map fun r => decide (r.requester = x)).getD false then removeWaiter w s else s

/-- A delivery slot addressed to the absent station is released (R147 step 2). -/
def releaseTo (x : Fin 32) (d : Fin 8) (s : State) : State :=
  if ((delivery d s).map fun r => decide (r.dest = x)).getD false then returnMessage d s else s

/-- The station-absent event of `x` at the Mailbox Store (R123, R147). -/
def takerAbsent (x : Fin 32) (s : State) : State :=
  let s := forEach (dropWaiterOf x) s
  let s := forEach (releaseTo x) s
  pairing (offerPlaces (setExchange x none s))

end Sys2Proof.Machine
end

