-- ==== Sys2Proof/Machine/Directory.lean ====
section
/-! DEFINITION. The Directory Unit (chapter 6): the CLAIM, RELEASE, DISPUTE and PRESENCE items, the absence of a home, and
the readout. -/

namespace Sys2Proof.Machine

/-! ### Claims (R90 to R92, R96) -/

/-- The DISPUTE of `m` for station `x` enters class A (R96). -/
def dispute (x : Fin 32) (m : Fin 64) (s : State) : State := answer x (.dispute m) s

/-- A conflict with this station's own mailbox: counted, and disputed (R91, R97). -/
def contest (x : Fin 32) (m : Fin 64) (s : State) : State := dispute x m (countConflict s)

/-- The CLAIMING hosted slot for `m` is freed (R92). -/
def freeClaimingSlot (m : Fin 64) (s : State) : State :=
  match usedSlotOf m s with
  | some h => setHosted h HostedSlot.blank s
  | none => s

/-- This station's pending claim of `m` is lost to `x` (R92). -/
def loseClaim (x : Fin 32) (m : Fin 64) (s : State) : State :=
  finishBroadcast .claim m .taken (freeClaimingSlot m (setDirEntry m (.homed x) s))

/-- A CLAIM of `m` from another station `x` (R91). The table of R91 holds also where `x` is ABSENT, after a FAREWELL earlier in
the same frame, though R88 has HOMED(`x`) name a PRESENT station (LOG 32). -/
def takeClaim (x : Fin 32) (m : Fin 64) (s : State) : State :=
  match dirEntry m s with
  | .free => setDirEntry m (.homed x) s
  | .orphaned _ => setDirEntry m (.homed x) s
  | .claiming => loseClaim x m s
  | .homed y =>
    if y = self s then (if answerRoom s then contest x m s else countShed s)
    else if y = x then s
    else countConflict s

/-- The CLAIMING hosted slot for `m` becomes OPEN, with empty lists (R90). -/
def openClaimedSlot (m : Fin 64) (s : State) : State :=
  match usedSlotOf m s with
  | some h => setHosted h { hostedSlot h s with state := .opened, messages := [], waiters := [] } s
  | none => s

/-- This station's own CLAIM of `m` at its good echo (R90). -/
def ownClaim (m : Fin 64) (s : State) : State :=
  if dirEntry m s = .claiming then
    finishBroadcast .claim m .ok (openClaimedSlot m (setDirEntry m (.homed (self s)) s))
  else s

/-! ### Releases and disputes (R94, R95, R100) -/

/-- A RELEASE of `m` from another station `x` (R94, R100). -/
def takeRelease (x : Fin 32) (m : Fin 64) (s : State) : State :=
  if dirEntry m s = .homed x then mailboxGone m x (setDirEntry m .free s) else s

/-- This station's own RELEASE of `m` at its good echo (R94). -/
def ownRelease (m : Fin 64) (s : State) : State := finishBroadcast .release m .ok s

/-- The hosted mailbox `m` is discarded, where this station hosts it (R121). -/
def discardMailbox (st : Status) (m : Fin 64) (s : State) : State :=
  match openSlotOf m s with
  | some h => discard st h s
  | none => s

/-- A DISPUTE of `m` from station `x` (R95), of an ABSENT `x` too (LOG 32). -/
def takeDispute (x : Fin 32) (m : Fin 64) (s : State) : State :=
  if dirEntry m s = .homed (self s) then
    setDirEntry m (.homed x) (discardMailbox .lost m (raiseNotice (.mailboxLost m) s))
  else s

/-! ### Presence reconciliation (R97) -/

/-- The mailbox numbers listed in a bitmap whose entry here is HOMED(S). -/
def contestedCount (bitmap : BitVec 64) (s : State) : Nat :=
  (List.finRange 64).countP fun m => bitmap.getLsbD m.val && dirEntry m s = .homed (self s)

/-- One mailbox number of a PRESENCE from another station `x` (R97), of an ABSENT `x` too (LOG 32). -/
def reconcile (x : Fin 32) (bitmap : BitVec 64) (m : Fin 64) (s : State) : State :=
  if bitmap.getLsbD m.val then
    match dirEntry m s with
    | .free => setDirEntry m (.homed x) s
    | .orphaned _ => setDirEntry m (.homed x) s
    | .claiming => loseClaim x m s
    | .homed y => if y = self s then contest x m s else if y = x then s else countConflict s
  else
    match dirEntry m s with
    | .homed y => if y = x then mailboxGone m x (setDirEntry m .free s) else s
    | .orphaned y => if y = x then setDirEntry m .free s else s
    | .free => s
    | .claiming => s

/-- A PRESENCE from another station `x` (R97). -/
def takePresence (x : Fin 32) (bitmap : BitVec 64) (s : State) : State :=
  if freePlaces s < contestedCount bitmap s then countShed s else forEach (reconcile x bitmap) s

/-- The bitmap of this station's own PRESENCE (R66): bit m is set when entry m is HOMED(self). -/
def presenceBitmap (s : State) : BitVec 64 :=
  BitVec.ofBoolListLE ((List.finRange 64).map fun m => decide (dirEntry m s = .homed (self s)))

/-! ### The absence of a home (R99, R100) -/

/-- What a station-absent event of `x` does to directory entry `m` (R99). -/
def absentAt (x : Fin 32) (cause : AbsenceCause) (m : Fin 64) (s : State) : State :=
  match cause, dirEntry m s with
  | .silent, .homed y => if y = x then setDirEntry m (.orphaned x) s else s
  | .left, .homed y => if y = x then mailboxGone m x (setDirEntry m .free s) else s
  | .left, .orphaned y => if y = x then setDirEntry m .free s else s
  | _, _ => s

/-- The station-absent event of `x` at the Directory Unit (R99). -/
def homeAbsent (x : Fin 32) (cause : AbsenceCause) (s : State) : State := forEach (absentAt x cause) s

/-! ### The readout (R103, R104) -/

/-- The mailbox numbers at and above the cursor, ascending. -/
def fromCursor (c : Fin 64) : List (Fin 64) := (List.finRange 64).filter fun m => c ≤ m

/-- The entries a scan collects: those that are not FREE, at most `room` of them, and the mailbox numbers left
unexamined. -/
def scan (s : State) : Nat → List (Fin 64) → List (Fin 64) × List (Fin 64)
  | _, [] => ([], [])
  | 0, ms => ([], ms)
  | room + 1, m :: ms =>
    if dirEntry m s = .free then scan s (room + 1) ms
    else
      let r := scan s room ms
      (m :: r.1, r.2)

/-- The three values of a collected entry (R104). -/
def scanEntryBytes (s : State) (m : Fin 64) : List Byte :=
  [byteOf m.val, dirStateCode (dirEntry m s), dirHome (self s) (dirEntry m s)]

/-- A scan from the cursor `c`, with its result (R104). The END mark is set when mailbox 63 was examined. -/
def readDirectory (c : Fin 64) (s : State) : State × List Byte :=
  let r := scan s 8 (fromCursor c)
  let endMark : Byte := if r.2.isEmpty then 1 else 0
  ({ s with directory := { s.directory with cursor := r.2.head? } },
    [statusCode .ok, byteOf r.1.length, endMark] ++ (r.1.map (scanEntryBytes s)).flatten)

end Sys2Proof.Machine
end

