-- ==== Sys2Proof/Machine/Roster.lean ====
section
/-! DEFINITION. The Roster Unit (chapter 5): hearing a station, missed-turn reports, FAREWELL, the station-absent event and
its four blocks. -/

namespace Sys2Proof.Machine

/-- Roster entry `x`. -/
def rosterEntry (x : Fin 32) (s : State) : RosterEntry := look s.roster x

/-- Roster entry `x` replaced. -/
def setRoster (x : Fin 32) (e : RosterEntry) (s : State) : State := { s with roster := put s.roster x e }

/-- The station-absent event of `x` (R81): Local Port, Request Engine, Mailbox Store, Directory Unit. -/
def stationAbsent (x : Fin 32) (cause : AbsenceCause) (s : State) : State :=
  homeAbsent x cause (takerAbsent x (homeLost x (raiseNotice (.stationAbsent x cause) s)))

/-- A GOOD frame of `x` is handed to the roster (R75, R77, R78). -/
def heard (x : Fin 32) (s : State) : State :=
  let s' := setRoster x { presence := .present, missed := 0 } s
  if (rosterEntry x s).presence = .absent then raiseNotice (.stationPresent x) s' else s'

/-- A missed-turn report of `x` is handed to the roster (R76, R78). -/
def missedTurn (x : Fin 32) (s : State) : State :=
  let e := rosterEntry x s
  if x = self s then s
  else if 8 ≤ e.missed then s
  else if e.missed = 7 then
    let s' := setRoster x { presence := .absent, missed := 8 } s
    if e.presence = .present then stationAbsent x .silent s' else s'
  else setRoster x { e with missed := e.missed + 1 } s

/-- A FAREWELL of another station `x` (R80). -/
def takeFarewell (x : Fin 32) (s : State) : State :=
  let e := rosterEntry x s
  if e.presence = .absent then s else stationAbsent x .left (setRoster x { e with presence := .absent } s)

/-- All entries UNKNOWN with count 0 (R85 to R87). -/
def clearRoster (s : State) : State := { s with roster := Vector.replicate 32 RosterEntry.blank }

end Sys2Proof.Machine
end

