-- ==== Sys2Proof/Machine/Session.lean ====
section
/-! DEFINITION. Sessions (chapter 3): entering LEAVING, the session end at every block, and what Station Control makes of a
gain or loss of synchronisation. -/

namespace Sys2Proof.Machine

/-! ### The Request Engine at LEAVING and at session end (R172) -/

/-- The local waiter of the LOCAL_PARKED entry `i` is removed. -/
def removeLocalWaiter (i : Fin 16) (s : State) : State :=
  match waiterOf (self s) (entryTag i s) s with
  | some w => removeWaiter w s
  | none => s

/-- Entry `i` finishes SESSION_END if it is live, its local waiter removed first (R172). -/
def endEntry (i : Fin 16) (s : State) : State :=
  if isLive (entry i s) then
    finish i .sessionEnd (if (entry i s).state = .localParked then removeLocalWaiter i s else s)
  else s

/-- Every waiting order becomes empty (R172). -/
def clearWaiting (s : State) : State := s.withEngine { s.engine with waiting := Vector.replicate 32 [] }

/-- Every live entry finishes SESSION_END, in slot order, without promotion (R172). -/
def endEntries (s : State) : State := clearWaiting (forEach endEntry s)

/-! ### Entering LEAVING (R49, R106, R127) -/

/-- Both lists of the item queue are emptied; a frame on air runs to its end and stays recorded (R49 step 1, R72). -/
def emptyLists (s : State) : State := s.withQueue { s.queue with classA := [], classB := [] }

/-- Hosted slot `h` at entry to LEAVING: an OPEN one is discarded, a CLAIMING one is freed (R127). -/
def leaveSlot (h : Fin 16) (s : State) : State :=
  match (hostedSlot h s).state with
  | .opened => discardSteps .sessionEnd h s
  | .claiming => setHosted h HostedSlot.blank s
  | .free => s

/-- Directory entry `m` at entry to LEAVING (R106). -/
def leaveDirEntry (m : Fin 64) (s : State) : State :=
  match dirEntry m s with
  | .claiming => setDirEntry m .free s
  | .homed y => if y = self s then setDirEntry m .free s else s
  | _ => s

/-- The station state becomes LEAVING (R48, R49). -/
def enterLeaving (s : State) : State :=
  forEach leaveDirEntry (forEach leaveSlot (endEntries (emptyLists (enterState .leaving s))))

/-! ### Session end (R20, R39, R52, R72, R86, R108, R128, R172, R194) -/

/-- The Line Unit after session end (R20): a break under way goes on. -/
def LineUnit.stopped (l : LineUnit) : LineUnit :=
  { l with
    rx := .idle
    assembly := []
    endOfLast := none
    ownActivity := false
    tx := if l.tx = .breaking then .breaking else .off
    txBuffer := if l.tx = .breaking then l.txBuffer else []
    txInProgress := if l.tx = .breaking then l.txInProgress else false }

/-- The Turn Tracker after session end (R39): the count and the presence counter are kept. -/
def TurnTracker.stopped (t : TurnTracker) : TurnTracker :=
  { t with rotation := none, joinedAt := none, quietApplied := false, ownTurnOpen := false }

/-- What the blocks other than the Request Engine, the Local Port and Station Control hold after session end. -/
def clearSession (s : State) : State :=
  { s with
    line := s.line.stopped
    tracker := s.tracker.stopped
    queue := ItemQueue.empty
    roster := Vector.replicate 32 RosterEntry.blank
    directory := Directory.reset
    store := MailboxStore.cleared s.store.arrivalStamp s.store.dseq }

/-- The last session-end cause is recorded (R53). -/
def recordCause (cause : EndCause) (s : State) : State := { s with control := { s.control with lastCause := cause } }

/-- The session ends with the given cause (R52). The records of the entries it finishes are handed on before the station
state reaches OFFLINE (R194). -/
def sessionEnd (cause : EndCause) (s : State) : State :=
  enterState .offline (recordCause cause (clearSession (endEntries s)))

/-! ### Reports of the Turn Tracker (R22, R47, R50) -/

/-- A sync-gained report. -/
def syncGained (s : State) : State := if s.control.state = .seeking then enterState .active s else s

/-- A sync-lost report. -/
def syncLost (s : State) : State :=
  match s.control.state with
  | .active => enterState .seeking s
  | .leaving => sessionEnd .leftUnannounced s
  | _ => s

/-! ### The start of a session (R46) -/

/-- The Line Unit at JOIN (R3). Activity found under way, this station's own break included, has no valid start (LOG 16).
Until a character row comes, the moment of JOIN stands as the end of that activity's last character, so that its 2 byte
times of silence count from there: R3 does not say how the rest of a character begun before JOIN is read (LOG 29). -/
def LineUnit.started (l : LineUnit) (moment : Moment) (rxdActive : Bool) : LineUnit :=
  { l with
    rx := if rxdActive || l.tx = .breaking then .discarding else .idle
    assembly := []
    endOfLast := none
    ownActivity := l.tx = .breaking
    lastCharEnd := moment }

/-- The Turn Tracker at JOIN (R21). -/
def TurnTracker.started (moment : Moment) : TurnTracker where
  rotation := none
  joinedAt := some moment
  quietApplied := false
  ownTurnCount := 0
  presenceCounter := 3
  ownTurnOpen := false

/-- JOIN is taken with the configuration valid (R46): SEEKING, and the JOIN values of the blocks. -/
def startSession (moment : Moment) (rxdActive : Bool) (s : State) : State :=
  enterState .seeking
    { s with
      line := s.line.started moment rxdActive
      tracker := TurnTracker.started moment
      roster := Vector.replicate 32 RosterEntry.blank
      directory := Directory.reset }

end Sys2Proof.Machine
end

