-- ==== Sys2Proof/Machine/Tracker.lean ====
section
/-! DEFINITION. The Turn Tracker with the Frame Assembler (chapters 2 and 4): building a frame at an own turn, own turns and
their deadlines, the passing of the turn, lapses and the quiet rule, and the outcomes of an own frame at the item queue. -/

namespace Sys2Proof.Machine

/-! ### Building a frame (R64 to R68) -/

/-- The largest number of items of a frame, and of its payload bytes (R5). -/
def maxItems : Nat := 4

/-- The largest payload of a frame (R5). -/
def maxPayload : Nat := 64

/-- A list after choosing from it, with the item count and payload size reached. -/
structure Chosen where
  list : List QueuedItem
  count : Nat
  size : Nat
  deriving DecidableEq, Repr

/-- Items are chosen from a list, oldest first: each that fits is marked on air, the others are passed over (R64). -/
def chooseFrom : List QueuedItem → Nat → Nat → Chosen
  | [], count, size => { list := [], count := count, size := size }
  | q :: rest, count, size =>
    if count < maxItems ∧ size + itemSize q.item.body ≤ maxPayload then
      let r := chooseFrom rest (count + 1) (size + itemSize q.item.body)
      { r with list := { q with onAir := true } :: r.list }
    else
      let r := chooseFrom rest count size
      { r with list := q :: r.list }

/-- The items of a list that carry the on-air mark, in list order. -/
def marked (l : List QueuedItem) : List Item := (l.filter QueuedItem.onAir).map QueuedItem.item

/-- The PRESENCE item built from the directory (R66). -/
def presenceItem (s : State) : Item := { dest := .broadcast, body := .presence (presenceBitmap s) }

/-- The FAREWELL item (R68). -/
def farewellItem : Item := { dest := .broadcast, body := .farewell }

/-- PRESENCE is due at this own turn (R64). -/
def presenceDue (s : State) : Bool := s.tracker.presenceCounter = 3

/-- The PRESENCE of the frame, where it is due. -/
def presencePart (s : State) : List Item := if presenceDue s then [presenceItem s] else []

/-- What is chosen from class A (R64 step 2). -/
def chosenA (s : State) : Chosen :=
  chooseFrom s.queue.classA (presencePart s).length (payloadBytes (presencePart s)).length

/-- What is chosen from class B (R64 step 3). -/
def chosenB (s : State) : Chosen := chooseFrom s.queue.classB (chosenA s).count (chosenA s).size

/-- The items of the frame in frame order (R64). -/
def frameItems (s : State) : List Item := presencePart s ++ marked (chosenA s).list ++ marked (chosenB s).list

/-- The frame is placed in the transmit buffer (R13, R65). -/
def loadBuffer (items : List Item) (s : State) : State :=
  s.withLine { s.line with txBuffer := (s.control.config.map fun c => frameBytes c items).getD [] }

/-- The presence counter replaced. -/
def setPresenceCounter (n : Fin 4) (s : State) : State := s.withTracker { s.tracker with presenceCounter := n }

/-- The presence counter as an own turn in ACTIVE leaves it (R66). -/
def nextPresence (n : Fin 4) : Fin 4 := if n = 3 then 3 else n + 1

/-- An own turn is offered in ACTIVE (R64 to R67). -/
def offerActive (s : State) : State :=
  let s' := setPresenceCounter (nextPresence s.tracker.presenceCounter) s
  if (frameItems s).isEmpty then s'
  else
    loadBuffer (frameItems s)
      (s'.withQueue
        { classA := (chosenA s).list, classB := (chosenB s).list,
          onAir := some { items := frameItems s, presence := presenceDue s, farewell := false } })

/-- An own turn is offered in LEAVING (R68). -/
def offerLeaving (s : State) : State :=
  loadBuffer [farewellItem]
    (s.withQueue { s.queue with onAir := some { items := [farewellItem], presence := false, farewell := true } })

/-- The Frame Assembler is offered an own turn (R34). -/
def offerTurn (s : State) : State :=
  match s.control.state with
  | .active => offerActive s
  | .leaving => offerLeaving s
  | _ => s

/-! ### Own turns (R34, R35, R145, R166) -/

/-- A deadline of the Request Engine or of the Mailbox Store is reached at the present count and has not acted. -/
def deadlinesDue (s : State) : Bool := (dueEntry s).isSome || (dueWaiter s).isSome || (dueDelivery s).isSome

/-- The own turn is over: its deadlines have acted, and the offer is made. -/
def closeOwnTurn (s : State) : State := offerTurn (s.withTracker { s.tracker with ownTurnOpen := false })

/-- The offer of an own turn is made once no deadline reached at it is left (R34). -/
def settle (s : State) : State := if s.tracker.ownTurnOpen && !deadlinesDue s then closeOwnTurn s else s

/-- An own turn occurs (R34): the count rises, and with no deadline reached the Frame Assembler is offered the turn. -/
def ownTurn (s : State) : State :=
  settle (s.withTracker { s.tracker with ownTurnCount := s.tracker.ownTurnCount + 1, ownTurnOpen := true })

/-- Every deadline reached at the present count acts: entries in slot order (R166), waiters, then delivery slots
(R145). -/
def actOnDeadlines (s : State) : State := forEach actOnDelivery (forEach actOnWaiter (forEach actOnEntry s))

/-- An own turn whose deadlines are still acting is taken to its end before another event is taken. -/
def finishOwnTurn (s : State) : State := if s.tracker.ownTurnOpen then closeOwnTurn (actOnDeadlines s) else s

/-! ### The turn (R23 to R32) -/

/-- The turn passes to `x`, with a window that opens at `m` and has seen no activity. -/
def placeTurn (x : Fin 32) (m : Moment) (s : State) : State :=
  s.withTracker { s.tracker with rotation := some { holder := x, opened := m, activity := false } }

/-- The turn holder; none while unknown. -/
def turnHolder (s : State) : Option (Fin 32) := s.tracker.rotation.map Rotation.holder

/-- The turn placed at this station is an own turn (R34). -/
def handOwnTurn (s : State) : State := if turnHolder s = some (self s) then ownTurn s else s

/-- A GOOD frame of `x` that ended at `m` is handed to the tracker (R23, R26, R31). -/
def frameToTracker (x : Fin 32) (m : Moment) (s : State) : State :=
  match s.tracker.rotation with
  | some r =>
    if r.holder = x then placeTurn (successor s x) m s else countTurnSlip (placeTurn (successor s x) m s)
  | none => syncGained (placeTurn (successor s x) m s)

/-- Synchronisation is lost if the tracker has it (R28, R29, R30). -/
def loseSync (s : State) : State :=
  if s.tracker.rotation.isSome then syncLost (s.withTracker { s.tracker with rotation := none, ownTurnOpen := false })
  else s

/-- The window is suspended: a piece of activity has opened in it (R24). -/
def suspendWindow (s : State) : State :=
  s.withTracker { s.tracker with rotation := s.tracker.rotation.map fun r => { r with activity := true } }

/-- The quiet rule is still to be applied in this silence, and falls no later than the end of the window (R25, R27). -/
def quietFirst (r : Rotation) (s : State) : Bool :=
  !s.tracker.quietApplied && ((quietMoment s).map fun q => decide (q ≤ lapseMoment r s)).getD false

/-- The window `r` stands open in silence, with no frame about to begin in it. -/
def windowSilent (r : Rotation) (s : State) : Bool := !r.activity && !frameWaiting s

/-- The turn lapses (R25). -/
def turnLapse (s : State) : State :=
  match s.tracker.rotation with
  | some r =>
    if windowSilent r s && !quietFirst r s then
      handOwnTurn (placeTurn (successor s r.holder) (lapseMoment r s) (missedTurn r.holder s))
    else s
  | none => s

/-- The quiet rule has been applied in this silence. -/
def markQuiet (s : State) : State := s.withTracker { s.tracker with quietApplied := true }

/-- The quiet rule while SYNCED (R27). -/
def quietRule (s : State) : State :=
  match s.tracker.rotation, quietMoment s with
  | some r, some q =>
    if windowSilent r s && s.line.rx = .idle && quietFirst r s then handOwnTurn (markQuiet (placeTurn 0 q s)) else s
  | _, _ => s

/-- Quiet time runs out while UNSYNCED (R32). -/
def quietResync (s : State) : State :=
  match s.tracker.rotation, quietMoment s with
  | none, some q =>
    if joined s && s.line.rx = .idle && s.line.tx = .off then
      handOwnTurn (syncGained (countQuietResync (markQuiet (placeTurn 0 q s))))
    else s
  | _, _ => s

/-! ### The outcome of an own frame at the item queue (R69, R70) -/

/-- The originator of a sent item is told "sent" (R140, R158). -/
def tellSent (s : State) (q : QueuedItem) : State :=
  if q.withdrawn then s
  else
    match q.originator with
    | .nobody => s
    | .entry i => entrySent i s
    | .delivery d => deliverySent d s

/-- The items on air leave their lists, and the frame on air becomes none. -/
def dropSent (q : ItemQueue) : ItemQueue :=
  { classA := q.classA.filter fun i => !i.onAir, classB := q.classB.filter fun i => !i.onAir, onAir := none }

/-- The items on air, in frame order. -/
def onAirItems (q : ItemQueue) : List QueuedItem := (q.classA ++ q.classB).filter QueuedItem.onAir

/-- The good echo of an own frame at the Frame Assembler (R69). -/
def frameSent (s : State) : State :=
  match s.queue.onAir with
  | none => s
  | some f =>
    let s1 := if f.presence then setPresenceCounter 0 s else s
    offerPlaces ((onAirItems s.queue).foldl tellSent (s1.withQueue (dropSent s.queue)))

/-- A list after an abort: withdrawn items leave it, the others lose their on-air mark (R70). -/
def unmark (l : List QueuedItem) : List QueuedItem :=
  (l.filter fun q => !q.withdrawn).map fun q => { q with onAir := false }

/-- An own frame is reported aborted at the Frame Assembler (R70). -/
def abortFrame (s : State) : State :=
  offerPlaces (s.withQueue { classA := unmark s.queue.classA, classB := unmark s.queue.classB, onAir := none })

end Sys2Proof.Machine
end

