-- ==== Sys2Proof/Machine/Line.lean ====
section
/-! DEFINITION. The Line Unit (chapter 1): pieces of activity, frame assembly, verdicts and their handing on, the dispatch
of items, and transmission with its echo, collision and break. -/

namespace Sys2Proof.Machine

/-! ### Dispatch of items (R11, R12) -/

/-- Items are dispatched in this station state. -/
def dispatching (s : State) : Bool := s.control.state = .seeking || s.control.state = .active

/-- The item's DEST is this station or broadcast. -/
def addressed (d : Dest) (s : State) : Bool := d = .broadcast || d = .station (self s)

/-- An item from another station `x` is taken by the block that owns its kind. -/
def routeItem (x : Fin 32) (b : ItemBody) (s : State) : State :=
  match b with
  | .presence bitmap => takePresence x bitmap s
  | .farewell => takeFarewell x s
  | .claim m => takeClaim x m s
  | .release m => takeRelease x m s
  | .dispute m => takeDispute x m s
  | .put m t data => takePut x m t data s
  | .take m t p w => takeTake x m t p w s
  | .cancel _ t => takeCancel x t s
  | .deliverAck t dseq v => takeDeliverAck x t dseq v s
  | .putReply t r => takePutReply x t r s
  | .takeReply t r => takeTakeReply x t r s
  | .cancelReply t r => takeCancelReply x t r s
  | .deliver t dseq o data => takeDeliver x t dseq o data s

/-- An item of this station's own frame at its good echo (R15): its CLAIM and RELEASE take effect, its PRESENCE changes
nothing (R98), its FAREWELL is sent only in LEAVING, and its directed items carry a DEST other than S. -/
def ownItem (b : ItemBody) (s : State) : State :=
  match b with
  | .claim m => ownClaim m s
  | .release m => ownRelease m s
  | _ => s

/-- One item of a GOOD frame of sender `x` is dispatched. -/
def dispatchItem (x : Fin 32) (i : Item) (s : State) : State :=
  if dispatching s && addressed i.dest s then
    if x = self s then ownItem i.body s else routeItem x i.body s
  else s

/-- The items of a GOOD frame of sender `x` are dispatched in frame order. -/
def dispatchItems (x : Fin 32) (items : List Item) (s : State) : State :=
  items.foldl (fun s i => dispatchItem x i s) s

/-- A GOOD frame of sender `x` that ended at `m` goes to the Turn Tracker, the Roster Unit, and item by item to the owning
blocks; an own turn it brings follows (R10, R11, R15). -/
def receiveGood (x : Fin 32) (items : List Item) (m : Moment) (s : State) : State :=
  handOwnTurn (dispatchItems x items (heard x (frameToTracker x m s)))

/-! ### Verdicts (R8 to R10) -/

/-- The verdicts. -/
inductive Verdict where
  | good (sender : Fin 32) (items : List Item)
  | corrupt
  | foreign
  | impostor
  deriving DecidableEq, Repr

/-- The CRC check (R6): over the frame from SIG through the last payload byte. -/
def crcMatches (f : Frame) : Bool :=
  wordBytes (crc16 ([f.sig, f.sender, f.count, byteOf f.payload.length] ++ f.payload)) = f.crc

/-- Checks 5 to 7 of R8 for a frame with a correct CRC from the station number `x`. -/
def judgeSender (c : StationConfig) (f : Frame) (x : Fin 32) : Verdict :=
  if f.sig ≠ signature c || c.cycle ≤ x.val then .foreign
  else if x = c.station then .impostor
  else
    match parseItems f.count.toNat f.payload with
    | some items => .good x items
    | none => .corrupt

/-- Checks 4 to 7 of R8 over a complete frame that began while this station was not transmitting. -/
def judge (c : StationConfig) (f : Frame) : Verdict :=
  if !crcMatches f then .corrupt
  else
    match below 32 f.sender with
    | some x => judgeSender c f x
    | none => .foreign

/-- The verdict on the assembly buffer `buf`. -/
def verdictOn (buf : List Byte) (s : State) : Verdict :=
  match s.control.config, splitFrame buf with
  | some c, some f => judge c f
  | _, _ => .corrupt

/-- A verdict is handed on, with the end `m` of the activity (R10). -/
def handOn (v : Verdict) (m : Moment) (s : State) : State :=
  match v with
  | .good x items => receiveGood x items m (countGoodFrame s)
  | .corrupt => loseSync (countCorrupt s)
  | .foreign => loseSync (countForeign s)
  | .impostor => sessionEnd .duplicate s

/-! ### Activity (R2, R4, R5, R7) -/

/-- The end of a character whose start bit begins at `start`. -/
def charEnd (ch : LineChar) (start : Moment) (s : State) : Moment :=
  match ch with
  | .data _ => start + byteTime s
  | .faulty ends => ends

/-- The piece of activity under way closes with its end at `m` (R2). -/
def closeActivity (m : Moment) (s : State) : State :=
  (s.withLine { s.line with rx := .idle, assembly := [], endOfLast := some m, ownActivity := false }).withTracker
    { s.tracker with quietApplied := false }

/-- Activity that is not a completed frame is open (R2, R7). -/
def openActivity (s : State) : Bool := s.line.rx = .assembling || s.line.rx = .discarding

/-- The open activity closes by silence: CORRUPT, or no verdict for one that holds this station's own transmission
(R7, R16). During the break of this station the line is not silent. -/
def closeBySilence (s : State) : State :=
  if joined s && openActivity s && s.line.tx ≠ .breaking then
    let s' := closeActivity s.line.lastCharEnd s
    if s.line.ownActivity then s' else handOn .corrupt s.line.lastCharEnd s'
  else s

/-- The character opens a frame (R4). -/
def startsFrame (ch : LineChar) (start : Moment) (s : State) : Bool := ch = .data 0xA7#8 && silenceBefore start s

/-- The Line Unit with a piece of activity opened by `ch`. -/
def opened (ch : LineChar) (start : Moment) (s : State) : LineUnit :=
  { s.line with
    rx := if startsFrame ch start s then .assembling else .discarding
    assembly := if startsFrame ch start s then [0xA7#8] else []
    ownActivity := false
    lastCharEnd := charEnd ch start s }

/-- A frame that waits to begin is reported aborted, and the transmit buffer is emptied (R13). -/
def abortWaiting (s : State) : State :=
  if frameWaiting s then (abortFrame s).withLine { s.line with txBuffer := [] } else s

/-- A piece of activity opens with the character `ch` (R2, R4, R13, R24). -/
def activityOpens (ch : LineChar) (start : Moment) (s : State) : State :=
  if joined s then
    let s' := suspendWindow (abortWaiting s)
    s'.withLine (opened ch start s')
  else s

/-- The counted length of a frame whose LENGTH character has been read (R5). -/
def countedLength : List Byte → Option Nat
  | _ :: _ :: _ :: _ :: len :: _ => some (7 + len.toNat)
  | _ => none

/-- The range check applies at the LENGTH character and fails (R5). -/
def rangeFails : List Byte → Bool
  | [_, _, _, count, len] => !rangeFits count len
  | _ => false

/-- The activity enters DISCARDING, its last character ending at `m` (R7). -/
def discardActivity (m : Moment) (s : State) : State :=
  s.withLine { s.line with rx := .discarding, assembly := [], lastCharEnd := m }

/-- A character of a frame under assembly (R5, R7, R8). -/
def assembleCharacter (ch : LineChar) (start : Moment) (s : State) : State :=
  match ch with
  | .faulty ends => discardActivity ends s
  | .data b =>
    let buf := s.line.assembly ++ [b]
    let m := charEnd ch start s
    if rangeFails buf then discardActivity m s
    else if countedLength buf = some buf.length then handOn (verdictOn buf s) m (closeActivity m s)
    else s.withLine { s.line with assembly := buf, lastCharEnd := m }

/-- The silence after the last character is more than 2 byte times at `start` (R2). -/
def gapBefore (start : Moment) (s : State) : Bool := s.line.lastCharEnd + 2 * byteTime s < start

/-! ### Transmission (R13 to R17) -/

/-- The characters of the own frame on the line (R6). -/
def sentCharacters (s : State) : List Byte := withCrc s.line.txBuffer

/-- The moment the offered frame begins in the window `r` (R13). -/
def transmitMoment (r : Rotation) (s : State) : Moment :=
  max r.opened (((quietReference s).map fun q => q + byteTime s).getD r.opened)

/-- The offered frame begins, or is reported aborted if the line is not free (R13, R14). -/
def transmitStart (s : State) : State :=
  match s.tracker.rotation with
  | some r =>
    if frameWaiting s then
      if s.line.rx = .idle then
        suspendWindow
          (s.withLine
            { s.line with tx := .sending, txInProgress := true, rx := .echo, echoed := 0, txStart := transmitMoment r s })
      else abortWaiting s
    else s
  | none => s

/-- The items of the own frame, as the receive path reads them. -/
def ownFrameItems (s : State) : List Item :=
  match splitFrame (sentCharacters s) with
  | some f => (parseItems f.count.toNat f.payload).getD []
  | none => []

/-- The end of the own frame's last stop bit (R14). -/
def ownFrameEnd (s : State) : Moment := s.line.txStart + (sentCharacters s).length * byteTime s

/-- The frame on air holds FAREWELL. -/
def farewellOnAir (s : State) : Bool := (s.queue.onAir.map FrameOnAir.farewell).getD false

/-- The transmission is over: TXE is released and the transmit buffer emptied (R14, R16). -/
def stopSending (s : State) : State := s.withLine { s.line with tx := .off, txInProgress := false, txBuffer := [] }

/-- The own frame as the receive path takes it at a good echo (R14, R15). -/
def ownFrameReceived (s : State) : State :=
  receiveGood (self s) (ownFrameItems s) (ownFrameEnd s)
    (frameSent (closeActivity (ownFrameEnd s) (stopSending (countFrameSent s))))

/-- The echo of the own frame is good (R15). The good echo of FAREWELL in LEAVING ends the session (R50). -/
def echoGood (s : State) : State :=
  if s.line.tx = .sending then
    let s' := ownFrameReceived s
    if farewellOnAir s && s'.control.state = .leaving then sessionEnd .left s' else s'
  else s

/-- An echo comparison fails at the character that ends at `ends` (R16). -/
def collision (ends : Moment) (s : State) : State :=
  if s.line.tx = .sending then
    loseSync (abortFrame (countCollision
      (s.withLine { s.line with tx := .breaking, breakEnd := ends + 3 * byteTime s })))
  else s

/-- The break ends (R16, R17). While the station is joined the activity that held it stays open in DISCARDING. -/
def breakEnd (s : State) : State :=
  if s.line.tx = .breaking then
    let s' := stopSending s
    if joined s then
      s'.withLine
        { s'.line with rx := .discarding, assembly := [], ownActivity := true, lastCharEnd := s.line.breakEnd }
    else s'
  else s

/-- The beginning of the character time of character `k` of the own frame. -/
def charTime (k : Nat) (s : State) : Moment := s.line.txStart + k * byteTime s

/-- The read-back character matches the character sent in its character time (R15). -/
def echoMatches (ch : LineChar) (start : Moment) (s : State) : Bool :=
  ((sentCharacters s)[s.line.echoed]?.map fun b => decide (ch = .data b)).getD false &&
    charTime s.line.echoed s ≤ start && start < charTime (s.line.echoed + 1) s

/-- A character read back in ECHO (R15, R16). -/
def echoCharacter (ch : LineChar) (start : Moment) (s : State) : State :=
  if s.line.tx = .sending then
    if echoMatches ch start s then
      if s.line.echoed + 1 = (sentCharacters s).length then echoGood s
      else s.withLine { s.line with echoed := s.line.echoed + 1 }
    else collision (charTime (s.line.echoed + 1) s) s
  else s

/-! ### One character on RXD -/

/-- A character within an open piece of activity, or the next one after a silence that closes it (R2, R7). -/
def laterCharacter (ch : LineChar) (start : Moment) (s : State) : State :=
  if gapBefore start s then activityOpens ch start (closeBySilence s)
  else if s.line.rx = .assembling then assembleCharacter ch start s
  else discardActivity (charEnd ch start s) s

/-- A character read from RXD: the receive state decides what it is. OFFLINE and during this station's own break it is not
looked at (R3, R16). -/
def lineCharacter (ch : LineChar) (start : Moment) (s : State) : State :=
  if !joined s || s.line.tx = .breaking then s
  else
    match s.line.rx with
    | .idle => activityOpens ch start s
    | .assembling => laterCharacter ch start s
    | .discarding => laterCharacter ch start s
    | .echo => echoCharacter ch start s

/-! ### The output pin TXD (R1, R14, R16) -/

/-- The two levels of the line. -/
inductive LineLevel where
  | idle
  | active
  deriving DecidableEq, Repr

/-- A data bit of 0 is sent at the active level and a data bit of 1 at the idle level (R1). -/
def bitLevel (b : Bool) : LineLevel := if b then .idle else .active

/-- The ten bit times of a character: the start bit, the data bits least significant first, the stop bit (R1). -/
def charLevels (b : Byte) : List LineLevel :=
  .active :: ((List.finRange 8).map fun i => bitLevel (b.getLsbD i.val)) ++ [.idle]

/-- The bit times of characters sent back to back (R14). -/
def frameLevels (l : List Byte) : List LineLevel := (l.map charLevels).flatten

/-- The level of TXD at the moment `m` in the state `s`: idle while nothing is sent, the bits of the own frame from the
beginning of its sync character, and the active level through a break (R1, R14, R16). -/
def txdPin (m : Moment) (s : State) : LineLevel :=
  match s.line.tx with
  | .off => .idle
  | .sending =>
    if m < s.line.txStart then .idle
    else ((frameLevels (sentCharacters s))[(m - s.line.txStart) / bitTime s]?).getD .idle
  | .breaking => if m < s.line.breakEnd then .active else .idle

end Sys2Proof.Machine
end

