-- ==== Sys2Proof/Machine/Port.lean ====
section
/-! DEFINITION. The Local Port (chapter 10): the two locations, the taking of a command with its checks, BUSY and the
writing of the result, RST#, and the meanings of the rows that are accesses or edges. -/

namespace Sys2Proof.Machine

/-! ### The data location (R176, R177) -/

/-- A byte is pushed onto the tail of the parameter FIFO, or dropped with the overrun latch set (R176). -/
def writeData (b : Byte) (s : State) : State :=
  if s.rstAsserted then s
  else if s.port.busy || 32 ≤ s.port.fifo.length then setOverrun s
  else s.withPort { s.port with fifo := s.port.fifo ++ [b] }

/-- A read of the data location (R177). -/
def readData (s : State) : State :=
  if s.rstAsserted || s.port.busy then s.withPort { s.port with dataOut := 0 }
  else
    match s.port.result[s.port.readPointer]? with
    | some b => s.withPort { s.port with dataOut := b, readPointer := s.port.readPointer + 1 }
    | none => s.withPort { s.port with dataOut := 0 }

/-! ### Taking a command (R179, R180, R181) -/

/-- The result a command leaves: its status code and what follows it. -/
abbrev Result := List Byte

/-- The work of a command on the blocks that own it: the parameters and the state to the state and the result. -/
abbrev Work := List Byte → State → State × Result

/-- A result that is one status byte. -/
def only (st : Status) : Result := [statusCode st]

/-- Step 1 of R179, and the clearing of the overrun latch where check 1 of R180 has passed (R181). The taking of READ
STATUS, READ ROSTER, MAILBOX STATUS, SET ATTENTION or CLEAR COUNTERS clears it too, though R181, R84, R125, R188 and R193
say that these leave the latch: that is read of their own work, not of the taking (LOG 28). -/
def clearResult (known : Bool) (s : State) : State :=
  s.withPort { s.port with result := [], readPointer := 0, overrun := s.port.overrun && !known }

/-- BUSY stands with the result the command will write. -/
def holdResult (r : Result) (s : State) : State := s.withPort { s.port with taking := some r }

/-- Checks 2 and 3 of R180 and then the command's own range check, checks and work. -/
def checkedWork (c : Command) (work : Work) (s : State) : State × Result :=
  if !permitted c s.control.state then (s, only .badState)
  else if !lengthFits c s.port.fifo then (s, only .badLength)
  else work s.port.fifo s

/-- A write of a known command code (R179 steps 1 and 2, R180). A bus event under way is taken in full first (LOG 10), and
every known code clears the overrun latch (LOG 28). -/
def takeCommand (c : Command) (work : Work) (s : State) : State :=
  if s.rstAsserted then s
  else if s.port.busy then setOverrun s
  else
    let r := checkedWork c work (clearResult true (finishOwnTurn s))
    holdResult r.2 r.1

/-- A write of a code that is not in the command table (R180 check 1). -/
def takeUnknown (code : Byte) (s : State) : State :=
  if s.rstAsserted then s
  else if s.port.busy then setOverrun s
  else if (commandOfCode code).isSome then s
  else holdResult (only .badCommand) (clearResult false s)

/-- A write to the command/status location that finds BUSY set (R179, R181). -/
def writeWhileBusy (s : State) : State := if !s.rstAsserted && s.port.busy then setOverrun s else s

/-- Steps 3 and 4 of R179: the FIFO is emptied, the result written, and BUSY cleared. -/
def writeResult (s : State) : State :=
  match s.port.taking with
  | some r => s.withPort { s.port with fifo := [], result := r, readPointer := 0, taking := none }
  | none => s

/-! ### RST# (R57 and the reset rule of each block) -/

/-- The part while RST# is asserted: every block at its values after reset. The queue of waiting commands is not part of
the block and stays. -/
def resetPart (s : State) : State := { State.reset with rstAsserted := true, pending := s.pending }

/-- RST# is released. -/
def releaseReset (s : State) : State := { s with rstAsserted := false }

/-! ### The meanings of the accesses and edges -/

/-- HARDWARE_RESET (R57). -/
def execHardwareReset (s : State) : Host.Outcome State Fault Refusal := .next (resetPart s)

/-- RESET_RELEASED (R57). -/
def execResetReleased (s : State) : Host.Outcome State Fault Refusal := .next (releaseReset s)

/-- DATA_WRITE (R176). -/
def execDataWrite (value : Byte) (s : State) : Host.Outcome State Fault Refusal := .next (writeData value s)

/-- DATA_READ (R177). -/
def execDataRead (s : State) : Host.Outcome State Fault Refusal := .next (readData s)

/-- COMMAND_WRITE_WHILE_BUSY (R179). -/
def execCommandWriteWhileBusy (s : State) : Host.Outcome State Fault Refusal := .next (writeWhileBusy s)

/-- BAD_COMMAND (R180). -/
def execBadCommand (code : Byte) (s : State) : Host.Outcome State Fault Refusal := .next (takeUnknown code s)

/-- COMMAND_RESULT_WRITTEN (R179). -/
def execCommandResultWritten (s : State) : Host.Outcome State Fault Refusal := .next (writeResult s)

end Sys2Proof.Machine
end

