-- ==== Sys2Proof/Machine/Commands.lean ====
section
/-! DEFINITION. The seventeen commands of the local processor: the work of each after the common checks, and its
meaning. -/

namespace Sys2Proof.Machine

/-! ### Session commands (chapter 3) -/

/-- CONFIGURE (R43). -/
def configureWork : Work := fun p s =>
  match parseConfig p with
  | some c => ({ s with control := { s.control with config := some c } }, only .ok ++ [signature c])
  | none => (s, only .badParam)

/-- JOIN (R46). -/
def joinWork (moment : Moment) (rxdActive : Bool) : Work := fun _ s =>
  if s.control.config.isSome then (startSession moment rxdActive s, only .ok) else (s, only .notConfigured)

/-- LEAVE (R48). -/
def leaveWork : Work := fun _ s =>
  (if s.control.state = .active then enterLeaving s else sessionEnd .leftUnannounced s, only .ok)

/-- The values of READ STATUS (R55, 12.5). -/
def statusReport (s : State) : Result :=
  only .ok ++ [stateCode s.control.state, endCauseCode s.control.lastCause, byteOf (self s).val, byteOf (cycleLength s)] ++
    wordBytes s.tracker.ownTurnCount ++
    [byteOf (countEntries isLive s), byteOf (countEntries (fun e => e.state = .held) s),
      byteOf s.port.completions.length, byteOf (hostedCount s)]

/-- READ STATUS (R55): the state-change and notice-lost latches are cleared. -/
def readStatusWork : Work := fun _ s =>
  (s.withPort { s.port with stateChange := false, noticeLost := false }, statusReport s)

/-! ### Directory and roster commands (chapters 5 and 6) -/

/-- The own checks of OPEN (R89 checks 2 to 5) with the hosted slot and request entry it takes. -/
inductive OpenCheck where
  | refused (st : Status)
  | taken (h : Fin 16) (i : Fin 16)
  deriving DecidableEq, Repr

/-- Checks 4 and 5 of R89. -/
def openRoom (s : State) : OpenCheck :=
  match freeHosted s with
  | none => .refused .noSlot
  | some h =>
    match freeEntry s with
    | none => .refused .tableFull
    | some i => .taken h i

/-- Checks 2 to 5 of R89. -/
def openCheck (m : Fin 64) (s : State) : OpenCheck :=
  match dirEntry m s with
  | .claiming => .refused .already
  | .homed h => if h = self s then .refused .already else .refused .taken
  | _ => openRoom s

/-- The hosted slot an OPEN takes into use (R110). -/
def claimingSlot (m : Fin 64) (depth : Nat) : HostedSlot :=
  { state := .claiming, mailbox := m, depth := depth, messages := [], waiters := [] }

/-- OPEN taken (R89 steps 1 to 3). -/
def openTaken (m : Fin 64) (depth : Nat) (h : Fin 16) (i : Fin 16) (s : State) : State :=
  broadcastRequest i .claim m (setDirEntry m .claiming (setHosted h (claimingSlot m depth) s))

/-- OPEN of mailbox `m` (R89). -/
def openMailboxAt (m : Fin 64) (depth : Nat) (s : State) : State × Result :=
  match openCheck m s with
  | .refused st => (s, only st)
  | .taken h i => (openTaken m depth h i s, only .ok ++ [entryTag i s])

/-- OPEN (R89). -/
def openWork : Work := fun p s =>
  match p with
  | [mb, depth] =>
    match below 64 mb with
    | some m => if 1 ≤ depth.toNat ∧ depth.toNat ≤ 32 then openMailboxAt m depth.toNat s else (s, only .badParam)
    | none => (s, only .badParam)
  | _ => (s, only .badParam)

/-- Steps 1 and 2 of R93: the entry becomes FREE and the hosted mailbox is discarded. -/
def closedMailbox (m : Fin 64) (s : State) : State := discardMailbox .closed m (setDirEntry m .free s)

/-- CLOSE of mailbox `m` (R93). The entry is the lowest-numbered FREE one when step 3 is reached: a local taker that the
discard finishes may have freed a lower one. -/
def closeMailboxAt (m : Fin 64) (s : State) : State × Result :=
  if dirEntry m s = .homed (self s) then
    match freeEntry s with
    | none => (s, only .tableFull)
    | some i₀ =>
      let s' := closedMailbox m s
      let i := (freeEntry s').getD i₀
      (broadcastRequest i .release m s', only .ok ++ [entryTag i s'])
  else (s, only .notHome)

/-- CLOSE (R93). -/
def closeWork : Work := fun p s =>
  match p with
  | [mb] =>
    match below 64 mb with
    | some m => closeMailboxAt m s
    | none => (s, only .badParam)
  | _ => (s, only .badParam)

/-- READ DIRECTORY START (R103). -/
def readDirectoryStartWork : Work := fun _ s => readDirectory 0 s

/-- READ DIRECTORY CONTINUE (R104). -/
def readDirectoryContinueWork : Work := fun _ s =>
  match s.directory.cursor with
  | some c => readDirectory c s
  | none => (s, only .noCursor)

/-- READ ROSTER (R84, 12.5). -/
def readRosterWork : Work := fun _ s =>
  (s, only .ok ++ [byteOf (cycleLength s)] ++ (s.roster.toList.take (cycleLength s)).map rosterByte)

/-! ### Message commands (chapters 7 to 9) -/

/-- A remote put takes an entry, or finds none FREE (R154). -/
def putRemote (m : Fin 64) (h : Fin 32) (data : List Byte) (s : State) : State × Result :=
  match freeEntry s with
  | some i => (remotePut i h m data s, only .ok ++ [entryTag i s])
  | none => (s, only .tableFull)

/-- A local put (R120). The hosted slot is OPEN, because the directory entry is HOMED(S). -/
def putLocal (m : Fin 64) (data : List Byte) (s : State) : State × Result :=
  match openSlotOf m s with
  | some h =>
    (place (placement h s) h { origin := self s, data := data } s, only (putStatus (placementResult (placement h s))))
  | none => (s, only .noMailbox)

/-- PUT of mailbox `m` (R119). -/
def putAt (m : Fin 64) (data : List Byte) (s : State) : State × Result :=
  match dirEntry m s with
  | .homed h => if h = self s then putLocal m data s else putRemote m h data s
  | _ => (s, only .noMailbox)

/-- PUT (R119). -/
def putWork : Work := fun p s =>
  match p with
  | mb :: l :: data =>
    match below 64 mb with
    | some m => if 1 ≤ l.toNat ∧ l.toNat ≤ 24 then putAt m data s else (s, only .badParam)
    | none => (s, only .badParam)
  | _ => (s, only .badParam)

/-- A remote take takes an entry, or finds none FREE (R155). -/
def takeRemote (m : Fin 64) (h : Fin 32) (p : Fin 4) (w : Byte) (s : State) : State × Result :=
  match freeEntry s with
  | some i => (remoteTake i h m p w s, only .ok ++ [entryTag i s])
  | none => (s, only .tableFull)

/-- The entry of a local take that waits (R135, R170). -/
def localTakeEntry (i : Fin 16) (m : Fin 64) (p : Fin 4) (w : Byte) (s : State) : Entry :=
  { newEntry i .take m (some (self s)) s with state := .localParked, priority := p, wait := w }

/-- A local take waits in entry `i` and waiter record `v` (R135, last row). -/
def parkLocal (i : Fin 16) (v : Fin 32) (h : Fin 16) (m : Fin 64) (p : Fin 4) (w : Byte) (s : State) : State :=
  pairing (makeWaiter v h (self s) (entryTag i s) p w (setEntry i (localTakeEntry i m p w s) s))

/-- The last row of R135. -/
def takeLocalWaiting (h : Fin 16) (m : Fin 64) (p : Fin 4) (w : Byte) (s : State) : State × Result :=
  match freeEntry s with
  | none => (s, only .tableFull)
  | some i =>
    match freeWaiter s with
    | none => (s, only .waitFull)
    | some v => (parkLocal i v h m p w s, only .ok ++ [entryTag i s])

/-- The result of a local take served at once (12.5). -/
def deliveredResult (msg : Message) : Result :=
  only .delivered ++ [byteOf msg.origin.val, byteOf msg.data.length] ++ msg.data

/-- A local take at hosted slot `h` (R135). -/
def takeLocalAt (h : Fin 16) (m : Fin 64) (p : Fin 4) (w : Byte) (s : State) : State × Result :=
  match (hostedSlot h s).messages, (hostedSlot h s).waiters with
  | c :: _, [] => (setCell c none (dropHead h s), deliveredResult ((cell c s).getD { origin := 0, data := [] }))
  | msgs, _ =>
    if w = 0#8 then (s, only (if msgs.isEmpty then .empty else .homeBusy))
    else takeLocalWaiting h m p w s

/-- A local take (R135). -/
def takeLocal (m : Fin 64) (p : Fin 4) (w : Byte) (s : State) : State × Result :=
  match openSlotOf m s with
  | some h => takeLocalAt h m p w s
  | none => (s, only .noMailbox)

/-- TAKE of mailbox `m` (R135). -/
def takeAt (m : Fin 64) (p : Fin 4) (w : Byte) (s : State) : State × Result :=
  match dirEntry m s with
  | .homed h => if h = self s then takeLocal m p w s else takeRemote m h p w s
  | _ => (s, only .noMailbox)

/-- TAKE (R135). -/
def takeWork : Work := fun p s =>
  match p with
  | [mb, prio, w] =>
    match below 64 mb, below 4 prio with
    | some m, some pr => takeAt m pr w s
    | _, _ => (s, only .badParam)
  | _ => (s, only .badParam)

/-- The cancel-requested flag of entry `i` is set. -/
def requestCancel (i : Fin 16) (s : State) : State := setEntry i { entry i s with cancelRequested := true } s

/-- A local take is cancelled: its waiter is removed, the entry finishes, and pairing may follow (R165, R131). -/
def cancelLocal (i : Fin 16) (s : State) : State := pairing (finish i .cancelled (removeLocalWaiter i s))

/-- A CANCEL command for the TAKE entry `i` (R165). -/
def cancelTake (i : Fin 16) (s : State) : State × Result :=
  match (entry i s).state with
  | .waiting => (finishAndPromote i .cancelled s, only .ok)
  | .queued =>
    if (entry i s).attempts = 0 ∧ itemOnAir i s = false then (finishAndPromote i .cancelled s, only .ok)
    else (requestCancel i s, only .ok)
  | .sent => (requestCancel i s, only .ok)
  | .parked => (beginCancel i .localCause s, only .ok)
  | .localParked => (cancelLocal i s, only .ok)
  | _ => (s, only .notCancellable)

/-- CANCEL of tag `t` (R165). -/
def cancelTag (t : Byte) (s : State) : State × Result :=
  let i := slotOfTag t
  if (entry i s).state = .free || entryTag i s ≠ t then (s, only .unknownTag)
  else if (entry i s).kind ≠ .take then (s, only .notCancellable)
  else cancelTake i s

/-- CANCEL (R165). -/
def cancelWork : Work := fun p s =>
  match p with
  | [t] => cancelTag t s
  | _ => (s, only .badParam)

/-- The last five values of MAILBOX STATUS (R125): hosted, depth limit, stored, waiters, deliveries. -/
def hostedReport (m : Fin 64) (s : State) : List Byte :=
  match usedSlotOf m s with
  | some h =>
    let x := hostedSlot h s
    [1, byteOf x.depth, byteOf x.messages.length, byteOf x.waiters.length, byteOf (deliveryCount h s)]
  | none => [0, 0, 0, 0, 0]

/-- MAILBOX STATUS (R125, 12.5). -/
def mailboxStatusWork : Work := fun p s =>
  match p with
  | [mb] =>
    match below 64 mb with
    | some m =>
      (s, only .ok ++ [dirStateCode (dirEntry m s), dirHome (self s) (dirEntry m s)] ++ hostedReport m s)
    | none => (s, only .badParam)
  | _ => (s, only .badParam)

/-! ### Port commands (chapter 10) -/

/-- POP COMPLETION (R186). -/
def popWork : Work := fun _ s =>
  match s.port.completions with
  | [] => (s, only .nothing)
  | r :: rest => (moveHeldIn (s.withPort { s.port with completions := rest }), only .ok ++ recordBytes r)

/-- SET ATTENTION (R188, 12.4). -/
def setAttentionWork : Work := fun p s =>
  match p with
  | [mask] =>
    if mask.toNat ≤ 3 then
      (s.withPort { s.port with maskCQ := mask.getLsbD 0, maskST := mask.getLsbD 1 }, only .ok)
    else (s, only .badParam)
  | _ => (s, only .badParam)

/-- READ COUNTERS (R192). -/
def readCountersWork : Work := fun _ s => (s, only .ok ++ counterBytes s.port.counters)

/-- CLEAR COUNTERS (R193). -/
def clearCountersWork : Work := fun _ s => (s.withCounters Counters.zero, only .ok)

/-! ### The meanings -/

/-- CONFIGURE (R43). -/
def execConfigure (s : State) : Host.Outcome State Fault Refusal := .next (takeCommand .configure configureWork s)

/-- JOIN (R46). -/
def execJoin (moment : Moment) (rxdActive : Bool) (s : State) : Host.Outcome State Fault Refusal :=
  .next (takeCommand .join (joinWork moment rxdActive) s)

/-- LEAVE (R48). -/
def execLeave (s : State) : Host.Outcome State Fault Refusal := .next (takeCommand .leave leaveWork s)

/-- READ_STATUS (R55). -/
def execReadStatus (s : State) : Host.Outcome State Fault Refusal := .next (takeCommand .readStatus readStatusWork s)

/-- OPEN (R89). -/
def execOpenMailbox (s : State) : Host.Outcome State Fault Refusal := .next (takeCommand .openMailbox openWork s)

/-- CLOSE (R93). -/
def execCloseMailbox (s : State) : Host.Outcome State Fault Refusal := .next (takeCommand .closeMailbox closeWork s)

/-- READ_DIRECTORY_START (R103). -/
def execReadDirectoryStart (s : State) : Host.Outcome State Fault Refusal :=
  .next (takeCommand .readDirectoryStart readDirectoryStartWork s)

/-- READ_DIRECTORY_CONTINUE (R104). -/
def execReadDirectoryContinue (s : State) : Host.Outcome State Fault Refusal :=
  .next (takeCommand .readDirectoryContinue readDirectoryContinueWork s)

/-- READ_ROSTER (R84). -/
def execReadRoster (s : State) : Host.Outcome State Fault Refusal := .next (takeCommand .readRoster readRosterWork s)

/-- PUT (R119). -/
def execPut (s : State) : Host.Outcome State Fault Refusal := .next (takeCommand .put putWork s)

/-- TAKE (R135). -/
def execTake (s : State) : Host.Outcome State Fault Refusal := .next (takeCommand .take takeWork s)

/-- CANCEL (R165). -/
def execCancel (s : State) : Host.Outcome State Fault Refusal := .next (takeCommand .cancel cancelWork s)

/-- MAILBOX_STATUS (R125). -/
def execMailboxStatus (s : State) : Host.Outcome State Fault Refusal :=
  .next (takeCommand .mailboxStatus mailboxStatusWork s)

/-- POP_COMPLETION (R186). -/
def execPopCompletion (s : State) : Host.Outcome State Fault Refusal := .next (takeCommand .popCompletion popWork s)

/-- SET_ATTENTION (R188). -/
def execSetAttention (s : State) : Host.Outcome State Fault Refusal :=
  .next (takeCommand .setAttention setAttentionWork s)

/-- READ_COUNTERS (R192). -/
def execReadCounters (s : State) : Host.Outcome State Fault Refusal :=
  .next (takeCommand .readCounters readCountersWork s)

/-- CLEAR_COUNTERS (R193). -/
def execClearCounters (s : State) : Host.Outcome State Fault Refusal :=
  .next (takeCommand .clearCounters clearCountersWork s)

end Sys2Proof.Machine
end

