-- ==== Sys2Proof/Machine/Events.lean ====
section
/-! DEFINITION. The meanings of the rows that are events of the line, of the rotation and of the deadlines. An event whose
condition does not hold changes nothing. Every event but a deadline first takes an own turn under way to its end. -/

namespace Sys2Proof.Machine

/-! ### Deadlines (R142, R144, R159, R163, R164) -/

/-- The lowest-numbered request entry whose deadline is reached acts, if it is in one of the states of the row. -/
def actOnDueEntry (p : EntryState → Bool) (s : State) : State :=
  match dueEntry s with
  | some i => if p (entry i s).state then settle (actOnEntry i s) else s
  | none => s

/-- The states a reply deadline belongs to (R159). -/
def hasReplyDeadline (st : EntryState) : Bool := st = .sent || st = .cancelSent

/-- The lowest-numbered waiter whose deadline is reached expires (R144, R145). -/
def expireDueWaiter (s : State) : State :=
  match dueWaiter s with
  | some w => settle (actOnWaiter w s)
  | none => s

/-- The lowest-numbered delivery slot whose deadline is reached acts, after the waiters (R142, R145). -/
def actOnDueDelivery (s : State) : State :=
  if (dueWaiter s).isSome then s
  else
    match dueDelivery s with
    | some d => settle (actOnDelivery d s)
    | none => s

/-! ### Reception -/

/-- ACTIVITY_OPENS (R2, R4). -/
def execActivityOpens (ch : LineChar) (start : Moment) (s : State) : Host.Outcome State Fault Refusal :=
  .next (lineCharacter ch start (finishOwnTurn s))

/-- CHARACTER_RECEIVED (R5, R7). -/
def execCharacterReceived (ch : LineChar) (start : Moment) (s : State) : Host.Outcome State Fault Refusal :=
  .next (lineCharacter ch start (finishOwnTurn s))

/-- FRAME_ASSEMBLY_COMPLETE (R5, R8). -/
def execFrameAssemblyComplete (ch : LineChar) (start : Moment) (s : State) : Host.Outcome State Fault Refusal :=
  .next (lineCharacter ch start (finishOwnTurn s))

/-- ACTIVITY_CLOSES_BY_SILENCE (R7, R16). -/
def execActivityClosesBySilence (s : State) : Host.Outcome State Fault Refusal := .next (closeBySilence (finishOwnTurn s))

/-! ### Rotation -/

/-- TURN_LAPSE (R25). -/
def execTurnLapse (s : State) : Host.Outcome State Fault Refusal := .next (turnLapse (finishOwnTurn s))

/-- QUIET_RULE (R27). -/
def execQuietRule (s : State) : Host.Outcome State Fault Refusal := .next (quietRule (finishOwnTurn s))

/-- QUIET_RESYNC (R32). -/
def execQuietResync (s : State) : Host.Outcome State Fault Refusal := .next (quietResync (finishOwnTurn s))

/-! ### Transmission -/

/-- FRAME_TRANSMIT_START (R13, R14). -/
def execFrameTransmitStart (s : State) : Host.Outcome State Fault Refusal := .next (transmitStart (finishOwnTurn s))

/-- ECHO_GOOD (R15). -/
def execEchoGood (s : State) : Host.Outcome State Fault Refusal := .next (echoGood (finishOwnTurn s))

/-- COLLISION (R16). -/
def execCollision (ends : Moment) (s : State) : Host.Outcome State Fault Refusal := .next (collision ends (finishOwnTurn s))

/-- BREAK_END (R16, R17). -/
def execBreakEnd (s : State) : Host.Outcome State Fault Refusal := .next (breakEnd (finishOwnTurn s))

/-! ### Deadlines -/

/-- REPLY_DEADLINE (R159). -/
def execReplyDeadline (s : State) : Host.Outcome State Fault Refusal := .next (actOnDueEntry hasReplyDeadline s)

/-- BACKSTOP (R163). -/
def execBackstop (s : State) : Host.Outcome State Fault Refusal := .next (actOnDueEntry (fun st => st = .parked) s)

/-- LATE_DEADLINE (R164). -/
def execLateDeadline (s : State) : Host.Outcome State Fault Refusal := .next (actOnDueEntry (fun st => st = .late) s)

/-- WAITER_EXPIRY (R144). -/
def execWaiterExpiry (s : State) : Host.Outcome State Fault Refusal := .next (expireDueWaiter s)

/-- DELIVERY_DEADLINE (R142). -/
def execDeliveryDeadline (s : State) : Host.Outcome State Fault Refusal := .next (actOnDueDelivery s)

end Sys2Proof.Machine
end

