-- ==== Sys2Proof/Machine/Dispatch.lean ====
section
/-! DEFINITION. What each command does: one arm for each constructor of Instr. -/

namespace Sys2Proof.Machine

def exec (i : Instr) (s : State) : Host.Outcome State Fault Refusal :=
  match i with
  | .hardwareReset => Sys2Proof.Machine.execHardwareReset s
  | .dataWrite value => Sys2Proof.Machine.execDataWrite value s
  | .dataRead => Sys2Proof.Machine.execDataRead s
  | .commandWriteWhileBusy => Sys2Proof.Machine.execCommandWriteWhileBusy s
  | .badCommand code => Sys2Proof.Machine.execBadCommand code s
  | .configure => Sys2Proof.Machine.execConfigure s
  | .join moment rxdActive => Sys2Proof.Machine.execJoin moment rxdActive s
  | .leave => Sys2Proof.Machine.execLeave s
  | .readStatus => Sys2Proof.Machine.execReadStatus s
  | .openMailbox => Sys2Proof.Machine.execOpenMailbox s
  | .closeMailbox => Sys2Proof.Machine.execCloseMailbox s
  | .readDirectoryStart => Sys2Proof.Machine.execReadDirectoryStart s
  | .readDirectoryContinue => Sys2Proof.Machine.execReadDirectoryContinue s
  | .readRoster => Sys2Proof.Machine.execReadRoster s
  | .put => Sys2Proof.Machine.execPut s
  | .take => Sys2Proof.Machine.execTake s
  | .cancel => Sys2Proof.Machine.execCancel s
  | .mailboxStatus => Sys2Proof.Machine.execMailboxStatus s
  | .popCompletion => Sys2Proof.Machine.execPopCompletion s
  | .setAttention => Sys2Proof.Machine.execSetAttention s
  | .readCounters => Sys2Proof.Machine.execReadCounters s
  | .clearCounters => Sys2Proof.Machine.execClearCounters s
  | .activityOpens ch start => Sys2Proof.Machine.execActivityOpens ch start s
  | .activityClosesBySilence => Sys2Proof.Machine.execActivityClosesBySilence s
  | .frameAssemblyComplete ch start => Sys2Proof.Machine.execFrameAssemblyComplete ch start s
  | .turnLapse => Sys2Proof.Machine.execTurnLapse s
  | .quietRule => Sys2Proof.Machine.execQuietRule s
  | .quietResync => Sys2Proof.Machine.execQuietResync s
  | .frameTransmitStart => Sys2Proof.Machine.execFrameTransmitStart s
  | .echoGood => Sys2Proof.Machine.execEchoGood s
  | .collision ends => Sys2Proof.Machine.execCollision ends s
  | .breakEnd => Sys2Proof.Machine.execBreakEnd s
  | .replyDeadline => Sys2Proof.Machine.execReplyDeadline s
  | .backstop => Sys2Proof.Machine.execBackstop s
  | .lateDeadline => Sys2Proof.Machine.execLateDeadline s
  | .waiterExpiry => Sys2Proof.Machine.execWaiterExpiry s
  | .deliveryDeadline => Sys2Proof.Machine.execDeliveryDeadline s
  | .characterReceived ch start => Sys2Proof.Machine.execCharacterReceived ch start s
  | .resetReleased => Sys2Proof.Machine.execResetReleased s
  | .commandResultWritten => Sys2Proof.Machine.execCommandResultWritten s

end Sys2Proof.Machine
end

