-- ==== Sys2Proof/Safety.lean ====
section
/-! DEFINITION. The predicates the statements are written with: the bounds the spec gives the block's tables (R58, R74, R176,
R182, R185) and what the station state says of the tracker and the Line Unit, which a step keeps and which hold at reset; and
the words for a command that is ready to be taken, for its taking, and for the end of a session. -/

namespace Sys2Proof.Machine

/-- The item queue keeps its class A bound (R58). -/
def queueBounded (s : State) : Prop := s.queue.classA.length ≤ 24

/-- The Local Port keeps its bounds (R176, R182). -/
def portBounded (s : State) : Prop := s.port.fifo.length ≤ 32 ∧ s.port.completions.length ≤ 16

/-- While the held list is not empty, the completion queue holds 16 records (R185). -/
def heldBehindFull (s : State) : Prop := s.engine.held ≠ [] → s.port.completions.length = 16

/-- Missed-turn counts lie in 0 to 8 (R74). -/
def rosterBounded (s : State) : Prop := ∀ x : Fin 32, (look s.roster x).missed ≤ 8

/-- The transmit-in-progress flag is set exactly while a frame or a break goes out (R14, R16). -/
def flagFollowsTransmit (s : State) : Prop := s.line.txInProgress = true ↔ s.line.tx ≠ .off

/-- The bounds together. -/
def Bounded (s : State) : Prop :=
  queueBounded s ∧ portBounded s ∧ heldBehindFull s ∧ rosterBounded s ∧ flagFollowsTransmit s

/-! ### Station state and synchronisation (R3, R20, R22, R39) -/

/-- In OFFLINE the tracker is stopped and the Line Unit does not look at the line: nothing but a break can be on TXD. -/
def StoppedOffline (s : State) : Prop :=
  s.tracker.rotation = none ∧ quietReference s = none ∧ s.line.rx = .idle ∧ s.line.tx ≠ .sending

/-- The station state and the sync state agree (R22): SEEKING is UNSYNCED, ACTIVE and LEAVING are SYNCED, and OFFLINE is
stopped. -/
def SyncMatches (s : State) : Prop :=
  (s.control.state = .offline → StoppedOffline s) ∧ (s.control.state = .seeking → s.tracker.rotation = none) ∧
    (s.control.state = .active ∨ s.control.state = .leaving → s.tracker.rotation.isSome = true)

/-- The configuration, while valid, lies in the ranges of CONFIGURE (R43). -/
def ConfigLegal (s : State) : Prop :=
  ∀ c, s.control.config = some c →
    2 ≤ c.cycle ∧ c.cycle ≤ 32 ∧ c.station.val < c.cycle ∧ 4 ≤ c.window ∧ c.window ≤ 15 ∧ 2 ≤ c.replyLimit ∧
      c.replyLimit ≤ 15

/-- The read pointer stands within the result, and the result is empty while BUSY is set (R177, R179). -/
def ResultWhole (s : State) : Prop :=
  s.port.readPointer ≤ s.port.result.length ∧ (s.port.taking ≠ none → s.port.result = [])

/-! ### Rows of the table -/

/-- The command whose code the row writes; none for a row that is no command. -/
def commandRow : Instr → Option Command
  | .configure => some .configure
  | .join _ _ => some .join
  | .leave => some .leave
  | .readStatus => some .readStatus
  | .openMailbox => some .openMailbox
  | .closeMailbox => some .closeMailbox
  | .readDirectoryStart => some .readDirectoryStart
  | .readDirectoryContinue => some .readDirectoryContinue
  | .readRoster => some .readRoster
  | .put => some .put
  | .take => some .take
  | .cancel => some .cancel
  | .mailboxStatus => some .mailboxStatus
  | .popCompletion => some .popCompletion
  | .setAttention => some .setAttention
  | .readCounters => some .readCounters
  | .clearCounters => some .clearCounters
  | _ => none

/-- The row is a character read from RXD. The receive state decides which of the three rows it is. -/
def IsCharacter (i : Instr) (ch : LineChar) (start : Moment) : Prop :=
  i = .activityOpens ch start ∨ i = .characterReceived ch start ∨ i = .frameAssemblyComplete ch start

/-- The row is an event of the line or of the rotation, so that it falls outside an own turn whose deadlines are still
acting. -/
def IsLineEvent (i : Instr) : Prop :=
  (∃ ch start, IsCharacter i ch start) ∨ (∃ ends, i = .collision ends) ∨
    i ∈ [.activityClosesBySilence, .turnLapse, .quietRule, .quietResync, .frameTransmitStart, .echoGood, .breakEnd]

/-- The number of parameter bytes of each command but PUT (R180). -/
def parameterCount : Command → Nat
  | .configure => 5
  | .openMailbox => 2
  | .closeMailbox => 1
  | .take => 3
  | .cancel => 1
  | .mailboxStatus => 1
  | .setAttention => 1
  | _ => 0

/-- The FIFO holds a wrong number of bytes for the command (R180 check 3). -/
def WrongLength (c : Command) (p : List Byte) : Prop :=
  (c ≠ .put ∧ p.length ≠ parameterCount c) ∨ (c = .put ∧ ∀ m l rest, p = m :: l :: rest → p.length ≠ 2 + l.toNat)

/-- The station state does not permit the command (R56). -/
def NotPermitted (c : Command) (st : StationState) : Prop :=
  ((c = .configure ∨ c = .join) ∧ st ≠ .offline) ∨
    (c ∈ [.leave, .openMailbox, .closeMailbox, .put, .take, .cancel] ∧ (st = .offline ∨ st = .leaving))

/-! ### The taking of a command -/

/-- The part is ready for a command: RST# is released, BUSY is clear, no own turn is under way, and the parameter FIFO
holds `p`. -/
structure CommandReady (p : List Byte) (s : State) : Prop where
  released : s.rstAsserted = false
  notBusy : s.port.taking = none
  between : s.tracker.ownTurnOpen = false
  parameters : s.port.fifo = p

/-- The station is SEEKING or ACTIVE. -/
def OnBus (s : State) : Prop := s.control.state = .seeking ∨ s.control.state = .active

/-- A command is begun: the result is cleared (R179 step 1) and so is the overrun latch (R181). -/
def begun (s : State) : State :=
  { s with port := { s.port with result := [], readPointer := 0, overrun := false } }

/-- The work of the command is done: BUSY stands, with the result `r` to be written. -/
def answered (r : List Byte) (s : State) : State := { s with port := { s.port with taking := some r } }

/-- A command that is taken and changes no block; it leaves the result `r`. -/
def taken (r : List Byte) (s : State) : State := answered r (begun s)

/-- `i` is the lowest place that satisfies `p`. -/
def Lowest {n : Nat} (p : Fin n → Prop) (i : Fin n) : Prop := p i ∧ ∀ j, j < i → ¬ p j

/-- The entry of slot `i` after a command of the kind given has allocated it (R153). -/
def allocated (i : Fin 16) (kind : RequestKind) (m : Fin 64) (home : Option (Fin 32)) (s : State) : Entry :=
  { Entry.blank (entry i s).generation with kind := kind, mailbox := m, home := home }

/-- No message that arrives at hosted slot `h` can be handed to its head waiter: there is none, or it is remote and the
load stands at the depth limit, or no delivery slot or no cell is free (R117). -/
def HeadCannotBeServed (h : Fin 16) (s : State) : Prop :=
  ∀ w rest, (hostedSlot h s).waiters = w :: rest →
    ∃ r, waiter w s = some r ∧ r.requester ≠ self s ∧
      ((hostedSlot h s).depth ≤ load h s ∨ (∀ d : Fin 8, delivery d s ≠ none) ∨ ∀ c : Fin 64, cell c s ≠ none)

/-! ### The ends of sessions -/

/-- Every request entry is FREE or HELD, and no entry waits. -/
def NothingLive (s : State) : Prop :=
  (∀ i : Fin 16, (entry i s).state = .free ∨ (entry i s).state = .held) ∧ ∀ h : Fin 32, waitingOrder h s = []

/-- The records and held entries of `s` still stand in `t`, ahead of what has joined them. -/
def RecordsKept (s t : State) : Prop :=
  s.port.completions <+: t.port.completions ∧ s.engine.held <+: t.engine.held

/-- The entries of `l` have finished with status `st`, in the order of `l`, from `s` to `t` (R153, R173): as many as the
completion queue has places for leave their records at its tail and are FREE with the generation raised, and the others
are HELD at the tail of the held list with the record's contents. -/
structure FinishedInOrder (st : Status) (l : List (Fin 16)) (s t : State) : Prop where
  records : t.port.completions =
    s.port.completions ++
      (l.take (16 - s.port.completions.length)).map fun i =>
        .request (entry i s).kind (entryTag i s) st (entry i s).mailbox 0 []
  held : t.engine.held = s.engine.held ++ l.drop (16 - s.port.completions.length)
  freed : ∀ i ∈ l.take (16 - s.port.completions.length), entry i t = Entry.blank ((entry i s).generation + 1)
  kept : ∀ i ∈ l.drop (16 - s.port.completions.length),
    entry i t =
      { entry i s with state := .held, deadline := none, result := { status := some st, origin := 0, data := [] } }
  others : ∀ i, i ∉ l → entry i t = entry i s

/-- The live entries of `s`, in slot order. -/
def liveEntries (s : State) : List (Fin 16) := (List.finRange 16).filter fun i => isLive (entry i s)

/-- Every live entry has finished SESSION_END, in slot order (R172). -/
def LiveEntriesEnded (s t : State) : Prop := FinishedInOrder .sessionEnd (liveEntries s) s t

/-- Every local waiter bears the tag of a LOCAL_PARKED entry, and no two bear the same (R130, R170). -/
def LocalTakersAgree (s : State) : Prop :=
  (∀ w r, waiter w s = some r → r.requester = self s →
    (entry (slotOfTag r.tag) s).state = .localParked ∧ entryTag (slotOfTag r.tag) s = r.tag) ∧
  ∀ w v r q, waiter w s = some r → waiter v s = some q → r.requester = self s → q.requester = self s → r.tag = q.tag → w = v

/-- The waiter lists hold the waiters in use, each once, in the list of its own hosted slot (R130, R131). -/
def WaitersListed (s : State) : Prop :=
  (∀ h : Fin 16, (hostedSlot h s).waiters.Nodup) ∧
  (∀ h w, w ∈ (hostedSlot h s).waiters → ∃ r, waiter w s = some r ∧ r.hosted = h) ∧
  ∀ w r, waiter w s = some r → w ∈ (hostedSlot r.hosted s).waiters

/-! ### The discard of a mailbox (R121, R122) -/

/-- Delivery slot `d` of `s` is in use for hosted slot `h`. -/
def servesHosted (h : Fin 16) (d : Fin 8) (s : State) : Bool :=
  ((delivery d s).map fun x => decide (x.hosted = h)).getD false

/-- The request entries of the local waiters of hosted slot `h`, in list order. -/
def localTakers (h : Fin 16) (s : State) : List (Fin 16) :=
  (hostedSlot h s).waiters.filterMap fun w =>
    (waiter w s).bind fun r => if r.requester = self s then some (slotOfTag r.tag) else none

/-- Exchange memory entry `x` refers to a remote waiter or a delivery slot of hosted slot `h` (R122). -/
def RefersToHosted (h : Fin 16) (x : Fin 32) (tag : Byte) (s : State) : Prop :=
  (exchange x s = some ⟨tag, .take .parked⟩ ∧
    ∃ w ∈ (hostedSlot h s).waiters, ∃ r, waiter w s = some r ∧ r.requester = x ∧ r.tag = tag ∧ x ≠ self s) ∨
  ∃ d y, exchange x s = some ⟨tag, .take (.delivering d)⟩ ∧ delivery d s = some y ∧ y.hosted = h ∧ y.dest = x ∧ y.tag = tag

/-- The class A list after the DELIVERs of hosted slot `h` are withdrawn (R61, R63). -/
def withoutDelivers (h : Fin 16) (s : State) : List QueuedItem :=
  (List.finRange 8).foldl (fun l d => if servesHosted h d s then withdrawFrom (.delivery d) l else l) s.queue.classA

/-- `t` is what the five steps of the discard of the mailbox in hosted slot `h` make of `s`, its local takers finishing
with status `st` (R121, R122). That the FREE slot holds blank values is the model's choice, LOG 21. -/
structure Discarded (st : Status) (h : Fin 16) (s t : State) : Prop where
  takers : FinishedInOrder st (localTakers h s) s t
  slot : hostedSlot h t = HostedSlot.blank
  otherSlots : ∀ k, k ≠ h → hostedSlot k t = hostedSlot k s
  waiters : ∀ w, waiter w t = if w ∈ (hostedSlot h s).waiters then none else waiter w s
  deliveries : ∀ d, delivery d t = if servesHosted h d s then none else delivery d s
  unqueued : t.store.unqueued = s.store.unqueued.filter fun d => !servesHosted h d s
  cellsFreed : ∀ c, (c ∈ (hostedSlot h s).messages ∨ ∃ d x, delivery d s = some x ∧ x.hosted = h ∧ x.cell = c) →
    cell c t = none
  cellsKept : ∀ c, ¬ (c ∈ (hostedSlot h s).messages ∨ ∃ d x, delivery d s = some x ∧ x.hosted = h ∧ x.cell = c) →
    cell c t = cell c s
  memoryAdjusted : ∀ x tag, RefersToHosted h x tag s → exchange x t = some ⟨tag, .take .noMailbox⟩
  memoryKept : ∀ x, (∀ tag, ¬ RefersToHosted h x tag s) → exchange x t = exchange x s
  classA : t.queue.classA = withoutDelivers h s
  rest : t.control = s.control ∧ t.line = s.line ∧ t.tracker = s.tracker ∧ t.roster = s.roster ∧
    t.directory = s.directory ∧ t.queue.onAir = s.queue.onAir ∧
    t.port = { s.port with completions := t.port.completions } ∧ t.store.dseq = s.store.dseq ∧
    t.store.arrivalStamp = s.store.arrivalStamp

/-- `t` is what a session end with the given cause makes of `s` (R20, R39, R52, R72, R86, R108, R128, R172, R194). That
the FREE hosted slots hold blank values is the model's choice, LOG 21. -/
structure SessionEnded (cause : EndCause) (s t : State) : Prop where
  control : t.control = { s.control with state := .offline, lastCause := cause }
  line : t.line.rx = .idle ∧ t.line.assembly = [] ∧ t.line.endOfLast = none ∧
    t.line.tx = if s.line.tx = .breaking then .breaking else .off
  tracker : t.tracker = { s.tracker with rotation := none, joinedAt := none, quietApplied := false, ownTurnOpen := false }
  queue : t.queue = { classA := [], classB := [], onAir := none }
  roster : ∀ x : Fin 32, rosterEntry x t = { presence := .unknown, missed := 0 }
  directory : t.directory.cursor = none ∧ ∀ m : Fin 64, dirEntry m t = .free
  store : t.store = MailboxStore.cleared s.store.arrivalStamp s.store.dseq
  engine : NothingLive t
  ended : LiveEntriesEnded s t
  records : RecordsKept s t
  port : t.port = { s.port with completions := t.port.completions, stateChange := true }
  rest : t.rstAsserted = s.rstAsserted ∧ t.pending = s.pending

/-! ### The tables of the Mailbox Store and of the Request Engine (R58, R88, R111, R112, R130, R131, R156, R170) -/

/-- Each cell in use stands in one message list, once, or is held by one delivery slot; a free cell in neither (R112). -/
structure CellsPlaced (s : State) : Prop where
  once : ∀ h : Fin 16, (hostedSlot h s).messages.Nodup
  apart : ∀ h k c, c ∈ (hostedSlot h s).messages → c ∈ (hostedSlot k s).messages → h = k
  stored : ∀ h c, c ∈ (hostedSlot h s).messages → cell c s ≠ none
  carried : ∀ d x, delivery d s = some x → cell x.cell s ≠ none ∧ ∀ h : Fin 16, x.cell ∉ (hostedSlot h s).messages
  alone : ∀ d e x y, delivery d s = some x → delivery e s = some y → x.cell = y.cell → d = e
  found : ∀ c, cell c s ≠ none →
    (∃ h : Fin 16, c ∈ (hostedSlot h s).messages) ∨ ∃ d x, delivery d s = some x ∧ x.cell = c

/-- The load of a hosted mailbox never exceeds its depth limit, which lies in 1 to 32 (R111); a slot that is not OPEN holds
no message, no waiter and no delivery (R110, R126). -/
structure LoadsKept (s : State) : Prop where
  loads : ∀ h : Fin 16, load h s ≤ (hostedSlot h s).depth
  depths : ∀ h : Fin 16, (hostedSlot h s).state ≠ .free → 1 ≤ (hostedSlot h s).depth ∧ (hostedSlot h s).depth ≤ 32
  shut : ∀ h : Fin 16, (hostedSlot h s).state ≠ .opened →
    (hostedSlot h s).messages = [] ∧ (hostedSlot h s).waiters = [] ∧ deliveryCount h s = 0

/-- Each waiter list stands in order of priority (R131). -/
def WaitersOrdered (s : State) : Prop :=
  ∀ h : Fin 16, (hostedSlot h s).waiters.Pairwise fun v w => priorityOf v s ≤ priorityOf w s

/-- A hosted mailbox holds stored messages and waiters at the same time only while all 8 delivery slots are occupied and
its head waiter is remote (R131). -/
def PairsServed (s : State) : Prop :=
  ∀ h w rest, (hostedSlot h s).messages ≠ [] → (hostedSlot h s).waiters = w :: rest →
    (∃ r, waiter w s = some r ∧ r.requester ≠ self s) ∧ ∀ d : Fin 8, delivery d s ≠ none

/-- A mailbox number is CLAIMING in the directory exactly while a hosted slot is CLAIMING for it, and HOMED(S) exactly
while one is OPEN for it, one slot for each (R88, R89, R110); in LEAVING and OFFLINE there is no hosted slot, and in
OFFLINE the directory is FREE (R106, R108, R127, R128). -/
structure DirectoryAgrees (s : State) : Prop where
  claiming : ∀ h : Fin 16, (hostedSlot h s).state = .claiming → dirEntry (hostedSlot h s).mailbox s = .claiming
  opened : ∀ h : Fin 16, (hostedSlot h s).state = .opened → dirEntry (hostedSlot h s).mailbox s = .homed (self s)
  once : ∀ h k : Fin 16, (hostedSlot h s).state ≠ .free → (hostedSlot k s).state ≠ .free →
    (hostedSlot h s).mailbox = (hostedSlot k s).mailbox → h = k
  hosted : ∀ m, dirEntry m s = .claiming ∨ dirEntry m s = .homed (self s) →
    ∃ h : Fin 16, (hostedSlot h s).state ≠ .free ∧ (hostedSlot h s).mailbox = m
  quiet : s.control.state = .offline ∨ s.control.state = .leaving → ∀ h : Fin 16, (hostedSlot h s).state = .free
  offline : s.control.state = .offline → ∀ m, dirEntry m s = .free

/-- The originators of the items of a list that are not withdrawn. -/
def standing (l : List QueuedItem) : List Originator := (l.filter fun q => !q.withdrawn).map QueuedItem.originator

/-- An entry's item is in the queue in these states (R58). -/
def hasItem (e : Entry) : Bool := e.state = .queued || e.state = .cancelQueued

/-- An entry stands in a waiting order in these states (R156). -/
def isWaiting (e : Entry) : Bool := e.state = .waiting || e.state = .cancelWaiting

/-- The request table with its lists and items: the held list holds the HELD entries, each waiting order the entries that
wait for its home, each once; no home has two entries with an open exchange (R156); CLAIM and RELEASE entries have no home
and local takes have home S (R170, R171); local waiters agree with the LOCAL_PARKED entries (R130, R170); no entry is live
in LEAVING and OFFLINE (R172); and class B holds at most one item for each entry that has one, at most 16 in all, beside
items withdrawn on air (R58, R63). -/
structure RequestsWhole (s : State) : Prop where
  heldOnce : s.engine.held.Nodup
  held : ∀ i : Fin 16, i ∈ s.engine.held ↔ (entry i s).state = .held
  waitingOnce : ∀ h : Fin 32, (waitingOrder h s).Nodup
  waiting : ∀ (h : Fin 32) (i : Fin 16), i ∈ waitingOrder h s ↔ isWaiting (entry i s) = true ∧ (entry i s).home = some h
  oneOpen : ∀ (h : Fin 32) (i j : Fin 16), (entry i s).home = some h → (entry j s).home = some h →
    isOpenState (entry i s).state = true → isOpenState (entry j s).state = true → i = j
  homeless : ∀ i : Fin 16, (entry i s).kind = .claim ∨ (entry i s).kind = .release → (entry i s).home = none
  localHome : ∀ i : Fin 16, (entry i s).state = .localParked → (entry i s).home = some (self s)
  takers : LocalTakersAgree s
  idle : s.control.state = .offline ∨ s.control.state = .leaving → ∀ i : Fin 16, isLive (entry i s) = false
  itemsOnce : (standing s.queue.classB).Nodup
  items : ∀ o ∈ standing s.queue.classB, ∃ i : Fin 16, o = .entry i ∧ hasItem (entry i s) = true
  answers : ∀ o ∈ standing s.queue.classA, ∀ i : Fin 16, o ≠ .entry i
  classB : (standing s.queue.classB).length ≤ 16

/-- A waiting order is not empty only while an exchange with its home is open (R156, R157). -/
def OrdersOpen (s : State) : Prop := ∀ h : Fin 32, waitingOrder h s ≠ [] → exchangeOpen h s = true

/-- The tables of the Mailbox Store, the Directory Unit and the Request Engine are whole. -/
structure TablesWhole (s : State) : Prop where
  cells : CellsPlaced s
  loads : LoadsKept s
  listed : WaitersListed s
  ordered : WaitersOrdered s
  pairs : PairsServed s
  directory : DirectoryAgrees s
  requests : RequestsWhole s
  orders : OrdersOpen s

/-! ### Entering LEAVING -/

/-- `t` is what entering LEAVING makes of `s` (R49, R106, R127). That the record of a frame on air stays is the model's
deduction, LOG 24. -/
structure LeavingEntered (s t : State) : Prop where
  control : t.control = { s.control with state := .leaving }
  line : t.line = s.line
  tracker : t.tracker = s.tracker
  queue : t.queue = { s.queue with classA := [], classB := [] }
  roster : t.roster = s.roster
  directory : t.directory.cursor = s.directory.cursor ∧
    ∀ m : Fin 64, dirEntry m t =
      if dirEntry m s = .claiming ∨ dirEntry m s = .homed (self s) then .free else dirEntry m s
  hosted : ∀ h : Fin 16, (hostedSlot h t).state = .free
  engine : NothingLive t
  ended : LocalTakersAgree s → LiveEntriesEnded s t
  emptied : WaitersListed s → LocalTakersAgree s → LoadsKept s → CellsPlaced s →
    (∀ w : Fin 32, waiter w t = none) ∧ (∀ d : Fin 8, delivery d t = none) ∧ ∀ c : Fin 64, cell c t = none
  records : RecordsKept s t
  port : t.port = { s.port with completions := t.port.completions, stateChange := true }
  rest : t.rstAsserted = s.rstAsserted ∧ t.pending = s.pending

/-! ### Records on the line -/

/-- The piece of activity of `s` closed with its end at `m` (R2). -/
def closedAt (m : Moment) (s : State) : State :=
  { s with
    line := { s.line with rx := .idle, assembly := [], endOfLast := some m, ownActivity := false }
    tracker := { s.tracker with quietApplied := false } }

/-- The state after a loss of synchronisation in ACTIVE (R28, R47). -/
def seekingAgain (s : State) : State :=
  { s with
    control := { s.control with state := .seeking }
    tracker := { s.tracker with rotation := none, ownTurnOpen := false }
    port := { s.port with stateChange := true } }

/-- An item that an item record can hold: its DEST fits its kind, and data has 1 to 24 bytes (R9). -/
def ItemFits (i : Item) : Prop :=
  destFits i.dest i.body = true ∧
    match i.body with
    | .put _ _ data => 1 ≤ data.length ∧ data.length ≤ 24
    | .deliver _ _ _ data => 1 ≤ data.length ∧ data.length ≤ 24
    | _ => True

/-- A list of items that fits a frame (R5). -/
def ItemsFit (items : List Item) : Prop :=
  (∀ i ∈ items, ItemFits i) ∧ 1 ≤ items.length ∧ items.length ≤ 4 ∧ (payloadBytes items).length ≤ 64

/-- The mailbox numbers at or above `c` whose entry is not FREE, ascending (R104). -/
def listed (c : Fin 64) (s : State) : List (Fin 64) :=
  (List.finRange 64).filter fun m => decide (c ≤ m) && decide (dirEntry m s ≠ .free)

/-- The readout cursor after a scan from `c`: one above the eighth entry collected; none where mailbox 63 was examined
(R104). -/
def cursorAfter (c : Fin 64) (s : State) : Option (Fin 64) :=
  match (listed c s)[7]? with
  | some m => if h : m.val + 1 < 64 then some ⟨m.val + 1, h⟩ else none
  | none => none

end Sys2Proof.Machine
end

