-- ==== Sys2Proof/Certificates/Slice0/Obligations.lean ====
section
/-! DEFINITION. The statements about this model that are handed to the provers. A statement about a command gives the whole
state it answers, written as an update of the state before, so that everything it does not name is unchanged. -/

open Sys2Proof Sys2Proof.Machine

/-! ### The queue of commands -/

/-- A step runs the command at the front of the queue on the state with the queue's rest; with no command waiting the
block idles (the latter is the model's choice, LOG 12). -/
def Obligations.StepRunsFrontCommand : Prop :=
  (∀ (c : Instr) (rest : List Instr) (s : State), s.pending = c :: rest → step s = exec c { s with pending := rest }) ∧
  (∀ s : State, s.pending = [] → step s = .next s)

/-- Every command answers a next state, and leaves the queue of waiting commands alone. What rests on the model's
choice: LOG 3, and LOG 15 for HARDWARE_RESET, which the queue survives. -/
def Obligations.EveryCommandAnswersNext : Prop :=
  ∀ (i : Instr) (s : State), ∃ t, exec i s = .next t ∧ t.pending = s.pending

/-! ### The two locations of the Local Port (R176 to R181) -/

/-- A data write pushes the byte, or is dropped with the overrun latch set; a data read returns the result byte at the
read pointer and advances the pointer, and at the end of the result or while BUSY is set returns 00h with the pointer
where it was; while RST# is asserted the write is not taken and the read returns 00h (R176, R177, R195). -/
def Obligations.DataLocationAccess : Prop :=
  (∀ (b : Byte) (s : State),
      (s.rstAsserted = true → exec (.dataWrite b) s = .next s) ∧
      (s.rstAsserted = false → s.port.taking = none → s.port.fifo.length < 32 →
        exec (.dataWrite b) s = .next { s with port := { s.port with fifo := s.port.fifo ++ [b] } }) ∧
      (s.rstAsserted = false → (s.port.taking ≠ none ∨ 32 ≤ s.port.fifo.length) →
        exec (.dataWrite b) s = .next { s with port := { s.port with overrun := true } })) ∧
  (∀ s : State,
      (∀ b, s.rstAsserted = false → s.port.taking = none → s.port.result[s.port.readPointer]? = some b →
        exec .dataRead s =
          .next { s with port := { s.port with dataOut := b, readPointer := s.port.readPointer + 1 } }) ∧
      (s.rstAsserted = true ∨ s.port.taking ≠ none ∨ s.port.result.length ≤ s.port.readPointer →
        exec .dataRead s = .next { s with port := { s.port with dataOut := 0 } }))

/-- While BUSY is set a write to the command/status location is dropped and sets the overrun latch; at the end of the
taking the FIFO is emptied, the result stands with the read pointer at 0, and BUSY is clear (R179, R181). What rests on
the model's choice: LOG 13. -/
def Obligations.BusyWindow : Prop :=
  (∀ (i : Instr) (s : State),
      (i = .commandWriteWhileBusy ∨ (∃ code, i = .badCommand code) ∨ (commandRow i).isSome = true) →
      s.rstAsserted = false → s.port.taking ≠ none →
      exec i s = .next { s with port := { s.port with overrun := true } }) ∧
  (∀ (r : List Byte) (s : State), s.port.taking = some r →
      exec .commandResultWritten s =
        .next { s with port := { s.port with fifo := [], result := r, readPointer := 0, taking := none } })

/-- A code outside the command table leaves BAD_COMMAND with the overrun latch as it was; a command the station state
does not permit leaves BAD_STATE whatever the FIFO holds; a permitted one with a wrong number of parameter bytes leaves
BAD_LENGTH. No block is changed (R56, R180, R181). -/
def Obligations.CommandCheckRefusals : Prop :=
  (∀ (code : Byte) (s : State), (∀ c : Command, commandCode c ≠ code) → s.rstAsserted = false → s.port.taking = none →
      exec (.badCommand code) s =
        .next { s with port := { s.port with result := [], readPointer := 0, taking := some [0x80] } }) ∧
  ((∀ (i : Instr) (c : Command) (p : List Byte) (s : State), commandRow i = some c → CommandReady p s →
        NotPermitted c s.control.state → exec i s = .next (taken [0x81] s)) ∧
    (∀ (i : Instr) (c : Command) (p : List Byte) (s : State), commandRow i = some c → CommandReady p s →
        ¬ NotPermitted c s.control.state → WrongLength c p → exec i s = .next (taken [0x82] s)))

/-- While RST# is held asserted no write to either location is taken; its release changes the pin and nothing else (R57,
R195). What rests on the model's choice: LOG 15. -/
def Obligations.ResetPinHeldAndReleased : Prop :=
  (∀ (i : Instr) (s : State), s.rstAsserted = true →
      (i = .commandWriteWhileBusy ∨ (∃ code, i = .badCommand code) ∨ (∃ b, i = .dataWrite b) ∨
        (commandRow i).isSome = true) →
      exec i s = .next s) ∧
  (∀ s : State, exec .resetReleased s = .next { s with rstAsserted := false })

/-- A command, or an event of the line, that comes while an own turn's deadlines are acting finds them all taken and the
offer made: the own turn is taken whole before it (R34, R145, R166, R179). Outside an own turn there is nothing to take.
In one, every entry whose deadline is reached acts in slot order, as the deadline rows have it act, then the waiters in
record order, then the delivery slots; then the own turn is over and the Frame Assembler is offered it. The order is the
model's choice, LOG 10 and LOG 11. -/
def Obligations.OwnTurnIsTakenWhole : Prop :=
  (∀ (i : Instr) (s : State),
      (IsLineEvent i ∨ ((commandRow i).isSome = true ∧ s.rstAsserted = false ∧ s.port.taking = none)) →
      exec i s = exec i (finishOwnTurn s)) ∧
  (∀ s : State,
      (s.tracker.ownTurnOpen = false → finishOwnTurn s = s) ∧
      (s.tracker.ownTurnOpen = true →
        let entries := (List.finRange 16).foldl (fun u i => actOnEntry i u) s
        let waiters := (List.finRange 32).foldl (fun u w => actOnWaiter w u) entries
        let slots := (List.finRange 8).foldl (fun u d => actOnDelivery d u) waiters
        finishOwnTurn s = offerTurn { slots with tracker := { slots.tracker with ownTurnOpen := false } })) ∧
  (∀ (i : Fin 16) (s : State),
      let e := entry i s
      (e.deadline ≠ some s.tracker.ownTurnCount → actOnEntry i s = s) ∧
      (e.deadline = some s.tracker.ownTurnCount →
        ((e.state = .sent ∨ e.state = .cancelSent) → actOnEntry i s = replyDeadline i s) ∧
        (e.state = .parked → actOnEntry i s = beginCancel i .backstopCause s) ∧
        (e.state = .late → actOnEntry i s = lateDeadline i s) ∧
        (e.state ∉ [.sent, .cancelSent, .parked, .late] → actOnEntry i s = s)) ∧
      (Lowest (fun j => (entry j s).deadline = some s.tracker.ownTurnCount) i →
        ((e.state = .sent ∨ e.state = .cancelSent) → exec .replyDeadline s = .next (settle (actOnEntry i s))) ∧
        (e.state = .parked → exec .backstop s = .next (settle (actOnEntry i s))) ∧
        (e.state = .late → exec .lateDeadline s = .next (settle (actOnEntry i s))))) ∧
  (∀ (w : Fin 32) (s : State),
      let due := fun v : Fin 32 => ∃ r, waiter v s = some r ∧ r.deadline = some s.tracker.ownTurnCount
      (¬ due w → actOnWaiter w s = s) ∧
      (due w → actOnWaiter w s = expireWaiter w s) ∧
      (Lowest due w → exec .waiterExpiry s = .next (settle (actOnWaiter w s)))) ∧
  (∀ (d : Fin 8) (s : State),
      let due := fun e : Fin 8 => ∃ x, delivery e s = some x ∧ x.state = .sent s.tracker.ownTurnCount
      (¬ due d → actOnDelivery d s = s) ∧
      (due d → actOnDelivery d s = deliveryDeadline d s) ∧
      (Lowest due d → (∀ w r, waiter w s = some r → r.deadline ≠ some s.tracker.ownTurnCount) →
        exec .deliveryDeadline s = .next (settle (actOnDelivery d s)))) ∧
  (∀ s : State, s.tracker.ownTurnOpen = true → deadlinesDue s = false →
      settle s = offerTurn { s with tracker := { s.tracker with ownTurnOpen := false } })

/-- The status byte has BUSY, RESULT, CQ, ATTN, OVERRUN, NLOST in bits 7 to 2 and the station state in bits 1 and 0
(R178); attention is asserted while either of its two conditions holds, and ATTN# is low exactly then (R190). TXE is
asserted while the part sends a frame or a break (R14, R16). TXD rests at the idle level while nothing is sent, is active
through a break, and through a frame carries its characters with the CRC back to back from the beginning of the sync
character, each as ten bit times of a tenth of a byte time: a start bit, the data bits least significant first with 0
active, a stop bit (R1, R14, R16). -/
def Obligations.StatusByteAndAttention : Prop :=
  (∀ s : State,
      ((statusByte s).getLsbD 7 = true ↔ s.port.taking ≠ none) ∧
      ((statusByte s).getLsbD 6 = true ↔ s.port.readPointer < s.port.result.length) ∧
      ((statusByte s).getLsbD 5 = true ↔ s.port.completions ≠ []) ∧
      ((statusByte s).getLsbD 4 = true ↔ attention s = true) ∧
      ((statusByte s).getLsbD 3 = true ↔ s.port.overrun = true) ∧
      ((statusByte s).getLsbD 2 = true ↔ s.port.noticeLost = true) ∧
      (statusByte s).extractLsb' 0 2 = (stateCode s.control.state).extractLsb' 0 2) ∧
  (∀ s : State,
      (attention s = true ↔
        (s.port.maskCQ = true ∧ s.port.completions ≠ []) ∨ (s.port.maskST = true ∧ s.port.stateChange = true)) ∧
      (attnPin s = false ↔ attention s = true)) ∧
  (∀ s : State, txePin s = true ↔ s.line.tx ≠ .off) ∧
  (∀ (m : Moment) (s : State),
      (s.line.tx = .off → txdPin m s = .idle) ∧
      (s.line.tx = .breaking → m < s.line.breakEnd → txdPin m s = .active) ∧
      (s.line.tx = .sending → s.control.config ≠ none →
        s.line.txStart + (withCrc s.line.txBuffer).length * byteTime s ≤ m → txdPin m s = .idle) ∧
      (∀ (k : Nat) (j : Nat) (b : Byte), s.line.tx = .sending → s.control.config ≠ none →
        (withCrc s.line.txBuffer)[k]? = some b → j < 10 →
        s.line.txStart + k * byteTime s + j * (byteTime s / 10) ≤ m →
        m < s.line.txStart + k * byteTime s + (j + 1) * (byteTime s / 10) →
        txdPin m s =
          if j = 0 then .active else if j = 9 then .idle else if b.getLsbD (j - 1) then .idle else .active))

/-! ### Hardware reset -/

/-- At hardware reset both lists of the item queue are empty, the frame on air is none, the items shed counter and the
presence counter are 0, and nothing is reported of a frame cut off on the line (R73). That the FREE entries and slots have
the contents of RequestEngine.reset and MailboxStore.cleared is the model's choice, LOG 21. -/
def Obligations.ResetEmptiesItemQueue : Prop :=
  ∀ s : State, ∃ t, exec .hardwareReset s = .next t ∧
    t.queue.classA = [] ∧ t.queue.classB = [] ∧ t.queue.onAir = none ∧ t.port.counters.itemsShed = 0 ∧
    t.tracker.presenceCounter = 0 ∧ t.port.completions = [] ∧ t.engine = RequestEngine.reset ∧
    t.store = MailboxStore.cleared 0 0 ∧ t.port.counters = Counters.zero

/-- At hardware reset every directory entry is FREE and the readout cursor none, with no event or notice and the conflicts
counter 0; nothing that was being taken is completed, and every block has its values after reset (R109). That the queue of
waiting commands stays and the pin is a field, that the model's own fields are clear and that FREE entries and slots hold
named blank values is the model's choice, LOG 15, LOG 20 and LOG 21. -/
def Obligations.ResetFreesDirectory : Prop :=
  ∀ s : State, ∃ t, exec .hardwareReset s = .next t ∧
    (∀ m : Fin 64, dirEntry m t = .free) ∧ t.directory.cursor = none ∧ t.port.completions = [] ∧
    t.port.noticeLost = false ∧ t.port.counters.directoryConflicts = 0 ∧ t.port.taking = none ∧
    t.tracker.ownTurnOpen = false ∧ t = { State.reset with rstAsserted := true, pending := s.pending }

/-- The values after hardware reset of Station Control, the Line Unit, the Turn Tracker, the roster, the Mailbox Store,
the request table and the Local Port (R19, R40, R57, R87, R129, R175, R195). What rests on the model's choice: LOG 15. -/
def Obligations.ResetValuesOfBlocks : Prop :=
  ∀ s : State, ∃ t, exec .hardwareReset s = .next t ∧
    t.control = { state := .offline, config := none, lastCause := .reset } ∧
    (t.line.rx = .idle ∧ t.line.assembly = [] ∧ t.line.endOfLast = none ∧ t.line.tx = .off ∧ t.line.txBuffer = [] ∧
      t.line.txInProgress = false ∧ txePin t = false) ∧
    (t.tracker.rotation = none ∧ t.tracker.joinedAt = none ∧ t.tracker.ownTurnCount = 0 ∧
      t.tracker.presenceCounter = 0) ∧
    (∀ x : Fin 32, rosterEntry x t = { presence := .unknown, missed := 0 }) ∧
    (∀ h : Fin 16, (hostedSlot h t).state = .free) ∧ (∀ c : Fin 64, cell c t = none) ∧
    (∀ w : Fin 32, waiter w t = none) ∧ (∀ d : Fin 8, delivery d t = none) ∧ (∀ x : Fin 32, exchange x t = none) ∧
    t.store.arrivalStamp = 0 ∧ t.store.dseq = 0 ∧
    (∀ i : Fin 16, (entry i t).state = .free ∧ (entry i t).generation = 0) ∧ t.engine.held = [] ∧
    (∀ h : Fin 32, waitingOrder h t = []) ∧
    (t.port.fifo = [] ∧ t.port.result = [] ∧ t.port.readPointer = 0 ∧ t.port.taking = none ∧ t.port.overrun = false ∧
      t.port.noticeLost = false ∧ t.port.stateChange = false ∧ t.port.completions = [] ∧ t.port.maskCQ = false ∧
      t.port.maskST = false ∧ t.port.counters = Counters.zero)

/-! ### Session commands (R43 to R55) -/

/-- CONFIGURE with five parameters in their ranges makes the configuration valid with them and leaves OK and SIG; with a
parameter outside its range it leaves BAD_PARAM and keeps the configuration (R43, R44). -/
def Obligations.ConfigureEffect : Prop :=
  (∀ (c : StationConfig) (s : State), s.control.state = .offline →
      2 ≤ c.cycle → c.cycle ≤ 32 → c.station.val < c.cycle → 4 ≤ c.window → c.window ≤ 15 → 2 ≤ c.replyLimit →
      c.replyLimit ≤ 15 →
      CommandReady [byteOf c.station.val, byteOf c.cycle, byteOf c.rate.val, byteOf c.window, byteOf c.replyLimit] s →
      exec .configure s =
        .next (answered [0x00, byteOf (c.cycle + c.rate.val + c.window + c.replyLimit + 0x3C)]
          { begun s with control := { s.control with config := some c } })) ∧
  (∀ (n m r w l : Byte) (s : State), s.control.state = .offline → CommandReady [n, m, r, w, l] s →
      (m.toNat < 2 ∨ 32 < m.toNat ∨ m.toNat ≤ n.toNat ∨ 3 < r.toNat ∨ w.toNat < 4 ∨ 15 < w.toNat ∨ l.toNat < 2 ∨
        15 < l.toNat) →
      exec .configure s = .next (taken [0x83] s))

/-- JOIN with a valid configuration starts a session: SEEKING, with the JOIN values of the Line Unit, the Turn Tracker,
the roster and the directory; with none it leaves NOT_CONFIGURED (R3, R21, R46). What rests on the model's
choice: LOG 16, that a break of its own found at JOIN is DISCARDING like activity found on RXD, and LOG 29, that the moment
of JOIN stands as the end of that activity's last character. -/
def Obligations.JoinStartsSession : Prop :=
  ∀ (m : Moment) (active : Bool) (s : State), s.control.state = .offline → CommandReady [] s →
    (s.control.config ≠ none →
      exec (.join m active) s =
        .next (answered [0x00]
          { begun s with
            control := { s.control with state := .seeking }
            line :=
              { s.line with
                rx := if active = true ∨ s.line.tx = .breaking then .discarding else .idle, assembly := [],
                endOfLast := none, ownActivity := decide (s.line.tx = .breaking), lastCharEnd := m }
            tracker :=
              { rotation := none, joinedAt := some m, quietApplied := false, ownTurnCount := 0, presenceCounter := 3,
                ownTurnOpen := false }
            roster := Vector.replicate 32 { presence := .unknown, missed := 0 }
            directory := { entries := Vector.replicate 64 .free, cursor := none }
            port := { (begun s).port with stateChange := true } })) ∧
    (s.control.config = none → exec (.join m active) s = .next (taken [0x19] s))

/-- LEAVE in ACTIVE enters LEAVING and leaves OK: every live entry finishes SESSION_END in slot order, the local waiters of
the LOCAL_PARKED ones removed first, and the hosted slots become FREE (R49, R127, R172). In SEEKING it ends the session
with cause LEFT_UNANNOUNCED and leaves OK (R48, R52). What rests on the model's choice: LOG 21, 24. -/
def Obligations.LeaveEffect : Prop :=
  ∀ s : State, CommandReady [] s →
    (s.control.state = .active → ∃ t, exec .leave s = .next t ∧ LeavingEntered (taken [0x00] s) t) ∧
    (s.control.state = .seeking → ∃ t, exec .leave s = .next t ∧ SessionEnded .leftUnannounced (taken [0x00] s) t)

/-- READ STATUS leaves OK and its nine values, and clears the state-change and notice-lost latches (R55). That its taking
clears the overrun latch too is the model's choice, LOG 28. -/
def Obligations.ReadStatusReport : Prop :=
  ∀ s : State, CommandReady [] s →
    exec .readStatus s =
      .next (answered
        ([0x00, stateCode s.control.state, endCauseCode s.control.lastCause, byteOf (self s).val,
            byteOf (cycleLength s)] ++ wordBytes s.tracker.ownTurnCount ++
          [byteOf (countEntries (fun e => e.state ≠ .free ∧ e.state ≠ .held) s),
            byteOf (countEntries (fun e => e.state = .held) s), byteOf s.port.completions.length,
            byteOf ((List.finRange 16).countP fun h => (hostedSlot h s).state ≠ .free)])
        { begun s with port := { (begun s).port with stateChange := false, noticeLost := false } })

/-! ### Directory and roster commands (R84, R89, R93, R103, R104) -/

/-- OPEN of a claimable mailbox, with a hosted slot and a request entry FREE: the lowest of each is taken, the entry
becomes CLAIMING, and a CLAIM joins class B; the result is OK with the tag (R89). -/
def Obligations.OpenClaimsMailbox : Prop :=
  ∀ (m : Fin 64) (depth : Nat) (h i : Fin 16) (s : State), OnBus s → 1 ≤ depth → depth ≤ 32 →
    CommandReady [byteOf m.val, byteOf depth] s → (dirEntry m s = .free ∨ ∃ x, dirEntry m s = .orphaned x) →
    Lowest (fun h => (hostedSlot h s).state = .free) h → Lowest (fun i => (entry i s).state = .free) i →
    exec .openMailbox s =
      .next (answered [0x00, entryTag i s]
        { begun s with
          directory := { s.directory with entries := put s.directory.entries m .claiming }
          store :=
            { s.store with
              hosted :=
                put s.store.hosted h { state := .claiming, mailbox := m, depth := depth, messages := [], waiters := [] } }
          engine :=
            { s.engine with entries := put s.engine.entries i { allocated i .claim m none s with state := .queued } }
          queue :=
            { s.queue with
              classB := s.queue.classB ++ [newItem { dest := .broadcast, body := .claim m } (.entry i)] } })

/-- The refusals of OPEN and of CLOSE, in their order, each changing nothing (R89, R93). -/
def Obligations.MailboxCommandRefusals : Prop :=
  (∀ (a b : Byte) (s : State), OnBus s → CommandReady [a, b] s →
      ((64 ≤ a.toNat ∨ b.toNat = 0 ∨ 32 < b.toNat) → exec .openMailbox s = .next (taken [0x83] s)) ∧
      ∀ m : Fin 64, a = byteOf m.val → 1 ≤ b.toNat → b.toNat ≤ 32 →
        ((dirEntry m s = .claiming ∨ dirEntry m s = .homed (self s)) → exec .openMailbox s = .next (taken [0x11] s)) ∧
        (∀ x, x ≠ self s → dirEntry m s = .homed x → exec .openMailbox s = .next (taken [0x10] s)) ∧
        ((dirEntry m s = .free ∨ ∃ x, dirEntry m s = .orphaned x) →
          ((∀ h : Fin 16, (hostedSlot h s).state ≠ .free) → exec .openMailbox s = .next (taken [0x12] s)) ∧
          ((∃ h : Fin 16, (hostedSlot h s).state = .free) → (∀ i : Fin 16, (entry i s).state ≠ .free) →
            exec .openMailbox s = .next (taken [0x13] s)))) ∧
  (∀ (a : Byte) (s : State), OnBus s → CommandReady [a] s →
      (64 ≤ a.toNat → exec .closeMailbox s = .next (taken [0x83] s)) ∧
      ∀ m : Fin 64, a = byteOf m.val →
        (dirEntry m s ≠ .homed (self s) → exec .closeMailbox s = .next (taken [0x14] s)) ∧
        (dirEntry m s = .homed (self s) → (∀ i : Fin 16, (entry i s).state ≠ .free) →
          exec .closeMailbox s = .next (taken [0x13] s)))

/-- CLOSE of a mailbox homed here, with a request entry FREE: its directory entry becomes FREE and its hosted slot too,
and a RELEASE entry with its item at the tail of class B is made, whose tag the result gives (R93); the entry is the lowest
that is FREE after the discard. The other entries of the directory and the blocks that a discard does not reach are
unchanged. The discard is its five steps and then the two offers; its steps finish the local takers, CLOSED for a CLOSE, and
free the waiters, the delivery slots with their cells and the stored cells, with the exchange memory adjusted (R121, R122).
What rests on the model's choice: LOG 18, 21, 23. -/
def Obligations.CloseReleasesMailbox : Prop :=
  (∀ (m : Fin 64) (s : State), OnBus s → CommandReady [byteOf m.val] s → dirEntry m s = .homed (self s) →
    (∃ i : Fin 16, (entry i s).state = .free) →
    ∃ t i, exec .closeMailbox s = .next t ∧
      t.port.taking = some [0x00, entryTag i t] ∧ dirEntry m t = .free ∧ (∀ k, k ≠ m → dirEntry k t = dirEntry k s) ∧
      (∀ h, openSlotOf m s = some h → (hostedSlot h t).state = .free) ∧
      (entry i t).kind = .release ∧ (entry i t).mailbox = m ∧ (entry i t).home = none ∧ (entry i t).state = .queued ∧
      (entry i t).attempts = 0 ∧ (entry i t).deadline = none ∧
      (∃ before, t.queue.classB = before ++ [newItem { dest := .broadcast, body := .release m } (.entry i)]) ∧
      RecordsKept s t ∧ t.control = s.control ∧ t.line = s.line ∧ t.tracker = s.tracker ∧ t.roster = s.roster ∧
      t.port.counters = s.port.counters) ∧
  (∀ (m : Fin 64) (h i : Fin 16) (s : State), OnBus s → CommandReady [byteOf m.val] s →
    dirEntry m s = .homed (self s) → openSlotOf m s = some h → (∃ j : Fin 16, (entry j s).state = .free) →
    let u :=
      offerPlaces (pairing (discardSteps .closed h
        { begun s with directory := { s.directory with entries := put s.directory.entries m .free } }))
    Lowest (fun j => (entry j u).state = .free) i →
    exec .closeMailbox s =
      .next (answered [0x00, entryTag i u]
        { u with
          engine :=
            { u.engine with entries := put u.engine.entries i { allocated i .release m none u with state := .queued } }
          queue :=
            { u.queue with
              classB := u.queue.classB ++ [newItem { dest := .broadcast, body := .release m } (.entry i)] } })) ∧
  (∀ (st : Status) (h : Fin 16) (s : State), st ≠ .delivered → LocalTakersAgree s → WaitersListed s →
    Discarded st h s (discardSteps st h s))

/-- READ DIRECTORY START takes no parameters, in any station state, sets the readout cursor to 0 and then scans as READ
DIRECTORY CONTINUE does, whatever readout was in progress (R103). It leaves OK with the entries the scan collects. -/
def Obligations.ReadoutStartsAtZero : Prop :=
  ∀ (p : List Byte) (s : State), CommandReady p s →
    (p = [] →
      exec .readDirectoryStart s =
        exec .readDirectoryContinue { s with directory := { s.directory with cursor := some 0 } }) ∧
    (p = [] →
      exec .readDirectoryStart s =
        .next (answered
          ([0x00, byteOf ((listed 0 s).take 8).length, if cursorAfter 0 s = none then 1 else 0] ++
            (((listed 0 s).take 8).map fun m =>
              [byteOf m.val, dirStateCode (dirEntry m s), dirHome (self s) (dirEntry m s)]).flatten)
          { begun s with directory := { s.directory with cursor := cursorAfter 0 s } })) ∧
    (p ≠ [] → exec .readDirectoryStart s = .next (taken [0x82] s))

/-- READ DIRECTORY CONTINUE collects up to eight entries that are not FREE from the cursor upward and moves the cursor,
with the END mark set where it becomes none; with no cursor it leaves NO_CURSOR (R104). -/
def Obligations.ReadoutContinues : Prop :=
  ∀ s : State, CommandReady [] s →
    (∀ c, s.directory.cursor = some c →
      exec .readDirectoryContinue s =
        .next (answered
          ([0x00, byteOf ((listed c s).take 8).length, if cursorAfter c s = none then 1 else 0] ++
            (((listed c s).take 8).map fun m =>
              [byteOf m.val, dirStateCode (dirEntry m s), dirHome (self s) (dirEntry m s)]).flatten)
          { begun s with directory := { s.directory with cursor := cursorAfter c s } })) ∧
    (s.directory.cursor = none → exec .readDirectoryContinue s = .next (taken [0x15] s))

/-- READ ROSTER leaves OK, N and one byte for each station number below N, and changes no entry, count or other block
(R84). That its taking clears the overrun latch is the model's choice, LOG 28. -/
def Obligations.ReadRosterReport : Prop :=
  ∀ s : State, CommandReady [] s → cycleLength s ≤ 32 →
    exec .readRoster s =
      .next (taken
        ([0x00, byteOf (cycleLength s)] ++
          (((List.finRange 32).filter fun x => decide (x.val < cycleLength s)).map fun x => rosterByte (rosterEntry x s))) s)

/-! ### PUT and TAKE commands (R119, R120, R135, R154, R155) -/

/-- A remote PUT or TAKE takes the lowest FREE entry and leaves OK with its tag: QUEUED with its item in class B, or
WAITING at the tail of its home's order while an exchange with that home is open (R153 to R155). -/
def Obligations.RemoteRequestTakesEntry : Prop :=
  (∀ (m : Fin 64) (x : Fin 32) (data : List Byte) (i : Fin 16) (s : State), OnBus s → 1 ≤ data.length →
      data.length ≤ 24 → CommandReady (byteOf m.val :: byteOf data.length :: data) s → dirEntry m s = .homed x →
      x ≠ self s → Lowest (fun i => (entry i s).state = .free) i →
      (exchangeOpen x s = false →
        exec .put s =
          .next (answered [0x00, entryTag i s]
            { begun s with
              engine :=
                { s.engine with
                  entries :=
                    put s.engine.entries i { allocated i .put m (some x) s with data := data, state := .queued } }
              queue :=
                { s.queue with
                  classB :=
                    s.queue.classB ++
                      [newItem { dest := .station x, body := .put m (entryTag i s) data } (.entry i)] } })) ∧
      (exchangeOpen x s = true →
        exec .put s =
          .next (answered [0x00, entryTag i s]
            { begun s with
              engine :=
                { s.engine with
                  entries :=
                    put s.engine.entries i { allocated i .put m (some x) s with data := data, state := .waiting }
                  waiting := put s.engine.waiting x (waitingOrder x s ++ [i]) } }))) ∧
  (∀ (m : Fin 64) (x : Fin 32) (p : Fin 4) (w : Byte) (i : Fin 16) (s : State), OnBus s →
      CommandReady [byteOf m.val, byteOf p.val, w] s → dirEntry m s = .homed x → x ≠ self s →
      Lowest (fun i => (entry i s).state = .free) i →
      (exchangeOpen x s = false →
        exec .take s =
          .next (answered [0x00, entryTag i s]
            { begun s with
              engine :=
                { s.engine with
                  entries :=
                    put s.engine.entries i
                      { allocated i .take m (some x) s with priority := p, wait := w, state := .queued } }
              queue :=
                { s.queue with
                  classB :=
                    s.queue.classB ++
                      [newItem { dest := .station x, body := .take m (entryTag i s) p w } (.entry i)] } })) ∧
      (exchangeOpen x s = true →
        exec .take s =
          .next (answered [0x00, entryTag i s]
            { begun s with
              engine :=
                { s.engine with
                  entries :=
                    put s.engine.entries i
                      { allocated i .take m (some x) s with priority := p, wait := w, state := .waiting }
                  waiting := put s.engine.waiting x (waitingOrder x s ++ [i]) } })))

/-- A local PUT that meets no head waiter it can serve at once stores the message with origin S at the tail, in the lowest
free cell, and looks at pairing; it leaves FULL at the depth limit, NO_SPACE with no cell free, and otherwise STORED
(R117, R120). -/
def Obligations.LocalPutPlacesMessage : Prop :=
  ∀ (m : Fin 64) (data : List Byte) (h : Fin 16) (s : State), OnBus s → 1 ≤ data.length → data.length ≤ 24 →
    CommandReady (byteOf m.val :: byteOf data.length :: data) s → dirEntry m s = .homed (self s) →
    openSlotOf m s = some h → HeadCannotBeServed h s →
    ((hostedSlot h s).depth ≤ load h s → exec .put s = .next (taken [0x02] s)) ∧
    (load h s < (hostedSlot h s).depth → (∀ c : Fin 64, cell c s ≠ none) → exec .put s = .next (taken [0x03] s)) ∧
    (∀ c, load h s < (hostedSlot h s).depth → Lowest (fun c => cell c s = none) c →
      exec .put s =
        .next (answered [0x01]
          (pairing
            { begun s with
              store :=
                { s.store with
                  pool := put s.store.pool c (some { origin := self s, data := data })
                  hosted :=
                    put s.store.hosted h { hostedSlot h s with messages := (hostedSlot h s).messages ++ [c] } } })))

/-- A local PUT hands the message to a head waiter it can serve: a local one collects it and its entry finishes
DELIVERED, and for a remote one the lowest FREE delivery slot is filled with the message in the lowest free cell. The
result is STORED (R117, R120). -/
def Obligations.LocalPutServesHeadWaiter : Prop :=
  ∀ (m : Fin 64) (data : List Byte) (h : Fin 16) (w : Fin 32) (rest : List (Fin 32)) (r : Waiter) (s : State), OnBus s →
    1 ≤ data.length → data.length ≤ 24 → CommandReady (byteOf m.val :: byteOf data.length :: data) s →
    dirEntry m s = .homed (self s) → openSlotOf m s = some h → (hostedSlot h s).waiters = w :: rest →
    waiter w s = some r → r.hosted = h →
    (r.requester = self s →
      exec .put s =
        .next (answered [0x01]
          (finish (slotOfTag r.tag) .delivered
            { begun s with
              store :=
                { s.store with
                  waiters := put s.store.waiters w none
                  hosted :=
                    put s.store.hosted h
                      { hostedSlot h s with waiters := (hostedSlot h s).waiters.filter fun v => v ≠ w } }
              engine :=
                { s.engine with
                  entries :=
                    put s.engine.entries (slotOfTag r.tag)
                      { entry (slotOfTag r.tag) s with
                        result := { status := none, origin := self s, data := data } } } }))) ∧
    (∀ d c, r.requester ≠ self s → load h s < (hostedSlot h s).depth → Lowest (fun d => delivery d s = none) d →
      Lowest (fun c => cell c s = none) c →
      exec .put s =
        .next (answered [0x01]
          (fillDelivery d h c r.requester r.tag
            (revise r.requester r.tag .parked (.delivering d)
              { begun s with
                store :=
                  { s.store with
                    pool := put s.store.pool c (some { origin := self s, data := data })
                    waiters := put s.store.waiters w none
                    hosted :=
                      put s.store.hosted h
                        { hostedSlot h s with
                          waiters := (hostedSlot h s).waiters.filter fun v => v ≠ w } } }))))

/-- The refusals of PUT and of TAKE: a parameter out of range, a mailbox with no home, and a remote request with no
entry FREE (R119, R135, R154, R155). -/
def Obligations.MessageCommandRefusals : Prop :=
  (∀ (a l : Byte) (data : List Byte) (s : State), OnBus s → CommandReady (a :: l :: data) s → data.length = l.toNat →
      ((64 ≤ a.toNat ∨ l.toNat = 0 ∨ 24 < l.toNat) → exec .put s = .next (taken [0x83] s)) ∧
      ∀ m : Fin 64, a = byteOf m.val → 1 ≤ l.toNat → l.toNat ≤ 24 →
        ((∀ x, dirEntry m s ≠ .homed x) → exec .put s = .next (taken [0x04] s)) ∧
        (∀ x, x ≠ self s → dirEntry m s = .homed x → (∀ i : Fin 16, (entry i s).state ≠ .free) →
          exec .put s = .next (taken [0x13] s))) ∧
  (∀ (a b w : Byte) (s : State), OnBus s → CommandReady [a, b, w] s →
      ((64 ≤ a.toNat ∨ 4 ≤ b.toNat) → exec .take s = .next (taken [0x83] s)) ∧
      ∀ m : Fin 64, a = byteOf m.val → b.toNat < 4 →
        ((∀ x, dirEntry m s ≠ .homed x) → exec .take s = .next (taken [0x04] s)) ∧
        (∀ x, x ≠ self s → dirEntry m s = .homed x → (∀ i : Fin 16, (entry i s).state ≠ .free) →
          exec .take s = .next (taken [0x13] s)))

/-- A local TAKE: the head message at once where messages and no waiters stand, EMPTY or HOME_BUSY with a wait of 0, and
otherwise a request entry with a waiter (R135). -/
def Obligations.LocalTakeEffect : Prop :=
  ∀ (m : Fin 64) (p : Fin 4) (w : Byte) (h : Fin 16) (s : State), OnBus s →
    CommandReady [byteOf m.val, byteOf p.val, w] s → dirEntry m s = .homed (self s) → openSlotOf m s = some h →
    (∀ c rest msg, (hostedSlot h s).messages = c :: rest → (hostedSlot h s).waiters = [] → cell c s = some msg →
      exec .take s =
        .next (answered ([0x05, byteOf msg.origin.val, byteOf msg.data.length] ++ msg.data)
          { begun s with
            store :=
              { s.store with
                pool := put s.store.pool c none
                hosted := put s.store.hosted h { hostedSlot h s with messages := rest } } })) ∧
    ((hostedSlot h s).messages = [] → w = 0 → exec .take s = .next (taken [0x06] s)) ∧
    ((hostedSlot h s).messages ≠ [] → (hostedSlot h s).waiters ≠ [] → w = 0 → exec .take s = .next (taken [0x07] s)) ∧
    (((hostedSlot h s).messages = [] ∨ (hostedSlot h s).waiters ≠ []) → w ≠ 0 →
      ((∀ i : Fin 16, (entry i s).state ≠ .free) → exec .take s = .next (taken [0x13] s)) ∧
      ((∃ i : Fin 16, (entry i s).state = .free) → (∀ v : Fin 32, waiter v s ≠ none) →
        exec .take s = .next (taken [0x08] s)) ∧
      (∀ i v, Lowest (fun i => (entry i s).state = .free) i → Lowest (fun v => waiter v s = none) v →
        exec .take s =
          .next (answered [0x00, entryTag i s]
            (pairing
              { begun s with
                engine :=
                  { s.engine with
                    entries :=
                      put s.engine.entries i
                        { allocated i .take m (some (self s)) s with priority := p, wait := w, state := .localParked } }
                store :=
                  { s.store with
                    waiters :=
                      put s.store.waiters v
                        (some
                          { hosted := h, requester := self s, tag := entryTag i s, priority := p,
                            deadline := if w = 255 then none else some (s.tracker.ownTurnCount + BitVec.ofNat 16 w.toNat),
                            stamp := s.store.arrivalStamp })
                    hosted :=
                      put s.store.hosted h
                        { hostedSlot h s with waiters := insertWaiter v p s (hostedSlot h s).waiters }
                    arrivalStamp := s.store.arrivalStamp + 1 } }))))

/-! ### CANCEL, MAILBOX STATUS and the commands of the Local Port (R125, R165, R186 to R193) -/

/-- CANCEL of a take that has put nothing at its home, WAITING or QUEUED before any sending: it finishes CANCELLED and
the result is OK; with a place in the completion queue its entry is FREE with the generation raised and its record at
the tail. In every case the finish is followed by promotion for its home, and with a full completion queue the entry is HELD.
CANCEL of a take that has gone out, is going out or is parked, of a local take, and the two refusals (R163, R165). That a
FREE entry holds blank values is the model's choice, LOG 21. -/
def Obligations.CancelEffect : Prop :=
  (∀ (t : Byte) (s : State), OnBus s → CommandReady [t] s → entryTag (slotOfTag t) s = t →
      (entry (slotOfTag t) s).kind = .take → s.port.completions.length < 16 →
      ((entry (slotOfTag t) s).state = .waiting ∨
        ((entry (slotOfTag t) s).state = .queued ∧ (entry (slotOfTag t) s).attempts = 0 ∧
          itemOnAir (slotOfTag t) s = false)) →
      ∃ u, exec .cancel s = .next u ∧
        entry (slotOfTag t) u = Entry.blank ((entry (slotOfTag t) s).generation + 1) ∧
        u.port =
          { (taken [0x00] s).port with
            completions :=
              s.port.completions ++ [.request .take t .cancelled (entry (slotOfTag t) s).mailbox 0 []] } ∧
        (∀ q ∈ u.queue.classB, q.originator = .entry (slotOfTag t) → q.onAir = true ∧ q.withdrawn = true) ∧
        u.queue.classA = s.queue.classA ∧ u.store = s.store ∧ u.directory = s.directory ∧ u.roster = s.roster ∧
        u.control = s.control ∧ u.tracker = s.tracker ∧ u.line = s.line) ∧
  ((∀ (t : Byte) (s : State), OnBus s → CommandReady [t] s → entryTag (slotOfTag t) s = t →
        (entry (slotOfTag t) s).kind = .take →
        (((entry (slotOfTag t) s).state = .sent ∨
            ((entry (slotOfTag t) s).state = .queued ∧
              ((entry (slotOfTag t) s).attempts ≠ 0 ∨ itemOnAir (slotOfTag t) s = true))) →
          exec .cancel s =
            .next (answered [0x00]
              { begun s with
                engine :=
                  { s.engine with
                    entries :=
                      put s.engine.entries (slotOfTag t) { entry (slotOfTag t) s with cancelRequested := true } } })) ∧
        (∀ x, (entry (slotOfTag t) s).state = .parked → (entry (slotOfTag t) s).home = some x → exchangeOpen x s = true →
          exec .cancel s =
            .next (answered [0x00]
              { begun s with
                engine :=
                  { s.engine with
                    entries :=
                      put s.engine.entries (slotOfTag t)
                        { entry (slotOfTag t) s with
                          attempts := 0, deadline := none, cancelCause := .localCause, state := .cancelWaiting }
                    waiting := put s.engine.waiting x (waitingOrder x s ++ [slotOfTag t]) } })) ∧
        (∀ x, (entry (slotOfTag t) s).state = .parked → (entry (slotOfTag t) s).home = some x → exchangeOpen x s = false →
          exec .cancel s =
            .next (answered [0x00]
              { begun s with
                engine :=
                  { s.engine with
                    entries :=
                      put s.engine.entries (slotOfTag t)
                        { entry (slotOfTag t) s with
                          attempts := 0, deadline := none, cancelCause := .localCause, state := .cancelQueued } }
                queue :=
                  { s.queue with
                    classB :=
                      s.queue.classB ++
                        [newItem { dest := .station x, body := .cancel (entry (slotOfTag t) s).mailbox t }
                          (.entry (slotOfTag t))] } })) ∧
        (∀ w, (entry (slotOfTag t) s).state = .localParked → waiterOf (self s) t s = some w →
          exec .cancel s = .next (answered [0x00] (pairing (finish (slotOfTag t) .cancelled (removeWaiter w (begun s))))))) ∧
    (∀ (t : Byte) (s : State), OnBus s → CommandReady [t] s →
        (((entry (slotOfTag t) s).state = .free ∨ entryTag (slotOfTag t) s ≠ t) →
          exec .cancel s = .next (taken [0x16] s)) ∧
        ((entry (slotOfTag t) s).state ≠ .free → entryTag (slotOfTag t) s = t →
          ((entry (slotOfTag t) s).kind ≠ .take ∨
            (entry (slotOfTag t) s).state ∈ [.cancelWaiting, .cancelQueued, .cancelSent, .late, .held]) →
          exec .cancel s = .next (taken [0x17] s)))) ∧
  (∀ (t : Byte) (s : State), OnBus s → CommandReady [t] s → entryTag (slotOfTag t) s = t →
      (entry (slotOfTag t) s).kind = .take →
      ((entry (slotOfTag t) s).state = .waiting ∨
        ((entry (slotOfTag t) s).state = .queued ∧ (entry (slotOfTag t) s).attempts = 0 ∧
          itemOnAir (slotOfTag t) s = false)) →
      exec .cancel s =
        .next (answered [0x00]
          (promoteFor (entry (slotOfTag t) s).home (finish (slotOfTag t) .cancelled (begun s)))))

/-- MAILBOX STATUS leaves OK with the seven values of mailbox m, the last five 0 where no hosted slot is in use for it,
and changes no block; a number above 63 leaves BAD_PARAM (R125). That its taking clears the overrun latch is the model's
choice, LOG 28. -/
def Obligations.MailboxStatusReport : Prop :=
  ∀ (a : Byte) (s : State), CommandReady [a] s →
    (64 ≤ a.toNat → exec .mailboxStatus s = .next (taken [0x83] s)) ∧
    ∀ m : Fin 64, a = byteOf m.val →
      (∀ h, Lowest (fun h => (hostedSlot h s).state ≠ .free ∧ (hostedSlot h s).mailbox = m) h →
        exec .mailboxStatus s =
          .next (taken
            [0x00, dirStateCode (dirEntry m s), dirHome (self s) (dirEntry m s), 1, byteOf (hostedSlot h s).depth,
              byteOf (hostedSlot h s).messages.length, byteOf (hostedSlot h s).waiters.length,
              byteOf (deliveryCount h s)] s)) ∧
      ((∀ h : Fin 16, ¬ ((hostedSlot h s).state ≠ .free ∧ (hostedSlot h s).mailbox = m)) →
        exec .mailboxStatus s =
          .next (taken [0x00, dirStateCode (dirEntry m s), dirHome (self s) (dirEntry m s), 0, 0, 0, 0, 0] s))

/-- POP COMPLETION: NOTHING from an empty queue; otherwise OK with the head record, which leaves the queue, and the head
of the held list moves in behind the others, its entry FREE with the generation raised (R174, R186). That a FREE entry holds
blank values is the model's choice, LOG 21. -/
def Obligations.PopCompletionEffect : Prop :=
  ∀ s : State, CommandReady [] s →
    (s.port.completions = [] → exec .popCompletion s = .next (taken [0x18] s)) ∧
    (∀ r rest, s.port.completions = r :: rest → s.engine.held = [] →
      exec .popCompletion s =
        .next (answered (0x00 :: recordBytes r) { begun s with port := { (begun s).port with completions := rest } })) ∧
    (∀ r rest i held st, s.port.completions = r :: rest → s.engine.held = i :: held →
      (entry i s).result.status = some st →
      exec .popCompletion s =
        .next (answered (0x00 :: recordBytes r)
          { begun s with
            port := { (begun s).port with completions := rest ++ [recordOf i (entry i s) st] }
            engine :=
              { s.engine with
                held := held
                entries := put s.engine.entries i (Entry.blank ((entry i s).generation + 1)) } }))

/-- SET ATTENTION with a mask of 0 to 3 replaces both mask bits and leaves OK, and with a larger value leaves BAD_PARAM;
no command or event but it and hardware reset changes the mask (R188). That its taking clears the overrun latch is the
model's choice, LOG 28. -/
def Obligations.AttentionMaskChanges : Prop :=
  (∀ (b : Byte) (s : State), CommandReady [b] s →
      (b.toNat ≤ 3 →
        exec .setAttention s =
          .next (answered [0x00]
            { begun s with port := { (begun s).port with maskCQ := b.getLsbD 0, maskST := b.getLsbD 1 } })) ∧
      (3 < b.toNat → exec .setAttention s = .next (taken [0x83] s))) ∧
  (∀ (i : Instr) (s t : State), i ≠ .setAttention → i ≠ .hardwareReset → exec i s = .next t →
      t.port.maskCQ = s.port.maskCQ ∧ t.port.maskST = s.port.maskST)

/-- READ COUNTERS takes no parameters and leaves OK with the fourteen counters, two bytes each, high byte first, 29
bytes in all; no counter changes (R192). -/
def Obligations.ReadCountersReport : Prop :=
  ∀ (p : List Byte) (s : State), CommandReady p s →
    (p = [] →
      exec .readCounters s =
        .next (taken
          (0x00 ::
            ([s.port.counters.framesSent, s.port.counters.goodFrames, s.port.counters.corruptActivity,
                s.port.counters.collisions, s.port.counters.turnSlips, s.port.counters.foreignFrames,
                s.port.counters.quietResyncs, s.port.counters.itemsShed, s.port.counters.requestRetransmissions,
                s.port.counters.deliveryRetransmissions, s.port.counters.staleAcks, s.port.counters.directoryConflicts,
                s.port.counters.noticesLost, s.port.counters.messagesReturned].map wordBytes).flatten) s)) ∧
    (p ≠ [] → exec .readCounters s = .next (taken [0x82] s))

/-- CLEAR COUNTERS sets all fourteen counters to 0 and leaves OK (R193). That its taking clears the overrun latch is the
model's choice, LOG 28. -/
def Obligations.ClearCountersEffect : Prop :=
  ∀ s : State, CommandReady [] s →
    exec .clearCounters s =
      .next (answered [0x00] { begun s with port := { (begun s).port with counters := Counters.zero } })

/-! ### Reception (R2 to R10) -/

/-- A character opens a piece of activity, which suspends the window and aborts a frame that waits to begin (R2, R4,
R13, R24), or extends the one that is open (R5, R7); after a silence of more than 2 byte times it opens the next one
(R2). What rests on the model's choice: LOG 4, 5, 6, 8. -/
def Obligations.CharacterEffect : Prop :=
  ∀ (i : Instr) (ch : LineChar) (start : Moment) (s : State), IsCharacter i ch start → s.control.state ≠ .offline →
    s.tracker.ownTurnOpen = false → s.line.tx ≠ .breaking →
    (s.line.rx = .idle → frameWaiting s = true →
      exec i s = exec i { abortFrame s with line := { s.line with txBuffer := [] } }) ∧
    (s.line.rx = .idle → frameWaiting s = false →
      ((ch = .data 0xA7 ∧ ∃ q, quietReference s = some q ∧ q + byteTime s ≤ start) →
        exec i s =
          .next
            { s with
              line :=
                { s.line with
                  rx := .assembling, assembly := [0xA7], ownActivity := false, lastCharEnd := start + byteTime s }
              tracker :=
                { s.tracker with rotation := s.tracker.rotation.map fun r => { r with activity := true } } }) ∧
      (¬ (ch = .data 0xA7 ∧ ∃ q, quietReference s = some q ∧ q + byteTime s ≤ start) →
        exec i s =
          .next
            { s with
              line :=
                { s.line with
                  rx := .discarding, assembly := [], ownActivity := false, lastCharEnd := charEnd ch start s }
              tracker :=
                { s.tracker with rotation := s.tracker.rotation.map fun r => { r with activity := true } } })) ∧
    ((s.line.rx = .assembling ∨ s.line.rx = .discarding) → s.line.lastCharEnd + 2 * byteTime s < start →
      exec i s = exec i (closeBySilence s)) ∧
    (start ≤ s.line.lastCharEnd + 2 * byteTime s →
      (s.line.rx = .discarding →
        exec i s =
          .next { s with line := { s.line with assembly := [], lastCharEnd := charEnd ch start s } }) ∧
      (∀ ends, s.line.rx = .assembling → ch = .faulty ends →
        exec i s =
          .next { s with line := { s.line with rx := .discarding, assembly := [], lastCharEnd := ends } }) ∧
      (∀ b sync sig sender count, s.line.rx = .assembling → ch = .data b →
        s.line.assembly = [sync, sig, sender, count] →
        (count.toNat < 1 ∨ 4 < count.toNat ∨ b.toNat < 2 ∨ 64 < b.toNat) →
        exec i s =
          .next
            { s with line := { s.line with rx := .discarding, assembly := [], lastCharEnd := start + byteTime s } }) ∧
      (∀ b, s.line.rx = .assembling → ch = .data b →
        (∀ sync sig sender count, s.line.assembly = [sync, sig, sender, count] →
          1 ≤ count.toNat ∧ count.toNat ≤ 4 ∧ 2 ≤ b.toNat ∧ b.toNat ≤ 64) →
        (∀ sync sig sender count len rest, s.line.assembly ++ [b] = sync :: sig :: sender :: count :: len :: rest →
          rest.length ≠ 2 + len.toNat) →
        exec i s =
          .next
            { s with
              line := { s.line with assembly := s.line.assembly ++ [b], lastCharEnd := start + byteTime s } }))

/-- The last CRC character closes the activity and gives the verdict: CORRUPT on a wrong CRC or a failed item parse,
FOREIGN on a wrong signature or station number, IMPOSTOR on this station's own number, which ends the session with cause
DUPLICATE, and otherwise GOOD, which is counted and goes to the tracker, the roster and the owners of its items (R5, R8
to R11). What rests on the model's choice: LOG 4, 9, and LOG 21 for the blank FREE slots after the session end. -/
def Obligations.FrameVerdicts : Prop :=
  ∀ (i : Instr) (b : Byte) (start : Moment) (s : State) (c : StationConfig) (f : Frame) (sync : Byte),
    IsCharacter i (.data b) start → s.control.state ≠ .offline → s.tracker.ownTurnOpen = false →
    s.line.tx ≠ .breaking → s.line.rx = .assembling → start ≤ s.line.lastCharEnd + 2 * byteTime s →
    s.control.config = some c →
    s.line.assembly ++ [b] = [sync, f.sig, f.sender, f.count, byteOf f.payload.length] ++ f.payload ++ f.crc →
    f.crc.length = 2 → 2 ≤ f.payload.length → f.payload.length ≤ 64 →
    (wordBytes (crc16 ([f.sig, f.sender, f.count, byteOf f.payload.length] ++ f.payload)) ≠ f.crc →
      exec i s = .next (handOn .corrupt (start + byteTime s) (closedAt (start + byteTime s) s))) ∧
    (wordBytes (crc16 ([f.sig, f.sender, f.count, byteOf f.payload.length] ++ f.payload)) = f.crc →
      ((f.sig ≠ signature c ∨ c.cycle ≤ f.sender.toNat ∨ 32 ≤ f.sender.toNat) →
        exec i s = .next (handOn .foreign (start + byteTime s) (closedAt (start + byteTime s) s))) ∧
      (f.sig = signature c → c.station.val < c.cycle → f.sender = byteOf c.station.val →
        ∃ t, exec i s = .next t ∧ SessionEnded .duplicate (closedAt (start + byteTime s) s) t) ∧
      (∀ x : Fin 32, f.sig = signature c → x.val < c.cycle → x ≠ c.station → f.sender = byteOf x.val →
        (parseItems f.count.toNat f.payload = none →
          exec i s = .next (handOn .corrupt (start + byteTime s) (closedAt (start + byteTime s) s))) ∧
        (∀ items, parseItems f.count.toNat f.payload = some items →
          exec i s =
            .next (handOwnTurn (dispatchItems x items (heard x (frameToTracker x (start + byteTime s)
              (countGoodFrame (closedAt (start + byteTime s) s)))))))))

/-- What the Turn Tracker and Station Control make of a verdict: CORRUPT and FOREIGN are counted and lose synchronisation,
which in LEAVING ends the session; a GOOD frame places the turn after its sender, as a slip if another held the turn, and
gains synchronisation in SEEKING (R10, R23, R26, R28, R29, R31, R47, R50). That the FREE slots after a session end hold
blank values is the model's choice, LOG 21. -/
def Obligations.VerdictEffects : Prop :=
  ∀ (m : Moment) (s : State),
    (s.tracker.rotation = none → handOn .corrupt m s = countCorrupt s ∧ handOn .foreign m s = countForeign s) ∧
    (s.tracker.rotation ≠ none → s.control.state = .active →
      handOn .corrupt m s = seekingAgain (countCorrupt s) ∧ handOn .foreign m s = seekingAgain (countForeign s)) ∧
    (s.tracker.rotation ≠ none → s.control.state = .leaving →
      SessionEnded .leftUnannounced (countCorrupt s) (handOn .corrupt m s) ∧
        SessionEnded .leftUnannounced (countForeign s) (handOn .foreign m s)) ∧
    (∀ x r, s.tracker.rotation = some r →
      let placed := { s with tracker := { s.tracker with rotation := some ⟨successor s x, m, false⟩ } }
      (r.holder = x → frameToTracker x m s = placed) ∧ (r.holder ≠ x → frameToTracker x m s = countTurnSlip placed)) ∧
    (∀ x, s.tracker.rotation = none → s.control.state = .seeking →
      frameToTracker x m s =
        { s with
          control := { s.control with state := .active }
          tracker := { s.tracker with rotation := some ⟨successor s x, m, false⟩ }
          port := { s.port with stateChange := true } })

/-- A silence of more than 2 byte times closes an open activity: CORRUPT, or no verdict where it holds this station's
own collision (R7, R16). With no activity open, or during this station's own break, there is nothing to close. What
rests on the model's choice: LOG 6. -/
def Obligations.SilenceClosesActivity : Prop :=
  ∀ s : State, s.tracker.ownTurnOpen = false →
    (s.control.state ≠ .offline → (s.line.rx = .assembling ∨ s.line.rx = .discarding) → s.line.tx ≠ .breaking →
      exec .activityClosesBySilence s =
        .next (if s.line.ownActivity then closedAt s.line.lastCharEnd s
          else handOn .corrupt s.line.lastCharEnd (closedAt s.line.lastCharEnd s))) ∧
    ((s.control.state = .offline ∨ s.line.rx = .idle ∨ s.line.rx = .echo ∨ s.line.tx = .breaking) →
      exec .activityClosesBySilence s = .next s)

/-! ### Rotation (R25 to R35, R64 to R68) -/

/-- A window that stays silent for W byte times lapses: the holder's turn is reported missed and the turn passes to the
next number, which is an own turn if that is S; a suspended window, or an UNSYNCED tracker, has no lapse (R24, R25,
R34). What rests on the model's choice: LOG 22. -/
def Obligations.TurnLapseEffect : Prop :=
  ∀ s : State, s.tracker.ownTurnOpen = false →
    (∀ r, s.tracker.rotation = some r → r.activity = false → frameWaiting s = false →
      (s.tracker.quietApplied = true ∨ ∀ q, quietMoment s = some q → r.opened + turnWindow s * byteTime s < q) →
      let u :=
        { missedTurn r.holder s with
          tracker :=
            { s.tracker with
              rotation := some ⟨successor s r.holder, r.opened + turnWindow s * byteTime s, false⟩ } }
      exec .turnLapse s = .next (if successor s r.holder = self s then ownTurn u else u)) ∧
    ((s.tracker.rotation = none ∨ ∃ r, s.tracker.rotation = some r ∧ r.activity = true) →
      exec .turnLapse s = .next s)

/-- When the silence reaches Q the turn passes to station 0 with a fresh window, once in a silence and with no
missed-turn report while SYNCED; while UNSYNCED it is counted and synchronisation is gained (R27, R32, R34). Once the rule
has been applied, it does nothing more until a piece of activity has closed. What rests on the model's choice: LOG 3, 22. -/
def Obligations.QuietTimeEffect : Prop :=
  ∀ (q : Moment) (s : State), s.tracker.ownTurnOpen = false → s.line.rx = .idle → quietMoment s = some q →
    (∀ r, s.tracker.rotation = some r → r.activity = false → frameWaiting s = false → s.tracker.quietApplied = false →
      q ≤ r.opened + turnWindow s * byteTime s →
      let u := { s with tracker := { s.tracker with rotation := some ⟨0, q, false⟩, quietApplied := true } }
      exec .quietRule s = .next (if self s = 0 then ownTurn u else u)) ∧
    (s.tracker.rotation = none → s.control.state = .seeking → s.line.tx = .off →
      let u :=
        { s with
          control := { s.control with state := .active }
          tracker := { s.tracker with rotation := some ⟨0, q, false⟩, quietApplied := true }
          port :=
            { s.port with
              stateChange := true
              counters := { s.port.counters with quietResyncs := satInc s.port.counters.quietResyncs } } }
      exec .quietResync s = .next (if self s = 0 then ownTurn u else u)) ∧
    (s.tracker.quietApplied = true → exec .quietRule s = .next s)

/-- An own turn raises the count. With a deadline reached it stays open until the deadlines have acted; then the Frame
Assembler is offered the turn: FAREWELL alone in LEAVING, nothing with empty lists and PRESENCE not due, and otherwise
the items chosen, in a frame that keeps its bounds (R34, R64 to R68). PRESENCE comes first when it is due, with a bit for
each mailbox homed here (R66); then class A and class B are examined, oldest first: an item is taken while it keeps the
count within 4 and the payload within 64 bytes, and is otherwise passed over and keeps its place. With PRESENCE due or a
list not empty at least one item is taken (R64). What rests on the model's choice: LOG 10. -/
def Obligations.OwnTurnEffect : Prop :=
  ∀ s : State,
    let u := { s with tracker := { s.tracker with ownTurnCount := s.tracker.ownTurnCount + 1, ownTurnOpen := true } }
    let v := { s with tracker := { s.tracker with ownTurnCount := s.tracker.ownTurnCount + 1, ownTurnOpen := false } }
    (deadlinesDue u = true → ownTurn s = u ∧ settle u = u) ∧
    (deadlinesDue u = false → ownTurn s = settle u ∧
      (∀ c, s.control.state = .leaving → s.control.config = some c →
        ownTurn s =
          { v with
            queue :=
              { s.queue with
                onAir := some { items := [⟨.broadcast, .farewell⟩], presence := false, farewell := true } }
            line := { s.line with txBuffer := frameBytes c [⟨.broadcast, .farewell⟩] } }) ∧
      (s.control.state = .active → s.queue.classA = [] → s.queue.classB = [] → s.tracker.presenceCounter ≠ 3 →
        ownTurn s = { v with tracker := { v.tracker with presenceCounter := s.tracker.presenceCounter + 1 } }) ∧
      (∀ c, s.control.state = .active → s.control.config = some c → frameItems s ≠ [] →
        ownTurn s =
          { v with
            tracker := { v.tracker with presenceCounter := nextPresence s.tracker.presenceCounter }
            queue :=
              { classA := (chosenA s).list, classB := (chosenB s).list,
                onAir :=
                  some
                    { items := frameItems s, presence := decide (s.tracker.presenceCounter = 3),
                      farewell := false } }
            line := { s.line with txBuffer := frameBytes c (frameItems s) } })) ∧
    ((∀ q ∈ s.queue.classA ++ s.queue.classB, q.onAir = false) →
      (frameItems s).length ≤ 4 ∧ (payloadBytes (frameItems s)).length ≤ 64) ∧
    (deadlinesDue u = false → ownTurn s = offerTurn v) ∧
    (presencePart s =
      if s.tracker.presenceCounter = 3 then [⟨.broadcast, .presence (presenceBitmap s)⟩] else []) ∧
    (∀ m : Fin 64, (presenceBitmap s).getLsbD m.val = true ↔ dirEntry m s = .homed (self s)) ∧
    frameItems s = presencePart s ++ marked (chosenA s).list ++ marked (chosenB s).list ∧
    (chosenA s = chooseFrom s.queue.classA (presencePart s).length (payloadBytes (presencePart s)).length ∧
      chosenB s = chooseFrom s.queue.classB (chosenA s).count (chosenA s).size) ∧
    (∀ count size, chooseFrom [] count size = { list := [], count := count, size := size }) ∧
    (∀ q rest count size,
      (count < 4 → size + (itemBytes q.item).length ≤ 64 →
        let r := chooseFrom rest (count + 1) (size + (itemBytes q.item).length)
        chooseFrom (q :: rest) count size =
          { list := { q with onAir := true } :: r.list, count := r.count, size := r.size }) ∧
      ((4 ≤ count ∨ 64 < size + (itemBytes q.item).length) →
        let r := chooseFrom rest count size
        chooseFrom (q :: rest) count size = { list := q :: r.list, count := r.count, size := r.size })) ∧
    ((∀ q ∈ s.queue.classA ++ s.queue.classB, ItemFits q.item) →
      (s.tracker.presenceCounter = 3 ∨ s.queue.classA ≠ [] ∨ s.queue.classB ≠ []) → frameItems s ≠ [])

/-! ### Transmission (R13 to R17, R69, R70) -/

/-- The offered frame begins at the later of the opening of the window and one byte time of silence, with the
transmit-in-progress flag set, in SENDING and ECHO; if the line is not free it is aborted and the buffer emptied (R13,
R14, R24). What rests on the model's choice: LOG 8. -/
def Obligations.TransmitStartEffect : Prop :=
  ∀ (r : Rotation) (q : Moment) (s : State), s.tracker.ownTurnOpen = false → s.tracker.rotation = some r →
    quietReference s = some q → s.line.tx = .off → s.line.txBuffer ≠ [] →
    (s.line.rx = .idle →
      exec .frameTransmitStart s =
        .next
          { s with
            line :=
              { s.line with
                tx := .sending, txInProgress := true, rx := .echo, echoed := 0,
                txStart := max r.opened (q + byteTime s) }
            tracker := { s.tracker with rotation := some { r with activity := true } } }) ∧
    (s.line.rx ≠ .idle →
      exec .frameTransmitStart s = .next { abortFrame s with line := { s.line with txBuffer := [] } })

/-- Each matching character of the own frame moves the comparison on, the last one is the good echo, and a character
that is faulty, differs or begins outside its character time is a collision (R15, R16). What rests on the model's
choice: LOG 4, 7. -/
def Obligations.EchoComparison : Prop :=
  ∀ (i : Instr) (ch : LineChar) (start : Moment) (b : Byte) (s : State), IsCharacter i ch start →
    s.control.state ≠ .offline → s.tracker.ownTurnOpen = false → s.line.rx = .echo → s.line.tx = .sending →
    (sentCharacters s)[s.line.echoed]? = some b →
    let due := s.line.txStart + s.line.echoed * byteTime s
    let next := s.line.txStart + (s.line.echoed + 1) * byteTime s
    (ch = .data b → due ≤ start → start < next → s.line.echoed + 1 < (sentCharacters s).length →
      exec i s = .next { s with line := { s.line with echoed := s.line.echoed + 1 } }) ∧
    (ch = .data b → due ≤ start → start < next → s.line.echoed + 1 = (sentCharacters s).length →
      exec i s = exec .echoGood s) ∧
    ((ch ≠ .data b ∨ start < due ∨ next ≤ start) → exec i s = exec (.collision next) s)

/-- The good echo of the own frame is counted and ends the transmission; the item queue is told first, and then the
frame goes through the receive path as a GOOD frame from S. The good echo of FAREWELL in LEAVING ends the session with
cause LEFT (R14, R15, R50, R69). The item queue takes it so: the presence counter becomes 0 if the frame held PRESENCE, the
items on air leave their lists, and each that was not withdrawn is reported sent, in frame order: a PUT or TAKE entry
becomes SENT and a CANCEL_QUEUED one CANCEL_SENT with the deadline R own turns ahead, a delivery slot SENT likewise (R69,
R140, R158); then the UNQUEUED slots are offered the places (R60). What rests on the model's choice: LOG 9. -/
def Obligations.EchoGoodEffect : Prop :=
  (∀ s : State, s.tracker.ownTurnOpen = false → s.line.tx = .sending →
    let m := s.line.txStart + (withCrc s.line.txBuffer).length * byteTime s
    let u :=
      { s with
        line :=
          { s.line with
            rx := .idle, assembly := [], endOfLast := some m, ownActivity := false, tx := .off, txInProgress := false,
            txBuffer := [] }
        tracker := { s.tracker with quietApplied := false }
        port :=
          { s.port with counters := { s.port.counters with framesSent := satInc s.port.counters.framesSent } } }
    ((farewellOnAir s = false ∨ s.control.state ≠ .leaving) →
      exec .echoGood s = .next (receiveGood (self s) (ownFrameItems s) m (frameSent u))) ∧
    (farewellOnAir s = true → s.control.state = .leaving →
      ∃ t, exec .echoGood s = .next t ∧ t.control = { s.control with state := .offline, lastCause := .left } ∧
        t.tracker.rotation = none ∧ t.line.rx = .idle ∧ t.line.tx = .off ∧ t.queue = ItemQueue.empty ∧
        NothingLive t ∧ t.port.stateChange = true ∧
        t.port.counters.framesSent = satInc s.port.counters.framesSent)) ∧
  (∀ s : State,
    (s.queue.onAir = none → frameSent s = s) ∧
    (∀ f, s.queue.onAir = some f →
      let u :=
        { s with
          tracker := { s.tracker with presenceCounter := if f.presence = true then 0 else s.tracker.presenceCounter }
          queue :=
            { classA := s.queue.classA.filter fun q => !q.onAir, classB := s.queue.classB.filter fun q => !q.onAir,
              onAir := none } }
      frameSent s =
        offerPlaces (((s.queue.classA ++ s.queue.classB).filter fun q => q.onAir).foldl tellSent u))) ∧
  (∀ (q : QueuedItem) (s : State),
    let deadline := s.tracker.ownTurnCount + BitVec.ofNat 16 (replyLimit s)
    (q.withdrawn = true ∨ q.originator = .nobody → tellSent s q = s) ∧
    (∀ i, q.withdrawn = false → q.originator = .entry i →
      let e := entry i s
      let become := fun st : EntryState =>
        { s with
          engine :=
            { s.engine with entries := put s.engine.entries i { e with state := st, deadline := some deadline } } }
      (e.state = .queued → (e.kind = .put ∨ e.kind = .take) → tellSent s q = become .sent) ∧
      (e.state = .queued → (e.kind = .claim ∨ e.kind = .release) → tellSent s q = s) ∧
      (e.state = .cancelQueued → tellSent s q = become .cancelSent)) ∧
    (∀ d x, q.withdrawn = false → q.originator = .delivery d → delivery d s = some x →
      tellSent s q =
        { s with
          store :=
            { s.store with
              deliveries := put s.store.deliveries d (some { x with state := .sent deadline }) } }))

/-- A collision is counted, begins the break of 3 byte times, aborts the frame and loses synchronisation, which in
LEAVING ends the session while the break goes on; at the end of the break the line is released and the activity stays
open in DISCARDING while the station is joined. An abort leaves every item that was not withdrawn in its place with its
mark removed and tells no originator; the UNQUEUED delivery slots are then offered the places (R16, R17, R50, R60, R70).
What rests on the model's choice: LOG 7, 19, LOG 16 for the activity that holds the break, which gets no verdict in a
session joined during it either, and LOG 21 for the blank FREE slots after the session end. -/
def Obligations.CollisionAbortAndBreak : Prop :=
  (∀ (ends : Moment) (s : State), s.tracker.ownTurnOpen = false →
      (s.line.tx = .sending → s.tracker.rotation ≠ none →
        let u :=
          abortFrame
            { s with
              line := { s.line with tx := .breaking, breakEnd := ends + 3 * byteTime s }
              port :=
                { s.port with counters := { s.port.counters with collisions := satInc s.port.counters.collisions } } }
        (s.control.state = .active → exec (.collision ends) s = .next (seekingAgain u)) ∧
        (s.control.state = .leaving →
          ∃ t, exec (.collision ends) s = .next t ∧ SessionEnded .leftUnannounced u t ∧ t.line.tx = .breaking)) ∧
      (s.line.tx = .breaking → s.control.state ≠ .offline →
        exec .breakEnd s =
          .next
            { s with
              line :=
                { s.line with
                  tx := .off, txInProgress := false, txBuffer := [], rx := .discarding, assembly := [],
                  ownActivity := true, lastCharEnd := s.line.breakEnd } }) ∧
      (s.line.tx = .breaking → s.control.state = .offline →
        exec .breakEnd s = .next { s with line := { s.line with tx := .off, txInProgress := false, txBuffer := [] } })) ∧
  (∀ s : State, s.store.unqueued = [] →
      abortFrame s =
        { s with
          queue :=
            { classA := (s.queue.classA.filter fun q => !q.withdrawn).map fun q => { q with onAir := false }
              classB := (s.queue.classB.filter fun q => !q.withdrawn).map fun q => { q with onAir := false }
              onAir := none } }) ∧
  (∀ s : State,
      abortFrame s =
        offerPlaces
          { s with
            queue :=
              { classA := (s.queue.classA.filter fun q => !q.withdrawn).map fun q => { q with onAir := false }
                classB := (s.queue.classB.filter fun q => !q.withdrawn).map fun q => { q with onAir := false }
                onAir := none } })

/-! ### Deadlines (R142, R144, R159, R163, R164) -/

/-- The lowest request entry whose deadline is reached acts: a reply deadline sends the item again below three attempts
and otherwise finishes the entry NO_REPLY, the backstop begins cancelling, and the late deadline finishes it NO_REPLY
(R159, R163, R164, R166). The own turn's offer follows the last of its deadlines. What rests on the model's choice: LOG
10. -/
def Obligations.EntryDeadlineEffect : Prop :=
  ∀ (i : Fin 16) (s : State), Lowest (fun i => (entry i s).deadline = some s.tracker.ownTurnCount) i →
    let e := entry i s
    let counted :=
      { s.port with
        counters :=
          { s.port.counters with requestRetransmissions := satInc s.port.counters.requestRetransmissions } }
    (e.state = .sent → e.attempts < 3 →
      exec .replyDeadline s =
        .next (settle
          { s with
            engine :=
              { s.engine with
                entries :=
                  put s.engine.entries i { e with attempts := e.attempts + 1, state := .queued, deadline := none } }
            queue := { s.queue with classB := s.queue.classB ++ [newItem (requestItem i e) (.entry i)] }
            port := counted })) ∧
    (e.state = .cancelSent → e.attempts < 3 →
      exec .replyDeadline s =
        .next (settle
          { s with
            engine :=
              { s.engine with
                entries :=
                  put s.engine.entries i
                    { e with attempts := e.attempts + 1, state := .cancelQueued, deadline := none } }
            queue := { s.queue with classB := s.queue.classB ++ [newItem (cancelItem i e) (.entry i)] }
            port := counted })) ∧
    ((e.state = .sent ∨ e.state = .cancelSent) → 3 ≤ e.attempts →
      exec .replyDeadline s = .next (settle (promoteFor e.home (finish i .noReply s)))) ∧
    (∀ x, e.state = .parked → e.home = some x → exchangeOpen x s = true →
      exec .backstop s =
        .next (settle
          { s with
            engine :=
              { s.engine with
                entries :=
                  put s.engine.entries i
                    { e with
                      attempts := 0, deadline := none, cancelCause := .backstopCause, state := .cancelWaiting }
                waiting := put s.engine.waiting x (waitingOrder x s ++ [i]) } })) ∧
    (∀ x, e.state = .parked → e.home = some x → exchangeOpen x s = false →
      exec .backstop s =
        .next (settle
          { s with
            engine :=
              { s.engine with
                entries :=
                  put s.engine.entries i
                    { e with
                      attempts := 0, deadline := none, cancelCause := .backstopCause, state := .cancelQueued } }
            queue := { s.queue with classB := s.queue.classB ++ [newItem (cancelItem i e) (.entry i)] } })) ∧
    (e.state = .late → exec .lateDeadline s = .next (settle (promoteFor e.home (finish i .noReply s))))

/-- The lowest waiter whose deadline is reached expires, and with none left the lowest delivery slot whose deadline is
reached is sent again below four attempts, and otherwise gives up and its message goes back (R142, R144, R145). What
rests on the model's choice: LOG 10. -/
def Obligations.StoreDeadlineEffect : Prop :=
  ∀ s : State,
    (∀ w r, waiter w s = some r →
      Lowest (fun w => ∃ r, waiter w s = some r ∧ r.deadline = some s.tracker.ownTurnCount) w →
      (r.requester = self s →
        exec .waiterExpiry s = .next (settle (pairing (finish (slotOfTag r.tag) .expired (removeWaiter w s))))) ∧
      (r.requester ≠ self s →
        exec .waiterExpiry s =
          .next (settle (pairing (answer r.requester (.takeReply r.tag .expired)
            (revise r.requester r.tag .parked .expired (removeWaiter w s))))))) ∧
    (∀ d x, delivery d s = some x → (∀ w r, waiter w s = some r → r.deadline ≠ some s.tracker.ownTurnCount) →
      Lowest (fun d => ∃ x, delivery d s = some x ∧ x.state = .sent s.tracker.ownTurnCount) d →
      (x.attempts < 4 → s.queue.classA.length < 24 →
        exec .deliveryDeadline s =
          .next (settle
            { s with
              store :=
                { s.store with
                  deliveries :=
                    put s.store.deliveries d (some { x with attempts := x.attempts + 1, state := .queued }) }
              queue := { s.queue with classA := s.queue.classA ++ [newItem (deliverItem x s) (.delivery d)] }
              port :=
                { s.port with
                  counters :=
                    { s.port.counters with
                      deliveryRetransmissions := satInc s.port.counters.deliveryRetransmissions } } })) ∧
      (x.attempts < 4 → 24 ≤ s.queue.classA.length →
        exec .deliveryDeadline s =
          .next (settle
            { s with
              store :=
                { s.store with
                  deliveries :=
                    put s.store.deliveries d (some { x with attempts := x.attempts + 1, state := .unqueued })
                  unqueued := s.store.unqueued ++ [d] }
              port :=
                { s.port with
                  counters :=
                    { s.port.counters with
                      deliveryRetransmissions := satInc s.port.counters.deliveryRetransmissions } } })) ∧
      (4 ≤ x.attempts →
        exec .deliveryDeadline s =
          .next (settle (pairing (revise x.dest x.tag (.delivering d) .returned (returnMessage d s))))))

/-! ### Request entries, delivery slots and pairing (R136 to R139, R173) -/

/-- An entry that finishes leaves its queued item withdrawn and its waiting order; with a place in the completion queue
its record stands at the tail and the entry is FREE with its generation raised, and with none it is HELD at the tail of
the held list with the record's contents (R63, R153, R173). Promotion for a home takes the head of its waiting order, if no
exchange with that home is open: a WAITING entry becomes QUEUED with its PUT or TAKE in class B, a CANCEL_WAITING one
CANCEL_QUEUED with attempts 0 and its CANCEL (R157). That a FREE entry holds blank values is the model's choice, LOG 21. -/
def Obligations.EntryFinishes : Prop :=
  (∀ (i : Fin 16) (st : Status) (s : State),
    let e := entry i s
    let origin := if st = .delivered then e.result.origin else 0
    let data := if st = .delivered then e.result.data else []
    let orders :=
      match e.home with
      | some x => put s.engine.waiting x ((waitingOrder x s).filter fun j => j ≠ i)
      | none => s.engine.waiting
    let withdrawn := { s.queue with classB := withdrawFrom (.entry i) s.queue.classB }
    (s.port.completions.length < 16 →
      finish i st s =
        { s with
          queue := withdrawn
          engine :=
            { s.engine with
              waiting := orders, entries := put s.engine.entries i (Entry.blank (e.generation + 1)) }
          port :=
            { s.port with
              completions := s.port.completions ++ [.request e.kind (entryTag i s) st e.mailbox origin data] } }) ∧
    (16 ≤ s.port.completions.length →
      finish i st s =
        { s with
          queue := withdrawn
          engine :=
            { entries :=
                put s.engine.entries i
                  { e with
                    state := .held, deadline := none, result := { status := some st, origin := origin, data := data } }
              waiting := orders
              held := s.engine.held ++ [i] } })) ∧
  (∀ (x : Fin 32) (s : State),
    (waitingOrder x s = [] ∨ exchangeOpen x s = true → promote x s = s) ∧
    (∀ i rest, waitingOrder x s = i :: rest → exchangeOpen x s = false →
      let e := entry i s
      let promoted := fun (f : Entry) (item : Item) =>
        { s with
          engine :=
            { s.engine with
              waiting := put s.engine.waiting x rest, entries := put s.engine.entries i { f with deadline := none } }
          queue := { s.queue with classB := s.queue.classB ++ [newItem item (.entry i)] } }
      (e.state = .cancelWaiting →
        promote x s =
          promoted { e with state := .cancelQueued, attempts := 0 }
            ⟨.station (e.home.getD 0), .cancel e.mailbox (entryTag i s)⟩) ∧
      (e.state = .waiting → e.kind = .put →
        promote x s =
          promoted { e with state := .queued } ⟨.station (e.home.getD 0), .put e.mailbox (entryTag i s) e.data⟩) ∧
      (e.state = .waiting → e.kind = .take →
        promote x s =
          promoted { e with state := .queued }
            ⟨.station (e.home.getD 0), .take e.mailbox (entryTag i s) e.priority e.wait⟩)) ∧
    promoteFor (some x) s = promote x s ∧ promoteFor none s = s)

/-- A delivery slot is filled with attempts 1 and the current dseq, which rises; its DELIVER joins class A, or the slot
is UNQUEUED where class A is full; a free class A place goes to the UNQUEUED slots, oldest first (R60, R138, R139). Pairing
at a mailbox with a message and a waiter: a local head collects the message and frees its cell; a remote head takes it into
the lowest FREE delivery slot, or waits while none is FREE. Pairing serves every mailbox's local heads first and then hands
the FREE delivery slots out in hosted slot order, at each mailbox until it stops (R136, R137). Where no mailbox holds both,
pairing leaves the part as it is (R131). What rests on the model's choice: LOG 17, and LOG 31 for the order of the mailboxes
among the local heads. -/
def Obligations.DeliveryAndPairing : Prop :=
  (∀ (d : Fin 8) (h : Fin 16) (c : Fin 64) (x : Fin 32) (t : Byte) (msg : Message) (s : State), cell c s = some msg →
      (s.queue.classA.length < 24 →
        fillDelivery d h c x t s =
          { s with
            store :=
              { s.store with
                dseq := s.store.dseq + 1
                deliveries := put s.store.deliveries d (some ⟨.queued, s.store.dseq, h, c, x, t, 1⟩) }
            queue :=
              { s.queue with
                classA :=
                  s.queue.classA ++
                    [newItem ⟨.station x, .deliver t s.store.dseq msg.origin msg.data⟩ (.delivery d)] } }) ∧
      (24 ≤ s.queue.classA.length →
        fillDelivery d h c x t s =
          { s with
            store :=
              { s.store with
                dseq := s.store.dseq + 1
                deliveries := put s.store.deliveries d (some ⟨.unqueued, s.store.dseq, h, c, x, t, 1⟩)
                unqueued := s.store.unqueued ++ [d] } })) ∧
  (∀ (h : Fin 16) (s : State),
      (∀ c rest w ws r msg, (hostedSlot h s).messages = c :: rest → (hostedSlot h s).waiters = w :: ws →
        waiter w s = some r → r.hosted = h → cell c s = some msg →
        let served :=
          { s.store with
            waiters := put s.store.waiters w none
            hosted :=
              put s.store.hosted h
                { hostedSlot h s with
                  messages := rest, waiters := (hostedSlot h s).waiters.filter fun v => v ≠ w } }
        (∀ remote, r.requester = self s →
          pairOnce remote h s =
            some (finish (slotOfTag r.tag) .delivered
              { s with
                store := { served with pool := put s.store.pool c none }
                engine :=
                  { s.engine with
                    entries :=
                      put s.engine.entries (slotOfTag r.tag)
                        { entry (slotOfTag r.tag) s with
                          result := { status := none, origin := msg.origin, data := msg.data } } } })) ∧
        (∀ d, r.requester ≠ self s → Lowest (fun d => delivery d s = none) d →
          pairOnce true h s =
            some (fillDelivery d h c r.requester r.tag
              (revise r.requester r.tag .parked (.delivering d) { s with store := served }))) ∧
        (r.requester ≠ self s → (∀ d : Fin 8, delivery d s ≠ none) → pairOnce true h s = none)) ∧
      ((∀ k : Fin 16, (hostedSlot k s).messages = [] ∨ (hostedSlot k s).waiters = []) → pairing s = s)) ∧
  (∀ s : State,
      pairing s =
        (List.finRange 16).foldl (fun u h => pairAt true h u) ((List.finRange 16).foldl (fun u h => pairAt false h u) s)) ∧
  (∀ (remote : Bool) (h : Fin 16) (s : State),
      (pairOnce remote h s = none → pairAt remote h s = s) ∧
      (∀ u, pairOnce remote h s = some u → pairAt remote h s = pairAt remote h u) ∧
      ((hostedSlot h s).messages = [] ∨ (hostedSlot h s).waiters = [] → pairOnce remote h s = none) ∧
      (∀ w ws r, (hostedSlot h s).waiters = w :: ws → waiter w s = some r → r.requester ≠ self s →
        pairOnce false h s = none)) ∧
  (∀ s : State, offerPlaces s = s.store.unqueued.foldl (fun u d => offerPlaceTo d u) s) ∧
  (∀ (d : Fin 8) (s : State),
      (24 ≤ s.queue.classA.length → offerPlaceTo d s = s) ∧
      (∀ x, s.queue.classA.length < 24 → delivery d s = some x →
        offerPlaceTo d s =
          { s with
            store :=
              { s.store with
                unqueued := s.store.unqueued.filter fun e => e ≠ d
                deliveries := put s.store.deliveries d (some { x with state := .queued }) }
            queue := { s.queue with classA := s.queue.classA ++ [newItem (deliverItem x s) (.delivery d)] } }))

/-! ### The roster (R75 to R81) -/

/-- A GOOD frame makes its sender PRESENT with count 0, with a notice if it was ABSENT; a missed-turn report raises the
count to 8 at most, which makes the entry ABSENT, with the station-absent event if it was PRESENT; a report of S has no
effect; FAREWELL makes a station that is not ABSENT absent with cause LEFT. A notice joins the completion queue, or with
16 records there it is dropped, counted and latched. The absence reaches the Local Port, the Request Engine, the Mailbox
Store and the Directory Unit in this order (R75 to R81, R184): every live entry with that home finishes HOME_LOST in slot
order (R169); the station's waiters are removed, the messages of its delivery slots go back to the head of their mailboxes,
and its exchange memory becomes invalid (R123, R147); its mailboxes become ORPHANED if it fell silent, and FREE with a
mailbox-gone event if it left (R99). What rests on the model's choice: LOG 18 and, in the pairing that follows, LOG 31. -/
def Obligations.RosterChangesAndNotices : Prop :=
  (∀ (x : Fin 32) (s : State),
      let set := fun e : RosterEntry => { s with roster := Sys2Proof.put s.roster x e }
      let e := rosterEntry x s
      (e.presence ≠ .absent → heard x s = set { presence := .present, missed := 0 }) ∧
      (e.presence = .absent →
        heard x s = raiseNotice (.stationPresent x) (set { presence := .present, missed := 0 })) ∧
      (x = self s → missedTurn x s = s) ∧
      (x ≠ self s → 8 ≤ e.missed → missedTurn x s = s) ∧
      (x ≠ self s → e.missed < 7 → missedTurn x s = set { e with missed := e.missed + 1 }) ∧
      (x ≠ self s → e.missed = 7 → e.presence ≠ .present →
        missedTurn x s = set { presence := .absent, missed := 8 }) ∧
      (x ≠ self s → e.missed = 7 → e.presence = .present →
        missedTurn x s = stationAbsent x .silent (set { presence := .absent, missed := 8 })) ∧
      (e.presence ≠ .absent →
        routeItem x .farewell s = stationAbsent x .left (set { e with presence := .absent })) ∧
      (e.presence = .absent → routeItem x .farewell s = s)) ∧
  (∀ (r : Record) (x : Fin 32) (cause : AbsenceCause) (s : State),
      (s.port.completions.length < 16 →
        raiseNotice r s = { s with port := { s.port with completions := s.port.completions ++ [r] } }) ∧
      (16 ≤ s.port.completions.length →
        raiseNotice r s =
          { s with
            port :=
              { s.port with
                noticeLost := true
                counters := { s.port.counters with noticesLost := satInc s.port.counters.noticesLost } } }) ∧
      stationAbsent x cause s =
        homeAbsent x cause (takerAbsent x (homeLost x (raiseNotice (.stationAbsent x cause) s)))) ∧
  (∀ (x : Fin 32) (s : State),
      homeLost x s = (List.finRange 16).foldl (fun u i => homeLostAt x i u) s ∧
      (∀ i : Fin 16,
        ((entry i s).home = some x → (entry i s).state ≠ .free → (entry i s).state ≠ .held →
          homeLostAt x i s = finish i .homeLost s) ∧
        (((entry i s).home ≠ some x ∨ (entry i s).state = .free ∨ (entry i s).state = .held) → homeLostAt x i s = s)) ∧
      (let left := (List.finRange 32).foldl (fun u w => dropWaiterOf x w u) s
        let back := (List.finRange 8).foldl (fun u d => releaseTo x d u) left
        takerAbsent x s =
          pairing (offerPlaces
            { back with store := { back.store with exchange := put back.store.exchange x none } })) ∧
      (∀ (w : Fin 32),
        (∀ r, waiter w s = some r → r.requester = x →
          dropWaiterOf x w s =
            { s with
              store :=
                { s.store with
                  waiters := put s.store.waiters w none
                  hosted :=
                    put s.store.hosted r.hosted
                      { hostedSlot r.hosted s with
                        waiters := (hostedSlot r.hosted s).waiters.filter fun v => v ≠ w } } }) ∧
        ((∀ r, waiter w s = some r → r.requester ≠ x) → dropWaiterOf x w s = s)) ∧
      (∀ d : Fin 8,
        (∀ y, delivery d s = some y → y.dest = x →
          releaseTo x d s =
            { s with
              store :=
                { s.store with
                  deliveries := put s.store.deliveries d none
                  unqueued := s.store.unqueued.filter fun e => e ≠ d
                  hosted :=
                    put s.store.hosted y.hosted
                      { hostedSlot y.hosted s with messages := y.cell :: (hostedSlot y.hosted s).messages } }
              queue := { s.queue with classA := withdrawFrom (.delivery d) s.queue.classA }
              port :=
                { s.port with
                  counters := { s.port.counters with messagesReturned := satInc s.port.counters.messagesReturned } } }) ∧
        ((∀ y, delivery d s = some y → y.dest ≠ x) → releaseTo x d s = s)) ∧
      (∀ cause : AbsenceCause,
        homeAbsent x cause s = (List.finRange 64).foldl (fun u m => absentAt x cause m u) s ∧
        ∀ m : Fin 64,
          let move := fun e : DirEntry =>
            { s with directory := { s.directory with entries := put s.directory.entries m e } }
          (dirEntry m s = .homed x → cause = .silent → absentAt x cause m s = move (.orphaned x)) ∧
          (dirEntry m s = .homed x → cause = .left → absentAt x cause m s = mailboxGone m x (move .free)) ∧
          (dirEntry m s = .orphaned x → cause = .silent → absentAt x cause m s = s) ∧
          (dirEntry m s = .orphaned x → cause = .left → absentAt x cause m s = move .free) ∧
          (dirEntry m s ≠ .homed x → dirEntry m s ≠ .orphaned x → absentAt x cause m s = s)))

/-! ### Items from other stations (R91 to R95, R115, R116, R132, R133, R143, R146, R161, R162) -/

/-- What the items of GOOD frames do to the directory. A CLAIM from another station takes a FREE or ORPHANED number, is a
conflict with another home, is disputed where the mailbox is homed here, and beats a pending claim (R91, R92). A RELEASE by
the home frees the number with a mailbox-gone event (R94, R100), at which the requests for it that are not in flight finish
NO_MAILBOX or CLOSED (R168). A DISPUTE of a mailbox homed here raises MAILBOX_LOST, discards the mailbox with its local
takers LOST, and makes the sender its home (R95). A PRESENCE is reconciled number by number, or shed where its DISPUTEs
would not fit (R97). This station's own CLAIM and RELEASE take effect when their items are dispatched, and its own PRESENCE
has none (R90, R94, R98). Items are dispatched in frame order in SEEKING and ACTIVE, and those for other stations dropped
(R11). What rests on the model's choice: LOG 18, LOG 21 for the blank FREE hosted slot, and LOG 32 where the sender is
ABSENT. -/
def Obligations.DirectoryItems : Prop :=
  ∀ (x : Fin 32) (m : Fin 64) (s : State), x ≠ self s →
    let move := fun e : DirEntry => { s with directory := { s.directory with entries := put s.directory.entries m e } }
    let conflict :=
      { s.port with
        counters := { s.port.counters with directoryConflicts := satInc s.port.counters.directoryConflicts } }
    ((dirEntry m s = .free ∨ ∃ y, dirEntry m s = .orphaned y) → routeItem x (.claim m) s = move (.homed x)) ∧
    (dirEntry m s = .homed x → routeItem x (.claim m) s = s) ∧
    (∀ y, y ≠ x → y ≠ self s → dirEntry m s = .homed y → routeItem x (.claim m) s = { s with port := conflict }) ∧
    (dirEntry m s = .homed (self s) → s.queue.classA.length < 24 →
      routeItem x (.claim m) s =
        { s with
          port := conflict
          queue :=
            { s.queue with classA := s.queue.classA ++ [newItem ⟨.station x, .dispute m⟩ .nobody] } }) ∧
    (dirEntry m s = .homed (self s) → 24 ≤ s.queue.classA.length → routeItem x (.claim m) s = countShed s) ∧
    (∀ h i, dirEntry m s = .claiming →
      Lowest (fun h => (hostedSlot h s).state ≠ .free ∧ (hostedSlot h s).mailbox = m) h →
      Lowest (fun i => (entry i s).kind = .claim ∧ (entry i s).mailbox = m ∧ (entry i s).state = .queued) i →
      routeItem x (.claim m) s =
        finish i .taken
          { move (.homed x) with
            store := { s.store with hosted := put s.store.hosted h HostedSlot.blank } }) ∧
    (dirEntry m s = .homed x → routeItem x (.release m) s = mailboxGone m x (move .free)) ∧
    (dirEntry m s ≠ .homed x → routeItem x (.release m) s = s) ∧
    (dirEntry m s ≠ .homed (self s) → routeItem x (.dispute m) s = s) ∧
    (dirEntry m s = .homed (self s) → dirEntry m (routeItem x (.dispute m) s) = .homed x) ∧
    (∀ h, dirEntry m s = .homed (self s) → openSlotOf m s = some h →
      let noted := raiseNotice (.mailboxLost m) s
      let u := offerPlaces (pairing (discardSteps .lost h noted))
      routeItem x (.dispute m) s =
        { u with directory := { u.directory with entries := put u.directory.entries m (.homed x) } }) ∧
    (dirEntry m s = .homed (self s) → openSlotOf m s = none →
      let u := raiseNotice (.mailboxLost m) s
      routeItem x (.dispute m) s =
        { u with directory := { u.directory with entries := put u.directory.entries m (.homed x) } }) ∧
    (∀ bitmap : BitVec 64,
      let contested := (List.finRange 64).countP fun k => bitmap.getLsbD k.val && decide (dirEntry k s = .homed (self s))
      (24 < s.queue.classA.length + contested → 0 < contested → routeItem x (.presence bitmap) s = countShed s) ∧
      ((s.queue.classA.length + contested ≤ 24 ∨ contested = 0) →
        routeItem x (.presence bitmap) s = (List.finRange 64).foldl (fun u k => reconcile x bitmap k u) s) ∧
      (bitmap.getLsbD m.val = true →
        ((dirEntry m s = .free ∨ ∃ y, dirEntry m s = .orphaned y) → reconcile x bitmap m s = move (.homed x)) ∧
        (dirEntry m s = .homed x → reconcile x bitmap m s = s) ∧
        (∀ y, y ≠ x → y ≠ self s → dirEntry m s = .homed y → reconcile x bitmap m s = { s with port := conflict }) ∧
        (dirEntry m s = .homed (self s) → s.queue.classA.length < 24 →
          reconcile x bitmap m s =
            { s with
              port := conflict
              queue :=
                { s.queue with classA := s.queue.classA ++ [newItem ⟨.station x, .dispute m⟩ .nobody] } }) ∧
        (dirEntry m s = .claiming → reconcile x bitmap m s = routeItem x (.claim m) s)) ∧
      (bitmap.getLsbD m.val = false →
        (dirEntry m s = .homed x → reconcile x bitmap m s = mailboxGone m x (move .free)) ∧
        (dirEntry m s = .orphaned x → reconcile x bitmap m s = move .free) ∧
        (dirEntry m s ≠ .homed x → dirEntry m s ≠ .orphaned x → reconcile x bitmap m s = s))) ∧
    (mailboxGone m x s = promote x ((List.finRange 16).foldl (fun u i => goneAt m x i u) s) ∧
      ∀ i : Fin 16,
        ((entry i s).mailbox = m → (entry i s).home = some x →
          ((entry i s).state ∈ [.waiting, .queued] → goneAt m x i s = finish i .noMailbox s) ∧
          ((entry i s).state ∈ [.parked, .cancelWaiting, .cancelQueued] → goneAt m x i s = finish i .closed s) ∧
          ((entry i s).state ∈ [.free, .sent, .localParked, .cancelSent, .late, .held] → goneAt m x i s = s)) ∧
        (((entry i s).mailbox ≠ m ∨ (entry i s).home ≠ some x) → goneAt m x i s = s)) ∧
    ((s.control.state = .seeking ∨ s.control.state = .active) →
        let own := fun b : ItemBody => dispatchItem (self s) ⟨.broadcast, b⟩ s
        (dirEntry m s ≠ .claiming → own (.claim m) = s) ∧
        (∀ h i, dirEntry m s = .claiming →
          Lowest (fun h => (hostedSlot h s).state ≠ .free ∧ (hostedSlot h s).mailbox = m) h →
          Lowest (fun i => (entry i s).kind = .claim ∧ (entry i s).mailbox = m ∧ (entry i s).state = .queued) i →
          own (.claim m) =
            finish i .ok
              { move (.homed (self s)) with
                store :=
                  { s.store with
                    hosted :=
                      put s.store.hosted h
                        { hostedSlot h s with state := .opened, messages := [], waiters := [] } } }) ∧
        (∀ i, Lowest (fun i => (entry i s).kind = .release ∧ (entry i s).mailbox = m ∧ (entry i s).state = .queued) i →
          own (.release m) = finish i .ok s) ∧
        ((∀ i : Fin 16, ¬ ((entry i s).kind = .release ∧ (entry i s).mailbox = m ∧ (entry i s).state = .queued)) →
          own (.release m) = s) ∧
        ∀ bitmap, own (.presence bitmap) = s) ∧
    (∀ i : Item,
      ((s.control.state = .leaving ∨ s.control.state = .offline) → ∀ y, dispatchItem y i s = s) ∧
      (i.dest ≠ .broadcast → i.dest ≠ .station (self s) → ∀ y, dispatchItem y i s = s) ∧
      ((s.control.state = .seeking ∨ s.control.state = .active) → (i.dest = .broadcast ∨ i.dest = .station (self s)) →
        dispatchItem x i s = routeItem x i.body s) ∧
      ∀ rest y, dispatchItems y (i :: rest) s = dispatchItems y rest (dispatchItem y i s) ∧ dispatchItems y [] s = s)

/-- A PUT item: a repeat of the last exchange with the same tag is answered again and nothing else; otherwise, with a
class A place, it is answered NO_MAILBOX with no OPEN slot, or the message is placed and the answer stands ahead of what
that gives rise to: it is handed to a local head waiter, whose entry finishes DELIVERED, or to a remote one through the
lowest FREE delivery slot, or is stored, or finds the mailbox or the pool full; with class A full the item is shed (R114 to
R117). -/
def Obligations.PutItemEffect : Prop :=
  ∀ (x : Fin 32) (m : Fin 64) (t : Byte) (data : List Byte) (s : State),
    let reply := fun r : PutResult =>
      { s.queue with classA := s.queue.classA ++ [newItem ⟨.station x, .putReply t r⟩ .nobody] }
    let noted := fun r : PutResult => put s.store.exchange x (some ⟨t, .put r⟩)
    (24 ≤ s.queue.classA.length → routeItem x (.put m t data) s = countShed s) ∧
    (s.queue.classA.length < 24 →
      (∀ r, exchange x s = some ⟨t, .put r⟩ → routeItem x (.put m t data) s = { s with queue := reply r }) ∧
      ((∀ r, exchange x s ≠ some ⟨t, .put r⟩) →
        (openSlotOf m s = none →
          routeItem x (.put m t data) s =
            { s with queue := reply .noMailbox, store := { s.store with exchange := noted .noMailbox } }) ∧
        (∀ h, openSlotOf m s = some h → HeadCannotBeServed h s →
          ((hostedSlot h s).depth ≤ load h s →
            routeItem x (.put m t data) s =
              { s with queue := reply .full, store := { s.store with exchange := noted .full } }) ∧
          (load h s < (hostedSlot h s).depth → (∀ c : Fin 64, cell c s ≠ none) →
            routeItem x (.put m t data) s =
              { s with queue := reply .noSpace, store := { s.store with exchange := noted .noSpace } }) ∧
          (∀ c, load h s < (hostedSlot h s).depth → Lowest (fun c => cell c s = none) c →
            routeItem x (.put m t data) s =
              pairing
                { s with
                  queue := reply .stored
                  store :=
                    { s.store with
                      exchange := noted .stored
                      pool := put s.store.pool c (some { origin := x, data := data })
                      hosted :=
                        put s.store.hosted h
                          { hostedSlot h s with messages := (hostedSlot h s).messages ++ [c] } } })) ∧
        (∀ h w rest r, openSlotOf m s = some h → (hostedSlot h s).waiters = w :: rest → waiter w s = some r →
          r.hosted = h →
          let served :=
            { s.store with
              exchange := noted .stored
              waiters := put s.store.waiters w none
              hosted :=
                put s.store.hosted h
                  { hostedSlot h s with waiters := (hostedSlot h s).waiters.filter fun v => v ≠ w } }
          (r.requester = self s →
            routeItem x (.put m t data) s =
              finish (slotOfTag r.tag) .delivered
                { s with
                  queue := reply .stored
                  store := served
                  engine :=
                    { s.engine with
                      entries :=
                        put s.engine.entries (slotOfTag r.tag)
                          { entry (slotOfTag r.tag) s with
                            result := { status := none, origin := x, data := data } } } }) ∧
          (∀ d c, r.requester ≠ self s → load h s < (hostedSlot h s).depth → Lowest (fun d => delivery d s = none) d →
            Lowest (fun c => cell c s = none) c →
            routeItem x (.put m t data) s =
              fillDelivery d h c r.requester r.tag
                (revise r.requester r.tag .parked (.delivering d)
                  { s with
                    queue := reply .stored
                    store := { served with pool := put s.store.pool c (some { origin := x, data := data }) } })))))

/-- A TAKE item taken as new, its memory entry holding no TAKE of that tag or one that ended RETURNED or EXPIRED: shed with
class A full; otherwise an old waiter of that station and tag is removed and the message of an old delivery slot goes back,
and then it is answered NO_MAILBOX, is given the head message, is answered EMPTY or HOME_BUSY with a wait of 0, waits, or is
answered WAIT_FULL (R133). A TAKE whose reply is remembered for the same tag is answered again, or shed with class A full;
one whose message is on its way has the DELIVER of a SENT slot queued again, and otherwise no effect (R132). What rests on
the model's choice: LOG 18. -/
def Obligations.TakeItemEffect : Prop :=
  ∀ (x : Fin 32) (m : Fin 64) (t : Byte) (p : Fin 4) (w : Byte) (s : State),
    let replied := fun (r : TakeResult) (o : TakeOutcome) (u : State) =>
      offerPlaces (pairing (answer x (.takeReply t r) (remember x t (.take o) u)))
    (∀ r ∈ [TakeResult.parked, .empty, .noMailbox, .waitFull, .homeBusy],
      exchange x s = some ⟨t, .take (repliedOutcome r)⟩ →
      (s.queue.classA.length < 24 → routeItem x (.take m t p w) s = answer x (.takeReply t r) s) ∧
      (24 ≤ s.queue.classA.length → routeItem x (.take m t p w) s = countShed s)) ∧
    (∀ d, exchange x s = some ⟨t, .take (.delivering d)⟩ →
      (∀ y moment, delivery d s = some y → y.dest = x → y.tag = t → y.state = .sent moment →
        (s.queue.classA.length < 24 →
          routeItem x (.take m t p w) s =
            { s with
              store :=
                { s.store with deliveries := put s.store.deliveries d (some { y with state := .queued }) }
              queue := { s.queue with classA := s.queue.classA ++ [newItem (deliverItem y s) (.delivery d)] }
              port :=
                { s.port with
                  counters :=
                    { s.port.counters with
                      deliveryRetransmissions := satInc s.port.counters.deliveryRetransmissions } } }) ∧
        (24 ≤ s.queue.classA.length → routeItem x (.take m t p w) s = countShed s)) ∧
      (∀ y, delivery d s = some y → (y.state = .unqueued ∨ y.state = .queued ∨ y.dest ≠ x ∨ y.tag ≠ t) →
        routeItem x (.take m t p w) s = s) ∧
      (delivery d s = none → routeItem x (.take m t p w) s = s)) ∧
    ((∀ last, exchange x s = some ⟨t, .take last⟩ → last = .returned ∨ last = .expired) →
      (24 ≤ s.queue.classA.length → routeItem x (.take m t p w) s = countShed s) ∧
      (s.queue.classA.length < 24 →
        let u := clearOldPair x t s
        (openSlotOf m u = none → routeItem x (.take m t p w) s = replied .noMailbox .noMailbox u) ∧
        (∀ h, openSlotOf m u = some h →
          (∀ c rest d, (hostedSlot h u).messages = c :: rest → (hostedSlot h u).waiters = [] →
            Lowest (fun d => delivery d u = none) d →
            routeItem x (.take m t p w) s =
              offerPlaces (pairing (fillDelivery d h c x t (remember x t (.take (.delivering d)) (dropHead h u))))) ∧
          ((hostedSlot h u).messages = [] → w = 0 → routeItem x (.take m t p w) s = replied .empty .empty u) ∧
          ((hostedSlot h u).messages ≠ [] →
            ((hostedSlot h u).waiters ≠ [] ∨ ∀ d : Fin 8, delivery d u ≠ none) → w = 0 →
            routeItem x (.take m t p w) s = replied .homeBusy .homeBusy u) ∧
          (((hostedSlot h u).messages = [] ∨ (hostedSlot h u).waiters ≠ [] ∨ ∀ d : Fin 8, delivery d u ≠ none) →
            w ≠ 0 →
            ((∀ v : Fin 32, waiter v u ≠ none) →
              routeItem x (.take m t p w) s = replied .waitFull .waitFull u) ∧
            (∀ v, Lowest (fun v => waiter v u = none) v →
              routeItem x (.take m t p w) s = replied .parked .parked (makeWaiter v h x t p w u)))))) ∧
    (waiterOf x t s = none → deliveryTo x t s = none → clearOldPair x t s = s) ∧
    (∀ v, waiterOf x t s = some v → deliveryTo x t s = none → clearOldPair x t s = removeWaiter v s) ∧
    (∀ d, deliveryTo x t s = some d →
      clearOldPair x t s =
        returnMessage d (match waiterOf x t s with | some v => removeWaiter v s | none => s)) ∧
    (∀ d y, delivery d s = some y → returnMessage d s = releaseTo y.dest d s) ∧
    (∀ v r, waiter v s = some r → removeWaiter v s = dropWaiterOf r.requester v s)

/-- A CANCEL item taken as new answers REMOVED with the waiter removed, TOO_LATE while the message is on its way, and
otherwise UNKNOWN; a DELIVER_ACK that matches a delivery slot frees the slot and its cell, and any other has no effect
(R143, R146). What rests on the model's choice: LOG 18. -/
def Obligations.CancelAndAckItems : Prop :=
  ∀ (x : Fin 32) (m : Fin 64) (t q : Byte) (v : AckVerdict) (s : State),
    ((∀ r, exchange x s ≠ some ⟨t, .cancel r⟩) → s.queue.classA.length < 24 →
      (∀ w, waiterOf x t s = some w →
        routeItem x (.cancel m t) s =
          pairing (answer x (.cancelReply t .removed) (remember x t (.cancel .removed) (removeWaiter w s)))) ∧
      (waiterOf x t s = none →
        (deliveryTo x t s ≠ none →
          routeItem x (.cancel m t) s = answer x (.cancelReply t .tooLate) (remember x t (.cancel .tooLate) s)) ∧
        (deliveryTo x t s = none →
          routeItem x (.cancel m t) s = answer x (.cancelReply t .unknown) (remember x t (.cancel .unknown) s)))) ∧
    (∀ r, exchange x s = some ⟨t, .cancel r⟩ → s.queue.classA.length < 24 →
      routeItem x (.cancel m t) s = answer x (.cancelReply t r) s) ∧
    (24 ≤ s.queue.classA.length → routeItem x (.cancel m t) s = countShed s) ∧
    ((∀ d y, delivery d s = some y → ¬ (y.dest = x ∧ y.tag = t ∧ y.dseq = q)) →
      routeItem x (.deliverAck t q v) s = s) ∧
    (∀ d, Lowest (fun d => ∃ y, delivery d s = some y ∧ y.dest = x ∧ y.tag = t ∧ y.dseq = q) d →
      (routeItem x (.deliverAck t q .accepted) s = pairing (offerPlaces (freeDelivery d s))) ∧
      (routeItem x (.deliverAck t q .stale) s = countStaleAck (pairing (offerPlaces (freeDelivery d s)))))

/-- What comes back from a home. A PUT_REPLY finishes the matching PUT that awaits it with its result. A TAKE_REPLY PARKED
parks the matching take with its backstop, or, if a cancel was asked for, sends it to cancelling; EXPIRED finishes it in the
states that R161 lists, and the other results finish the take that awaits them. A CANCEL_REPLY finishes the take that awaits
it CANCELLED or EXPIRED by its cancel-cause, or for TOO_LATE makes it LATE with its deadline 4 x R + 4 own turns ahead. A
DELIVER with class A full is shed; a take that accepts it keeps the message, finishes DELIVERED and answers ACCEPTED; one
that meets no such take is answered STALE. Each closing of an exchange looks at promotion. Replies that match no entry, or
find it in another state, have no effect (R160 to R162, R164). -/
def Obligations.RepliesFromHome : Prop :=
  ∀ (x : Fin 32) (t : Byte) (s : State),
    let i := slotOfTag t
    let e := entry i s
    (∀ r, entryMatches x t .put s = true → awaitsReply e = true →
      routeItem x (.putReply t r) s = promote x (finish i (putStatus r) s)) ∧
    (∀ r, (entryMatches x t .put s = false ∨ awaitsReply e = false) → routeItem x (.putReply t r) s = s) ∧
    (entryMatches x t .take s = true → awaitsReply e = true → e.cancelRequested = false →
      routeItem x (.takeReply t .parked) s =
        promote x
          { s with
            queue := { s.queue with classB := withdrawFrom (.entry i) s.queue.classB }
            engine :=
              { s.engine with
                entries :=
                  put s.engine.entries i
                    { e with
                      state := .parked
                      deadline :=
                        if e.wait = 255 then none
                        else
                          some (s.tracker.ownTurnCount + BitVec.ofNat 16 (e.wait.toNat + replyLimit s + 2)) } } }) ∧
    (∀ r, entryMatches x t .take s = false → routeItem x (.takeReply t r) s = s) ∧
    (∀ r, entryMatches x t .take s = false → routeItem x (.cancelReply t r) s = s) ∧
    (∀ q o data, 24 ≤ s.queue.classA.length → routeItem x (.deliver t q o data) s = countShed s) ∧
    (∀ q o data, s.queue.classA.length < 24 → (entryMatches x t .take s = false ∨ acceptsDeliver e = false) →
      routeItem x (.deliver t q o data) s =
        { s with
          queue :=
            { s.queue with
              classA := s.queue.classA ++ [newItem ⟨.station x, .deliverAck t q .stale⟩ .nobody] } }) ∧
    ((entryMatches x t .put s = true ↔
        e.state ≠ .free ∧ entryTag i s = t ∧ e.home = some x ∧ e.kind = .put) ∧
      (entryMatches x t .take s = true ↔
        e.state ≠ .free ∧ entryTag i s = t ∧ e.home = some x ∧ e.kind = .take) ∧
      (awaitsReply e = true ↔ e.state = .sent ∨ (e.state = .queued ∧ 0 < e.attempts)) ∧
      (awaitsCancelReply e = true ↔ e.state = .cancelSent ∨ (e.state = .cancelQueued ∧ 0 < e.attempts)) ∧
      (acceptsDeliver e = true ↔
        awaitsReply e = true ∨ e.state ∈ [.parked, .cancelWaiting, .cancelQueued, .cancelSent, .late])) ∧
    (putStatus .stored = .stored ∧ putStatus .full = .full ∧ putStatus .noSpace = .noSpace ∧
      putStatus .noMailbox = .noMailbox) ∧
    (entryMatches x t .take s = true →
      (awaitsReply e = true → e.cancelRequested = true →
        routeItem x (.takeReply t .parked) s =
          { s with
            engine :=
              { s.engine with
                entries :=
                  put s.engine.entries i
                    { e with attempts := 0, deadline := none, cancelCause := .localCause, state := .cancelQueued } }
            queue :=
              { s.queue with
                classB :=
                  withdrawFrom (.entry i) s.queue.classB ++
                    [newItem ⟨.station x, .cancel e.mailbox t⟩ (.entry i)] } }) ∧
      (awaitsReply e = true →
        routeItem x (.takeReply t .empty) s = promote x (finish i .empty s) ∧
          routeItem x (.takeReply t .noMailbox) s = promote x (finish i .noMailbox s) ∧
          routeItem x (.takeReply t .waitFull) s = promote x (finish i .waitFull s) ∧
          routeItem x (.takeReply t .homeBusy) s = promote x (finish i .homeBusy s)) ∧
      (awaitsReply e = false → ∀ r, r ≠ .expired → routeItem x (.takeReply t r) s = s) ∧
      ((awaitsReply e = true ∨ e.state ∈ [.parked, .cancelWaiting, .cancelQueued, .cancelSent]) →
        routeItem x (.takeReply t .expired) s = promote x (finish i .expired s)) ∧
      (awaitsReply e = false → e.state ∉ [.parked, .cancelWaiting, .cancelQueued, .cancelSent] →
        routeItem x (.takeReply t .expired) s = s) ∧
      (awaitsCancelReply e = true →
        (∀ r, r = .removed ∨ r = .unknown →
          (e.cancelCause = .localCause → routeItem x (.cancelReply t r) s = promote x (finish i .cancelled s)) ∧
          (e.cancelCause = .backstopCause → routeItem x (.cancelReply t r) s = promote x (finish i .expired s))) ∧
        routeItem x (.cancelReply t .tooLate) s =
          promote x
            { s with
              queue := { s.queue with classB := withdrawFrom (.entry i) s.queue.classB }
              engine :=
                { s.engine with
                  entries :=
                    put s.engine.entries i
                      { e with
                        state := .late
                        deadline := some (s.tracker.ownTurnCount + BitVec.ofNat 16 (4 * replyLimit s + 4)) } } }) ∧
      (awaitsCancelReply e = false → ∀ r, routeItem x (.cancelReply t r) s = s) ∧
      (∀ q o data, s.queue.classA.length < 24 → acceptsDeliver e = true →
        routeItem x (.deliver t q o data) s =
          promote x
            (answer x (.deliverAck t q .accepted)
              (finish i .delivered
                { s with
                  engine :=
                    { s.engine with
                      entries :=
                        put s.engine.entries i
                          { e with result := { status := none, origin := o, data := data } } } }))))

/-! ### Frames as bytes (R5 to R9, 12.2) -/

/-- The items of a frame, written as bytes, are read back by the item parse with every field as it was. -/
def Obligations.ItemsParseBack : Prop :=
  ∀ items : List Item, (∀ i ∈ items, ItemFits i) → parseItems items.length (payloadBytes items) = some items

/-- A frame this part builds is judged GOOD by a station with the same configuration but another number: the CRC agrees,
the counted length ends the frame, and the items are read as they were sent. -/
def Obligations.BuiltFrameIsGoodElsewhere : Prop :=
  ∀ (c : StationConfig) (items : List Item) (s : State) (d : StationConfig), ItemsFit items → c.station.val < c.cycle →
    s.control.config = some d → signature d = signature c → d.cycle = c.cycle → d.station ≠ c.station →
    verdictOn (withCrc (frameBytes c items)) s = .good c.station items ∧
      countedLength (withCrc (frameBytes c items)) = some (withCrc (frameBytes c items)).length

/-! ### Invariants -/

/-- Every step keeps the bounds of the tables: class A at most 24 items, the FIFO 32 bytes, the completion queue 16
records, held entries only behind a full completion queue, missed-turn counts at most 8, and the transmit flag set
exactly while the part sends. -/
def Obligations.EveryStepKeepsBounds : Prop := ∀ s t : State, Bounded s → step s = .next t → Bounded t

/-- Every step keeps the agreement of the station state with the tracker: SEEKING is UNSYNCED, ACTIVE and LEAVING are
SYNCED, and in OFFLINE the tracker is stopped and the line is not looked at (R22). -/
def Obligations.EveryStepKeepsSyncAgreement : Prop := ∀ s t : State, SyncMatches s → step s = .next t → SyncMatches t

/-- Every step keeps a valid configuration in the ranges of CONFIGURE, and the read pointer within the result, which is
empty while BUSY is set. -/
def Obligations.EveryStepKeepsPortAndConfiguration : Prop :=
  (∀ s t : State, ConfigLegal s → step s = .next t → ConfigLegal t) ∧
    ∀ s t : State, ResultWhole s → step s = .next t → ResultWhole t

/-- The invariants hold in the machine right after reset. -/
def Obligations.InvariantsHoldAtReset : Prop :=
  Bounded State.reset ∧ SyncMatches State.reset ∧ ConfigLegal State.reset ∧ ResultWhole State.reset ∧
    TablesWhole State.reset

/-- Every step keeps the tables whole: each message cell in use stands in one message list, once, or in one delivery slot,
and a free cell in neither; the load of a hosted mailbox is at most its depth limit; a hosted mailbox holds a stored message
beside a waiter only while its head waiter is remote and no delivery slot is FREE; the waiter lists hold the waiters in use,
in order of priority; the directory and the hosted slots agree; a home has at most one entry with an open exchange, and
entries wait for it only behind one; the held list and the waiting orders hold the entries in these states, each once; local
takers and LOCAL_PARKED entries agree; no entry is live in LEAVING and OFFLINE; and class B holds one item at most for each
entry that has one, at most 16 in all, beside items withdrawn on air, which stay until their frame ends (R63, LOG 30). -/
def Obligations.EveryStepKeepsTables : Prop := ∀ s t : State, TablesWhole s → step s = .next t → TablesWhole t
end

