-- ==== Sys2Proof/Laws/State.lean ====
section
/-! SUPPORT. What each named update of the state leaves in each field: one lemma for each field and update. -/

namespace Sys2Proof.Machine

/-! ### withPort -/

@[simp] theorem withPort_rstAsserted (s : State) (p : LocalPort) : (s.withPort p).rstAsserted = s.rstAsserted := rfl
@[simp] theorem withPort_control (s : State) (p : LocalPort) : (s.withPort p).control = s.control := rfl
@[simp] theorem withPort_line (s : State) (p : LocalPort) : (s.withPort p).line = s.line := rfl
@[simp] theorem withPort_tracker (s : State) (p : LocalPort) : (s.withPort p).tracker = s.tracker := rfl
@[simp] theorem withPort_queue (s : State) (p : LocalPort) : (s.withPort p).queue = s.queue := rfl
@[simp] theorem withPort_roster (s : State) (p : LocalPort) : (s.withPort p).roster = s.roster := rfl
@[simp] theorem withPort_directory (s : State) (p : LocalPort) : (s.withPort p).directory = s.directory := rfl
@[simp] theorem withPort_store (s : State) (p : LocalPort) : (s.withPort p).store = s.store := rfl
@[simp] theorem withPort_engine (s : State) (p : LocalPort) : (s.withPort p).engine = s.engine := rfl
@[simp] theorem withPort_port (s : State) (p : LocalPort) : (s.withPort p).port = p := rfl
@[simp] theorem withPort_pending (s : State) (p : LocalPort) : (s.withPort p).pending = s.pending := rfl

/-! ### withQueue -/

@[simp] theorem withQueue_rstAsserted (s : State) (q : ItemQueue) : (s.withQueue q).rstAsserted = s.rstAsserted := rfl
@[simp] theorem withQueue_control (s : State) (q : ItemQueue) : (s.withQueue q).control = s.control := rfl
@[simp] theorem withQueue_line (s : State) (q : ItemQueue) : (s.withQueue q).line = s.line := rfl
@[simp] theorem withQueue_tracker (s : State) (q : ItemQueue) : (s.withQueue q).tracker = s.tracker := rfl
@[simp] theorem withQueue_queue (s : State) (q : ItemQueue) : (s.withQueue q).queue = q := rfl
@[simp] theorem withQueue_roster (s : State) (q : ItemQueue) : (s.withQueue q).roster = s.roster := rfl
@[simp] theorem withQueue_directory (s : State) (q : ItemQueue) : (s.withQueue q).directory = s.directory := rfl
@[simp] theorem withQueue_store (s : State) (q : ItemQueue) : (s.withQueue q).store = s.store := rfl
@[simp] theorem withQueue_engine (s : State) (q : ItemQueue) : (s.withQueue q).engine = s.engine := rfl
@[simp] theorem withQueue_port (s : State) (q : ItemQueue) : (s.withQueue q).port = s.port := rfl
@[simp] theorem withQueue_pending (s : State) (q : ItemQueue) : (s.withQueue q).pending = s.pending := rfl

/-! ### withStore -/

@[simp] theorem withStore_rstAsserted (s : State) (m : MailboxStore) : (s.withStore m).rstAsserted = s.rstAsserted := rfl
@[simp] theorem withStore_control (s : State) (m : MailboxStore) : (s.withStore m).control = s.control := rfl
@[simp] theorem withStore_line (s : State) (m : MailboxStore) : (s.withStore m).line = s.line := rfl
@[simp] theorem withStore_tracker (s : State) (m : MailboxStore) : (s.withStore m).tracker = s.tracker := rfl
@[simp] theorem withStore_queue (s : State) (m : MailboxStore) : (s.withStore m).queue = s.queue := rfl
@[simp] theorem withStore_roster (s : State) (m : MailboxStore) : (s.withStore m).roster = s.roster := rfl
@[simp] theorem withStore_directory (s : State) (m : MailboxStore) : (s.withStore m).directory = s.directory := rfl
@[simp] theorem withStore_store (s : State) (m : MailboxStore) : (s.withStore m).store = m := rfl
@[simp] theorem withStore_engine (s : State) (m : MailboxStore) : (s.withStore m).engine = s.engine := rfl
@[simp] theorem withStore_port (s : State) (m : MailboxStore) : (s.withStore m).port = s.port := rfl
@[simp] theorem withStore_pending (s : State) (m : MailboxStore) : (s.withStore m).pending = s.pending := rfl

/-! ### withEngine -/

@[simp] theorem withEngine_rstAsserted (s : State) (e : RequestEngine) : (s.withEngine e).rstAsserted = s.rstAsserted := rfl
@[simp] theorem withEngine_control (s : State) (e : RequestEngine) : (s.withEngine e).control = s.control := rfl
@[simp] theorem withEngine_line (s : State) (e : RequestEngine) : (s.withEngine e).line = s.line := rfl
@[simp] theorem withEngine_tracker (s : State) (e : RequestEngine) : (s.withEngine e).tracker = s.tracker := rfl
@[simp] theorem withEngine_queue (s : State) (e : RequestEngine) : (s.withEngine e).queue = s.queue := rfl
@[simp] theorem withEngine_roster (s : State) (e : RequestEngine) : (s.withEngine e).roster = s.roster := rfl
@[simp] theorem withEngine_directory (s : State) (e : RequestEngine) : (s.withEngine e).directory = s.directory := rfl
@[simp] theorem withEngine_store (s : State) (e : RequestEngine) : (s.withEngine e).store = s.store := rfl
@[simp] theorem withEngine_engine (s : State) (e : RequestEngine) : (s.withEngine e).engine = e := rfl
@[simp] theorem withEngine_port (s : State) (e : RequestEngine) : (s.withEngine e).port = s.port := rfl
@[simp] theorem withEngine_pending (s : State) (e : RequestEngine) : (s.withEngine e).pending = s.pending := rfl

/-! ### withLine -/

@[simp] theorem withLine_rstAsserted (s : State) (l : LineUnit) : (s.withLine l).rstAsserted = s.rstAsserted := rfl
@[simp] theorem withLine_control (s : State) (l : LineUnit) : (s.withLine l).control = s.control := rfl
@[simp] theorem withLine_line (s : State) (l : LineUnit) : (s.withLine l).line = l := rfl
@[simp] theorem withLine_tracker (s : State) (l : LineUnit) : (s.withLine l).tracker = s.tracker := rfl
@[simp] theorem withLine_queue (s : State) (l : LineUnit) : (s.withLine l).queue = s.queue := rfl
@[simp] theorem withLine_roster (s : State) (l : LineUnit) : (s.withLine l).roster = s.roster := rfl
@[simp] theorem withLine_directory (s : State) (l : LineUnit) : (s.withLine l).directory = s.directory := rfl
@[simp] theorem withLine_store (s : State) (l : LineUnit) : (s.withLine l).store = s.store := rfl
@[simp] theorem withLine_engine (s : State) (l : LineUnit) : (s.withLine l).engine = s.engine := rfl
@[simp] theorem withLine_port (s : State) (l : LineUnit) : (s.withLine l).port = s.port := rfl
@[simp] theorem withLine_pending (s : State) (l : LineUnit) : (s.withLine l).pending = s.pending := rfl

/-! ### withTracker -/

@[simp] theorem withTracker_rstAsserted (s : State) (t : TurnTracker) : (s.withTracker t).rstAsserted = s.rstAsserted := rfl
@[simp] theorem withTracker_control (s : State) (t : TurnTracker) : (s.withTracker t).control = s.control := rfl
@[simp] theorem withTracker_line (s : State) (t : TurnTracker) : (s.withTracker t).line = s.line := rfl
@[simp] theorem withTracker_tracker (s : State) (t : TurnTracker) : (s.withTracker t).tracker = t := rfl
@[simp] theorem withTracker_queue (s : State) (t : TurnTracker) : (s.withTracker t).queue = s.queue := rfl
@[simp] theorem withTracker_roster (s : State) (t : TurnTracker) : (s.withTracker t).roster = s.roster := rfl
@[simp] theorem withTracker_directory (s : State) (t : TurnTracker) : (s.withTracker t).directory = s.directory := rfl
@[simp] theorem withTracker_store (s : State) (t : TurnTracker) : (s.withTracker t).store = s.store := rfl
@[simp] theorem withTracker_engine (s : State) (t : TurnTracker) : (s.withTracker t).engine = s.engine := rfl
@[simp] theorem withTracker_port (s : State) (t : TurnTracker) : (s.withTracker t).port = s.port := rfl
@[simp] theorem withTracker_pending (s : State) (t : TurnTracker) : (s.withTracker t).pending = s.pending := rfl

/-! ### withPending -/

@[simp] theorem withPending_rstAsserted (s : State) (q : List Instr) : (s.withPending q).rstAsserted = s.rstAsserted := rfl
@[simp] theorem withPending_control (s : State) (q : List Instr) : (s.withPending q).control = s.control := rfl
@[simp] theorem withPending_line (s : State) (q : List Instr) : (s.withPending q).line = s.line := rfl
@[simp] theorem withPending_tracker (s : State) (q : List Instr) : (s.withPending q).tracker = s.tracker := rfl
@[simp] theorem withPending_queue (s : State) (q : List Instr) : (s.withPending q).queue = s.queue := rfl
@[simp] theorem withPending_roster (s : State) (q : List Instr) : (s.withPending q).roster = s.roster := rfl
@[simp] theorem withPending_directory (s : State) (q : List Instr) : (s.withPending q).directory = s.directory := rfl
@[simp] theorem withPending_store (s : State) (q : List Instr) : (s.withPending q).store = s.store := rfl
@[simp] theorem withPending_engine (s : State) (q : List Instr) : (s.withPending q).engine = s.engine := rfl
@[simp] theorem withPending_port (s : State) (q : List Instr) : (s.withPending q).port = s.port := rfl
@[simp] theorem withPending_pending (s : State) (q : List Instr) : (s.withPending q).pending = q := rfl

/-! ### withCounters -/

@[simp] theorem withCounters_rstAsserted (s : State) (c : Counters) : (s.withCounters c).rstAsserted = s.rstAsserted := rfl
@[simp] theorem withCounters_control (s : State) (c : Counters) : (s.withCounters c).control = s.control := rfl
@[simp] theorem withCounters_line (s : State) (c : Counters) : (s.withCounters c).line = s.line := rfl
@[simp] theorem withCounters_tracker (s : State) (c : Counters) : (s.withCounters c).tracker = s.tracker := rfl
@[simp] theorem withCounters_queue (s : State) (c : Counters) : (s.withCounters c).queue = s.queue := rfl
@[simp] theorem withCounters_roster (s : State) (c : Counters) : (s.withCounters c).roster = s.roster := rfl
@[simp] theorem withCounters_directory (s : State) (c : Counters) : (s.withCounters c).directory = s.directory := rfl
@[simp] theorem withCounters_store (s : State) (c : Counters) : (s.withCounters c).store = s.store := rfl
@[simp] theorem withCounters_engine (s : State) (c : Counters) : (s.withCounters c).engine = s.engine := rfl
@[simp] theorem withCounters_port (s : State) (c : Counters) : (s.withCounters c).port = { s.port with counters := c } := rfl
@[simp] theorem withCounters_pending (s : State) (c : Counters) : (s.withCounters c).pending = s.pending := rfl

/-! ### setEntry -/

@[simp] theorem setEntry_rstAsserted (i : Fin 16) (e : Entry) (s : State) :
    (setEntry i e s).rstAsserted = s.rstAsserted := rfl
@[simp] theorem setEntry_control (i : Fin 16) (e : Entry) (s : State) : (setEntry i e s).control = s.control := rfl
@[simp] theorem setEntry_line (i : Fin 16) (e : Entry) (s : State) : (setEntry i e s).line = s.line := rfl
@[simp] theorem setEntry_tracker (i : Fin 16) (e : Entry) (s : State) : (setEntry i e s).tracker = s.tracker := rfl
@[simp] theorem setEntry_queue (i : Fin 16) (e : Entry) (s : State) : (setEntry i e s).queue = s.queue := rfl
@[simp] theorem setEntry_roster (i : Fin 16) (e : Entry) (s : State) : (setEntry i e s).roster = s.roster := rfl
@[simp] theorem setEntry_directory (i : Fin 16) (e : Entry) (s : State) :
    (setEntry i e s).directory = s.directory := rfl
@[simp] theorem setEntry_store (i : Fin 16) (e : Entry) (s : State) : (setEntry i e s).store = s.store := rfl
@[simp] theorem setEntry_engine (i : Fin 16) (e : Entry) (s : State) :
    (setEntry i e s).engine = { s.engine with entries := put s.engine.entries i e } := rfl
@[simp] theorem setEntry_port (i : Fin 16) (e : Entry) (s : State) : (setEntry i e s).port = s.port := rfl
@[simp] theorem setEntry_pending (i : Fin 16) (e : Entry) (s : State) : (setEntry i e s).pending = s.pending := rfl

/-! ### setWaiting -/

@[simp] theorem setWaiting_rstAsserted (h : Fin 32) (l : List (Fin 16)) (s : State) :
    (setWaiting h l s).rstAsserted = s.rstAsserted := rfl
@[simp] theorem setWaiting_control (h : Fin 32) (l : List (Fin 16)) (s : State) :
    (setWaiting h l s).control = s.control := rfl
@[simp] theorem setWaiting_line (h : Fin 32) (l : List (Fin 16)) (s : State) : (setWaiting h l s).line = s.line := rfl
@[simp] theorem setWaiting_tracker (h : Fin 32) (l : List (Fin 16)) (s : State) :
    (setWaiting h l s).tracker = s.tracker := rfl
@[simp] theorem setWaiting_queue (h : Fin 32) (l : List (Fin 16)) (s : State) :
    (setWaiting h l s).queue = s.queue := rfl
@[simp] theorem setWaiting_roster (h : Fin 32) (l : List (Fin 16)) (s : State) :
    (setWaiting h l s).roster = s.roster := rfl
@[simp] theorem setWaiting_directory (h : Fin 32) (l : List (Fin 16)) (s : State) :
    (setWaiting h l s).directory = s.directory := rfl
@[simp] theorem setWaiting_store (h : Fin 32) (l : List (Fin 16)) (s : State) :
    (setWaiting h l s).store = s.store := rfl
@[simp] theorem setWaiting_engine (h : Fin 32) (l : List (Fin 16)) (s : State) :
    (setWaiting h l s).engine = { s.engine with waiting := put s.engine.waiting h l } := rfl
@[simp] theorem setWaiting_port (h : Fin 32) (l : List (Fin 16)) (s : State) : (setWaiting h l s).port = s.port := rfl
@[simp] theorem setWaiting_pending (h : Fin 32) (l : List (Fin 16)) (s : State) :
    (setWaiting h l s).pending = s.pending := rfl

/-! ### setDirEntry -/

@[simp] theorem setDirEntry_rstAsserted (m : Fin 64) (e : DirEntry) (s : State) :
    (setDirEntry m e s).rstAsserted = s.rstAsserted := rfl
@[simp] theorem setDirEntry_control (m : Fin 64) (e : DirEntry) (s : State) :
    (setDirEntry m e s).control = s.control := rfl
@[simp] theorem setDirEntry_line (m : Fin 64) (e : DirEntry) (s : State) : (setDirEntry m e s).line = s.line := rfl
@[simp] theorem setDirEntry_tracker (m : Fin 64) (e : DirEntry) (s : State) :
    (setDirEntry m e s).tracker = s.tracker := rfl
@[simp] theorem setDirEntry_queue (m : Fin 64) (e : DirEntry) (s : State) : (setDirEntry m e s).queue = s.queue := rfl
@[simp] theorem setDirEntry_roster (m : Fin 64) (e : DirEntry) (s : State) :
    (setDirEntry m e s).roster = s.roster := rfl
@[simp] theorem setDirEntry_directory (m : Fin 64) (e : DirEntry) (s : State) :
    (setDirEntry m e s).directory = { s.directory with entries := put s.directory.entries m e } := rfl
@[simp] theorem setDirEntry_store (m : Fin 64) (e : DirEntry) (s : State) : (setDirEntry m e s).store = s.store := rfl
@[simp] theorem setDirEntry_engine (m : Fin 64) (e : DirEntry) (s : State) :
    (setDirEntry m e s).engine = s.engine := rfl
@[simp] theorem setDirEntry_port (m : Fin 64) (e : DirEntry) (s : State) : (setDirEntry m e s).port = s.port := rfl
@[simp] theorem setDirEntry_pending (m : Fin 64) (e : DirEntry) (s : State) :
    (setDirEntry m e s).pending = s.pending := rfl

/-! ### setHosted -/

@[simp] theorem setHosted_rstAsserted (h : Fin 16) (x : HostedSlot) (s : State) :
    (setHosted h x s).rstAsserted = s.rstAsserted := rfl
@[simp] theorem setHosted_control (h : Fin 16) (x : HostedSlot) (s : State) :
    (setHosted h x s).control = s.control := rfl
@[simp] theorem setHosted_line (h : Fin 16) (x : HostedSlot) (s : State) : (setHosted h x s).line = s.line := rfl
@[simp] theorem setHosted_tracker (h : Fin 16) (x : HostedSlot) (s : State) :
    (setHosted h x s).tracker = s.tracker := rfl
@[simp] theorem setHosted_queue (h : Fin 16) (x : HostedSlot) (s : State) : (setHosted h x s).queue = s.queue := rfl
@[simp] theorem setHosted_roster (h : Fin 16) (x : HostedSlot) (s : State) : (setHosted h x s).roster = s.roster := rfl
@[simp] theorem setHosted_directory (h : Fin 16) (x : HostedSlot) (s : State) :
    (setHosted h x s).directory = s.directory := rfl
@[simp] theorem setHosted_store (h : Fin 16) (x : HostedSlot) (s : State) :
    (setHosted h x s).store = { s.store with hosted := put s.store.hosted h x } := rfl
@[simp] theorem setHosted_engine (h : Fin 16) (x : HostedSlot) (s : State) : (setHosted h x s).engine = s.engine := rfl
@[simp] theorem setHosted_port (h : Fin 16) (x : HostedSlot) (s : State) : (setHosted h x s).port = s.port := rfl
@[simp] theorem setHosted_pending (h : Fin 16) (x : HostedSlot) (s : State) :
    (setHosted h x s).pending = s.pending := rfl

/-! ### setDelivery -/

@[simp] theorem setDelivery_rstAsserted (d : Fin 8) (x : Option Delivery) (s : State) :
    (setDelivery d x s).rstAsserted = s.rstAsserted := rfl
@[simp] theorem setDelivery_control (d : Fin 8) (x : Option Delivery) (s : State) :
    (setDelivery d x s).control = s.control := rfl
@[simp] theorem setDelivery_line (d : Fin 8) (x : Option Delivery) (s : State) :
    (setDelivery d x s).line = s.line := rfl
@[simp] theorem setDelivery_tracker (d : Fin 8) (x : Option Delivery) (s : State) :
    (setDelivery d x s).tracker = s.tracker := rfl
@[simp] theorem setDelivery_queue (d : Fin 8) (x : Option Delivery) (s : State) :
    (setDelivery d x s).queue = s.queue := rfl
@[simp] theorem setDelivery_roster (d : Fin 8) (x : Option Delivery) (s : State) :
    (setDelivery d x s).roster = s.roster := rfl
@[simp] theorem setDelivery_directory (d : Fin 8) (x : Option Delivery) (s : State) :
    (setDelivery d x s).directory = s.directory := rfl
@[simp] theorem setDelivery_store (d : Fin 8) (x : Option Delivery) (s : State) :
    (setDelivery d x s).store = { s.store with deliveries := put s.store.deliveries d x } := rfl
@[simp] theorem setDelivery_engine (d : Fin 8) (x : Option Delivery) (s : State) :
    (setDelivery d x s).engine = s.engine := rfl
@[simp] theorem setDelivery_port (d : Fin 8) (x : Option Delivery) (s : State) :
    (setDelivery d x s).port = s.port := rfl
@[simp] theorem setDelivery_pending (d : Fin 8) (x : Option Delivery) (s : State) :
    (setDelivery d x s).pending = s.pending := rfl

/-! ### setCell -/

@[simp] theorem setCell_rstAsserted (c : Fin 64) (x : Option Message) (s : State) :
    (setCell c x s).rstAsserted = s.rstAsserted := rfl
@[simp] theorem setCell_control (c : Fin 64) (x : Option Message) (s : State) :
    (setCell c x s).control = s.control := rfl
@[simp] theorem setCell_line (c : Fin 64) (x : Option Message) (s : State) : (setCell c x s).line = s.line := rfl
@[simp] theorem setCell_tracker (c : Fin 64) (x : Option Message) (s : State) :
    (setCell c x s).tracker = s.tracker := rfl
@[simp] theorem setCell_queue (c : Fin 64) (x : Option Message) (s : State) : (setCell c x s).queue = s.queue := rfl
@[simp] theorem setCell_roster (c : Fin 64) (x : Option Message) (s : State) : (setCell c x s).roster = s.roster := rfl
@[simp] theorem setCell_directory (c : Fin 64) (x : Option Message) (s : State) :
    (setCell c x s).directory = s.directory := rfl
@[simp] theorem setCell_store (c : Fin 64) (x : Option Message) (s : State) :
    (setCell c x s).store = { s.store with pool := put s.store.pool c x } := rfl
@[simp] theorem setCell_engine (c : Fin 64) (x : Option Message) (s : State) : (setCell c x s).engine = s.engine := rfl
@[simp] theorem setCell_port (c : Fin 64) (x : Option Message) (s : State) : (setCell c x s).port = s.port := rfl
@[simp] theorem setCell_pending (c : Fin 64) (x : Option Message) (s : State) :
    (setCell c x s).pending = s.pending := rfl

/-! ### setWaiter -/

@[simp] theorem setWaiter_rstAsserted (w : Fin 32) (x : Option Waiter) (s : State) :
    (setWaiter w x s).rstAsserted = s.rstAsserted := rfl
@[simp] theorem setWaiter_control (w : Fin 32) (x : Option Waiter) (s : State) :
    (setWaiter w x s).control = s.control := rfl
@[simp] theorem setWaiter_line (w : Fin 32) (x : Option Waiter) (s : State) : (setWaiter w x s).line = s.line := rfl
@[simp] theorem setWaiter_tracker (w : Fin 32) (x : Option Waiter) (s : State) :
    (setWaiter w x s).tracker = s.tracker := rfl
@[simp] theorem setWaiter_queue (w : Fin 32) (x : Option Waiter) (s : State) : (setWaiter w x s).queue = s.queue := rfl
@[simp] theorem setWaiter_roster (w : Fin 32) (x : Option Waiter) (s : State) :
    (setWaiter w x s).roster = s.roster := rfl
@[simp] theorem setWaiter_directory (w : Fin 32) (x : Option Waiter) (s : State) :
    (setWaiter w x s).directory = s.directory := rfl
@[simp] theorem setWaiter_store (w : Fin 32) (x : Option Waiter) (s : State) :
    (setWaiter w x s).store = { s.store with waiters := put s.store.waiters w x } := rfl
@[simp] theorem setWaiter_engine (w : Fin 32) (x : Option Waiter) (s : State) :
    (setWaiter w x s).engine = s.engine := rfl
@[simp] theorem setWaiter_port (w : Fin 32) (x : Option Waiter) (s : State) : (setWaiter w x s).port = s.port := rfl
@[simp] theorem setWaiter_pending (w : Fin 32) (x : Option Waiter) (s : State) :
    (setWaiter w x s).pending = s.pending := rfl

/-! ### setExchange -/

@[simp] theorem setExchange_rstAsserted (x : Fin 32) (e : Option Exchange) (s : State) :
    (setExchange x e s).rstAsserted = s.rstAsserted := rfl
@[simp] theorem setExchange_control (x : Fin 32) (e : Option Exchange) (s : State) :
    (setExchange x e s).control = s.control := rfl
@[simp] theorem setExchange_line (x : Fin 32) (e : Option Exchange) (s : State) :
    (setExchange x e s).line = s.line := rfl
@[simp] theorem setExchange_tracker (x : Fin 32) (e : Option Exchange) (s : State) :
    (setExchange x e s).tracker = s.tracker := rfl
@[simp] theorem setExchange_queue (x : Fin 32) (e : Option Exchange) (s : State) :
    (setExchange x e s).queue = s.queue := rfl
@[simp] theorem setExchange_roster (x : Fin 32) (e : Option Exchange) (s : State) :
    (setExchange x e s).roster = s.roster := rfl
@[simp] theorem setExchange_directory (x : Fin 32) (e : Option Exchange) (s : State) :
    (setExchange x e s).directory = s.directory := rfl
@[simp] theorem setExchange_store (x : Fin 32) (e : Option Exchange) (s : State) :
    (setExchange x e s).store = { s.store with exchange := put s.store.exchange x e } := rfl
@[simp] theorem setExchange_engine (x : Fin 32) (e : Option Exchange) (s : State) :
    (setExchange x e s).engine = s.engine := rfl
@[simp] theorem setExchange_port (x : Fin 32) (e : Option Exchange) (s : State) :
    (setExchange x e s).port = s.port := rfl
@[simp] theorem setExchange_pending (x : Fin 32) (e : Option Exchange) (s : State) :
    (setExchange x e s).pending = s.pending := rfl

/-! ### setUnqueued -/

@[simp] theorem setUnqueued_rstAsserted (l : List (Fin 8)) (s : State) :
    (setUnqueued l s).rstAsserted = s.rstAsserted := rfl
@[simp] theorem setUnqueued_control (l : List (Fin 8)) (s : State) : (setUnqueued l s).control = s.control := rfl
@[simp] theorem setUnqueued_line (l : List (Fin 8)) (s : State) : (setUnqueued l s).line = s.line := rfl
@[simp] theorem setUnqueued_tracker (l : List (Fin 8)) (s : State) : (setUnqueued l s).tracker = s.tracker := rfl
@[simp] theorem setUnqueued_queue (l : List (Fin 8)) (s : State) : (setUnqueued l s).queue = s.queue := rfl
@[simp] theorem setUnqueued_roster (l : List (Fin 8)) (s : State) : (setUnqueued l s).roster = s.roster := rfl
@[simp] theorem setUnqueued_directory (l : List (Fin 8)) (s : State) : (setUnqueued l s).directory = s.directory := rfl
@[simp] theorem setUnqueued_store (l : List (Fin 8)) (s : State) :
    (setUnqueued l s).store = { s.store with unqueued := l } := rfl
@[simp] theorem setUnqueued_engine (l : List (Fin 8)) (s : State) : (setUnqueued l s).engine = s.engine := rfl
@[simp] theorem setUnqueued_port (l : List (Fin 8)) (s : State) : (setUnqueued l s).port = s.port := rfl
@[simp] theorem setUnqueued_pending (l : List (Fin 8)) (s : State) : (setUnqueued l s).pending = s.pending := rfl

/-! ### setRoster -/

@[simp] theorem setRoster_rstAsserted (x : Fin 32) (e : RosterEntry) (s : State) :
    (setRoster x e s).rstAsserted = s.rstAsserted := rfl
@[simp] theorem setRoster_control (x : Fin 32) (e : RosterEntry) (s : State) :
    (setRoster x e s).control = s.control := rfl
@[simp] theorem setRoster_line (x : Fin 32) (e : RosterEntry) (s : State) : (setRoster x e s).line = s.line := rfl
@[simp] theorem setRoster_tracker (x : Fin 32) (e : RosterEntry) (s : State) :
    (setRoster x e s).tracker = s.tracker := rfl
@[simp] theorem setRoster_queue (x : Fin 32) (e : RosterEntry) (s : State) : (setRoster x e s).queue = s.queue := rfl
@[simp] theorem setRoster_roster (x : Fin 32) (e : RosterEntry) (s : State) :
    (setRoster x e s).roster = put s.roster x e := rfl
@[simp] theorem setRoster_directory (x : Fin 32) (e : RosterEntry) (s : State) :
    (setRoster x e s).directory = s.directory := rfl
@[simp] theorem setRoster_store (x : Fin 32) (e : RosterEntry) (s : State) : (setRoster x e s).store = s.store := rfl
@[simp] theorem setRoster_engine (x : Fin 32) (e : RosterEntry) (s : State) :
    (setRoster x e s).engine = s.engine := rfl
@[simp] theorem setRoster_port (x : Fin 32) (e : RosterEntry) (s : State) : (setRoster x e s).port = s.port := rfl
@[simp] theorem setRoster_pending (x : Fin 32) (e : RosterEntry) (s : State) :
    (setRoster x e s).pending = s.pending := rfl

/-! ### enterState -/

@[simp] theorem enterState_rstAsserted (st : StationState) (s : State) :
    (enterState st s).rstAsserted = s.rstAsserted := rfl
@[simp] theorem enterState_control (st : StationState) (s : State) :
    (enterState st s).control = { s.control with state := st } := rfl
@[simp] theorem enterState_line (st : StationState) (s : State) : (enterState st s).line = s.line := rfl
@[simp] theorem enterState_tracker (st : StationState) (s : State) : (enterState st s).tracker = s.tracker := rfl
@[simp] theorem enterState_queue (st : StationState) (s : State) : (enterState st s).queue = s.queue := rfl
@[simp] theorem enterState_roster (st : StationState) (s : State) : (enterState st s).roster = s.roster := rfl
@[simp] theorem enterState_directory (st : StationState) (s : State) : (enterState st s).directory = s.directory := rfl
@[simp] theorem enterState_store (st : StationState) (s : State) : (enterState st s).store = s.store := rfl
@[simp] theorem enterState_engine (st : StationState) (s : State) : (enterState st s).engine = s.engine := rfl
@[simp] theorem enterState_port (st : StationState) (s : State) :
    (enterState st s).port = { s.port with stateChange := true } := rfl
@[simp] theorem enterState_pending (st : StationState) (s : State) : (enterState st s).pending = s.pending := rfl

/-! ### recordCause -/

@[simp] theorem recordCause_rstAsserted (c : EndCause) (s : State) :
    (recordCause c s).rstAsserted = s.rstAsserted := rfl
@[simp] theorem recordCause_control (c : EndCause) (s : State) :
    (recordCause c s).control = { s.control with lastCause := c } := rfl
@[simp] theorem recordCause_line (c : EndCause) (s : State) : (recordCause c s).line = s.line := rfl
@[simp] theorem recordCause_tracker (c : EndCause) (s : State) : (recordCause c s).tracker = s.tracker := rfl
@[simp] theorem recordCause_queue (c : EndCause) (s : State) : (recordCause c s).queue = s.queue := rfl
@[simp] theorem recordCause_roster (c : EndCause) (s : State) : (recordCause c s).roster = s.roster := rfl
@[simp] theorem recordCause_directory (c : EndCause) (s : State) : (recordCause c s).directory = s.directory := rfl
@[simp] theorem recordCause_store (c : EndCause) (s : State) : (recordCause c s).store = s.store := rfl
@[simp] theorem recordCause_engine (c : EndCause) (s : State) : (recordCause c s).engine = s.engine := rfl
@[simp] theorem recordCause_port (c : EndCause) (s : State) : (recordCause c s).port = s.port := rfl
@[simp] theorem recordCause_pending (c : EndCause) (s : State) : (recordCause c s).pending = s.pending := rfl

/-! ### appendRecord -/

@[simp] theorem appendRecord_rstAsserted (r : Record) (s : State) :
    (appendRecord r s).rstAsserted = s.rstAsserted := rfl
@[simp] theorem appendRecord_control (r : Record) (s : State) : (appendRecord r s).control = s.control := rfl
@[simp] theorem appendRecord_line (r : Record) (s : State) : (appendRecord r s).line = s.line := rfl
@[simp] theorem appendRecord_tracker (r : Record) (s : State) : (appendRecord r s).tracker = s.tracker := rfl
@[simp] theorem appendRecord_queue (r : Record) (s : State) : (appendRecord r s).queue = s.queue := rfl
@[simp] theorem appendRecord_roster (r : Record) (s : State) : (appendRecord r s).roster = s.roster := rfl
@[simp] theorem appendRecord_directory (r : Record) (s : State) : (appendRecord r s).directory = s.directory := rfl
@[simp] theorem appendRecord_store (r : Record) (s : State) : (appendRecord r s).store = s.store := rfl
@[simp] theorem appendRecord_engine (r : Record) (s : State) : (appendRecord r s).engine = s.engine := rfl
@[simp] theorem appendRecord_port (r : Record) (s : State) :
    (appendRecord r s).port = { s.port with completions := s.port.completions ++ [r] } := rfl
@[simp] theorem appendRecord_pending (r : Record) (s : State) : (appendRecord r s).pending = s.pending := rfl

/-! ### enqueueB -/

@[simp] theorem enqueueB_rstAsserted (i : Item) (o : Originator) (s : State) :
    (enqueueB i o s).rstAsserted = s.rstAsserted := rfl
@[simp] theorem enqueueB_control (i : Item) (o : Originator) (s : State) : (enqueueB i o s).control = s.control := rfl
@[simp] theorem enqueueB_line (i : Item) (o : Originator) (s : State) : (enqueueB i o s).line = s.line := rfl
@[simp] theorem enqueueB_tracker (i : Item) (o : Originator) (s : State) : (enqueueB i o s).tracker = s.tracker := rfl
@[simp] theorem enqueueB_queue (i : Item) (o : Originator) (s : State) :
    (enqueueB i o s).queue = { s.queue with classB := s.queue.classB ++ [newItem i o] } := rfl
@[simp] theorem enqueueB_roster (i : Item) (o : Originator) (s : State) : (enqueueB i o s).roster = s.roster := rfl
@[simp] theorem enqueueB_directory (i : Item) (o : Originator) (s : State) :
    (enqueueB i o s).directory = s.directory := rfl
@[simp] theorem enqueueB_store (i : Item) (o : Originator) (s : State) : (enqueueB i o s).store = s.store := rfl
@[simp] theorem enqueueB_engine (i : Item) (o : Originator) (s : State) : (enqueueB i o s).engine = s.engine := rfl
@[simp] theorem enqueueB_port (i : Item) (o : Originator) (s : State) : (enqueueB i o s).port = s.port := rfl
@[simp] theorem enqueueB_pending (i : Item) (o : Originator) (s : State) : (enqueueB i o s).pending = s.pending := rfl

/-! ### placeTurn -/

@[simp] theorem placeTurn_rstAsserted (x : Fin 32) (m : Moment) (s : State) :
    (placeTurn x m s).rstAsserted = s.rstAsserted := rfl
@[simp] theorem placeTurn_control (x : Fin 32) (m : Moment) (s : State) : (placeTurn x m s).control = s.control := rfl
@[simp] theorem placeTurn_line (x : Fin 32) (m : Moment) (s : State) : (placeTurn x m s).line = s.line := rfl
@[simp] theorem placeTurn_tracker (x : Fin 32) (m : Moment) (s : State) :
    (placeTurn x m s).tracker = { s.tracker with rotation := some { holder := x, opened := m, activity := false } } := rfl
@[simp] theorem placeTurn_queue (x : Fin 32) (m : Moment) (s : State) : (placeTurn x m s).queue = s.queue := rfl
@[simp] theorem placeTurn_roster (x : Fin 32) (m : Moment) (s : State) : (placeTurn x m s).roster = s.roster := rfl
@[simp] theorem placeTurn_directory (x : Fin 32) (m : Moment) (s : State) :
    (placeTurn x m s).directory = s.directory := rfl
@[simp] theorem placeTurn_store (x : Fin 32) (m : Moment) (s : State) : (placeTurn x m s).store = s.store := rfl
@[simp] theorem placeTurn_engine (x : Fin 32) (m : Moment) (s : State) : (placeTurn x m s).engine = s.engine := rfl
@[simp] theorem placeTurn_port (x : Fin 32) (m : Moment) (s : State) : (placeTurn x m s).port = s.port := rfl
@[simp] theorem placeTurn_pending (x : Fin 32) (m : Moment) (s : State) : (placeTurn x m s).pending = s.pending := rfl

/-! ### setPresenceCounter -/

@[simp] theorem setPresenceCounter_rstAsserted (n : Fin 4) (s : State) :
    (setPresenceCounter n s).rstAsserted = s.rstAsserted := rfl
@[simp] theorem setPresenceCounter_control (n : Fin 4) (s : State) :
    (setPresenceCounter n s).control = s.control := rfl
@[simp] theorem setPresenceCounter_line (n : Fin 4) (s : State) : (setPresenceCounter n s).line = s.line := rfl
@[simp] theorem setPresenceCounter_tracker (n : Fin 4) (s : State) :
    (setPresenceCounter n s).tracker = { s.tracker with presenceCounter := n } := rfl
@[simp] theorem setPresenceCounter_queue (n : Fin 4) (s : State) : (setPresenceCounter n s).queue = s.queue := rfl
@[simp] theorem setPresenceCounter_roster (n : Fin 4) (s : State) : (setPresenceCounter n s).roster = s.roster := rfl
@[simp] theorem setPresenceCounter_directory (n : Fin 4) (s : State) :
    (setPresenceCounter n s).directory = s.directory := rfl
@[simp] theorem setPresenceCounter_store (n : Fin 4) (s : State) : (setPresenceCounter n s).store = s.store := rfl
@[simp] theorem setPresenceCounter_engine (n : Fin 4) (s : State) : (setPresenceCounter n s).engine = s.engine := rfl
@[simp] theorem setPresenceCounter_port (n : Fin 4) (s : State) : (setPresenceCounter n s).port = s.port := rfl
@[simp] theorem setPresenceCounter_pending (n : Fin 4) (s : State) :
    (setPresenceCounter n s).pending = s.pending := rfl

/-! ### holdResult -/

@[simp] theorem holdResult_rstAsserted (r : Result) (s : State) : (holdResult r s).rstAsserted = s.rstAsserted := rfl
@[simp] theorem holdResult_control (r : Result) (s : State) : (holdResult r s).control = s.control := rfl
@[simp] theorem holdResult_line (r : Result) (s : State) : (holdResult r s).line = s.line := rfl
@[simp] theorem holdResult_tracker (r : Result) (s : State) : (holdResult r s).tracker = s.tracker := rfl
@[simp] theorem holdResult_queue (r : Result) (s : State) : (holdResult r s).queue = s.queue := rfl
@[simp] theorem holdResult_roster (r : Result) (s : State) : (holdResult r s).roster = s.roster := rfl
@[simp] theorem holdResult_directory (r : Result) (s : State) : (holdResult r s).directory = s.directory := rfl
@[simp] theorem holdResult_store (r : Result) (s : State) : (holdResult r s).store = s.store := rfl
@[simp] theorem holdResult_engine (r : Result) (s : State) : (holdResult r s).engine = s.engine := rfl
@[simp] theorem holdResult_port (r : Result) (s : State) :
    (holdResult r s).port = { s.port with taking := some r } := rfl
@[simp] theorem holdResult_pending (r : Result) (s : State) : (holdResult r s).pending = s.pending := rfl

/-! ### Tables -/

@[simp] theorem look_put {α : Type} {n : Nat} (v : Vector α n) (i : Fin n) (a : α) : look (put v i a) i = a := by
  simp [look, put]

theorem look_put_ne {α : Type} {n : Nat} (v : Vector α n) (i j : Fin n) (a : α) (h : i ≠ j) :
    look (put v i a) j = look v j := by
  have h' : i.val ≠ j.val := fun e => h (Fin.ext e)
  simp [look, put, h']

theorem look_put_eq {α : Type} {n : Nat} (v : Vector α n) (i j : Fin n) (a : α) :
    look (put v i a) j = if i = j then a else look v j := by
  by_cases h : i = j
  · subst h; simp
  · simp [h, look_put_ne v i j a h]

@[simp] theorem look_replicate {α : Type} {n : Nat} (a : α) (i : Fin n) : look (Vector.replicate n a) i = a := by
  simp [look]

@[simp] theorem entry_setEntry (i j : Fin 16) (e : Entry) (s : State) :
    entry j (setEntry i e s) = if i = j then e else entry j s := look_put_eq _ _ _ _

@[simp] theorem dirEntry_setDirEntry (i j : Fin 64) (e : DirEntry) (s : State) :
    dirEntry j (setDirEntry i e s) = if i = j then e else dirEntry j s := look_put_eq _ _ _ _

@[simp] theorem hostedSlot_setHosted (i j : Fin 16) (x : HostedSlot) (s : State) :
    hostedSlot j (setHosted i x s) = if i = j then x else hostedSlot j s := look_put_eq _ _ _ _

@[simp] theorem delivery_setDelivery (i j : Fin 8) (x : Option Delivery) (s : State) :
    delivery j (setDelivery i x s) = if i = j then x else delivery j s := look_put_eq _ _ _ _

@[simp] theorem cell_setCell (i j : Fin 64) (x : Option Message) (s : State) :
    cell j (setCell i x s) = if i = j then x else cell j s := look_put_eq _ _ _ _

@[simp] theorem waiter_setWaiter (i j : Fin 32) (x : Option Waiter) (s : State) :
    waiter j (setWaiter i x s) = if i = j then x else waiter j s := look_put_eq _ _ _ _

@[simp] theorem exchange_setExchange (i j : Fin 32) (x : Option Exchange) (s : State) :
    exchange j (setExchange i x s) = if i = j then x else exchange j s := look_put_eq _ _ _ _

@[simp] theorem rosterEntry_setRoster (i j : Fin 32) (e : RosterEntry) (s : State) :
    rosterEntry j (setRoster i e s) = if i = j then e else rosterEntry j s := look_put_eq _ _ _ _

@[simp] theorem waitingOrder_setWaiting (i j : Fin 32) (l : List (Fin 16)) (s : State) :
    waitingOrder j (setWaiting i l s) = if i = j then l else waitingOrder j s := look_put_eq _ _ _ _

/-! ### An operation at each place of a table -/

/-- What every single operation keeps, the fold of them keeps. -/
theorem foldl_keeps {α : Type} (P : State → Prop) (f : State → α → State) (h : ∀ s a, P s → P (f s a)) (l : List α)
    (s : State) (hs : P s) : P (l.foldl f s) := by
  induction l generalizing s with
  | nil => exact hs
  | cons a l ih => exact ih (f s a) (h s a hs)

/-- What the operation keeps at each place, the operation at all places keeps. -/
theorem forEach_keeps {n : Nat} (P : State → Prop) (f : Fin n → State → State) (h : ∀ i s, P s → P (f i s))
    (s : State) (hs : P s) : P (forEach f s) := foldl_keeps P _ (fun s i hs => h i s hs) _ s hs

end Sys2Proof.Machine
end

