-- ==== Sys2Proof/Laws/Work.lean ====
section
/-! SUPPORT. What taking an item, a deadline or an absence can do, said once: it leaves the pins, Station Control, the Line
Unit, the Turn Tracker, the waiting commands and most of the Local Port alone, and keeps the bounds of the tables. One lemma
for each shared operation of the Request Engine, the Mailbox Store, the Directory Unit and the Roster Unit. -/

namespace Sys2Proof.Machine

/-- What work on items may change, and the bounds it keeps. -/
structure ItemWork (s t : State) : Prop where
  rstAsserted : t.rstAsserted = s.rstAsserted
  control : t.control = s.control
  line : t.line = s.line
  tracker : t.tracker = s.tracker
  pending : t.pending = s.pending
  port : t.port = { s.port with
    completions := t.port.completions, noticeLost := t.port.noticeLost, counters := t.port.counters }
  classA : queueBounded s → queueBounded t
  full : s.port.completions.length ≤ 16 → t.port.completions.length ≤ 16
  held : s.port.completions.length ≤ 16 → heldBehindFull s → heldBehindFull t
  roster : rosterBounded s → rosterBounded t

namespace ItemWork

theorem refl (s : State) : ItemWork s s :=
  ⟨rfl, rfl, rfl, rfl, rfl, rfl, id, id, fun _ h => h, id⟩

theorem trans {s t u : State} (h : ItemWork s t) (k : ItemWork t u) : ItemWork s u where
  rstAsserted := k.rstAsserted.trans h.rstAsserted
  control := k.control.trans h.control
  line := k.line.trans h.line
  tracker := k.tracker.trans h.tracker
  pending := k.pending.trans h.pending
  port := by rw [k.port, h.port]
  classA := fun a => k.classA (h.classA a)
  full := fun a => k.full (h.full a)
  held := fun a b => k.held (h.full a) (h.held a b)
  roster := fun a => k.roster (h.roster a)

/-! ### Updates of one block -/

theorem withStore {s t : State} (h : ItemWork s t) (m : MailboxStore) : ItemWork s (t.withStore m) :=
  h.trans ⟨rfl, rfl, rfl, rfl, rfl, rfl, id, id, fun _ h => h, id⟩

theorem withEngine {s t : State} (h : ItemWork s t) (e : RequestEngine) (k : e.held = t.engine.held) :
    ItemWork s (t.withEngine e) :=
  h.trans ⟨rfl, rfl, rfl, rfl, rfl, rfl, id, id,
    fun _ h => by simpa [heldBehindFull, k] using h, id⟩

theorem withCounters {s t : State} (h : ItemWork s t) (c : Counters) : ItemWork s (t.withCounters c) :=
  h.trans ⟨rfl, rfl, rfl, rfl, rfl, rfl, id, id, fun _ h => h, id⟩

theorem withQueue {s t : State} (h : ItemWork s t) (q : ItemQueue)
    (k : t.queue.classA.length ≤ 24 → q.classA.length ≤ 24) : ItemWork s (t.withQueue q) :=
  h.trans ⟨rfl, rfl, rfl, rfl, rfl, rfl, k, id, fun _ h => h, id⟩

theorem setNoticeLost {s t : State} (h : ItemWork s t) : ItemWork s (Machine.setNoticeLost t) :=
  h.trans ⟨rfl, rfl, rfl, rfl, rfl, rfl, id, id, fun _ h => h, id⟩

theorem setDirEntry {s t : State} (h : ItemWork s t) (m : Fin 64) (e : DirEntry) :
    ItemWork s (Machine.setDirEntry m e t) :=
  h.trans ⟨rfl, rfl, rfl, rfl, rfl, rfl, id, id, fun _ h => h, id⟩

theorem setRoster {s t : State} (h : ItemWork s t) (x : Fin 32) (e : RosterEntry) (k : rosterBounded t → e.missed ≤ 8) :
    ItemWork s (Machine.setRoster x e t) :=
  h.trans ⟨rfl, rfl, rfl, rfl, rfl, rfl, id, id, fun _ h => h, fun b y => by
    have := k b
    simp only [setRoster_roster, look_put_eq]
    split
    · exact this
    · exact b y⟩

/-- A record enters a queue that holds fewer than 16. -/
theorem appendRecord {s t : State} (h : ItemWork s t) (r : Record) (k : t.port.completions.length < 16) :
    ItemWork s (Machine.appendRecord r t) :=
  h.trans ⟨rfl, rfl, rfl, rfl, rfl, rfl, id, fun _ => by simp; omega,
    fun _ b c => by have := b c; omega, id⟩

/-- An entry joins the held list of a full queue. -/
theorem joinHeld {s t : State} (h : ItemWork s t) (i : Fin 16) (k : ¬ t.port.completions.length < 16) :
    ItemWork s (t.withEngine { t.engine with held := t.engine.held ++ [i] }) :=
  h.trans ⟨rfl, rfl, rfl, rfl, rfl, rfl, id, id,
    fun a _ _ => by simp only [withEngine_port]; omega, id⟩

theorem forEach {n : Nat} {f : Fin n → State → State} (hf : ∀ {s t} i, ItemWork s t → ItemWork s (f i t))
    {s t : State} (h : ItemWork s t) : ItemWork s (Machine.forEach f t) :=
  forEach_keeps (ItemWork s) f (fun i _ k => hf i k) t h

theorem foldl {α : Type} {f : State → α → State} (hf : ∀ {s t} a, ItemWork s t → ItemWork s (f t a)) (l : List α)
    {s t : State} (h : ItemWork s t) : ItemWork s (l.foldl f t) :=
  foldl_keeps (ItemWork s) f (fun _ a k => hf a k) l t h

end ItemWork

variable {s t : State}

theorem withdrawFrom_length (o : Originator) (l : List QueuedItem) : (withdrawFrom o l).length ≤ l.length := by
  simp only [withdrawFrom, List.length_map]
  exact List.length_filter_le _ _

theorem countShed_work (h : ItemWork s t) : ItemWork s (countShed t) := h.withCounters _

theorem countRequestRetransmission_work (h : ItemWork s t) : ItemWork s (countRequestRetransmission t) :=
  h.withCounters _

theorem countDeliveryRetransmission_work (h : ItemWork s t) : ItemWork s (countDeliveryRetransmission t) :=
  h.withCounters _

theorem countStaleAck_work (h : ItemWork s t) : ItemWork s (countStaleAck t) := h.withCounters _

theorem countConflict_work (h : ItemWork s t) : ItemWork s (countConflict t) := h.withCounters _

theorem countNoticeLost_work (h : ItemWork s t) : ItemWork s (countNoticeLost t) := h.withCounters _

theorem countMessageReturned_work (h : ItemWork s t) : ItemWork s (countMessageReturned t) := h.withCounters _

theorem raiseNotice_work (r : Record) (h : ItemWork s t) : ItemWork s (raiseNotice r t) := by
  unfold raiseNotice
  split
  · rename_i k
    exact h.appendRecord r (by simpa [completionRoom] using k)
  · exact (countNoticeLost_work h).setNoticeLost

theorem enqueueA_work (i : Item) (o : Originator) (h : ItemWork s t) : ItemWork s (enqueueA i o t) := by
  unfold enqueueA
  split
  · rename_i k
    refine h.withQueue _ fun _ => ?_
    simp [answerRoom, freePlaces] at k
    simp; omega
  · exact h

theorem answer_work (x : Fin 32) (b : ItemBody) (h : ItemWork s t) : ItemWork s (answer x b t) := enqueueA_work _ _ h

theorem enqueueB_work (i : Item) (o : Originator) (h : ItemWork s t) : ItemWork s (enqueueB i o t) :=
  h.withQueue _ id

theorem withdrawEntry_work (i : Fin 16) (h : ItemWork s t) : ItemWork s (withdrawEntry i t) := h.withQueue _ id

theorem withdrawDelivery_work (d : Fin 8) (h : ItemWork s t) : ItemWork s (withdrawDelivery d t) :=
  h.withQueue _ fun k => (withdrawFrom_length _ _).trans k

theorem setEntry_work (i : Fin 16) (e : Entry) (h : ItemWork s t) : ItemWork s (setEntry i e t) := h.withEngine _ rfl

theorem setWaiting_work (x : Fin 32) (l : List (Fin 16)) (h : ItemWork s t) : ItemWork s (setWaiting x l t) :=
  h.withEngine _ rfl

theorem setHosted_work (i : Fin 16) (x : HostedSlot) (h : ItemWork s t) : ItemWork s (setHosted i x t) :=
  h.withStore _

theorem setDelivery_work (d : Fin 8) (x : Option Delivery) (h : ItemWork s t) : ItemWork s (setDelivery d x t) :=
  h.withStore _

theorem setCell_work (c : Fin 64) (x : Option Message) (h : ItemWork s t) : ItemWork s (setCell c x t) :=
  h.withStore _

theorem setWaiter_work (w : Fin 32) (x : Option Waiter) (h : ItemWork s t) : ItemWork s (setWaiter w x t) :=
  h.withStore _

theorem setExchange_work (x : Fin 32) (e : Option Exchange) (h : ItemWork s t) : ItemWork s (setExchange x e t) :=
  h.withStore _

theorem setUnqueued_work (l : List (Fin 8)) (h : ItemWork s t) : ItemWork s (setUnqueued l t) := h.withStore _

theorem remember_work (x : Fin 32) (g : Byte) (r : Remembered) (h : ItemWork s t) : ItemWork s (remember x g r t) :=
  setExchange_work _ _ h

theorem revise_work (x : Fin 32) (g : Byte) (o p : TakeOutcome) (h : ItemWork s t) : ItemWork s (revise x g o p t) := by
  unfold revise
  repeat' with_reducible first | exact h | apply remember_work | split

theorem joinWaiting_work (i : Fin 16) (x : Fin 32) (h : ItemWork s t) : ItemWork s (joinWaiting i x t) := by
  unfold joinWaiting
  repeat' with_reducible first | exact h | apply setWaiting_work

theorem leaveWaiting_work (i : Fin 16) (h : ItemWork s t) : ItemWork s (leaveWaiting i t) := by
  unfold leaveWaiting
  repeat' with_reducible first | exact h | apply setWaiting_work | split

/-! ### The Request Engine -/

theorem queueRequest_work (i : Fin 16) (h : ItemWork s t) : ItemWork s (queueRequest i t) := by
  unfold queueRequest
  repeat' with_reducible first | exact h | apply enqueueB_work | apply setEntry_work

theorem queueCancel_work (i : Fin 16) (h : ItemWork s t) : ItemWork s (queueCancel i t) := by
  unfold queueCancel
  repeat' with_reducible first | exact h | apply enqueueB_work | apply setEntry_work

theorem freeTheEntry_work (i : Fin 16) (h : ItemWork s t) : ItemWork s (freeTheEntry i t) := by
  unfold freeTheEntry
  repeat' with_reducible first | exact h | apply setEntry_work

theorem holdEntry_work (i : Fin 16) (st : Status) (h : ItemWork s t) (k : ¬ t.port.completions.length < 16) :
    ItemWork s (holdEntry i st t) := by
  unfold holdEntry
  exact (setEntry_work i _ h).joinHeld i k

theorem leaveWaiting_port (i : Fin 16) (s : State) : (leaveWaiting i s).port = s.port := by
  unfold leaveWaiting
  split <;> rfl

theorem finish_work (i : Fin 16) (st : Status) (h : ItemWork s t) : ItemWork s (finish i st t) := by
  have w := leaveWaiting_work i (withdrawEntry_work i h)
  unfold finish
  dsimp only
  split
  · rename_i k
    exact freeTheEntry_work i (w.appendRecord _ (by simpa [completionRoom] using k))
  · rename_i k
    exact holdEntry_work i st w (by simpa [completionRoom] using k)

theorem promoteEntry_work (i : Fin 16) (h : ItemWork s t) : ItemWork s (promoteEntry i t) := by
  unfold promoteEntry
  repeat' with_reducible first
    | exact h
    | apply queueCancel_work
    | apply queueRequest_work
    | apply setEntry_work
    | split

theorem promote_work (x : Fin 32) (h : ItemWork s t) : ItemWork s (promote x t) := by
  unfold promote
  repeat' with_reducible first | exact h | apply promoteEntry_work | apply setWaiting_work | split

theorem promoteFor_work (o : Option (Fin 32)) (h : ItemWork s t) : ItemWork s (promoteFor o t) := by
  unfold promoteFor
  repeat' with_reducible first | exact h | apply promote_work | split

theorem finishAndPromote_work (i : Fin 16) (st : Status) (h : ItemWork s t) : ItemWork s (finishAndPromote i st t) := by
  unfold finishAndPromote
  repeat' with_reducible first | exact h | apply promoteFor_work | apply finish_work

theorem startRequest_work (i : Fin 16) (x : Fin 32) (e : Entry) (h : ItemWork s t) :
    ItemWork s (startRequest i x e t) := by
  unfold startRequest
  repeat' with_reducible first
    | exact h
    | apply joinWaiting_work
    | apply queueRequest_work
    | apply setEntry_work
    | split

theorem remotePut_work (i : Fin 16) (x : Fin 32) (m : Fin 64) (data : List Byte) (h : ItemWork s t) :
    ItemWork s (remotePut i x m data t) := by
  unfold remotePut
  repeat' with_reducible first | exact h | apply startRequest_work

theorem remoteTake_work (i : Fin 16) (x : Fin 32) (m : Fin 64) (p : Fin 4) (w : Byte) (h : ItemWork s t) :
    ItemWork s (remoteTake i x m p w t) := by
  unfold remoteTake
  repeat' with_reducible first | exact h | apply startRequest_work

theorem broadcastRequest_work (i : Fin 16) (k : RequestKind) (m : Fin 64) (h : ItemWork s t) :
    ItemWork s (broadcastRequest i k m t) := by
  unfold broadcastRequest
  repeat' with_reducible first | exact h | apply queueRequest_work | apply setEntry_work

theorem finishBroadcast_work (k : RequestKind) (m : Fin 64) (st : Status) (h : ItemWork s t) :
    ItemWork s (finishBroadcast k m st t) := by
  unfold finishBroadcast
  repeat' with_reducible first | exact h | apply finish_work | split

theorem entrySent_work (i : Fin 16) (h : ItemWork s t) : ItemWork s (entrySent i t) := by
  unfold entrySent
  dsimp only
  repeat' with_reducible first | exact h | apply setEntry_work | split

theorem replyDeadline_work (i : Fin 16) (h : ItemWork s t) : ItemWork s (replyDeadline i t) := by
  unfold replyDeadline
  dsimp only
  repeat' with_reducible first
    | exact h
    | apply queueCancel_work
    | apply queueRequest_work
    | apply finishAndPromote_work
    | apply countRequestRetransmission_work
    | apply setEntry_work
    | split

theorem beginCancel_work (i : Fin 16) (c : CancelCause) (h : ItemWork s t) : ItemWork s (beginCancel i c t) := by
  unfold beginCancel
  dsimp only
  repeat' with_reducible first
    | exact h
    | apply joinWaiting_work
    | apply queueCancel_work
    | apply setEntry_work
    | split

theorem lateDeadline_work (i : Fin 16) (h : ItemWork s t) : ItemWork s (lateDeadline i t) := by
  unfold lateDeadline
  repeat' with_reducible first | exact h | apply finishAndPromote_work

theorem actOnEntry_work (i : Fin 16) (h : ItemWork s t) : ItemWork s (actOnEntry i t) := by
  unfold actOnEntry
  repeat' with_reducible first
    | exact h
    | apply replyDeadline_work
    | apply beginCancel_work
    | apply lateDeadline_work
    | split

theorem takePutReply_work (x : Fin 32) (g : Byte) (r : PutResult) (h : ItemWork s t) :
    ItemWork s (takePutReply x g r t) := by
  unfold takePutReply
  repeat' with_reducible first | exact h | apply finishAndPromote_work | split

theorem takeParked_work (i : Fin 16) (h : ItemWork s t) : ItemWork s (takeParked i t) := by
  unfold takeParked
  dsimp only
  repeat' with_reducible first
    | exact h
    | apply queueCancel_work
    | apply promoteFor_work
    | apply setEntry_work
    | apply withdrawEntry_work
    | split

theorem takeTakeReply_work (x : Fin 32) (g : Byte) (r : TakeResult) (h : ItemWork s t) :
    ItemWork s (takeTakeReply x g r t) := by
  unfold takeTakeReply
  dsimp only
  repeat' with_reducible first | exact h | apply takeParked_work | apply finishAndPromote_work | split

theorem takeCancelReply_work (x : Fin 32) (g : Byte) (r : CancelResult) (h : ItemWork s t) :
    ItemWork s (takeCancelReply x g r t) := by
  unfold takeCancelReply
  dsimp only
  repeat' with_reducible first
    | exact h
    | apply promoteFor_work
    | apply finishAndPromote_work
    | apply setEntry_work
    | apply withdrawEntry_work
    | split

theorem takeDeliver_work (x : Fin 32) (g q : Byte) (o : Fin 32) (data : List Byte) (h : ItemWork s t) :
    ItemWork s (takeDeliver x g q o data t) := by
  unfold takeDeliver
  dsimp only
  repeat' with_reducible first
    | exact h
    | apply promoteFor_work
    | apply answer_work
    | apply finish_work
    | apply setEntry_work
    | apply countShed_work
    | split

theorem goneAt_work (m : Fin 64) (x : Fin 32) (i : Fin 16) (h : ItemWork s t) : ItemWork s (goneAt m x i t) := by
  unfold goneAt
  repeat' with_reducible first | exact h | apply finish_work | split

theorem mailboxGone_work (m : Fin 64) (x : Fin 32) (h : ItemWork s t) : ItemWork s (mailboxGone m x t) :=
  promote_work x (ItemWork.forEach (goneAt_work m x) h)

theorem homeLostAt_work (x : Fin 32) (i : Fin 16) (h : ItemWork s t) : ItemWork s (homeLostAt x i t) := by
  unfold homeLostAt
  repeat' with_reducible first | exact h | apply finish_work | split

theorem homeLost_work (x : Fin 32) (h : ItemWork s t) : ItemWork s (homeLost x t) :=
  ItemWork.forEach (homeLostAt_work x) h

/-! ### The Mailbox Store -/

theorem queueDeliver_work (d : Fin 8) (x : Delivery) (h : ItemWork s t) : ItemWork s (queueDeliver d x t) := by
  unfold queueDeliver
  repeat' with_reducible first
    | exact h
    | apply setDelivery_work
    | apply enqueueA_work
    | apply setUnqueued_work
    | split

theorem fillDelivery_work (d : Fin 8) (i : Fin 16) (c : Fin 64) (x : Fin 32) (g : Byte) (h : ItemWork s t) :
    ItemWork s (fillDelivery d i c x g t) := by
  unfold fillDelivery
  repeat' with_reducible first | exact h | apply queueDeliver_work | apply ItemWork.withStore

theorem offerPlaceTo_work (d : Fin 8) (h : ItemWork s t) : ItemWork s (offerPlaceTo d t) := by
  unfold offerPlaceTo
  dsimp only
  repeat' with_reducible first | exact h | apply queueDeliver_work | apply setUnqueued_work | split

theorem offerPlaces_work (h : ItemWork s t) : ItemWork s (offerPlaces t) := ItemWork.foldl offerPlaceTo_work _ h

theorem requeueDelivery_work (d : Fin 8) (x : Delivery) (h : ItemWork s t) : ItemWork s (requeueDelivery d x t) := by
  unfold requeueDelivery
  repeat' with_reducible first | exact h | apply countDeliveryRetransmission_work | apply queueDeliver_work

theorem vacate_work (d : Fin 8) (h : ItemWork s t) : ItemWork s (vacate d t) := by
  unfold vacate
  repeat' with_reducible first
    | exact h
    | apply setDelivery_work
    | apply setUnqueued_work
    | apply withdrawDelivery_work

theorem freeDelivery_work (d : Fin 8) (h : ItemWork s t) : ItemWork s (freeDelivery d t) := by
  unfold freeDelivery
  repeat' with_reducible first | exact h | apply vacate_work | apply setCell_work | split

theorem returnMessage_work (d : Fin 8) (h : ItemWork s t) : ItemWork s (returnMessage d t) := by
  unfold returnMessage
  dsimp only
  repeat' with_reducible first
    | exact h
    | apply countMessageReturned_work
    | apply vacate_work
    | apply setHosted_work
    | split

theorem makeWaiter_work (w : Fin 32) (i : Fin 16) (x : Fin 32) (g : Byte) (p : Fin 4) (wait : Byte) (h : ItemWork s t) :
    ItemWork s (makeWaiter w i x g p wait t) := by
  unfold makeWaiter
  dsimp only
  repeat' with_reducible first | exact h | apply setHosted_work | apply setWaiter_work | apply ItemWork.withStore

theorem removeWaiter_work (w : Fin 32) (h : ItemWork s t) : ItemWork s (removeWaiter w t) := by
  unfold removeWaiter
  dsimp only
  repeat' with_reducible first | exact h | apply setWaiter_work | apply setHosted_work | split

theorem serveLocal_work (w : Fin 32) (r : Waiter) (msg : Message) (h : ItemWork s t) :
    ItemWork s (serveLocal w r msg t) := by
  unfold serveLocal
  dsimp only
  repeat' with_reducible first | exact h | apply finish_work | apply setEntry_work | apply removeWaiter_work

theorem serveRemote_work (w : Fin 32) (r : Waiter) (d : Fin 8) (i : Fin 16) (c : Fin 64) (h : ItemWork s t) :
    ItemWork s (serveRemote w r d i c t) := by
  unfold serveRemote
  repeat' with_reducible first | exact h | apply fillDelivery_work | apply revise_work | apply removeWaiter_work

theorem dropHead_work (i : Fin 16) (h : ItemWork s t) : ItemWork s (dropHead i t) := by
  unfold dropHead
  dsimp only
  repeat' with_reducible first | exact h | apply setHosted_work

theorem pairOnce_work (remote : Bool) (i : Fin 16) (u : State) (k : pairOnce remote i t = some u) (h : ItemWork s t) :
    ItemWork s u := by
  unfold pairOnce at k
  repeat' split at k
  all_goals first
    | (cases k; exact serveLocal_work _ _ _ (setCell_work _ _ (dropHead_work _ h)))
    | (cases k; exact serveRemote_work _ _ _ _ _ (dropHead_work _ h))
    | exact absurd k (by simp)

theorem pairTimes_work (remote : Bool) (i : Fin 16) (n : Nat) (h : ItemWork s t) :
    ItemWork s (pairTimes remote i n t) := by
  induction n generalizing t with
  | zero => exact h
  | succ n ih =>
    unfold pairTimes
    split
    · rename_i u k
      exact ih (pairOnce_work remote i u k h)
    · exact h

theorem pairAt_work (remote : Bool) (i : Fin 16) (h : ItemWork s t) : ItemWork s (pairAt remote i t) := by
  unfold pairAt
  repeat' with_reducible first | exact h | apply pairTimes_work

theorem pairing_work (h : ItemWork s t) : ItemWork s (pairing t) :=
  ItemWork.forEach (pairAt_work true) (ItemWork.forEach (pairAt_work false) h)

theorem place_work (p : Placement) (i : Fin 16) (msg : Message) (h : ItemWork s t) : ItemWork s (place p i msg t) := by
  unfold place
  dsimp only
  repeat' with_reducible first
    | exact h
    | apply pairing_work
    | apply serveLocal_work
    | apply serveRemote_work
    | apply setHosted_work
    | apply setCell_work
    | split

theorem takeNewPut_work (x : Fin 32) (m : Fin 64) (g : Byte) (data : List Byte) (h : ItemWork s t) :
    ItemWork s (takeNewPut x m g data t) := by
  unfold takeNewPut
  dsimp only
  repeat' with_reducible first
    | exact h
    | apply countShed_work
    | apply place_work
    | apply answer_work
    | apply remember_work
    | split

theorem takePut_work (x : Fin 32) (m : Fin 64) (g : Byte) (data : List Byte) (h : ItemWork s t) :
    ItemWork s (takePut x m g data t) := by
  unfold takePut
  repeat' with_reducible first | exact h | apply countShed_work | apply takeNewPut_work | apply answer_work | split

theorem clearOldPair_work (x : Fin 32) (g : Byte) (h : ItemWork s t) : ItemWork s (clearOldPair x g t) := by
  unfold clearOldPair
  dsimp only
  repeat' with_reducible first | exact h | apply returnMessage_work | apply removeWaiter_work | split

theorem replyTake_work (x : Fin 32) (g : Byte) (r : TakeResult) (h : ItemWork s t) :
    ItemWork s (replyTake x g r t) := by
  unfold replyTake
  repeat' with_reducible first | exact h | apply answer_work | apply remember_work

theorem takeNewTake_work (x : Fin 32) (m : Fin 64) (g : Byte) (p : Fin 4) (w : Byte) (h : ItemWork s t) :
    ItemWork s (takeNewTake x m g p w t) := by
  unfold takeNewTake
  dsimp only
  repeat' with_reducible first
    | exact h
    | apply countShed_work
    | apply offerPlaces_work
    | apply pairing_work
    | apply replyTake_work
    | apply fillDelivery_work
    | apply remember_work
    | apply dropHead_work
    | apply makeWaiter_work
    | apply clearOldPair_work
    | split

theorem repeatDelivering_work (x : Fin 32) (g : Byte) (d : Fin 8) (h : ItemWork s t) :
    ItemWork s (repeatDelivering x g d t) := by
  unfold repeatDelivering
  repeat' with_reducible first | exact h | apply countShed_work | apply requeueDelivery_work | split

theorem repeatTakeReply_work (x : Fin 32) (g : Byte) (r : TakeResult) (h : ItemWork s t) :
    ItemWork s (repeatTakeReply x g r t) := by
  unfold repeatTakeReply
  repeat' with_reducible first | exact h | apply countShed_work | apply answer_work | split

theorem takeTake_work (x : Fin 32) (m : Fin 64) (g : Byte) (p : Fin 4) (w : Byte) (h : ItemWork s t) :
    ItemWork s (takeTake x m g p w t) := by
  unfold takeTake
  repeat' with_reducible first
    | exact h
    | apply repeatTakeReply_work
    | apply repeatDelivering_work
    | apply takeNewTake_work
    | split

theorem replyCancel_work (x : Fin 32) (g : Byte) (r : CancelResult) (h : ItemWork s t) :
    ItemWork s (replyCancel x g r t) := by
  unfold replyCancel
  repeat' with_reducible first | exact h | apply answer_work | apply remember_work

theorem takeNewCancel_work (x : Fin 32) (g : Byte) (h : ItemWork s t) : ItemWork s (takeNewCancel x g t) := by
  unfold takeNewCancel
  repeat' with_reducible first
    | exact h
    | apply countShed_work
    | apply pairing_work
    | apply replyCancel_work
    | apply removeWaiter_work
    | split

theorem takeCancel_work (x : Fin 32) (g : Byte) (h : ItemWork s t) : ItemWork s (takeCancel x g t) := by
  unfold takeCancel
  repeat' with_reducible first
    | exact h
    | apply countShed_work
    | apply takeNewCancel_work
    | apply answer_work
    | split

theorem takeDeliverAck_work (x : Fin 32) (g q : Byte) (v : AckVerdict) (h : ItemWork s t) :
    ItemWork s (takeDeliverAck x g q v t) := by
  unfold takeDeliverAck
  dsimp only
  repeat' with_reducible first
    | exact h
    | apply countStaleAck_work
    | apply pairing_work
    | apply offerPlaces_work
    | apply freeDelivery_work
    | split

theorem expireWaiter_work (w : Fin 32) (h : ItemWork s t) : ItemWork s (expireWaiter w t) := by
  unfold expireWaiter
  dsimp only
  repeat' with_reducible first
    | exact h
    | apply pairing_work
    | apply finish_work
    | apply answer_work
    | apply revise_work
    | apply removeWaiter_work
    | split

theorem actOnWaiter_work (w : Fin 32) (h : ItemWork s t) : ItemWork s (actOnWaiter w t) := by
  unfold actOnWaiter
  repeat' with_reducible first | exact h | apply expireWaiter_work | split

theorem deliveryDeadline_work (d : Fin 8) (h : ItemWork s t) : ItemWork s (deliveryDeadline d t) := by
  unfold deliveryDeadline
  repeat' with_reducible first
    | exact h
    | apply requeueDelivery_work
    | apply pairing_work
    | apply revise_work
    | apply returnMessage_work
    | split

theorem actOnDelivery_work (d : Fin 8) (h : ItemWork s t) : ItemWork s (actOnDelivery d t) := by
  unfold actOnDelivery
  repeat' with_reducible first | exact h | apply deliveryDeadline_work | split

theorem deliverySent_work (d : Fin 8) (h : ItemWork s t) : ItemWork s (deliverySent d t) := by
  unfold deliverySent
  repeat' with_reducible first | exact h | apply setDelivery_work | split

theorem discardWaiter_work (st : Status) (b : Bool) (w : Fin 32) (h : ItemWork s t) :
    ItemWork s (discardWaiter st b w t) := by
  unfold discardWaiter
  repeat' with_reducible first | exact h | apply finish_work | apply revise_work | apply removeWaiter_work | split

theorem discardDelivery_work (i : Fin 16) (d : Fin 8) (h : ItemWork s t) : ItemWork s (discardDelivery i d t) := by
  unfold discardDelivery
  repeat' with_reducible first | exact h | apply revise_work | apply freeDelivery_work | split

theorem discardSteps_work (st : Status) (i : Fin 16) (h : ItemWork s t) : ItemWork s (discardSteps st i t) := by
  unfold discardSteps
  refine setHosted_work _ _ (ItemWork.foldl (fun c k => setCell_work c none k) _ ?_)
  refine ItemWork.forEach (discardDelivery_work i) ?_
  refine ItemWork.foldl (fun w k => discardWaiter_work st false w k) _ ?_
  exact ItemWork.foldl (fun w k => discardWaiter_work st true w k) _ h

theorem discard_work (st : Status) (i : Fin 16) (h : ItemWork s t) : ItemWork s (discard st i t) := by
  unfold discard
  repeat' with_reducible first | exact h | apply offerPlaces_work | apply pairing_work | apply discardSteps_work

theorem dropWaiterOf_work (x : Fin 32) (w : Fin 32) (h : ItemWork s t) : ItemWork s (dropWaiterOf x w t) := by
  unfold dropWaiterOf
  repeat' with_reducible first | exact h | apply removeWaiter_work | split

theorem releaseTo_work (x : Fin 32) (d : Fin 8) (h : ItemWork s t) : ItemWork s (releaseTo x d t) := by
  unfold releaseTo
  repeat' with_reducible first | exact h | apply returnMessage_work | split

theorem takerAbsent_work (x : Fin 32) (h : ItemWork s t) : ItemWork s (takerAbsent x t) := by
  unfold takerAbsent
  refine pairing_work (offerPlaces_work (setExchange_work x none ?_))
  exact ItemWork.forEach (releaseTo_work x) (ItemWork.forEach (dropWaiterOf_work x) h)

/-! ### The Directory Unit -/

theorem dispute_work (x : Fin 32) (m : Fin 64) (h : ItemWork s t) : ItemWork s (dispute x m t) := by
  unfold dispute
  repeat' with_reducible first | exact h | apply answer_work

theorem contest_work (x : Fin 32) (m : Fin 64) (h : ItemWork s t) : ItemWork s (contest x m t) := by
  unfold contest
  repeat' with_reducible first | exact h | apply dispute_work | apply countConflict_work

theorem freeClaimingSlot_work (m : Fin 64) (h : ItemWork s t) : ItemWork s (freeClaimingSlot m t) := by
  unfold freeClaimingSlot
  repeat' with_reducible first | exact h | apply setHosted_work | split

theorem loseClaim_work (x : Fin 32) (m : Fin 64) (h : ItemWork s t) : ItemWork s (loseClaim x m t) := by
  unfold loseClaim
  repeat' with_reducible first
    | exact h
    | apply finishBroadcast_work
    | apply freeClaimingSlot_work
    | apply ItemWork.setDirEntry

theorem takeClaim_work (x : Fin 32) (m : Fin 64) (h : ItemWork s t) : ItemWork s (takeClaim x m t) := by
  unfold takeClaim
  repeat' with_reducible first
    | exact h
    | apply loseClaim_work
    | apply contest_work
    | apply countShed_work
    | apply countConflict_work
    | apply ItemWork.setDirEntry
    | split

theorem openClaimedSlot_work (m : Fin 64) (h : ItemWork s t) : ItemWork s (openClaimedSlot m t) := by
  unfold openClaimedSlot
  repeat' with_reducible first | exact h | apply setHosted_work | split

theorem ownClaim_work (m : Fin 64) (h : ItemWork s t) : ItemWork s (ownClaim m t) := by
  unfold ownClaim
  repeat' with_reducible first
    | exact h
    | apply finishBroadcast_work
    | apply openClaimedSlot_work
    | apply ItemWork.setDirEntry
    | split

theorem takeRelease_work (x : Fin 32) (m : Fin 64) (h : ItemWork s t) : ItemWork s (takeRelease x m t) := by
  unfold takeRelease
  repeat' with_reducible first | exact h | apply mailboxGone_work | apply ItemWork.setDirEntry | split

theorem ownRelease_work (m : Fin 64) (h : ItemWork s t) : ItemWork s (ownRelease m t) := by
  unfold ownRelease
  repeat' with_reducible first | exact h | apply finishBroadcast_work

theorem discardMailbox_work (st : Status) (m : Fin 64) (h : ItemWork s t) : ItemWork s (discardMailbox st m t) := by
  unfold discardMailbox
  repeat' with_reducible first | exact h | apply discard_work | split

theorem takeDispute_work (x : Fin 32) (m : Fin 64) (h : ItemWork s t) : ItemWork s (takeDispute x m t) := by
  unfold takeDispute
  repeat' with_reducible first
    | exact h
    | apply discardMailbox_work
    | apply raiseNotice_work
    | apply ItemWork.setDirEntry
    | split

theorem reconcile_work (x : Fin 32) (b : BitVec 64) (m : Fin 64) (h : ItemWork s t) :
    ItemWork s (reconcile x b m t) := by
  unfold reconcile
  repeat' with_reducible first
    | exact h
    | apply loseClaim_work
    | apply contest_work
    | apply countConflict_work
    | apply mailboxGone_work
    | apply ItemWork.setDirEntry
    | split

theorem takePresence_work (x : Fin 32) (b : BitVec 64) (h : ItemWork s t) : ItemWork s (takePresence x b t) := by
  unfold takePresence
  split
  · exact countShed_work h
  · exact ItemWork.forEach (reconcile_work x b) h

theorem absentAt_work (x : Fin 32) (c : AbsenceCause) (m : Fin 64) (h : ItemWork s t) :
    ItemWork s (absentAt x c m t) := by
  unfold absentAt
  repeat' with_reducible first | exact h | apply mailboxGone_work | apply ItemWork.setDirEntry | split

theorem homeAbsent_work (x : Fin 32) (c : AbsenceCause) (h : ItemWork s t) : ItemWork s (homeAbsent x c t) :=
  ItemWork.forEach (absentAt_work x c) h

/-! ### The Roster Unit -/

theorem stationAbsent_work (x : Fin 32) (c : AbsenceCause) (h : ItemWork s t) : ItemWork s (stationAbsent x c t) := by
  unfold stationAbsent
  repeat' with_reducible first
    | exact h
    | apply homeAbsent_work
    | apply takerAbsent_work
    | apply homeLost_work
    | apply raiseNotice_work

theorem heard_work (x : Fin 32) (h : ItemWork s t) : ItemWork s (heard x t) := by
  have k : ItemWork s (setRoster x { presence := .present, missed := 0 } t) := h.setRoster _ _ fun _ => Nat.zero_le _
  unfold heard
  dsimp only
  split
  · exact raiseNotice_work _ k
  · exact k

theorem missedTurn_work (x : Fin 32) (h : ItemWork s t) : ItemWork s (missedTurn x t) := by
  unfold missedTurn
  dsimp only
  split
  · exact h
  · split
    · exact h
    · rename_i k
      split
      · have w : ItemWork s (setRoster x { presence := .absent, missed := 8 } t) := h.setRoster _ _ fun _ => Nat.le_refl _
        split
        · exact stationAbsent_work _ _ w
        · exact w
      · exact h.setRoster _ _ fun _ => by simp only; omega

theorem takeFarewell_work (x : Fin 32) (h : ItemWork s t) : ItemWork s (takeFarewell x t) := by
  unfold takeFarewell
  dsimp only
  split
  · exact h
  · exact stationAbsent_work _ _ (h.setRoster _ _ fun b => b x)

end Sys2Proof.Machine
end

