-- ==== Sys2Proof/Laws/Invariants.lean ====
section
/-! SUPPORT. What each operation of the Turn Tracker, the Line Unit, a session and a command keeps of the bounds of the tables
and of the agreement between the station state and the sync state. -/

namespace Sys2Proof.Machine

variable {s t : State}

/-! ### From work on items -/

theorem ItemWork.bounded (h : ItemWork s t) (b : Bounded s) : Bounded t := by
  obtain ⟨q, ⟨f, c⟩, d, r, x⟩ := b
  refine ⟨h.classA q, ⟨?_, h.full c⟩, h.held c d, h.roster r, ?_⟩
  · rw [h.port]; exact f
  · simpa [flagFollowsTransmit, h.line] using x

theorem ItemWork.matches (h : ItemWork s t) (m : SyncMatches s) : SyncMatches t := by
  simpa [SyncMatches, StoppedOffline, quietReference, h.control, h.tracker, h.line] using m

theorem ItemWork.legal (h : ItemWork s t) (m : ConfigLegal s) : ConfigLegal t := by
  simpa [ConfigLegal, h.control] using m

/-! ### What the bounds do not read -/

theorem bounded_withTracker (k : TurnTracker) (b : Bounded s) : Bounded (s.withTracker k) := b

theorem bounded_withLine (l : LineUnit) (k : l.txInProgress = true ↔ l.tx ≠ .off) (b : Bounded s) :
    Bounded (s.withLine l) := ⟨b.1, b.2.1, b.2.2.1, b.2.2.2.1, k⟩

theorem bounded_withQueue (q : ItemQueue) (k : s.queue.classA.length ≤ 24 → q.classA.length ≤ 24) (b : Bounded s) :
    Bounded (s.withQueue q) := ⟨k b.1, b.2.1, b.2.2.1, b.2.2.2.1, b.2.2.2.2⟩

theorem bounded_withCounters (c : Counters) (b : Bounded s) : Bounded (s.withCounters c) := b

theorem bounded_enterState (st : StationState) (b : Bounded s) : Bounded (enterState st s) := b

/-! ### Building a frame -/

theorem chooseFrom_length (l : List QueuedItem) (c z : Nat) : (chooseFrom l c z).list.length = l.length := by
  induction l generalizing c z with
  | nil => rfl
  | cons q l ih =>
    unfold chooseFrom
    dsimp only
    split <;> simp [ih]

theorem offerTurn_bounded (b : Bounded s) : Bounded (offerTurn s) := by
  unfold offerTurn
  split
  · unfold offerActive
    dsimp only
    split
    · exact b
    · refine bounded_withLine _ ?_ (bounded_withQueue _ ?_ b)
      · exact b.2.2.2.2
      · intro k
        simpa [chosenA, chooseFrom_length] using k
  · exact bounded_withLine _ b.2.2.2.2 (bounded_withQueue _ id b)
  · exact b

theorem offerTurn_fields (s : State) :
    (offerTurn s).control = s.control ∧ (offerTurn s).tracker.rotation = s.tracker.rotation ∧
      (offerTurn s).tracker.joinedAt = s.tracker.joinedAt ∧ (offerTurn s).line.endOfLast = s.line.endOfLast ∧
      (offerTurn s).line.rx = s.line.rx ∧ (offerTurn s).line.tx = s.line.tx := by
  unfold offerTurn
  split
  · unfold offerActive
    dsimp only
    split <;> simp [loadBuffer, setPresenceCounter]
  · simp [offerLeaving, loadBuffer]
  · simp

/-- The agreement of station state and sync state reads these fields only. -/
theorem matches_of_fields (hc : t.control.state = s.control.state) (hr : t.tracker.rotation = s.tracker.rotation)
    (hj : t.tracker.joinedAt = s.tracker.joinedAt) (he : t.line.endOfLast = s.line.endOfLast)
    (hx : t.line.rx = s.line.rx) (ht : t.line.tx = s.line.tx) (m : SyncMatches s) : SyncMatches t := by
  simpa [SyncMatches, StoppedOffline, quietReference, hc, hr, hj, he, hx, ht] using m

theorem closeOwnTurn_bounded (b : Bounded s) : Bounded (closeOwnTurn s) := by
  unfold closeOwnTurn
  exact offerTurn_bounded (bounded_withTracker _ b)

theorem closeOwnTurn_matches (m : SyncMatches s) : SyncMatches (closeOwnTurn s) := by
  obtain ⟨h1, h2, h3, h4, h5, h6⟩ := offerTurn_fields (s.withTracker { s.tracker with ownTurnOpen := false })
  unfold closeOwnTurn
  refine matches_of_fields (s := s) ?_ ?_ ?_ ?_ ?_ ?_ m
  · rw [h1]; rfl
  · rw [h2]; rfl
  · rw [h3]; rfl
  · rw [h4]; rfl
  · rw [h5]; rfl
  · rw [h6]; rfl

theorem settle_bounded (b : Bounded s) : Bounded (settle s) := by
  unfold settle
  split
  · exact closeOwnTurn_bounded b
  · exact b

theorem settle_matches (m : SyncMatches s) : SyncMatches (settle s) := by
  unfold settle
  split
  · exact closeOwnTurn_matches m
  · exact m

theorem ownTurn_bounded (b : Bounded s) : Bounded (ownTurn s) := settle_bounded (bounded_withTracker _ b)

theorem ownTurn_matches (m : SyncMatches s) : SyncMatches (ownTurn s) :=
  settle_matches (matches_of_fields rfl rfl rfl rfl rfl rfl m)

theorem actOnDeadlines_work (h : ItemWork s t) : ItemWork s (actOnDeadlines t) := by
  unfold actOnDeadlines
  exact
    ItemWork.forEach actOnDelivery_work (ItemWork.forEach actOnWaiter_work (ItemWork.forEach actOnEntry_work h))

theorem finishOwnTurn_bounded (b : Bounded s) : Bounded (finishOwnTurn s) := by
  unfold finishOwnTurn
  split
  · exact closeOwnTurn_bounded ((actOnDeadlines_work (ItemWork.refl s)).bounded b)
  · exact b

theorem finishOwnTurn_matches (m : SyncMatches s) : SyncMatches (finishOwnTurn s) := by
  unfold finishOwnTurn
  split
  · have w := actOnDeadlines_work (ItemWork.refl s)
    have k : SyncMatches (actOnDeadlines s) := w.matches m
    exact closeOwnTurn_matches k
  · exact m

theorem handOwnTurn_bounded (b : Bounded s) : Bounded (handOwnTurn s) := by
  unfold handOwnTurn
  split
  · exact ownTurn_bounded b
  · exact b

theorem handOwnTurn_matches (m : SyncMatches s) : SyncMatches (handOwnTurn s) := by
  unfold handOwnTurn
  split
  · exact ownTurn_matches m
  · exact m

/-! ### Session end -/

theorem removeLocalWaiter_work (i : Fin 16) (h : ItemWork s t) : ItemWork s (removeLocalWaiter i t) := by
  unfold removeLocalWaiter
  repeat' with_reducible first | exact h | apply removeWaiter_work | split

theorem endEntry_work (i : Fin 16) (h : ItemWork s t) : ItemWork s (endEntry i t) := by
  unfold endEntry
  repeat' with_reducible first | exact h | apply finish_work | apply removeLocalWaiter_work | split

theorem clearWaiting_work (h : ItemWork s t) : ItemWork s (clearWaiting t) := h.withEngine _ rfl

theorem endEntries_work (h : ItemWork s t) : ItemWork s (endEntries t) := by
  have w : ItemWork s (forEach endEntry t) := ItemWork.forEach endEntry_work h
  unfold endEntries
  exact clearWaiting_work w

theorem stopped_flag (l : LineUnit) (k : l.txInProgress = true ↔ l.tx ≠ .off) :
    l.stopped.txInProgress = true ↔ l.stopped.tx ≠ .off := by
  by_cases h : l.tx = .breaking <;> simp_all [LineUnit.stopped]

theorem clearSession_bounded (b : Bounded s) : Bounded (clearSession s) :=
  ⟨Nat.zero_le _, b.2.1, b.2.2.1, fun x => by simp [clearSession, RosterEntry.blank], stopped_flag _ b.2.2.2.2⟩

theorem recordCause_bounded (c : EndCause) (b : Bounded s) : Bounded (recordCause c s) := b

theorem sessionEnd_bounded (c : EndCause) (b : Bounded s) : Bounded (sessionEnd c s) := by
  unfold sessionEnd
  exact bounded_enterState _ (recordCause_bounded _
    (clearSession_bounded ((endEntries_work (ItemWork.refl s)).bounded b)))

theorem sessionEnd_matches (c : EndCause) (s : State) : SyncMatches (sessionEnd c s) := by
  refine ⟨fun _ => ⟨rfl, rfl, rfl, ?_⟩, fun _ => rfl, fun h => ?_⟩
  · simp only [sessionEnd, enterState_line, recordCause_line, clearSession, LineUnit.stopped]
    split <;> simp
  · rcases h with h | h <;> exact absurd h (by simp [sessionEnd])

theorem syncLost_bounded (b : Bounded s) : Bounded (syncLost s) := by
  unfold syncLost
  split
  · exact b
  · exact sessionEnd_bounded _ b
  · exact b

/-- Synchronisation lost from a state in which station state and sync state agree. -/
theorem loseSync_matches (m : SyncMatches s) : SyncMatches (loseSync s) := by
  unfold loseSync
  split
  · rename_i h
    unfold syncLost
    dsimp only [withTracker_control]
    unfold SyncMatches at m
    split
    · simp [SyncMatches]
    · exact sessionEnd_matches _ _
    · cases k' : s.control.state <;> simp_all [StoppedOffline]
  · exact m

theorem loseSync_bounded (b : Bounded s) : Bounded (loseSync s) := by
  unfold loseSync
  split
  · exact syncLost_bounded (bounded_withTracker _ b)
  · exact b

/-! ### The passing of the turn -/

theorem frameToTracker_bounded (x : Fin 32) (m : Moment) (b : Bounded s) : Bounded (frameToTracker x m s) := by
  unfold frameToTracker
  split
  · split <;> exact b
  · unfold syncGained
    split <;> exact b

/-- A GOOD frame handed to the tracker of a joined station. -/
theorem frameToTracker_matches (x : Fin 32) (e : Moment) (j : s.control.state ≠ .offline) (m : SyncMatches s) :
    SyncMatches (frameToTracker x e s) := by
  unfold frameToTracker
  unfold SyncMatches at m
  split
  · rename_i r k
    cases k' : s.control.state <;> split <;> simp_all [SyncMatches, countTurnSlip]
  · rename_i k
    unfold syncGained
    cases k' : s.control.state <;> split <;> simp_all [SyncMatches]

theorem placed_matches (x : Fin 32) (e : Moment) (k : s.tracker.rotation.isSome = true) (m : SyncMatches s) :
    SyncMatches (placeTurn x e s) := by
  unfold SyncMatches at m ⊢
  cases k' : s.control.state <;> simp_all [StoppedOffline]

theorem suspendWindow_matches (m : SyncMatches s) : SyncMatches (suspendWindow s) := by
  unfold SyncMatches at m ⊢
  cases k' : s.control.state <;> simp_all [suspendWindow, StoppedOffline, quietReference]

theorem turnLapse_bounded (b : Bounded s) : Bounded (turnLapse s) := by
  unfold turnLapse
  split
  · split
    · exact handOwnTurn_bounded ((missedTurn_work _ (ItemWork.refl s)).bounded b)
    · exact b
  · exact b

theorem turnLapse_matches (m : SyncMatches s) : SyncMatches (turnLapse s) := by
  unfold turnLapse
  split
  · rename_i r k
    split
    · have w := missedTurn_work r.holder (ItemWork.refl s)
      exact handOwnTurn_matches (placed_matches _ _ (by simp [w.tracker, k]) (w.matches m))
    · exact m
  · exact m

theorem quietRule_bounded (b : Bounded s) : Bounded (quietRule s) := by
  unfold quietRule
  split
  · split
    · exact handOwnTurn_bounded b
    · exact b
  · exact b

theorem quietRule_matches (m : SyncMatches s) : SyncMatches (quietRule s) := by
  unfold quietRule
  split
  · rename_i r q k _
    split
    · refine handOwnTurn_matches ?_
      exact matches_of_fields (s := placeTurn 0 q s) rfl rfl rfl rfl rfl rfl (placed_matches _ _ (by simp [k]) m)
    · exact m
  · exact m

theorem quietResync_bounded (b : Bounded s) : Bounded (quietResync s) := by
  unfold quietResync
  split
  · split
    · refine handOwnTurn_bounded ?_
      unfold syncGained
      split <;> exact b
    · exact b
  · exact b

theorem quietResync_matches (m : SyncMatches s) : SyncMatches (quietResync s) := by
  unfold quietResync
  split
  · rename_i k _
    split
    · rename_i j
      refine handOwnTurn_matches ?_
      unfold SyncMatches at m
      simp [joined] at j
      unfold syncGained
      cases k' : s.control.state <;> split <;> simp_all [SyncMatches, countQuietResync, markQuiet]
    · exact m
  · exact m

/-! ### The outcome of an own frame at the item queue -/

theorem tellSent_work (q : QueuedItem) (h : ItemWork s t) : ItemWork s (tellSent t q) := by
  unfold tellSent
  repeat' with_reducible first | exact h | apply entrySent_work | apply deliverySent_work | split

theorem abortFrame_work (h : ItemWork s t) : ItemWork s (abortFrame t) := by
  refine offerPlaces_work (h.withQueue _ fun k => ?_)
  simp only [unmark, List.length_map]
  exact (List.length_filter_le _ _).trans k

theorem frameSent_bounded (b : Bounded s) : Bounded (frameSent s) := by
  unfold frameSent
  split
  · exact b
  · dsimp only
    refine ItemWork.bounded (offerPlaces_work (ItemWork.foldl (fun q k => tellSent_work q k) _ (ItemWork.refl _))) ?_
    refine bounded_withQueue _ ?_ ?_
    · intro _
      exact (List.length_filter_le _ _).trans b.1
    · split <;> exact b

theorem frameSent_matches (m : SyncMatches s) : SyncMatches (frameSent s) := by
  unfold frameSent
  split
  · exact m
  · dsimp only
    refine ItemWork.matches (offerPlaces_work (ItemWork.foldl (fun q k => tellSent_work q k) _ (ItemWork.refl _))) ?_
    split <;> exact matches_of_fields rfl rfl rfl rfl rfl rfl m

theorem frameSent_state (s : State) : (frameSent s).control = s.control := by
  unfold frameSent
  split
  · rfl
  · dsimp only
    rw [(offerPlaces_work (ItemWork.foldl (fun q k => tellSent_work q k) _ (ItemWork.refl _))).control]
    split <;> rfl

/-! ### Reception -/

theorem routeItem_work (x : Fin 32) (i : ItemBody) (h : ItemWork s t) : ItemWork s (routeItem x i t) := by
  unfold routeItem
  split
  · exact takePresence_work _ _ h
  · exact takeFarewell_work _ h
  · exact takeClaim_work _ _ h
  · exact takeRelease_work _ _ h
  · exact takeDispute_work _ _ h
  · exact takePut_work _ _ _ _ h
  · exact takeTake_work _ _ _ _ _ h
  · exact takeCancel_work _ _ h
  · exact takeDeliverAck_work _ _ _ _ h
  · exact takePutReply_work _ _ _ h
  · exact takeTakeReply_work _ _ _ h
  · exact takeCancelReply_work _ _ _ h
  · exact takeDeliver_work _ _ _ _ _ h

theorem ownItem_work (i : ItemBody) (h : ItemWork s t) : ItemWork s (ownItem i t) := by
  unfold ownItem
  split
  · exact ownClaim_work _ h
  · exact ownRelease_work _ h
  · exact h

theorem dispatchItem_work (x : Fin 32) (i : Item) (h : ItemWork s t) : ItemWork s (dispatchItem x i t) := by
  unfold dispatchItem
  repeat' with_reducible first | exact h | apply ownItem_work | apply routeItem_work | split

theorem dispatchItems_work (x : Fin 32) (l : List Item) (h : ItemWork s t) : ItemWork s (dispatchItems x l t) :=
  ItemWork.foldl (fun i k => dispatchItem_work x i k) l h

theorem receiveGood_bounded (x : Fin 32) (l : List Item) (e : Moment) (b : Bounded s) : Bounded (receiveGood x l e s) :=
  handOwnTurn_bounded (ItemWork.bounded (dispatchItems_work x l (heard_work x (ItemWork.refl _)))
    (frameToTracker_bounded x e b))

theorem receiveGood_matches (x : Fin 32) (l : List Item) (e : Moment) (j : s.control.state ≠ .offline)
    (m : SyncMatches s) : SyncMatches (receiveGood x l e s) :=
  handOwnTurn_matches (ItemWork.matches (dispatchItems_work x l (heard_work x (ItemWork.refl _)))
    (frameToTracker_matches x e j m))

theorem handOn_bounded (v : Verdict) (e : Moment) (b : Bounded s) : Bounded (handOn v e s) := by
  unfold handOn
  split
  · exact receiveGood_bounded _ _ _ b
  · exact loseSync_bounded b
  · exact loseSync_bounded b
  · exact sessionEnd_bounded _ b

theorem handOn_matches (v : Verdict) (e : Moment) (j : s.control.state ≠ .offline) (m : SyncMatches s) :
    SyncMatches (handOn v e s) := by
  unfold handOn
  split
  · exact receiveGood_matches _ _ _ j m
  · exact loseSync_matches m
  · exact loseSync_matches m
  · exact sessionEnd_matches _ _

/-- In a joined state only the sync state matters. -/
theorem matches_joined (j : s.control.state ≠ .offline) (hc : t.control.state = s.control.state)
    (hr : t.tracker.rotation.isSome = s.tracker.rotation.isSome) (m : SyncMatches s) : SyncMatches t := by
  unfold SyncMatches at m ⊢
  rw [hc, hr]
  refine ⟨fun k => absurd k j, fun k => ?_, m.2.2⟩
  have h := m.2.1 k
  rw [h] at hr
  cases k' : t.tracker.rotation with
  | none => rfl
  | some r => rw [k'] at hr; exact absurd hr (by simp)

theorem joined_iff (s : State) : joined s = true ↔ s.control.state ≠ .offline := by simp [joined]

theorem closeBySilence_bounded (b : Bounded s) : Bounded (closeBySilence s) := by
  unfold closeBySilence
  split
  · dsimp only
    have k : Bounded (closeActivity s.line.lastCharEnd s) :=
      bounded_withTracker _ (bounded_withLine _ b.2.2.2.2 b)
    split
    · exact k
    · exact handOn_bounded _ _ k
  · exact b

theorem closeActivity_matches (e : Moment) (j : s.control.state ≠ .offline) (m : SyncMatches s) :
    SyncMatches (closeActivity e s) := matches_joined j rfl rfl m

theorem closeBySilence_matches (m : SyncMatches s) : SyncMatches (closeBySilence s) := by
  unfold closeBySilence
  split
  · rename_i j
    have j' : s.control.state ≠ .offline := by simp [joined] at j; exact j.1.1
    dsimp only
    split
    · exact closeActivity_matches _ j' m
    · exact handOn_matches _ _ j' (closeActivity_matches _ j' m)
  · exact m

theorem abortWaiting_bounded (b : Bounded s) : Bounded (abortWaiting s) := by
  unfold abortWaiting
  split
  · exact bounded_withLine _ b.2.2.2.2 ((abortFrame_work (ItemWork.refl s)).bounded b)
  · exact b

theorem abortWaiting_fields (s : State) :
    (abortWaiting s).control = s.control ∧ (abortWaiting s).tracker = s.tracker := by
  unfold abortWaiting
  have w := abortFrame_work (ItemWork.refl s)
  split
  · exact ⟨w.control, w.tracker⟩
  · exact ⟨rfl, rfl⟩

theorem activityOpens_bounded (ch : LineChar) (e : Moment) (b : Bounded s) : Bounded (activityOpens ch e s) := by
  unfold activityOpens
  split
  · dsimp only
    have k := abortWaiting_bounded b
    exact bounded_withLine _ k.2.2.2.2 (bounded_withTracker _ k)
  · exact b

theorem activityOpens_matches (ch : LineChar) (e : Moment) (m : SyncMatches s) : SyncMatches (activityOpens ch e s) := by
  unfold activityOpens
  split
  · rename_i j
    obtain ⟨h1, h2⟩ := abortWaiting_fields s
    refine matches_joined (s := s) (by simpa [joined] using j) ?_ ?_ m
    · simp [suspendWindow, h1]
    · simp [suspendWindow, h2]
  · exact m

theorem discardActivity_bounded (e : Moment) (b : Bounded s) : Bounded (discardActivity e s) :=
  bounded_withLine _ b.2.2.2.2 b

theorem assembleCharacter_bounded (ch : LineChar) (e : Moment) (b : Bounded s) :
    Bounded (assembleCharacter ch e s) := by
  unfold assembleCharacter
  split
  · exact discardActivity_bounded _ b
  · dsimp only
    split
    · exact discardActivity_bounded _ b
    · split
      · exact handOn_bounded _ _ (bounded_withTracker _ (bounded_withLine _ b.2.2.2.2 b))
      · exact bounded_withLine _ b.2.2.2.2 b

theorem assembleCharacter_matches (ch : LineChar) (e : Moment) (j : s.control.state ≠ .offline) (m : SyncMatches s) :
    SyncMatches (assembleCharacter ch e s) := by
  unfold assembleCharacter
  split
  · exact matches_joined j rfl rfl m
  · dsimp only
    split
    · exact matches_joined j rfl rfl m
    · split
      · exact handOn_matches _ _ j (closeActivity_matches _ j m)
      · exact matches_joined j rfl rfl m

/-! ### Transmission -/

theorem transmitStart_bounded (b : Bounded s) : Bounded (transmitStart s) := by
  unfold transmitStart
  split
  · split
    · split
      · exact bounded_withTracker _ (bounded_withLine _ (by simp) b)
      · exact abortWaiting_bounded b
    · exact b
  · exact b

theorem transmitStart_matches (m : SyncMatches s) : SyncMatches (transmitStart s) := by
  unfold transmitStart
  split
  · rename_i r k
    have j : s.control.state ≠ .offline := by
      intro h
      simp [SyncMatches, h, StoppedOffline, k] at m
    split
    · split
      · exact matches_joined j rfl (by simp [suspendWindow]) m
      · obtain ⟨h1, h2⟩ := abortWaiting_fields s
        exact matches_joined j (by rw [h1]) (by rw [h2]) m
    · exact m
  · exact m

theorem sending_joined (h : s.line.tx = .sending) (m : SyncMatches s) : s.control.state ≠ .offline := by
  intro k
  simp [SyncMatches, k, StoppedOffline, h] at m

theorem ownFrameReceived_bounded (b : Bounded s) : Bounded (ownFrameReceived s) := by
  refine receiveGood_bounded _ _ _ (frameSent_bounded (bounded_withTracker _ (bounded_withLine _ (by simp [stopSending]) ?_)))
  exact bounded_withLine _ (by simp) (bounded_withCounters _ b)

theorem ownFrameReceived_matches (j : s.control.state ≠ .offline) (m : SyncMatches s) :
    SyncMatches (ownFrameReceived s) := by
  refine receiveGood_matches _ _ _ ?_ (frameSent_matches (matches_joined j rfl rfl m))
  rw [frameSent_state]
  exact j

theorem echoGood_bounded (b : Bounded s) : Bounded (echoGood s) := by
  unfold echoGood
  split
  · dsimp only
    split
    · exact sessionEnd_bounded _ (ownFrameReceived_bounded b)
    · exact ownFrameReceived_bounded b
  · exact b

theorem echoGood_matches (m : SyncMatches s) : SyncMatches (echoGood s) := by
  unfold echoGood
  split
  · rename_i h
    dsimp only
    split
    · exact sessionEnd_matches _ _
    · exact ownFrameReceived_matches (sending_joined h m) m
  · exact m

theorem collision_bounded (e : Moment) (b : Bounded s) : Bounded (collision e s) := by
  unfold collision
  split
  · rename_i h
    refine loseSync_bounded ((abortFrame_work (ItemWork.refl _)).bounded (bounded_withCounters _ ?_))
    refine bounded_withLine _ ?_ b
    have := b.2.2.2.2
    simp_all [flagFollowsTransmit]
  · exact b

theorem collision_matches (e : Moment) (m : SyncMatches s) : SyncMatches (collision e s) := by
  unfold collision
  split
  · rename_i h
    refine loseSync_matches ((abortFrame_work (ItemWork.refl _)).matches ?_)
    exact matches_joined (sending_joined h m) rfl rfl m
  · exact m

theorem breakEnd_bounded (b : Bounded s) : Bounded (breakEnd s) := by
  unfold breakEnd
  split
  · dsimp only
    have k : Bounded (stopSending s) := bounded_withLine _ (by simp) b
    split
    · exact bounded_withLine _ k.2.2.2.2 k
    · exact k
  · exact b

theorem breakEnd_matches (m : SyncMatches s) : SyncMatches (breakEnd s) := by
  unfold breakEnd
  split
  · dsimp only
    split
    · rename_i j
      exact matches_joined (s := s) (by simpa [joined] using j) rfl rfl m
    · unfold SyncMatches at m ⊢
      cases k' : s.control.state <;> simp_all [stopSending, StoppedOffline, quietReference]
  · exact m

theorem echoCharacter_bounded (ch : LineChar) (e : Moment) (b : Bounded s) : Bounded (echoCharacter ch e s) := by
  unfold echoCharacter
  split
  · split
    · split
      · exact echoGood_bounded b
      · exact bounded_withLine _ b.2.2.2.2 b
    · exact collision_bounded _ b
  · exact b

theorem echoCharacter_matches (ch : LineChar) (e : Moment) (m : SyncMatches s) : SyncMatches (echoCharacter ch e s) := by
  unfold echoCharacter
  split
  · split
    · split
      · exact echoGood_matches m
      · exact matches_of_fields rfl rfl rfl rfl rfl rfl m
    · exact collision_matches _ m
  · exact m

theorem laterCharacter_bounded (ch : LineChar) (e : Moment) (b : Bounded s) : Bounded (laterCharacter ch e s) := by
  unfold laterCharacter
  split
  · exact activityOpens_bounded _ _ (closeBySilence_bounded b)
  · split
    · exact assembleCharacter_bounded _ _ b
    · exact discardActivity_bounded _ b

theorem laterCharacter_matches (ch : LineChar) (e : Moment) (j : s.control.state ≠ .offline) (m : SyncMatches s) :
    SyncMatches (laterCharacter ch e s) := by
  unfold laterCharacter
  split
  · exact activityOpens_matches _ _ (closeBySilence_matches m)
  · split
    · exact assembleCharacter_matches _ _ j m
    · exact matches_joined j rfl rfl m

theorem lineCharacter_bounded (ch : LineChar) (e : Moment) (b : Bounded s) : Bounded (lineCharacter ch e s) := by
  unfold lineCharacter
  split
  · exact b
  · split
    · exact activityOpens_bounded _ _ b
    · exact laterCharacter_bounded _ _ b
    · exact laterCharacter_bounded _ _ b
    · exact echoCharacter_bounded _ _ b

theorem lineCharacter_matches (ch : LineChar) (e : Moment) (m : SyncMatches s) : SyncMatches (lineCharacter ch e s) := by
  unfold lineCharacter
  split
  · exact m
  · rename_i k
    have j : s.control.state ≠ .offline := by simp [joined] at k; exact k.1
    split
    · exact activityOpens_matches _ _ m
    · exact laterCharacter_matches _ _ j m
    · exact laterCharacter_matches _ _ j m
    · exact echoCharacter_matches _ _ m

end Sys2Proof.Machine
end

