-- ==== Sys2Proof/Laws/Commands.lean ====
section
/-! SUPPORT. What the taking of a command and the work of each command keep of the bounds and of the agreement between the
station state and the sync state. -/

namespace Sys2Proof.Machine

variable {s t : State}

/-! ### Entering LEAVING and the start of a session -/

theorem emptyLists_bounded (b : Bounded s) : Bounded (emptyLists s) := bounded_withQueue _ (fun _ => Nat.zero_le _) b

theorem leaveSlot_work (h : Fin 16) (w : ItemWork s t) : ItemWork s (leaveSlot h t) := by
  unfold leaveSlot
  repeat' with_reducible first | exact w | apply discardSteps_work | apply setHosted_work | split

theorem leaveDirEntry_work (m : Fin 64) (w : ItemWork s t) : ItemWork s (leaveDirEntry m t) := by
  unfold leaveDirEntry
  repeat' with_reducible first | exact w | apply ItemWork.setDirEntry | split

/-- Everything of entering LEAVING but the change of state and the emptying of the lists is work on items. -/
theorem enterLeaving_work (s : State) : ItemWork (emptyLists (enterState .leaving s)) (enterLeaving s) := by
  unfold enterLeaving
  have h1 := endEntries_work (ItemWork.refl (emptyLists (enterState .leaving s)))
  have h2 : ItemWork (emptyLists (enterState .leaving s))
      (forEach leaveSlot (endEntries (emptyLists (enterState .leaving s)))) := ItemWork.forEach leaveSlot_work h1
  exact ItemWork.forEach leaveDirEntry_work h2

theorem enterLeaving_bounded (b : Bounded s) : Bounded (enterLeaving s) :=
  (enterLeaving_work s).bounded (emptyLists_bounded (bounded_enterState _ b))

theorem enterLeaving_matches (k : s.control.state = .active) (m : SyncMatches s) : SyncMatches (enterLeaving s) := by
  refine (enterLeaving_work s).matches ?_
  have h := m.2.2 (Or.inl k)
  refine ⟨fun h => ?_, fun h => ?_, fun _ => h⟩ <;> exact absurd h (by simp [emptyLists])

theorem startSession_bounded (e : Moment) (a : Bool) (b : Bounded s) : Bounded (startSession e a s) := by
  refine ⟨b.1, b.2.1, b.2.2.1, fun x => ?_, b.2.2.2.2⟩
  simp [startSession, RosterEntry.blank]

theorem startSession_matches (e : Moment) (a : Bool) (s : State) : SyncMatches (startSession e a s) := by
  refine ⟨fun h => ?_, fun _ => rfl, fun h => ?_⟩
  · exact absurd h (by simp [startSession])
  · rcases h with h | h <;> exact absurd h (by simp [startSession])

/-! ### The work of each command -/

theorem openWork_work (p : List Byte) (s : State) : ItemWork s (openWork p s).1 := by
  unfold openWork openMailboxAt openTaken
  repeat' with_reducible first
    | exact ItemWork.refl s
    | apply broadcastRequest_work
    | apply ItemWork.setDirEntry
    | apply setHosted_work
    | split

theorem closeWork_work (p : List Byte) (s : State) : ItemWork s (closeWork p s).1 := by
  unfold closeWork closeMailboxAt closedMailbox
  repeat' with_reducible first
    | exact ItemWork.refl s
    | apply broadcastRequest_work
    | apply discardMailbox_work
    | apply ItemWork.setDirEntry
    | split

theorem putWork_work (p : List Byte) (s : State) : ItemWork s (putWork p s).1 := by
  unfold putWork putAt putLocal putRemote
  repeat' with_reducible first
    | exact ItemWork.refl s
    | apply place_work
    | apply remotePut_work
    | split

theorem takeWork_work (p : List Byte) (s : State) : ItemWork s (takeWork p s).1 := by
  unfold takeWork takeAt takeLocal takeLocalAt takeLocalWaiting takeRemote parkLocal
  repeat' with_reducible first
    | exact ItemWork.refl s
    | apply remoteTake_work
    | apply pairing_work
    | apply makeWaiter_work
    | apply setEntry_work
    | apply setCell_work
    | apply dropHead_work
    | split

theorem requestCancel_work (i : Fin 16) (h : ItemWork s t) : ItemWork s (requestCancel i t) := setEntry_work _ _ h

theorem cancelLocal_work (i : Fin 16) (h : ItemWork s t) : ItemWork s (cancelLocal i t) := by
  unfold cancelLocal
  generalize e : removeLocalWaiter i t = u
  have w : ItemWork s u := e ▸ removeLocalWaiter_work i h
  generalize e' : finish i .cancelled u = v
  have w' : ItemWork s v := e' ▸ finish_work i .cancelled w
  exact pairing_work w'

theorem cancelTake_work (i : Fin 16) (s : State) : ItemWork s (cancelTake i s).1 := by
  unfold cancelTake
  have r := ItemWork.refl s
  have f := finishAndPromote_work i .cancelled r
  have q := requestCancel_work i r
  have b := beginCancel_work i .localCause r
  have l := cancelLocal_work i r
  repeat' with_reducible first
    | exact r
    | exact f
    | exact q
    | exact b
    | exact l
    | split

theorem cancelWork_work (p : List Byte) (s : State) : ItemWork s (cancelWork p s).1 := by
  unfold cancelWork cancelTag
  dsimp only
  split
  · split
    · exact ItemWork.refl s
    · split
      · exact ItemWork.refl s
      · exact cancelTake_work _ s
  · exact ItemWork.refl s

theorem mailboxStatusWork_state (p : List Byte) (s : State) : (mailboxStatusWork p s).1 = s := by
  unfold mailboxStatusWork
  repeat' first | rfl | split

/-- A record leaves the queue, and a held entry moves into its place (R174, R186). -/
theorem popWork_bounded (p : List Byte) (b : Bounded s) : Bounded (popWork p s).1 := by
  unfold popWork
  split
  · exact b
  · rename_i r rest k
    obtain ⟨q, ⟨f, c⟩, d, ro, x⟩ := b
    rw [k] at c
    unfold moveHeldIn
    split
    · rename_i e
      refine ⟨q, ⟨f, ?_⟩, fun h => absurd e h, ro, x⟩
      simpa using Nat.le_of_succ_le c
    · rename_i i held e
      have full : rest.length = 15 := by
        have := d (by simp at e; simp [e])
        simpa [k] using this
      refine ⟨q, ⟨f, ?_⟩, fun _ => ?_, ro, x⟩ <;> simp [freeTheEntry, full]

theorem moveHeldIn_fields (s : State) :
    (moveHeldIn s).control = s.control ∧ (moveHeldIn s).tracker = s.tracker ∧ (moveHeldIn s).line = s.line := by
  unfold moveHeldIn
  split
  · exact ⟨rfl, rfl, rfl⟩
  · exact ⟨rfl, rfl, rfl⟩

theorem matches_of_blocks (hc : t.control = s.control) (ht : t.tracker = s.tracker) (hl : t.line = s.line)
    (m : SyncMatches s) : SyncMatches t :=
  matches_of_fields (by rw [hc]) (by rw [ht]) (by rw [ht]) (by rw [hl]) (by rw [hl]) (by rw [hl]) m

theorem popWork_matches (p : List Byte) (m : SyncMatches s) : SyncMatches (popWork p s).1 := by
  unfold popWork
  split
  · exact m
  · rename_i r rest k
    obtain ⟨h1, h2, h3⟩ := moveHeldIn_fields (s.withPort { s.port with completions := rest })
    exact matches_of_blocks h1 h2 h3 m

/-! ### The taking of a command -/

theorem checkedWork_keeps (P : State → Prop) (c : Command) (work : Work) (h : ∀ p u, permitted c u.control.state → P u → P (work p u).1)
    (hs : P s) : P (checkedWork c work s).1 := by
  unfold checkedWork
  split
  · exact hs
  · rename_i k
    split
    · exact hs
    · exact h _ _ (by simpa using k) hs

theorem takeCommand_bounded (c : Command) (work : Work)
    (h : ∀ p u, permitted c u.control.state → Bounded u → Bounded (work p u).1) (b : Bounded s) :
    Bounded (takeCommand c work s) := by
  unfold takeCommand
  split
  · exact b
  · split
    · exact b
    · have k := finishOwnTurn_bounded b
      exact checkedWork_keeps Bounded c work h (s := clearResult true (finishOwnTurn s)) k

theorem takeCommand_matches (c : Command) (work : Work)
    (h : ∀ p u, permitted c u.control.state → SyncMatches u → SyncMatches (work p u).1) (m : SyncMatches s) :
    SyncMatches (takeCommand c work s) := by
  unfold takeCommand
  split
  · exact m
  · split
    · exact m
    · have k : SyncMatches (clearResult true (finishOwnTurn s)) :=
        matches_of_blocks (s := finishOwnTurn s) rfl rfl rfl (finishOwnTurn_matches m)
      have k' := checkedWork_keeps SyncMatches c work h k
      exact matches_of_blocks (s := (checkedWork c work (clearResult true (finishOwnTurn s))).1) rfl rfl rfl k'

end Sys2Proof.Machine
end

