-- ==== Sys2Proof/Laws/Taking.lean ====
section
/-! SUPPORT. The taking of a command from a ready part, the searches for the lowest place of a table, and the bytes of
numbers as parameters. -/

namespace Sys2Proof.Machine

variable {s : State} {p : List Byte} {c : Command} {work : Work}

/-! ### Taking a command -/

theorem CommandReady.settled (r : CommandReady p s) : finishOwnTurn s = s := by simp [finishOwnTurn, r.between]

theorem CommandReady.free (r : CommandReady p s) : s.port.busy = false := by simp [LocalPort.busy, r.notBusy]

/-- A command taken from a ready part runs its checks and its work on the state `begun` and leaves its result. -/
theorem takeCommand_ready (r : CommandReady p s) :
    takeCommand c work s = answered (checkedWork c work (begun s)).2 (checkedWork c work (begun s)).1 := by
  simp [takeCommand, r.released, r.free, r.settled, clearResult, begun, answered, holdResult, State.withPort]

theorem checkedWork_state (h : permitted c s.control.state = false) : checkedWork c work s = (s, only .badState) := by
  simp [checkedWork, h]

theorem checkedWork_length (h : permitted c s.control.state = true) (k : lengthFits c s.port.fifo = false) :
    checkedWork c work s = (s, only .badLength) := by
  simp [checkedWork, h, k]

theorem checkedWork_work (h : permitted c s.control.state = true) (k : lengthFits c s.port.fifo = true) :
    checkedWork c work s = work s.port.fifo s := by
  simp [checkedWork, h, k]

/-- A permitted command with as many parameter bytes as it takes does its work. -/
theorem takeCommand_work (r : CommandReady p s) (h : permitted c s.control.state = true) (k : lengthFits c p = true) :
    takeCommand c work s = answered (work p (begun s)).2 (work p (begun s)).1 := by
  have e : checkedWork c work (begun s) = work p (begun s) := by
    have := checkedWork_work (s := begun s) (c := c) (work := work) h (by simpa [begun, r.parameters] using k)
    rw [this]
    simp [begun, r.parameters]
  rw [takeCommand_ready r, e]

@[simp] theorem begun_control (s : State) : (begun s).control = s.control := rfl
@[simp] theorem begun_line (s : State) : (begun s).line = s.line := rfl
@[simp] theorem begun_tracker (s : State) : (begun s).tracker = s.tracker := rfl
@[simp] theorem begun_queue (s : State) : (begun s).queue = s.queue := rfl
@[simp] theorem begun_roster (s : State) : (begun s).roster = s.roster := rfl
@[simp] theorem begun_directory (s : State) : (begun s).directory = s.directory := rfl
@[simp] theorem begun_store (s : State) : (begun s).store = s.store := rfl
@[simp] theorem begun_engine (s : State) : (begun s).engine = s.engine := rfl
@[simp] theorem begun_pending (s : State) : (begun s).pending = s.pending := rfl

/-! ### The lowest place of a table -/

theorem find_lowest {n : Nat} {q : Fin n → Bool} {i : Fin n} (h : Lowest (fun i => q i = true) i) :
    (List.finRange n).find? q = some i := by
  rw [List.find?_eq_some_iff_getElem]
  refine ⟨h.1, i.val, by simp, by simp, fun j hj => ?_⟩
  simpa using h.2 ⟨j, by omega⟩ hj

theorem find_none {n : Nat} {q : Fin n → Bool} (h : ∀ i, q i = false) : (List.finRange n).find? q = none := by
  simp [List.find?_eq_none, h]

theorem Lowest.congr {n : Nat} {q r : Fin n → Prop} {i : Fin n} (h : Lowest q i) (e : ∀ i, q i ↔ r i) : Lowest r i :=
  ⟨(e i).mp h.1, fun j hj k => h.2 j hj ((e j).mpr k)⟩

theorem put_put {α : Type} {n : Nat} (v : Vector α n) (i : Fin n) (a b : α) : put (put v i a) i b = put v i b := by
  simp [put]

/-! ### Numbers as parameter bytes -/

theorem toNat_byteOf {n : Nat} (h : n < 256) : (byteOf n).toNat = n := by
  simp [byteOf, Nat.mod_eq_of_lt h]

theorem below_byteOf {n : Nat} (m : Fin n) (h : n ≤ 256) : below n (byteOf m.val) = some m := by
  have := toNat_byteOf (n := m.val) (by omega)
  simp [below, this]

end Sys2Proof.Machine
end

