-- ==== Sys2Proof/Laws/Cells.lean ====
section
/-! SUPPORT. Where the message cells stand: what each move of a message keeps of the places of the cells (R112), and how the
loads of the hosted mailboxes follow (R111). -/

namespace Sys2Proof.Machine

variable {s t : State}

/-! ### The moves of a cell -/

/-- The head message of a mailbox goes into a FREE delivery slot. -/
theorem CellsPlaced.carry (p : CellsPlaced s) {h : Fin 16} {d : Fin 8} {c : Fin 64} {rest : List (Fin 64)} {y : Delivery}
    (hm : (hostedSlot h s).messages = c :: rest) (hd : delivery d s = none) (hy : y.cell = c)
    (ms : ∀ k, (hostedSlot k t).messages = if k = h then rest else (hostedSlot k s).messages)
    (ds : ∀ e, delivery e t = if e = d then some y else delivery e s) (cs : ∀ c, cell c t = cell c s) :
        CellsPlaced t := by
  obtain ⟨p1, p2, p3, p4, p5, p6⟩ := p
  have n := p1 h
  rw [hm, List.nodup_cons] at n
  constructor <;> grind

/-- The head message of a mailbox is collected, and its cell is freed. -/
theorem CellsPlaced.collect (p : CellsPlaced s) {h : Fin 16} {c : Fin 64} {rest : List (Fin 64)}
    (hm : (hostedSlot h s).messages = c :: rest)
    (ms : ∀ k, (hostedSlot k t).messages = if k = h then rest else (hostedSlot k s).messages)
    (ds : ∀ e, delivery e t = delivery e s) (cs : ∀ e, cell e t = if e = c then none else cell e s) :
        CellsPlaced t := by
  obtain ⟨p1, p2, p3, p4, p5, p6⟩ := p
  have n := p1 h
  rw [hm, List.nodup_cons] at n
  constructor <;> grind

/-- The message of a delivery slot goes back to the head of a mailbox. -/
theorem CellsPlaced.goBack (p : CellsPlaced s) {h : Fin 16} {d : Fin 8} {y : Delivery} (hd : delivery d s = some y)
    (ms : ∀ k, (hostedSlot k t).messages = if k = h then y.cell :: (hostedSlot h s).messages else (hostedSlot k s).messages)
    (ds : ∀ e, delivery e t = if e = d then none else delivery e s) (cs : ∀ c, cell c t = cell c s) :
        CellsPlaced t := by
  obtain ⟨p1, p2, p3, p4, p5, p6⟩ := p
  have m := ms h
  constructor <;> grind

/-- A delivery slot is freed with its cell. -/
theorem CellsPlaced.drop (p : CellsPlaced s) {d : Fin 8} {y : Delivery} (hd : delivery d s = some y)
    (ms : ∀ k, (hostedSlot k t).messages = (hostedSlot k s).messages)
    (ds : ∀ e, delivery e t = if e = d then none else delivery e s)
    (cs : ∀ c, cell c t = if c = y.cell then none else cell c s) : CellsPlaced t := by
  obtain ⟨p1, p2, p3, p4, p5, p6⟩ := p
  constructor <;> grind

/-- A free cell is taken for a message at the tail of a mailbox. -/
theorem CellsPlaced.store (p : CellsPlaced s) {h : Fin 16} {c : Fin 64} (hc : cell c s = none)
    (ms : ∀ k, (hostedSlot k t).messages = if k = h then (hostedSlot h s).messages ++ [c] else (hostedSlot k s).messages)
    (ds : ∀ e, delivery e t = delivery e s) (cs : ∀ e, e ≠ c → cell e t = cell e s) (cc : cell c t ≠ none) :
        CellsPlaced t := by
  obtain ⟨p1, p2, p3, p4, p5, p6⟩ := p
  have m := ms h
  constructor <;> grind

/-- A free cell is taken into a FREE delivery slot. -/
theorem CellsPlaced.handOver (p : CellsPlaced s) {d : Fin 8} {c : Fin 64} {y : Delivery} (hc : cell c s = none)
    (hd : delivery d s = none) (hy : y.cell = c)
    (ms : ∀ k, (hostedSlot k t).messages = (hostedSlot k s).messages)
    (ds : ∀ e, delivery e t = if e = d then some y else delivery e s)
    (cs : ∀ e, e ≠ c → cell e t = cell e s) (cc : cell c t ≠ none) : CellsPlaced t := by
  obtain ⟨p1, p2, p3, p4, p5, p6⟩ := p
  constructor <;> grind

/-- Nothing moves. -/
theorem CellsPlaced.same (p : CellsPlaced s) (ms : ∀ k, (hostedSlot k t).messages = (hostedSlot k s).messages)
    (ds : ∀ e, (delivery e t).map Delivery.cell = (delivery e s).map Delivery.cell) (cs : ∀ c, cell c t = cell c s) :
        CellsPlaced t := by
  have up : ∀ e x, delivery e t = some x → ∃ y, delivery e s = some y ∧ y.cell = x.cell := by
    intro e x h; have := ds e; rw [h] at this; simp at this; grind
  have dn : ∀ e x, delivery e s = some x → ∃ y, delivery e t = some y ∧ y.cell = x.cell := by
    intro e x h; have := ds e; rw [h] at this; simp at this; grind
  obtain ⟨p1, p2, p3, p4, p5, p6⟩ := p
  clear ds
  constructor <;> grind

/-- All of a mailbox is dropped. -/
theorem CellsPlaced.empty (p : CellsPlaced s) {h : Fin 16} 
    (ms : ∀ k, (hostedSlot k t).messages = if k = h then [] else (hostedSlot k s).messages)
    (ds : ∀ e, delivery e t = delivery e s)
    (cs : ∀ c, cell c t = if c ∈ (hostedSlot h s).messages then none else cell c s) : CellsPlaced t := by
  obtain ⟨p1, p2, p3, p4, p5, p6⟩ := p
  constructor <;> grind

/-! ### Loads -/

theorem countP_update {n : Nat} (p q : Fin n → Bool) (d : Fin n) (h : ∀ e, e ≠ d → q e = p e) :
    (List.finRange n).countP q + (p d).toNat = (List.finRange n).countP p + (q d).toNat := by
  have key : ∀ l : List (Fin n), l.Nodup →
      l.countP q + (if d ∈ l then (p d).toNat else 0) = l.countP p + (if d ∈ l then (q d).toNat else 0) := by
    intro l
    induction l with
    | nil => simp
    | cons a l ih =>
      intro nd
      obtain ⟨n1, n2⟩ := List.nodup_cons.mp nd
      have := ih n2
      by_cases e : a = d
      · subst e
        simp only [n1, if_false] at this
        simp only [List.countP_cons, List.mem_cons, true_or, if_true]
        cases p a <;> cases q a <;> simp <;> omega
      · have e' : d ≠ a := fun h => e h.symm
        simp only [List.countP_cons, List.mem_cons, e', false_or, h a e]
        omega
  simpa using key _ (List.nodup_finRange n)

/-- The delivery slot contents `x` are in use for hosted slot `h`. -/
def heldFor (h : Fin 16) (x : Option Delivery) : Bool := (x.map fun y => decide (y.hosted = h)).getD false

theorem deliveryCount_update {d : Fin 8} {v : Option Delivery} (h : Fin 16)
    (ds : ∀ e, delivery e t = if e = d then v else delivery e s) :
    deliveryCount h t + (heldFor h (delivery d s)).toNat = deliveryCount h s + (heldFor h v).toNat := by
  have := countP_update (fun e => heldFor h (delivery e s)) (fun e => heldFor h (delivery e t)) d
    (fun e he => by simp [ds e, he])
  have e1 : heldFor h (delivery d t) = heldFor h v := by rw [ds d, if_pos rfl]
  simp only [e1] at this
  exact this

theorem deliveryCount_same (h : Fin 16)
    (ds : ∀ e, (delivery e t).map Delivery.hosted = (delivery e s).map Delivery.hosted) :
    deliveryCount h t = deliveryCount h s := by
  unfold deliveryCount
  congr 1
  funext e
  have := ds e
  cases a : delivery e s <;> cases b : delivery e t <;> simp_all

/-- Loads that do not rise, or rise at an OPEN slot up to its depth limit. -/
theorem LoadsKept.of (p : LoadsKept s)
    (st : ∀ k, (hostedSlot k t).state = (hostedSlot k s).state ∧ (hostedSlot k t).depth = (hostedSlot k s).depth)
    (ld : ∀ k, load k t ≤ load k s ∨ ((hostedSlot k s).state = .opened ∧ load k t ≤ (hostedSlot k s).depth))
    (wt : ∀ k, (hostedSlot k s).state ≠ .opened → (hostedSlot k s).waiters = [] → (hostedSlot k t).waiters = []) :
    LoadsKept t := by
  obtain ⟨p1, p2, p3⟩ := p
  refine ⟨fun k => ?_, fun k => ?_, fun k hk => ?_⟩
  · have a := p1 k; have b := ld k; have c := st k; rw [c.2]; omega
  · rw [(st k).1, (st k).2]; exact p2 k
  · rw [(st k).1] at hk
    obtain ⟨a, b, c⟩ := p3 k hk
    have e := ld k
    simp only [hk, false_and, or_false] at e
    have z : load k s = 0 := by simp [load, a, c]
    have y : load k t = 0 := by omega
    simp only [load] at y
    refine ⟨List.length_eq_zero_iff.mp (by omega), wt k hk b, by omega⟩

end Sys2Proof.Machine
end

