-- ==== Sys2Proof/Laws/Requests.lean ====
section
/-! SUPPORT. The request table with its lists and items: what finishing and promotion keep of it (R58, R152, R153, R156, R157,
R173). -/

namespace Sys2Proof.Machine

variable {s t : State}

/-! ### Standing items -/

theorem standing_append (l m : List QueuedItem) : standing (l ++ m) = standing l ++ standing m := by simp [standing]

theorem standing_new (l : List QueuedItem) (i : Item) (o : Originator) :
    standing (l ++ [newItem i o]) = standing l ++ [o] := by simp [standing, newItem]

theorem standing_withdrawFrom (o : Originator) (l : List QueuedItem) :
    standing (withdrawFrom o l) = (standing l).filter fun p => p ≠ o := by
  induction l with
  | nil => rfl
  | cons q l ih =>
    simp only [standing, withdrawFrom] at *
    by_cases a : q.originator = o <;> by_cases b : q.onAir = true <;> by_cases c : q.withdrawn = true <;> simp_all

theorem standing_unmark (l : List QueuedItem) : standing (unmark l) = standing l := by
  induction l with
  | nil => rfl
  | cons q l ih =>
    simp only [standing, unmark] at *
    by_cases c : q.withdrawn = true <;> simp_all

theorem standing_filter (p : QueuedItem → Bool) (l : List QueuedItem) :
    (standing (l.filter p)).Sublist (standing l) := by
  simp only [standing]
  exact ((List.filter_sublist).filter _).map _

theorem standing_chooseFrom (l : List QueuedItem) (c z : Nat) : standing (chooseFrom l c z).list = standing l := by
  induction l generalizing c z with
  | nil => rfl
  | cons q l ih =>
    unfold chooseFrom
    have h := ih
    dsimp only
    split <;> simp only [standing] at * <;> by_cases e : q.withdrawn = true <;> simp_all

theorem mem_standing {o : Originator} {l : List QueuedItem} :
    o ∈ standing l ↔ ∃ q ∈ l, q.withdrawn = false ∧ q.originator = o := by
  simp [standing, and_assoc]

/-- At most 16 items stand in a list in which each names a request entry of its own. -/
theorem standing_bound {l : List Originator} (n : l.Nodup) (e : ∀ o ∈ l, ∃ i : Fin 16, o = .entry i) :
    l.length ≤ 16 := by
  have sub : l ⊆ (List.finRange 16).map Originator.entry := by
    intro o ho
    obtain ⟨i, rfl⟩ := e o ho
    simp
  have := (n.subperm sub).length_le
  simpa using this

/-! ### Entries and tags -/

theorem exchangeOpen_iff (h : Fin 32) (s : State) :
    exchangeOpen h s = true ↔ ∃ i : Fin 16, (entry i s).home = some h ∧ isOpenState (entry i s).state = true := by
  simp [exchangeOpen]

theorem slotOfTag_tagOf (g : BitVec 4) (i : Fin 16) : slotOfTag (tagOf g i) = i := by
  revert g i; decide

theorem slotOfTag_entryTag (i : Fin 16) (s : State) : slotOfTag (entryTag i s) = i := slotOfTag_tagOf _ _

/-- The requests and their orders. -/
structure Requests (s : State) : Prop where
  whole : RequestsWhole s
  orders : OrdersOpen s

theorem RequestsWhole.same (q : RequestsWhole s) (he : t.engine = s.engine) (hc : t.control = s.control)
    (hw : ∀ w r, waiter w t = some r → waiter w s = some r) (hb : standing t.queue.classB = standing s.queue.classB)
    (ha : ∀ o ∈ standing t.queue.classA, o ∈ standing s.queue.classA ∨ ∀ i, o ≠ .entry i) : RequestsWhole t := by
  have e1 : ∀ i, entry i t = entry i s := fun i => by simp [entry, he]
  have e2 : ∀ h, waitingOrder h t = waitingOrder h s := fun i => by simp [waitingOrder, he]
  have e3 : self t = self s := by simp [self, hc]
  have e4 : ∀ i, entryTag i t = entryTag i s := fun i => by simp [entryTag, e1]
  obtain ⟨q1, q2, q3, q4, q5, q6, q7, ⟨q8, q8'⟩, q9, q10, q11, q12, q13⟩ := q
  refine ⟨by simpa [he] using q1, by simpa [he, e1] using q2, by simpa [e2] using q3, by simpa [e2, e1] using q4,
    by simpa [e1] using q5, by simpa [e1] using q6, by simpa [e1, e3] using q7, ⟨?_, ?_⟩, by simpa [hc, e1] using q9,
    by simpa [hb] using q10, by simpa [hb, e1] using q11, ?_, by simpa [hb] using q13⟩
  · intro w r h k; rw [e1, e4]; exact q8 w r (hw w r h) (by rwa [e3] at k)
  · intro w v r x h k a b c; rw [e3] at a b; exact q8' w v r x (hw w r h) (hw v x k) a b c
  · intro o ho i; rcases ha o ho with h | h
    · exact q12 o h i
    · exact h i

theorem OrdersOpen.same (q : OrdersOpen s) (he : t.engine = s.engine) : OrdersOpen t := by
  intro h k
  have e1 : ∀ i, entry i t = entry i s := fun i => by simp [entry, he]
  have e2 : ∀ h, waitingOrder h t = waitingOrder h s := fun i => by simp [waitingOrder, he]
  rw [exchangeOpen_iff]
  simp only [e1]
  exact (exchangeOpen_iff _ _).mp (q h (by rwa [e2] at k))

theorem Requests.same (q : Requests s) (he : t.engine = s.engine) (hc : t.control = s.control)
    (hw : ∀ w r, waiter w t = some r → waiter w s = some r) (hb : standing t.queue.classB = standing s.queue.classB)
    (ha : ∀ o ∈ standing t.queue.classA, o ∈ standing s.queue.classA ∨ ∀ i, o ≠ .entry i) : Requests t :=
  ⟨q.whole.same he hc hw hb ha, q.orders.same he⟩

/-! ### Finishing -/

theorem finish_engine_eq (i : Fin 16) (st : Status) (s : State) :
    (∀ j, j ≠ i → entry j (finish i st s) = entry j s) ∧
    (∀ h, waitingOrder h (finish i st s) =
      if (entry i s).home = some h then (waitingOrder h s).filter fun j => j ≠ i else waitingOrder h s) ∧
    (finish i st s).queue = { s.queue with classB := withdrawFrom (.entry i) s.queue.classB } ∧
    (finish i st s).store = s.store ∧ (finish i st s).control = s.control ∧ (finish i st s).directory = s.directory ∧
    (finish i st s).tracker = s.tracker ∧
    (((finish i st s).engine.held = s.engine.held ∧
        entry i (finish i st s) = Entry.blank ((entry i s).generation + 1)) ∨
      ((finish i st s).engine.held = s.engine.held ++ [i] ∧
        entry i (finish i st s) = { entry i s with state := .held, deadline := none, result := finishedResult (entry i s) st })) := by
  have lw : leaveWaiting i (withdrawEntry i s) = { s with
     queue := { s.queue with classB := withdrawFrom (.entry i) s.queue.classB }
     engine := { s.engine with waiting := match (entry i s).home with
        | some x => put s.engine.waiting x ((waitingOrder x s).filter fun j => j ≠ i)
        | none => s.engine.waiting } } := by
    have e1 : (entry i (withdrawEntry i s)).home = (entry i s).home := rfl
    unfold leaveWaiting
    simp only [e1]
    cases (entry i s).home <;> rfl
  have wo : ∀ h, look (match (entry i s).home with
        | some x => put s.engine.waiting x ((waitingOrder x s).filter fun j => j ≠ i)
        | none => s.engine.waiting) h = if (entry i s).home = some h then (waitingOrder h s).filter fun j => j ≠ i else waitingOrder h s := by
    intro h
    cases e : (entry i s).home with
    | none => simp [waitingOrder]
    | some x =>
      simp only [look_put_eq, Option.some.injEq]
      split
      · rename_i a; subst a; rfl
      · rfl
  unfold finish
  rw [lw]
  generalize (match (entry i s).home with
        | some x => put s.engine.waiting x ((waitingOrder x s).filter fun j => j ≠ i)
        | none => s.engine.waiting) = ww at wo ⊢
  dsimp only
  split
  · refine ⟨fun j hj => ?_, wo, rfl, rfl, rfl, rfl, rfl, .inl ⟨rfl, ?_⟩⟩
    · simp only [freeTheEntry, entry_setEntry]; rw [if_neg (fun e => hj e.symm)]; rfl
    · simp only [freeTheEntry, entry_setEntry, if_true]; rfl
  · refine ⟨fun j hj => ?_, wo, rfl, rfl, rfl, rfl, rfl, .inr ⟨rfl, ?_⟩⟩
    · show entry j (setEntry i _ _) = _
      rw [entry_setEntry, if_neg (fun e => hj e.symm)]; rfl
    · show entry i (setEntry i _ _) = _
      rw [entry_setEntry, if_pos rfl]; rfl

/-- A live entry that no local waiter names finishes. -/
theorem finish_whole {i : Fin 16} (st : Status) (q : RequestsWhole s) (live : isLive (entry i s) = true)
    (free : ∀ w r, waiter w s = some r → r.requester = self s → slotOfTag r.tag ≠ i) :
        RequestsWhole (finish i st s) := by
  obtain ⟨f1, f2, f3, f4, f5, f6, _, f7⟩ := finish_engine_eq i st s
  generalize finish i st s = t at *
  obtain ⟨q1, q2, q3, q4, q5, q6, q7, ⟨q8, q8'⟩, q9, q10, q11, q12, q13⟩ := q
  have e3 : self t = self s := by simp [self, f5]
  have e4 : ∀ j, j ≠ i → entryTag j t = entryTag j s := fun j hj => by simp [entryTag, f1 j hj]
  have e5 : ∀ w, waiter w t = waiter w s := fun w => by simp [waiter, f4]
  have e6 : t.queue.classA = s.queue.classA := by rw [f3]
  have e7 : standing t.queue.classB = (standing s.queue.classB).filter fun p => p ≠ .entry i := by
    rw [f3]; exact standing_withdrawFrom _ _
  have lv : (entry i s).state ≠ .held ∧ (entry i s).state ≠ .free := by
    simp [isLive] at live; exact ⟨live.2, live.1⟩
  have shut : (entry i t).state = .free ∨ (entry i t).state = .held := by
    rcases f7 with ⟨_, b⟩ | ⟨_, b⟩ <;> simp [b, Entry.blank]
  have hh : (entry i t).home = none ∨ (entry i t).home = (entry i s).home := by
    rcases f7 with ⟨_, b⟩ | ⟨_, b⟩ <;> simp [b, Entry.blank]
  have kk : (entry i t).kind = .put ∨ (entry i t).kind = (entry i s).kind := by
    rcases f7 with ⟨_, b⟩ | ⟨_, b⟩ <;> simp [b, Entry.blank]
  have o1 : isOpenState (entry i t).state = false := by rcases shut with h | h <;> simp [h, isOpenState]
  have o2 : isWaiting (entry i t) = false := by rcases shut with h | h <;> simp [h, isWaiting]
  have hl : (t.engine.held = s.engine.held ∧ (entry i t).state = .free) ∨ (t.engine.held = s.engine.held ++ [i] ∧
      (entry i t).state = .held) := by
    rcases f7 with ⟨a, b⟩ | ⟨a, b⟩
    · left; exact ⟨a, by simp [b, Entry.blank]⟩
    · right; exact ⟨a, by simp [b]⟩
  have ni : i ∉ s.engine.held := fun h => lv.1 ((q2 i).mp h)
  clear f7 f3
  refine ⟨?_, ?_, ?_, ?_, ?_, ?_, ?_, ⟨?_, ?_⟩, ?_, ?_, ?_, ?_, ?_⟩
  · rcases hl with ⟨a, b⟩ | ⟨a, b⟩ <;> rw [a]
    · exact q1
    · exact List.nodup_append.mpr ⟨q1, by simp, by grind⟩
  · grind
  · intro h; rw [f2]; split
    · exact (q3 h).filter _
    · exact q3 h
  · grind
  · grind
  · grind
  · grind
  · grind
  · grind
  · intro h j; rw [f5] at h; have := q9 h; grind
  · rw [e7]; exact q10.filter _
  · intro o ho; rw [e7] at ho; simp at ho; obtain ⟨j, rfl, hj⟩ := q11 o ho.1; exact ⟨j, rfl, by grind⟩
  · rw [e6]; exact q12
  · rw [e7]; exact (List.length_filter_le _ _).trans q13

/-! ### A change of one entry -/

/-- Entry `i`, in use before and after and neither HELD nor LOCAL_PARKED, changes its state, its waiting order and its item. -/
theorem RequestsWhole.change (q : RequestsWhole s) {i : Fin 16} (e1 : ∀ j, j ≠ i → entry j t = entry j s)
    (eh : (entry i t).home = (entry i s).home) (ek : (entry i t).kind = (entry i s).kind)
    (ec : t.control = s.control) (ew : t.store = s.store)
    (el : t.engine.held = s.engine.held) (ea : t.queue.classA = s.queue.classA)
    (old : isLive (entry i s) = true) (old' : (entry i s).state ≠ .localParked)
    (new : isLive (entry i t) = true) (new' : (entry i t).state ≠ .localParked)
    (w1 : ∀ h, (waitingOrder h t).Nodup)
    (w2 : ∀ h, i ∈ waitingOrder h t ↔ isWaiting (entry i t) = true ∧ (entry i s).home = some h)
    (w3 : ∀ h j, j ≠ i → (j ∈ waitingOrder h t ↔ j ∈ waitingOrder h s))
    (op : isOpenState (entry i t).state = true → ∀ h, (entry i s).home = some h → ∀ j, j ≠ i →
        (entry j s).home = some h →
      isOpenState (entry j s).state = false)
    (bn : (standing t.queue.classB).Nodup) (bi : .entry i ∈ standing t.queue.classB → hasItem (entry i t) = true)
    (bj : ∀ o ∈ standing t.queue.classB, o ≠ .entry i → o ∈ standing s.queue.classB) : RequestsWhole t := by
  obtain ⟨q1, q2, q3, q4, q5, q6, q7, ⟨q8, q8'⟩, q9, q10, q11, q12, q13⟩ := q
  have e3 : self t = self s := by simp [self, ec]
  have e4 : ∀ j, j ≠ i → entryTag j t = entryTag j s := fun j hj => by simp [entryTag, e1 j hj]
  have e5 : ∀ w, waiter w t = waiter w s := fun w => by simp [waiter, ew]
  have lv : (entry i s).state ≠ .held ∧ (entry i s).state ≠ .free := by
    simp [isLive] at old; exact ⟨old.2, old.1⟩
  have lt : (entry i t).state ≠ .held ∧ (entry i t).state ≠ .free := by
    simp [isLive] at new; exact ⟨new.2, new.1⟩
  have items : ∀ o ∈ standing t.queue.classB, ∃ i : Fin 16, o = .entry i ∧ hasItem (entry i t) = true := by
    intro o ho
    by_cases e : o = .entry i
    · exact ⟨i, e, bi (e ▸ ho)⟩
    · obtain ⟨j, rfl, k⟩ := q11 o (bj o ho e)
      have : j ≠ i := fun h => e (by rw [h])
      exact ⟨j, rfl, by rwa [e1 j this]⟩
  clear bi bj ew
  refine ⟨by rwa [el], ?_, w1, ?_, ?_, ?_, ?_, ⟨?_, ?_⟩, ?_, bn, items, by rwa [ea],
    standing_bound bn fun o ho => (items o ho).imp fun _ h => h.1⟩
  · grind
  · grind
  · grind
  · grind
  · grind
  · grind
  · grind
  · intro h; rw [ec] at h; have := q9 h i; rw [this] at old; cases old

/-- The orders but those of the home `x`. -/
def OrdersOpenBut (x : Option (Fin 32)) (s : State) : Prop :=
  ∀ h : Fin 32, x ≠ some h → waitingOrder h s ≠ [] → exchangeOpen h s = true

theorem OrdersOpen.but (o : OrdersOpen s) (x : Option (Fin 32)) : OrdersOpenBut x s := fun h _ => o h

theorem OrdersOpenBut.none (o : OrdersOpenBut none s) : OrdersOpen s := fun h => o h (by simp)

theorem finish_orders {i : Fin 16} {x : Option (Fin 32)} (st : Status) (o : OrdersOpenBut x s)
    (c : (entry i s).home = x ∨ isOpenState (entry i s).state = false) : OrdersOpenBut x (finish i st s) := by
  obtain ⟨f1, f2, -, -, -, -, -, -⟩ := finish_engine_eq i st s
  generalize finish i st s = t at *
  intro h hx hw
  have := o h hx
  rw [exchangeOpen_iff] at *
  have hs : waitingOrder h s ≠ [] := by
    rw [f2] at hw; intro e; rw [e] at hw; simp at hw
  obtain ⟨j, a, b⟩ := this hs
  have : j ≠ i := by rintro rfl; rcases c with c | c <;> grind
  exact ⟨j, by rwa [f1 j this], by rwa [f1 j this]⟩

/-! ### Promotion -/

theorem promote_cases (h : Fin 32) (s : State) :
    promote h s = s ∧ (waitingOrder h s = [] ∨ exchangeOpen h s = true) ∨
    ∃ i rest, waitingOrder h s = i :: rest ∧ exchangeOpen h s = false ∧
      (∀ j, j ≠ i → entry j (promote h s) = entry j s) ∧
      (∀ k, waitingOrder k (promote h s) = if k = h then rest else waitingOrder k s) ∧
      (entry i (promote h s)).home = (entry i s).home ∧ (entry i (promote h s)).kind = (entry i s).kind ∧
      ((entry i (promote h s)).state = .queued ∨ (entry i (promote h s)).state = .cancelQueued) ∧
      (promote h s).control = s.control ∧ (promote h s).store = s.store ∧ (promote h s).directory = s.directory ∧
      (promote h s).engine.held = s.engine.held ∧ (promote h s).queue.classA = s.queue.classA ∧
      standing (promote h s).queue.classB = standing s.queue.classB ++ [.entry i] := by
  unfold promote
  split
  · rename_i e; exact .inl ⟨rfl, .inl e⟩
  · rename_i i rest e
    split
    · rename_i o; exact .inl ⟨rfl, .inr o⟩
    · rename_i o
      refine .inr ⟨i, rest, e, by simpa using o, ?_⟩
      have eE : ∀ l j, entry j (setWaiting h l s) = entry j s := fun l j => rfl
      have wk : ∀ k, (if h = k then rest else waitingOrder k s) = if k = h then rest else waitingOrder k s := by
        intro k; by_cases a : h = k <;> simp [a, eq_comm]
      unfold promoteEntry
      split
      · unfold queueCancel enqueueB
        refine ⟨fun j hj => ?_, fun k => ?_, ?_, ?_, ?_, rfl, rfl, rfl, rfl, rfl, standing_new _ _ _⟩
        · show entry j (setEntry i _ (setEntry i _ _)) = _
          rw [entry_setEntry, if_neg (fun e => hj e.symm), entry_setEntry, if_neg (fun e => hj e.symm)]; rfl
        · show waitingOrder k (setWaiting h rest s) = _
          rw [waitingOrder_setWaiting, wk]
        · show (entry i (setEntry i _ _)).home = _
          simp [entry_setEntry]; rfl
        · show (entry i (setEntry i _ _)).kind = _
          simp [entry_setEntry]; rfl
        · show (entry i (setEntry i _ _)).state = _ ∨ _
          right
          show (entry i (setEntry i _ _)).state = _
          simp [entry_setEntry]
      · unfold queueRequest enqueueB
        refine ⟨fun j hj => ?_, fun k => ?_, ?_, ?_, ?_, rfl, rfl, rfl, rfl, rfl, standing_new _ _ _⟩
        · show entry j (setEntry i _ _) = _
          rw [entry_setEntry, if_neg (fun e => hj e.symm)]; rfl
        · show waitingOrder k (setWaiting h rest s) = _
          rw [waitingOrder_setWaiting, wk]
        · show (entry i (setEntry i _ _)).home = _
          simp [entry_setEntry]; rfl
        · show (entry i (setEntry i _ _)).kind = _
          simp [entry_setEntry]; rfl
        · left
          show (entry i (setEntry i _ _)).state = _
          simp [entry_setEntry]

theorem isWaiting_not_item {e : Entry} (h : isWaiting e = true) : hasItem e = false ∧ isLive e = true ∧
    e.state ≠ .localParked ∧ isOpenState e.state = false := by
  simp [isWaiting] at h; rcases h with h | h <;> simp [hasItem, isLive, isOpenState, h]

theorem promote_requests (h : Fin 32) (q : RequestsWhole s) (o : OrdersOpenBut (some h) s) :
    Requests (promote h s) := by
  rcases promote_cases h s with ⟨e, c⟩ | ⟨i, rest, wi, cl, p1, p2, p3, p4, p5, p6, p7, p8, p9, p10, p11⟩
  · rw [e]
    refine ⟨q, fun k hk => ?_⟩
    by_cases a : h = k
    · subst a; rcases c with c | c
      · exact absurd c hk
      · exact c
    · exact o k (by simpa using a) hk
  · generalize promote h s = t at *
    have mi := (q.waiting h i).mp (by rw [wi]; simp)
    obtain ⟨m1, m2, m3, m4⟩ := isWaiting_not_item mi.1
    have nod := q.waitingOnce h
    rw [wi, List.nodup_cons] at nod
    have ns : Originator.entry i ∉ standing s.queue.classB := by
      intro e; obtain ⟨j, e1, e2⟩ := q.items _ e; cases e1; rw [m1] at e2; cases e2
    have st : isLive (entry i t) = true ∧ (entry i t).state ≠ .localParked ∧ isWaiting (entry i t) = false ∧
        hasItem (entry i t) = true ∧ isOpenState (entry i t).state = true := by
      rcases p5 with e | e <;> simp [isLive, isWaiting, hasItem, isOpenState, e]
    obtain ⟨s1, s2, s3, s4, s5⟩ := st
    have ncl : ∀ j, (entry j s).home = some h → isOpenState (entry j s).state = false := by
      intro j hj
      by_contra e
      have : exchangeOpen h s = true := (exchangeOpen_iff _ _).mpr ⟨j, hj, by simpa using e⟩
      rw [cl] at this; cases this
    have only : ∀ k, i ∈ waitingOrder k s → k = h := by
      intro k hk; have := ((q.waiting k i).mp hk).2; rw [mi.2] at this; exact (Option.some.inj this).symm
    refine ⟨?_, ?_⟩
    · refine q.change p1 p3 p4 p6 p7 p9 p10 m2 m3 s1 s2 ?_ ?_ ?_ ?_ ?_ (fun _ => s4) ?_
      · intro k; rw [p2]; split
        · exact nod.2
        · exact q.waitingOnce k
      · intro k; rw [p2, s3]; grind
      · intro k j hj; rw [p2]; grind
      · intro _ k hk j _ hj; rw [mi.2] at hk; cases hk; exact ncl j hj
      · rw [p11]; exact List.nodup_append.mpr ⟨q.itemsOnce, by simp, by grind⟩
      · intro x hx nx; rw [p11] at hx; simp at hx; grind
    · intro k hk
      rw [exchangeOpen_iff]
      by_cases a : h = k
      · subst a; exact ⟨i, by rw [p3]; exact mi.2, s5⟩
      · rw [p2, if_neg (fun e => a e.symm)] at hk
        obtain ⟨j, x, y⟩ := (exchangeOpen_iff _ _).mp (o k (by simpa using a) hk)
        have : j ≠ i := by rintro rfl; rw [mi.2] at x; exact a (Option.some.inj x)
        exact ⟨j, by rwa [p1 j this], by rwa [p1 j this]⟩

theorem promoteFor_requests (x : Option (Fin 32)) (q : RequestsWhole s) (o : OrdersOpenBut x s) :
    Requests (promoteFor x s) := by
  cases x with
  | none => exact ⟨q, o.none⟩
  | some h => exact promote_requests h q o

/-- An entry that is not a local take finishes, and its home is looked at for promotion. -/
theorem finishAndPromote_requests {i : Fin 16} (st : Status) (q : Requests s) (live : isLive (entry i s) = true)
    (np : (entry i s).state ≠ .localParked) : Requests (finishAndPromote i st s) := by
  have free : ∀ w r, waiter w s = some r → r.requester = self s → slotOfTag r.tag ≠ i := by
    intro w r a b c; have := (q.whole.takers.1 w r a b).1; rw [c] at this; exact np this
  exact promoteFor_requests _ (finish_whole st q.whole live free) (finish_orders st (q.orders.but _) (.inl rfl))

end Sys2Proof.Machine
end

