-- ==== Sys2Proof/Laws/Waiters.lean ====
section
/-! SUPPORT. Work on messages, waiters and delivery slots, said once: what it leaves alone and what it keeps of the cells, the
loads and the waiter lists (R111 to R113, R130, R131, R138 to R143). -/

namespace Sys2Proof.Machine

variable {s t u : State}

/-! ### The store as a whole -/

/-- The cells, the loads and the waiter lists together. -/
structure StoreSound (s : State) : Prop where
  cells : CellsPlaced s
  loads : LoadsKept s
  listed : WaitersListed s
  ordered : WaitersOrdered s

/-- What work on messages, waiters and requests keeps. -/
structure TableWork (s t : State) : Prop where
  control : t.control = s.control
  directory : t.directory = s.directory
  slots : ∀ k, (hostedSlot k t).state = (hostedSlot k s).state ∧ (hostedSlot k t).mailbox = (hostedSlot k s).mailbox
  sound : StoreSound s → StoreSound t
  requests : Requests s → Requests t

namespace TableWork

theorem refl (s : State) : TableWork s s := ⟨rfl, rfl, fun _ => ⟨rfl, rfl⟩, id, id⟩

theorem trans (h : TableWork s t) (k : TableWork t u) : TableWork s u where
  control := k.control.trans h.control
  directory := k.directory.trans h.directory
  slots := fun i => ⟨(k.slots i).1.trans (h.slots i).1, (k.slots i).2.trans (h.slots i).2⟩
  sound := fun a => k.sound (h.sound a)
  requests := fun a => k.requests (h.requests a)

theorem foldl {α : Type} {f : State → α → State} (hf : ∀ s a, TableWork s (f s a)) (l : List α) (s : State) :
    TableWork s (l.foldl f s) :=
  foldl_keeps (TableWork s) f (fun t a k => k.trans (hf t a)) l s (refl s)

theorem forEach {n : Nat} {f : Fin n → State → State} (hf : ∀ i s, TableWork s (f i s)) (s : State) :
    TableWork s (Machine.forEach f s) := foldl (fun s i => hf i s) _ s

end TableWork

theorem self_of (h : t.control = s.control) : self t = self s := by simp [self, h]

theorem StoreSound.same (p : StoreSound s) (hs : ∀ k, hostedSlot k t = hostedSlot k s) (ws : ∀ w,
    waiter w t = waiter w s)
    (cs : ∀ c, cell c t = cell c s)
    (ds : ∀ d, (delivery d t).map (fun x => (x.hosted, x.cell)) = (delivery d s).map fun x => (x.hosted, x.cell)) :
    StoreSound t := by
  have d1 : ∀ d, (delivery d t).map Delivery.cell = (delivery d s).map Delivery.cell := by
    intro d; have := ds d; cases a : delivery d t <;> cases b : delivery d s <;> simp_all
  have d2 : ∀ d, (delivery d t).map Delivery.hosted = (delivery d s).map Delivery.hosted := by
    intro d; have := ds d; cases a : delivery d t <;> cases b : delivery d s <;> simp_all
  have ld : ∀ k, load k t = load k s := fun k => by simp [load, hs, deliveryCount_same k d2]
  refine ⟨p.cells.same (fun k => by rw [hs]) d1 cs,
      p.loads.of (fun k => by simp [hs]) (fun k => .inl (ld k).le) (fun k => by rw [hs]; exact fun _ => id), ?_, ?_⟩
  · obtain ⟨a, b, c⟩ := p.listed
    exact ⟨by simpa [hs] using a, by simpa [hs, ws] using b, by simpa [hs, ws] using c⟩
  · intro h; have := p.ordered h; simpa [hs, priorityOf, ws] using this

/-- An update that leaves the store, the directory and the requests alone. -/
theorem TableWork.of_same (hc : t.control = s.control) (hd : t.directory = s.directory) (hs : t.store = s.store)
    (he : t.engine = s.engine) (hb : standing t.queue.classB = standing s.queue.classB)
    (ha : ∀ o ∈ standing t.queue.classA, o ∈ standing s.queue.classA ∨ ∀ i, o ≠ .entry i) : TableWork s t where
  control := hc
  directory := hd
  slots := fun k => by simp [hostedSlot, hs]
  sound := fun p => p.same (fun k => by simp [hostedSlot, hs]) (fun w => by simp [waiter, hs]) (fun w => by simp [cell, hs])
    (fun w => by simp [delivery, hs])
  requests := fun q => q.same he hc (fun w r => by simp [waiter, hs]) hb ha

theorem withCounters_tables (c : Counters) (s : State) : TableWork s (s.withCounters c) :=
  .of_same rfl rfl rfl rfl rfl fun _ h => .inl h

theorem raiseNotice_tables (r : Record) (s : State) : TableWork s (raiseNotice r s) := by
  unfold raiseNotice; split <;> exact .of_same rfl rfl rfl rfl rfl fun _ h => .inl h

/-! ### Waiters -/

theorem removeWaiter_views {w : Fin 32} {r : Waiter} (h : waiter w s = some r) :
    (∀ k, hostedSlot k (removeWaiter w s) =
      if k = r.hosted then { hostedSlot k s with waiters := (hostedSlot k s).waiters.filter fun v => v ≠ w } else hostedSlot k s) ∧
    (∀ v, waiter v (removeWaiter w s) = if v = w then none else waiter v s) ∧
    (removeWaiter w s).store.pool = s.store.pool ∧ (removeWaiter w s).store.deliveries = s.store.deliveries ∧
    (removeWaiter w s).engine = s.engine ∧ (removeWaiter w s).queue = s.queue ∧ (removeWaiter w s).control = s.control ∧
    (removeWaiter w s).directory = s.directory := by
  unfold removeWaiter
  simp only [h]
  refine ⟨fun k => ?_, fun v => ?_, rfl, rfl, rfl, rfl, rfl, rfl⟩
  · show hostedSlot k (setHosted _ _ _) = _
    rw [hostedSlot_setHosted]
    by_cases e : k = r.hosted
    · subst e; simp
    · simp [e, eq_comm]
  · rw [waiter_setWaiter]
    by_cases e : v = w
    · subst e; simp
    · rw [if_neg (fun h => e h.symm), if_neg e]; rfl

theorem priorityOf_same {w : Fin 32} (h : waiter w t = waiter w s) : priorityOf w t = priorityOf w s := by
  simp [priorityOf, h]

theorem removeWaiter_sound (w : Fin 32) (p : StoreSound s) : StoreSound (removeWaiter w s) := by
  cases h : waiter w s with
  | none => simpa [removeWaiter, h] using p
  | some r =>
    obtain ⟨v1, v2, v3, v4, -, -, -, -⟩ := removeWaiter_views h
    generalize removeWaiter w s = t at *
    have cs : ∀ c, cell c t = cell c s := fun c => by simp [cell, v3]
    have ds : ∀ d, delivery d t = delivery d s := fun c => by simp [delivery, v4]
    obtain ⟨p1, p2, ⟨p3, p4, p5⟩, p6⟩ := p
    refine ⟨p1.same (fun k => by rw [v1]; split <;> rfl) (fun d => by rw [ds]) cs,
        p2.of (fun k => by rw [v1]; split <;> simp)
      (fun k => .inl ?_) (fun k _ e => by rw [v1]; split <;> simp [e]), ⟨?_, ?_, ?_⟩, ?_⟩
    · have : deliveryCount k t = deliveryCount k s := deliveryCount_same k (fun e => by rw [ds])
      rw [load, load, this, v1]; split <;> simp
    · intro k; rw [v1]; split
      · exact (p3 k).filter _
      · exact p3 k
    · intro k v hv; rw [v1] at hv; rw [v2]; grind
    · intro v x hv; rw [v2] at hv; rw [v1]; grind
    · intro k
      have keep : ∀ v, v ≠ w → priorityOf v t = priorityOf v s := fun v hv => priorityOf_same (by rw [v2, if_neg hv])
      have nw : ∀ v ∈ (hostedSlot k t).waiters, v ≠ w := by
        intro v hv e; subst e
        rw [v1] at hv
        split at hv
        · simp at hv
        · rename_i ne; obtain ⟨x, a, b⟩ := p4 k v hv; rw [h] at a; cases a; exact ne b.symm
      have sub : (hostedSlot k t).waiters.Sublist (hostedSlot k s).waiters := by
        rw [v1]; split
        · exact List.filter_sublist
        · exact List.Sublist.refl _
      refine ((p6 k).sublist sub).imp_of_mem fun {a b} ha hb hab => ?_
      rwa [keep a (nw a ha), keep b (nw b hb)]

theorem removeWaiter_tables (w : Fin 32) (s : State) : TableWork s (removeWaiter w s) := by
  cases h : waiter w s with
  | none => have : removeWaiter w s = s := by simp [removeWaiter, h]
            rw [this]; exact .refl s
  | some r =>
    obtain ⟨v1, v2, v3, v4, v5, v6, v7, v8⟩ := removeWaiter_views h
    refine ⟨v7, v8, fun k => by rw [v1]; split <;> simp, removeWaiter_sound w,
        fun q => q.same v5 v7 ?_ (by rw [v6]) (by rw [v6]; exact fun _ h => .inl h)⟩
    intro v x hv; rw [v2] at hv; split at hv
    · cases hv
    · exact hv

/-- After the waiter of a local taker is removed, no local waiter bears its tag. -/
theorem removeWaiter_unnamed {w : Fin 32} {r : Waiter} (q : RequestsWhole s) (h : waiter w s = some r) (l : r.requester = self s) :
    ∀ v x, waiter v (removeWaiter w s) = some x → x.requester = self (removeWaiter w s) →
        slotOfTag x.tag ≠ slotOfTag r.tag := by
  obtain ⟨v1, v2, v3, v4, v5, v6, v7, v8⟩ := removeWaiter_views h
  intro v x hv lx e
  rw [self_of v7] at lx
  rw [v2] at hv
  split at hv
  · cases hv
  · rename_i ne
    have a := (q.takers.1 w r h l).2
    have b := (q.takers.1 v x hv lx).2
    rw [e] at b
    exact ne (q.takers.2 v w x r hv h lx l (by rw [← a, ← b]))

/-- The taker of a local waiter finishes. -/
theorem finishTaker_requests {w : Fin 32} {r : Waiter} (st : Status) (q : Requests s) (h : waiter w s = some r)
    (l : r.requester = self s) : Requests (finish (slotOfTag r.tag) st (removeWaiter w s)) := by
  have un := removeWaiter_unnamed q.whole h l
  have q' := (removeWaiter_tables w s).requests q
  obtain ⟨v1, v2, v3, v4, v5, v6, v7, v8⟩ := removeWaiter_views h
  have lp : (entry (slotOfTag r.tag) (removeWaiter w s)).state = .localParked := by
    have := (q.whole.takers.1 w r h l).1
    simpa [entry, v5] using this
  have lv : isLive (entry (slotOfTag r.tag) (removeWaiter w s)) = true := by simp [isLive, lp]
  exact ⟨finish_whole st q'.whole lv un, (finish_orders st (q'.orders.but none) (.inr (by simp [lp, isOpenState]))).none⟩

theorem finish_sound {i : Fin 16} {st : Status} (p : StoreSound s) : StoreSound (finish i st s) := by
  obtain ⟨-, -, -, f4, -, -, -, -⟩ := finish_engine_eq i st s
  exact p.same (fun k => by simp [hostedSlot, f4]) (fun k => by simp [waiter, f4]) (fun k => by simp [cell, f4]) (fun k => by simp [delivery, f4])

theorem finishTaker_tables {w : Fin 32} {r : Waiter} (st : Status) (h : waiter w s = some r) (l : r.requester = self s) :
    TableWork s (finish (slotOfTag r.tag) st (removeWaiter w s)) := by
  obtain ⟨-, -, f3, f4, f5, f6, -, -⟩ := finish_engine_eq (slotOfTag r.tag) st (removeWaiter w s)
  have k := removeWaiter_tables w s
  exact ⟨f5.trans k.control, f6.trans k.directory, fun i => by simpa [hostedSlot, f4] using k.slots i,
    fun p => finish_sound (k.sound p), fun q => finishTaker_requests st q h l⟩

/-! ### A new waiter -/

theorem makeWaiter_views (w : Fin 32) (h : Fin 16) (x : Fin 32) (g : Byte) (p : Fin 4) (wait : Byte) (s : State) :
    (∀ k, hostedSlot k (makeWaiter w h x g p wait s) =
      if k = h then { hostedSlot h s with waiters := insertWaiter w p s (hostedSlot h s).waiters } else hostedSlot k s) ∧
    (∀ v, waiter v (makeWaiter w h x g p wait s) =
      if v = w then
        some { hosted := h, requester := x, tag := g, priority := p, deadline := waiterDeadline wait s,
               stamp := s.store.arrivalStamp }
      else waiter v s) ∧
    (makeWaiter w h x g p wait s).store.pool = s.store.pool ∧
    (makeWaiter w h x g p wait s).store.deliveries = s.store.deliveries ∧
    (makeWaiter w h x g p wait s).engine = s.engine ∧ (makeWaiter w h x g p wait s).queue = s.queue ∧
    (makeWaiter w h x g p wait s).control = s.control ∧ (makeWaiter w h x g p wait s).directory = s.directory := by
  refine ⟨fun k => ?_, fun v => ?_, rfl, rfl, rfl, rfl, rfl, rfl⟩
  · show hostedSlot k (setHosted h _ _) = _
    rw [hostedSlot_setHosted]
    by_cases e : k = h
    · subst e; simp
    · rw [if_neg (fun h => e h.symm), if_neg e]; rfl
  · show waiter v (setWaiter w _ s) = _
    rw [waiter_setWaiter]
    by_cases e : v = w
    · subst e; simp
    · rw [if_neg (fun h => e h.symm), if_neg e]

theorem mem_insertWaiter (w : Fin 32) (p : Fin 4) (s : State) (l : List (Fin 32)) (v : Fin 32) :
    v ∈ insertWaiter w p s l ↔ v = w ∨ v ∈ l := by
  have := List.takeWhile_append_dropWhile (p := fun v => decide (priorityOf v s ≤ p)) (l := l)
  unfold insertWaiter
  conv_rhs => rw [← this]
  simp only [List.mem_append, List.mem_cons]
  grind

theorem insertWaiter_nodup {w : Fin 32} (p : Fin 4) (s : State) {l : List (Fin 32)} (n : l.Nodup) (h : w ∉ l) :
    (insertWaiter w p s l).Nodup := by
  have := List.takeWhile_append_dropWhile (p := fun v => decide (priorityOf v s ≤ p)) (l := l)
  rw [← this] at n h
  unfold insertWaiter
  rw [List.nodup_append] at n ⊢
  simp only [List.mem_append, not_or] at h
  refine ⟨n.1, List.nodup_cons.mpr ⟨h.2, n.2.1⟩, ?_⟩
  intro a ha b hb
  rcases List.mem_cons.mp hb with rfl | hb
  · intro e; subst e; exact h.1 ha
  · exact n.2.2 a ha b hb

theorem insertWaiter_ordered {w : Fin 32} (p : Fin 4) {l : List (Fin 32)}
    (n : l.Pairwise fun a b => priorityOf a s ≤ priorityOf b s) (hw : priorityOf w t = p)
    (same : ∀ v ∈ l, priorityOf v t = priorityOf v s) :
    (insertWaiter w p s l).Pairwise fun a b => priorityOf a t ≤ priorityOf b t := by
  unfold insertWaiter
  induction l with
  | nil => simp
  | cons a l ih =>
    rw [List.pairwise_cons] at n
    have ih := ih n.2 fun v hv => same v (List.mem_cons_of_mem _ hv)
    have sl : ∀ v ∈ l, priorityOf v t = priorityOf v s := fun v hv => same v (List.mem_cons_of_mem _ hv)
    have sa : priorityOf a t = priorityOf a s := same a (by simp)
    by_cases c : priorityOf a s ≤ p
    · simp only [List.takeWhile_cons, List.dropWhile_cons, c, decide_true, if_true, List.cons_append]
      rw [List.pairwise_cons]
      refine ⟨fun b hb => ?_, ih⟩
      have hb' : b = w ∨ b ∈ l := (mem_insertWaiter w p s l b).mp hb
      rcases hb' with rfl | hb'
      · rw [hw, sa]; exact c
      · rw [sa, sl b hb']; exact n.1 b hb'
    · simp only [List.takeWhile_cons, List.dropWhile_cons, c, decide_false]
      simp only [Bool.false_eq_true, if_false, List.nil_append]
      rw [List.pairwise_cons, List.pairwise_cons]
      have cp : p ≤ priorityOf a s := le_of_lt (not_le.mp c)
      refine ⟨fun b hb => ?_, fun b hb => ?_, n.2.imp_of_mem fun {x y} hx hy hxy => by rw [sl x hx, sl y hy]; exact hxy⟩
      · rcases List.mem_cons.mp hb with rfl | hb
        · rw [hw, sa]; exact cp
        · rw [hw, sl b hb]; exact le_trans cp (n.1 b hb)
      · rw [sa, sl b hb]; exact n.1 b hb

theorem makeWaiter_sound {w : Fin 32} {h : Fin 16} (x : Fin 32) (g : Byte) (p : Fin 4) (wait : Byte) (fw : waiter w s = none)
    (op : (hostedSlot h s).state = .opened) (q : StoreSound s) : StoreSound (makeWaiter w h x g p wait s) := by
  obtain ⟨v1, v2, v3, v4, -, -, -, -⟩ := makeWaiter_views w h x g p wait s
  generalize makeWaiter w h x g p wait s = t at *
  have cs : ∀ c, cell c t = cell c s := fun c => by simp [cell, v3]
  have ds : ∀ d, delivery d t = delivery d s := fun c => by simp [delivery, v4]
  obtain ⟨p1, p2, ⟨p3, p4, p5⟩, p6⟩ := q
  have nm : ∀ k, w ∉ (hostedSlot k s).waiters := by
    intro k hk; obtain ⟨r, a, _⟩ := p4 k w hk; rw [fw] at a; cases a
  refine ⟨p1.same (fun k => by rw [v1]; split <;> simp_all) (fun d => by rw [ds]) cs,
    p2.of (fun k => by rw [v1]; split <;> simp_all) (fun k => .inl ?_) (fun k ho e => ?_), ⟨fun k => ?_, ?_, ?_⟩,
        fun k => ?_⟩
  · have : deliveryCount k t = deliveryCount k s := deliveryCount_same k (fun e => by rw [ds])
    rw [load, load, this, v1]; split <;> simp_all
  · rw [v1]; split
    · rename_i e'; subst e'; exact absurd op ho
    · exact e
  · rw [v1]; split
    · exact insertWaiter_nodup p s (p3 h) (nm h)
    · exact p3 k
  · intro k v hv
    rw [v1] at hv
    by_cases e : k = h
    · rw [if_pos e] at hv
      subst e
      have hv' := (mem_insertWaiter _ _ _ _ _).mp hv
      by_cases e : v = w
      · exact ⟨_, by rw [v2, if_pos e], rfl⟩
      · rw [v2, if_neg e]; exact p4 k v (hv'.resolve_left e)
    · rw [if_neg e] at hv
      have : v ≠ w := by rintro rfl; exact nm k hv
      rw [v2, if_neg this]; exact p4 k v hv
  · intro v r hv
    rw [v2] at hv
    by_cases e : v = w
    · rw [if_pos e] at hv; cases hv
      rw [v1, if_pos rfl]; exact (mem_insertWaiter _ _ _ _ _).mpr (.inl e)
    · rw [if_neg e] at hv
      have := p5 v r hv
      rw [v1]; split
      · rename_i a; rw [a] at this; exact (mem_insertWaiter _ _ _ _ _).mpr (.inr this)
      · exact this
  · have keep : ∀ v, v ≠ w → priorityOf v t = priorityOf v s := fun v hv => priorityOf_same (by rw [v2, if_neg hv])
    rw [v1]; split
    · exact insertWaiter_ordered p (p6 h) (by simp [priorityOf, v2]) fun v hv => keep v (by rintro rfl; exact nm h hv)
    · exact (p6 k).imp_of_mem fun {a b} ha hb hab => by
        rwa [keep a (by rintro rfl; exact nm k ha), keep b (by rintro rfl; exact nm k hb)]

/-- The waiter may be made for its requester: a local taker has a LOCAL_PARKED entry with the tag, which no other waiter
bears. -/
def TakerFits (x : Fin 32) (g : Byte) (s : State) : Prop :=
  x = self s → (entry (slotOfTag g) s).state = .localParked ∧ entryTag (slotOfTag g) s = g ∧
    ∀ v r, waiter v s = some r → r.requester = self s → r.tag ≠ g

theorem makeWaiter_requests {w : Fin 32} {h : Fin 16} {x : Fin 32} {g : Byte} (p : Fin 4) (wait : Byte)
    (fits : TakerFits x g s) (q : Requests s) : Requests (makeWaiter w h x g p wait s) := by
  obtain ⟨v1, v2, v3, v4, v5, v6, v7, v8⟩ := makeWaiter_views w h x g p wait s
  generalize makeWaiter w h x g p wait s = t at *
  have e1 : ∀ i, entry i t = entry i s := fun i => by simp [entry, v5]
  have e2 : ∀ h, waitingOrder h t = waitingOrder h s := fun i => by simp [waitingOrder, v5]
  have e3 : self t = self s := by simp [self, v7]
  have e4 : ∀ i, entryTag i t = entryTag i s := fun i => by simp [entryTag, e1]
  refine ⟨?_, q.orders.same v5⟩
  obtain ⟨q1, q2, q3, q4, q5, q6, q7, ⟨q8, q8'⟩, q9, q10, q11, q12, q13⟩ := q.whole
  refine ⟨by simpa [v5] using q1, by simpa [v5, e1] using q2, by simpa [e2] using q3, by simpa [e2, e1] using q4,
    by simpa [e1] using q5, by simpa [e1] using q6, by simpa [e1, e3] using q7, ⟨?_, ?_⟩, by simpa [v7, e1] using q9,
    by simpa [v6] using q10, by simpa [v6, e1] using q11, by simpa [v6] using q12, by simpa [v6] using q13⟩
  · intro v r hv lr
    rw [e3] at lr
    rw [v2] at hv
    split at hv
    · cases hv
      have := fits lr
      simp only [e1, e4]
      exact ⟨this.1, this.2.1⟩
    · rw [e1, e4]; exact q8 v r hv lr
  · intro v z r y hv hz lr ly
    rw [e3] at lr ly
    rw [v2] at hv hz
    split at hv <;> split at hz
    · simp_all
    · cases hv; intro e; exact absurd e.symm ((fits lr).2.2 z y hz ly)
    · cases hz; intro e; exact absurd e ((fits ly).2.2 v r hv lr)
    · exact q8' v z r y hv hz lr ly

/-! ### Delivery slots -/

theorem queueDeliver_views (d : Fin 8) (x : Delivery) (s : State) :
    (∀ k, hostedSlot k (queueDeliver d x s) = hostedSlot k s) ∧ (∀ w, waiter w (queueDeliver d x s) = waiter w s) ∧
    (∀ c, cell c (queueDeliver d x s) = cell c s) ∧
    (∃ y : Delivery, y.hosted = x.hosted ∧ y.cell = x.cell ∧
      ∀ e, delivery e (queueDeliver d x s) = if e = d then some y else delivery e s) ∧
    (queueDeliver d x s).engine = s.engine ∧ (queueDeliver d x s).control = s.control ∧
    (queueDeliver d x s).directory = s.directory ∧ (queueDeliver d x s).queue.classB = s.queue.classB ∧
    ∀ o ∈ standing (queueDeliver d x s).queue.classA, o ∈ standing s.queue.classA ∨ ∀ i, o ≠ .entry i := by
  unfold queueDeliver
  split
  · rename_i r
    unfold enqueueA
    rw [if_pos r]
    refine ⟨fun _ => rfl, fun _ => rfl, fun _ => rfl, ⟨{ x with state := .queued }, rfl, rfl, fun e => ?_⟩, rfl, rfl,
        rfl, rfl, ?_⟩
    · rw [delivery_setDelivery]
      by_cases a : e = d
      · subst a; simp
      · rw [if_neg (fun h => a h.symm), if_neg a]; rfl
    · intro o ho
      simp only [setDelivery_queue, withQueue_queue, standing_new, List.mem_append, List.mem_singleton] at ho
      rcases ho with ho | rfl
      · exact .inl ho
      · exact .inr (by simp)
  · refine ⟨fun _ => rfl, fun _ => rfl, fun _ => rfl, ⟨{ x with state := .unqueued }, rfl, rfl, fun e => ?_⟩, rfl,
        rfl, rfl, rfl, fun o ho => .inl ho⟩
    show delivery e (setDelivery d _ s) = _
    rw [delivery_setDelivery]
    by_cases a : e = d
    · subst a; simp
    · rw [if_neg (fun h => a h.symm), if_neg a]

/-- What leaves the lists, the cells and the places of the delivery slots alone. -/
structure SlotWork (s t : State) : Prop where
  hosted : ∀ k, hostedSlot k t = hostedSlot k s
  waiters : ∀ w, waiter w t = waiter w s
  cells : ∀ c, cell c t = cell c s
  deliveries : ∀ d, (delivery d t).map (fun x => (x.hosted, x.cell)) = (delivery d s).map fun x => (x.hosted, x.cell)
  engine : t.engine = s.engine
  control : t.control = s.control
  directory : t.directory = s.directory
  classB : standing t.queue.classB = standing s.queue.classB
  classA : ∀ o ∈ standing t.queue.classA, o ∈ standing s.queue.classA ∨ ∀ i, o ≠ .entry i

namespace SlotWork

theorem refl (s : State) : SlotWork s s := ⟨fun _ => rfl, fun _ => rfl, fun _ => rfl, fun _ => rfl, rfl, rfl, rfl,
    rfl, fun _ h => .inl h⟩

theorem trans (h : SlotWork s t) (k : SlotWork t u) : SlotWork s u where
  hosted := fun i => (k.hosted i).trans (h.hosted i)
  waiters := fun i => (k.waiters i).trans (h.waiters i)
  cells := fun i => (k.cells i).trans (h.cells i)
  deliveries := fun i => (k.deliveries i).trans (h.deliveries i)
  engine := k.engine.trans h.engine
  control := k.control.trans h.control
  directory := k.directory.trans h.directory
  classB := k.classB.trans h.classB
  classA := fun o ho => (k.classA o ho).elim (h.classA o) .inr

theorem tables (h : SlotWork s t) : TableWork s t where
  control := h.control
  directory := h.directory
  slots := fun k => by simp [h.hosted]
  sound := fun p => p.same h.hosted h.waiters h.cells h.deliveries
  requests := fun q => q.same h.engine h.control (fun w r => by simp [h.waiters]) h.classB h.classA

/-- The slots that are FREE stay so. -/
theorem free (h : SlotWork s t) (d : Fin 8) : delivery d t = none ↔ delivery d s = none := by
  have := h.deliveries d
  cases a : delivery d t <;> cases b : delivery d s <;> simp_all

theorem pairs (h : SlotWork s t) (p : PairsServed s) : PairsServed t := by
  intro k w rest hm hw
  rw [h.hosted] at hm hw
  obtain ⟨⟨r, a, b⟩, c⟩ := p k w rest hm hw
  exact ⟨⟨r, by rw [h.waiters]; exact a, by rwa [self_of h.control]⟩, fun d e => c d ((h.free d).mp e)⟩

end SlotWork

theorem queueDeliver_slots {d : Fin 8} {x y : Delivery} (hd : delivery d s = some y) (hh : x.hosted = y.hosted)
    (hc : x.cell = y.cell) : SlotWork s (queueDeliver d x s) := by
  obtain ⟨v1, v2, v3, ⟨z, z1, z2, v4⟩, v5, v6, v7, v8, v9⟩ := queueDeliver_views d x s
  refine ⟨v1, v2, v3, fun e => ?_, v5, v6, v7, by rw [v8], v9⟩
  rw [v4]; split
  · rename_i a; subst a; rw [hd]; simp [z1, z2, hh, hc]
  · rfl

theorem withCounters_slots (c : Counters) (s : State) : SlotWork s (s.withCounters c) :=
  ⟨fun _ => rfl, fun _ => rfl, fun _ => rfl, fun _ => rfl, rfl, rfl, rfl, rfl, fun _ h => .inl h⟩

theorem setUnqueued_slots (l : List (Fin 8)) (s : State) : SlotWork s (setUnqueued l s) :=
  ⟨fun _ => rfl, fun _ => rfl, fun _ => rfl, fun _ => rfl, rfl, rfl, rfl, rfl, fun _ h => .inl h⟩

theorem requeueDelivery_slots {d : Fin 8} {x y : Delivery} (hd : delivery d s = some y) (hh : x.hosted = y.hosted)
    (hc : x.cell = y.cell) : SlotWork s (requeueDelivery d x s) :=
  (queueDeliver_slots hd hh hc).trans (withCounters_slots _ _)

theorem offerPlaceTo_slots (d : Fin 8) (s : State) : SlotWork s (offerPlaceTo d s) := by
  unfold offerPlaceTo
  split
  · dsimp only
    split
    · rename_i x hx; exact (setUnqueued_slots _ s).trans (queueDeliver_slots hx rfl rfl)
    · exact setUnqueued_slots _ s
  · exact .refl s

theorem offerPlaces_slots (s : State) : SlotWork s (offerPlaces s) :=
  foldl_keeps (SlotWork s) _ (fun t d k => k.trans (offerPlaceTo_slots d t)) _ s (.refl s)

theorem deliverySent_slots (d : Fin 8) (s : State) : SlotWork s (deliverySent d s) := by
  unfold deliverySent
  split
  · rename_i x hx
    refine ⟨fun _ => rfl, fun _ => rfl, fun _ => rfl, fun e => ?_, rfl, rfl, rfl, rfl, fun _ h => .inl h⟩
    rw [delivery_setDelivery]
    split
    · rename_i a; subst a; rw [hx]; rfl
    · rfl
  · exact .refl s

theorem withdrawDelivery_classA (d : Fin 8) (s : State) :
    ∀ o ∈ standing (withdrawDelivery d s).queue.classA, o ∈ standing s.queue.classA := by
  intro o ho
  have : standing (withdrawDelivery d s).queue.classA = (standing s.queue.classA).filter fun p => p ≠ .delivery d :=
    standing_withdrawFrom _ _
  rw [this] at ho
  exact (List.mem_filter.mp ho).1

theorem ite_symm_eq {α β : Type} [DecidableEq α] (a b : α) (x y : β) :
    (if a = b then x else y) = if b = a then x else y := by
  simp only [eq_comm]

theorem freeDelivery_tables (d : Fin 8) (s : State) : TableWork s (freeDelivery d s) := by
  unfold freeDelivery
  split
  · rename_i x hx
    have ds : ∀ e, delivery e (vacate d (setCell x.cell none s)) = if e = d then none else delivery e s := fun e => by
      show delivery e (setDelivery d _ _) = _
      rw [delivery_setDelivery, ite_symm_eq]; rfl
    have cs : ∀ c, cell c (vacate d (setCell x.cell none s)) = if c = x.cell then none else cell c s := fun c => by
      show cell c (setCell x.cell none s) = _
      rw [cell_setCell, ite_symm_eq]
    refine ⟨rfl, rfl, fun k => ⟨rfl, rfl⟩, fun p => ?_,
        fun q => q.same rfl rfl (fun w r => id) rfl fun o ho => .inl (withdrawDelivery_classA d s o ho)⟩
    obtain ⟨p1, p2, p3, p4⟩ := p
    refine ⟨p1.drop hx (fun k => rfl) ds cs, p2.of (fun k => ⟨rfl, rfl⟩) (fun k => .inl ?_) (fun k _ => id), p3, p4⟩
    have := deliveryCount_update k ds
    rw [hx] at this
    have e : heldFor k none = false := rfl
    rw [e] at this
    simp only [Bool.toNat_false, Nat.add_zero] at this
    show (hostedSlot k s).messages.length + deliveryCount k _ ≤ (hostedSlot k s).messages.length + deliveryCount k s
    omega
  · exact .refl s

theorem returnMessage_tables (d : Fin 8) (s : State) : TableWork s (returnMessage d s) := by
  unfold returnMessage
  split
  · rename_i x hx
    dsimp only
    refine .trans ?_ (withCounters_tables _ _)
    generalize ht : vacate d (setHosted x.hosted { hostedSlot x.hosted s with messages := x.cell :: (hostedSlot x.hosted s).messages } s) = t
    have ds : ∀ e, delivery e t = if e = d then none else delivery e s := fun e => by
      rw [← ht]
      show delivery e (setDelivery d _ _) = _
      rw [delivery_setDelivery, ite_symm_eq]; rfl
    have hs : ∀ k, hostedSlot k t = if k = x.hosted then { hostedSlot k s with messages := x.cell :: (hostedSlot k s).messages } else hostedSlot k s := fun k => by
      rw [← ht]
      show hostedSlot k (setHosted _ _ s) = _
      rw [hostedSlot_setHosted, ite_symm_eq]
      split
      · rename_i a; subst a; rfl
      · rfl
    have cs : ∀ c, cell c t = cell c s := fun c => by rw [← ht]; rfl
    have ws : ∀ w, waiter w t = waiter w s := fun c => by rw [← ht]; rfl
    have r1 : t.engine = s.engine ∧ t.control = s.control ∧ t.directory = s.directory ∧
        t.queue.classB = s.queue.classB ∧
        t.queue.classA = (withdrawDelivery d s).queue.classA := by rw [← ht]; exact ⟨rfl, rfl, rfl, rfl, rfl⟩
    obtain ⟨r1, r2, r3, r4, r5⟩ := r1
    refine ⟨r2, r3, fun k => by rw [hs]; split <;> simp, fun p => ?_,
        fun q => q.same r1 r2 (fun w r => by simp [ws]) (by rw [r4]) ?_⟩
    · obtain ⟨p1, p2, ⟨p3, p4, p5⟩, p6⟩ := p
      refine ⟨p1.goBack (h := x.hosted) hx (fun k => by rw [hs]; split <;> simp_all) ds cs,
        p2.of (fun k => by rw [hs]; split <;> simp) (fun k => .inl ?_) (fun k _ e => by rw [hs]; split <;> simp [e]),
            ⟨?_, ?_, ?_⟩, ?_⟩
      · have := deliveryCount_update k ds
        rw [hx] at this
        have e : heldFor k none = false := rfl
        have e' : heldFor k (some x) = decide (x.hosted = k) := rfl
        rw [e, e'] at this
        rw [load, load, hs]
        split
        · rename_i a; subst a; simp at this; simp; omega
        · simp at this; omega
      · intro k; rw [hs]; split <;> exact p3 k
      · intro k w hw; rw [ws]; exact p4 k w (by rw [hs] at hw; split at hw <;> exact hw)
      · intro w r hw; rw [ws] at hw; have := p5 w r hw; rw [hs]; split <;> exact this
      · intro k
        have : ∀ w, priorityOf w t = priorityOf w s := fun w => priorityOf_same (ws w)
        simp only [this]
        rw [hs]; split <;> exact p6 k
    · intro o ho; rw [r5] at ho; exact .inl (withdrawDelivery_classA d s o ho)
  · exact .refl s

end Sys2Proof.Machine
end

