-- ==== Sys2Proof/Laws/Pairing.lean ====
section
/-! SUPPORT. Handing a message to a waiter, pairing and the placing of a message: what they keep, and that pairing leaves no
message beside a waiter that could be served (R117, R131, R136, R137). -/

namespace Sys2Proof.Machine

variable {s t u : State}

/-! ### Fields of an entry that the table does not rest on -/

/-- The entries differ only in fields that the table's order does not read. -/
def SameShape (e f : Entry) : Prop := f.state = e.state ∧ f.home = e.home ∧ f.kind = e.kind ∧
    f.generation = e.generation

theorem Requests.sameShape (q : Requests s) (he : ∀ i, SameShape (entry i s) (entry i t))
    (hw : t.engine.waiting = s.engine.waiting) (hh : t.engine.held = s.engine.held) (hc : t.control = s.control)
    (hs : t.store = s.store) (hb : t.queue = s.queue) : Requests t := by
  have e0 : ∀ i, (entry i t).state = (entry i s).state := fun i => (he i).1
  have e1 : ∀ i, (entry i t).home = (entry i s).home := fun i => (he i).2.1
  have e1' : ∀ i, (entry i t).kind = (entry i s).kind := fun i => (he i).2.2.1
  have e2 : ∀ h, waitingOrder h t = waitingOrder h s := fun i => by simp [waitingOrder, hw]
  have e3 : self t = self s := by simp [self, hc]
  have e4 : ∀ i, entryTag i t = entryTag i s := fun i => by simp [entryTag, (he i).2.2.2]
  have e5 : ∀ w, waiter w t = waiter w s := fun w => by simp [waiter, hs]
  have e6 : ∀ i, isWaiting (entry i t) = isWaiting (entry i s) := fun i => by simp [isWaiting, e0]
  have e7 : ∀ i, hasItem (entry i t) = hasItem (entry i s) := fun i => by simp [hasItem, e0]
  have e8 : ∀ i, isLive (entry i t) = isLive (entry i s) := fun i => by simp [isLive, e0]
  obtain ⟨q1, q2, q3, q4, q5, q6, q7, ⟨q8, q8'⟩, q9, q10, q11, q12, q13⟩ := q.whole
  refine ⟨⟨by rwa [hh], by simpa [hh, e0] using q2, by simpa [e2] using q3, by simpa [e2, e6, e1] using q4,
    by simpa [e0, e1] using q5, by simpa [e1, e1'] using q6, by simpa [e0, e1, e3] using q7, ⟨?_, ?_⟩,
        by simpa [hc, e8] using q9,
    by simpa [hb] using q10, by simpa [hb, e7] using q11, by simpa [hb] using q12, by simpa [hb] using q13⟩, ?_⟩
  · intro w r h k; rw [e0, e4]; exact q8 w r (by rw [← e5]; exact h) (by rwa [e3] at k)
  · intro w v r x h k a b c; rw [e3] at a b; rw [e5] at h k; exact q8' w v r x h k a b c
  · intro h k
    rw [e2] at k
    rw [exchangeOpen_iff]
    simp only [e0, e1]
    exact (exchangeOpen_iff _ _).mp (q.orders h k)

theorem setEntry_shape {i : Fin 16} {e : Entry} (h : SameShape (entry i s) e) (q : Requests s) :
    Requests (setEntry i e s) := by
  refine q.sameShape (fun j => ?_) rfl rfl rfl rfl rfl
  rw [entry_setEntry]
  split
  · rename_i a; subst a; exact h
  · exact ⟨rfl, rfl, rfl, rfl⟩

theorem setEntry_shape_tables {i : Fin 16} {e : Entry} (h : SameShape (entry i s) e) :
    TableWork s (setEntry i e s) where
  control := rfl
  directory := rfl
  slots := fun _ => ⟨rfl, rfl⟩
  sound := fun p => p.same (fun _ => rfl) (fun _ => rfl) (fun _ => rfl) (fun _ => rfl)
  requests := setEntry_shape h

/-! ### Handing a message to a waiter -/

theorem setExchange_slots (x : Fin 32) (e : Option Exchange) (s : State) : SlotWork s (setExchange x e s) :=
  ⟨fun _ => rfl, fun _ => rfl, fun _ => rfl, fun _ => rfl, rfl, rfl, rfl, rfl, fun _ h => .inl h⟩

theorem revise_slots (x : Fin 32) (g : Byte) (o p : TakeOutcome) (s : State) : SlotWork s (revise x g o p s) := by
  unfold revise
  split
  · exact setExchange_slots _ _ _
  · exact .refl s

theorem serveLocal_tables {w : Fin 32} {r : Waiter} (msg : Message) (h : waiter w s = some r) (l : r.requester = self s) :
    TableWork s (serveLocal w r msg s) := by
  have un := fun q : Requests s => removeWaiter_unnamed q.whole h l
  have a1 := removeWaiter_tables w s
  have a5 := (removeWaiter_views h).2.2.2.2.1
  unfold serveLocal
  dsimp only
  generalize removeWaiter w s = a at *
  have sh : SameShape (entry (slotOfTag r.tag) a)
      { entry (slotOfTag r.tag) a with result := { status := none, origin := msg.origin, data := msg.data } } := ⟨rfl,
          rfl, rfl, rfl⟩
  have k := a1.trans (setEntry_shape_tables sh)
  have bw : ∀ v e, waiter v (setEntry (slotOfTag r.tag) e a) = waiter v a := fun _ _ => rfl
  have bs : ∀ e, self (setEntry (slotOfTag r.tag) e a) = self a := fun _ => rfl
  have be : ∀ e, entry (slotOfTag r.tag) (setEntry (slotOfTag r.tag) e a) = e := fun e => by simp
  generalize hb : ({ entry (slotOfTag r.tag) a with result := { status := none, origin := msg.origin, data := msg.data } } : Entry) = e at *
  have bl := be e
  have bw := fun v => bw v e
  have bs := bs e
  generalize setEntry (slotOfTag r.tag) e a = b at *
  obtain ⟨-, -, f3, f4, f5, f6, -, -⟩ := finish_engine_eq (slotOfTag r.tag) .delivered b
  refine ⟨f5.trans k.control, f6.trans k.directory, fun i => by simpa [hostedSlot, f4] using k.slots i,
    fun p => finish_sound (k.sound p), fun q => ?_⟩
  have q' := k.requests q
  have lp : (entry (slotOfTag r.tag) b).state = .localParked := by
    have := (q.whole.takers.1 w r h l).1
    rw [bl, ← hb]; simpa [entry, a5] using this
  have lv : isLive (entry (slotOfTag r.tag) b) = true := by simp [isLive, lp]
  refine ⟨finish_whole _ q'.whole lv fun v x hv lx => un q v x (by rwa [bw] at hv) (by rwa [bs] at lx),
      (finish_orders _ (q'.orders.but none) (.inr (by simp [lp, isOpenState]))).none⟩

/-- `b` is `a` with the head message of hosted slot `h` dropped from its list. -/
structure Dropped (h : Fin 16) (a b : State) : Prop where
  hosted : ∀ k, hostedSlot k b =
    if k = h then { hostedSlot k a with messages := (hostedSlot k a).messages.tail } else hostedSlot k a
  waiters : ∀ w, waiter w b = waiter w a
  pool : b.store.pool = a.store.pool
  deliveries : b.store.deliveries = a.store.deliveries
  engine : b.engine = a.engine
  control : b.control = a.control
  directory : b.directory = a.directory
  queue : b.queue = a.queue

theorem dropHead_dropped (h : Fin 16) (s : State) : Dropped h s (dropHead h s) := by
  refine ⟨fun k => ?_, fun _ => rfl, rfl, rfl, rfl, rfl, rfl, rfl⟩
  unfold dropHead
  dsimp only
  rw [hostedSlot_setHosted, ite_symm_eq]
  split
  · rename_i a; subst a; rfl
  · rfl

theorem Dropped.setExchange {h : Fin 16} {a b : State} (k : Dropped h a b) (x : Fin 32) (e : Option Exchange) :
    Dropped h a (setExchange x e b) :=
  ⟨k.hosted, k.waiters, k.pool, k.deliveries, k.engine, k.control, k.directory, k.queue⟩

theorem Dropped.revise {h : Fin 16} {a b : State} (k : Dropped h a b) (x : Fin 32) (g : Byte) (o p : TakeOutcome) :
    Dropped h a (revise x g o p b) := by
  unfold Machine.revise
  split
  · exact k.setExchange _ _
  · exact k

theorem Dropped.removeWaiter {h : Fin 16} {w : Fin 32} {r : Waiter} (hw : waiter w s = some r) :
    Dropped h (removeWaiter w s) (removeWaiter w (dropHead h s)) := by
  have d := dropHead_dropped h s
  obtain ⟨v1, v2, v3, v4, v5, v6, v7, v8⟩ := removeWaiter_views hw
  obtain ⟨u1, u2, u3, u4, u5, u6, u7, u8⟩ := removeWaiter_views ((d.waiters w).trans hw)
  refine ⟨fun k => ?_, fun v => ?_, ?_, ?_, ?_, ?_, ?_, ?_⟩
  · rw [u1, v1, d.hosted]; split <;> split <;> simp_all
  · rw [u2, v2, d.waiters]
  · rw [u3, v3, d.pool]
  · rw [u4, v4, d.deliveries]
  · rw [u5, v5, d.engine]
  · rw [u7, v7, d.control]
  · rw [u8, v8, d.directory]
  · rw [u6, v6, d.queue]

theorem fillDelivery_views (d : Fin 8) (h : Fin 16) (c : Fin 64) (x : Fin 32) (g : Byte) (s : State) :
    (∀ k, hostedSlot k (fillDelivery d h c x g s) = hostedSlot k s) ∧ (∀ w,
        waiter w (fillDelivery d h c x g s) = waiter w s) ∧
    (∀ e, cell e (fillDelivery d h c x g s) = cell e s) ∧
    (∃ y : Delivery, y.hosted = h ∧ y.cell = c ∧
      ∀ e, delivery e (fillDelivery d h c x g s) = if e = d then some y else delivery e s) ∧
    (fillDelivery d h c x g s).engine = s.engine ∧ (fillDelivery d h c x g s).control = s.control ∧
    (fillDelivery d h c x g s).directory = s.directory ∧ (fillDelivery d h c x g s).queue.classB = s.queue.classB ∧
    ∀ o ∈ standing (fillDelivery d h c x g s).queue.classA, o ∈ standing s.queue.classA ∨ ∀ i, o ≠ .entry i := by
  have := queueDeliver_views d { state := .queued, dseq := s.store.dseq, hosted := h, cell := c, dest := x, tag := g, attempts := 1 }
    (s.withStore { s.store with dseq := s.store.dseq + 1 })
  exact this

/-- The head message of a mailbox goes into a FREE delivery slot. -/
theorem Dropped.fill {h : Fin 16} {a b : State} (k : Dropped h a b) {c : Fin 64} {rest : List (Fin 64)} {d : Fin 8}
    (hm : (hostedSlot h a).messages = c :: rest) (hd : delivery d a = none) (x : Fin 32) (g : Byte) :
    TableWork a (fillDelivery d h c x g b) := by
  obtain ⟨v1, v2, v3, ⟨y, y1, y2, v4⟩, v5, v6, v7, v8, v9⟩ := fillDelivery_views d h c x g b
  generalize fillDelivery d h c x g b = t at *
  have cs : ∀ e, cell e t = cell e a := fun e => by rw [v3]; simp [cell, k.pool]
  have ds : ∀ e, delivery e t = if e = d then some y else delivery e a := fun e => by rw [v4]; simp [delivery, k.deliveries]
  have hs : ∀ i, hostedSlot i t = if i = h then { hostedSlot i a with messages := (hostedSlot i a).messages.tail } else hostedSlot i a :=
    fun i => by rw [v1, k.hosted]
  have ws : ∀ w, waiter w t = waiter w a := fun w => by rw [v2, k.waiters]
  refine ⟨v6.trans k.control, v7.trans k.directory, fun i => by rw [hs]; split <;> simp, fun p => ?_,
    fun q => q.same (v5.trans k.engine) (v6.trans k.control) (fun w r => by simp [ws]) (by rw [v8, k.queue]) (by rw [← k.queue]; exact v9)⟩
  obtain ⟨p1, p2, ⟨p3, p4, p5⟩, p6⟩ := p
  refine ⟨p1.carry (h := h) (y := y) hm hd y2 (fun i => by rw [hs]; split <;> simp_all) ds cs,
    p2.of (fun i => by rw [hs]; split <;> simp) (fun i => .inl ?_) (fun i _ e => by rw [hs]; split <;> simp [e]),
        ⟨?_, ?_, ?_⟩, ?_⟩
  · have := deliveryCount_update i ds
    rw [hd] at this
    have e : heldFor i none = false := rfl
    have e' : heldFor i (some y) = decide (y.hosted = i) := rfl
    rw [e, e', y1] at this
    rw [load, load, hs]
    split
    · rename_i a; subst a; rw [hm]; simp at this; simp; omega
    · rename_i a
      have a' : h ≠ i := fun e => a e.symm
      simp [a'] at this; omega
  · intro i; rw [hs]; split <;> exact p3 i
  · intro i w hw; rw [ws]; exact p4 i w (by rw [hs] at hw; split at hw <;> exact hw)
  · intro w r hw; rw [ws] at hw; have := p5 w r hw; rw [hs]; split <;> exact this
  · intro i
    have : ∀ w, priorityOf w t = priorityOf w a := fun w => priorityOf_same (ws w)
    simp only [this]
    rw [hs]; split <;> exact p6 i

/-- The head message of a mailbox is collected. -/
theorem Dropped.collect {h : Fin 16} {a b : State} (k : Dropped h a b) {c : Fin 64} {rest : List (Fin 64)}
    (hm : (hostedSlot h a).messages = c :: rest) : TableWork a (setCell c none b) := by
  have hs : ∀ i, hostedSlot i (setCell c none b) = if i = h then { hostedSlot i a with messages := (hostedSlot i a).messages.tail } else hostedSlot i a :=
    fun i => k.hosted i
  have ws : ∀ w, waiter w (setCell c none b) = waiter w a := fun w => k.waiters w
  have cs : ∀ e, cell e (setCell c none b) = if e = c then none else cell e a := fun e => by
    rw [cell_setCell, ite_symm_eq]; simp [cell, k.pool]
  have ds : ∀ e, delivery e (setCell c none b) = delivery e a := fun e => by
    show delivery e b = _; simp [delivery, k.deliveries]
  refine ⟨k.control, k.directory, fun i => by rw [hs]; split <;> simp, fun p => ?_,
    fun q => q.same k.engine k.control (fun w r => by simp [ws]) (by rw [setCell_queue, k.queue]) (by rw [setCell_queue, k.queue]; exact fun o h => .inl h)⟩
  generalize setCell c none b = t at *
  obtain ⟨p1, p2, ⟨p3, p4, p5⟩, p6⟩ := p
  refine ⟨p1.collect (h := h) hm (fun i => by rw [hs]; split <;> simp_all) ds cs,
    p2.of (fun i => by rw [hs]; split <;> simp) (fun i => .inl ?_) (fun i _ e => by rw [hs]; split <;> simp [e]),
        ⟨?_, ?_, ?_⟩, ?_⟩
  · have : deliveryCount i t = deliveryCount i a := deliveryCount_same i (fun e => by rw [ds])
    rw [load, load, this, hs]; split <;> simp
  · intro i; rw [hs]; split <;> exact p3 i
  · intro i w hw; rw [ws]; exact p4 i w (by rw [hs] at hw; split at hw <;> exact hw)
  · intro w r hw; rw [ws] at hw; have := p5 w r hw; rw [hs]; split <;> exact this
  · intro i
    have : ∀ w, priorityOf w t = priorityOf w a := fun w => priorityOf_same (ws w)
    simp only [this]
    rw [hs]; split <;> exact p6 i

/-- `b` is `a` with the message `msg` in cell `c`. -/
structure Stored (c : Fin 64) (msg : Message) (a b : State) : Prop where
  hosted : ∀ k, hostedSlot k b = hostedSlot k a
  waiters : ∀ w, waiter w b = waiter w a
  cells : ∀ e, cell e b = if e = c then some msg else cell e a
  deliveries : b.store.deliveries = a.store.deliveries
  engine : b.engine = a.engine
  control : b.control = a.control
  directory : b.directory = a.directory
  queue : b.queue = a.queue

theorem setCell_stored (c : Fin 64) (msg : Message) (s : State) : Stored c msg s (setCell c (some msg) s) :=
  ⟨fun _ => rfl, fun _ => rfl, fun e => by rw [cell_setCell, ite_symm_eq], rfl, rfl, rfl, rfl, rfl⟩

theorem Stored.revise {c : Fin 64} {msg : Message} {a b : State} (k : Stored c msg a b) (x : Fin 32) (g : Byte) (o p : TakeOutcome) :
    Stored c msg a (revise x g o p b) := by
  unfold Machine.revise
  split
  · exact ⟨k.hosted, k.waiters, k.cells, k.deliveries, k.engine, k.control, k.directory, k.queue⟩
  · exact k

theorem Stored.removeWaiter {c : Fin 64} {w : Fin 32} {r : Waiter} (msg : Message) (hw : waiter w s = some r) :
    Stored c msg (removeWaiter w s) (removeWaiter w (setCell c (some msg) s)) := by
  have d := setCell_stored c msg s
  obtain ⟨v1, v2, v3, v4, v5, v6, v7, v8⟩ := removeWaiter_views hw
  obtain ⟨u1, u2, u3, u4, u5, u6, u7, u8⟩ := removeWaiter_views ((d.waiters w).trans hw)
  refine ⟨fun k => ?_, fun v => ?_, fun e => ?_, ?_, ?_, ?_, ?_, ?_⟩
  · rw [u1, v1, d.hosted]
  · rw [u2, v2, d.waiters]
  · have := d.cells e; simp only [cell, u3, v3] at *; exact this
  · rw [u4, v4, d.deliveries]
  · rw [u5, v5, d.engine]
  · rw [u7, v7, d.control]
  · rw [u8, v8, d.directory]
  · rw [u6, v6, d.queue]

/-- A message that arrives goes into a free cell and a FREE delivery slot of an OPEN mailbox below its depth limit. -/
theorem Stored.fill {h : Fin 16} {c : Fin 64} {msg : Message} {a b : State} (k : Stored c msg a b) {d : Fin 8}
    (hd : delivery d a = none) (hc : cell c a = none) (op : (hostedSlot h a).state = .opened)
    (room : load h a < (hostedSlot h a).depth) (x : Fin 32) (g : Byte) : TableWork a (fillDelivery d h c x g b) := by
  obtain ⟨v1, v2, v3, ⟨y, y1, y2, v4⟩, v5, v6, v7, v8, v9⟩ := fillDelivery_views d h c x g b
  generalize fillDelivery d h c x g b = t at *
  have cs : ∀ e, cell e t = if e = c then some msg else cell e a := fun e => by rw [v3, k.cells]
  have ds : ∀ e, delivery e t = if e = d then some y else delivery e a := fun e => by rw [v4]; simp [delivery, k.deliveries]
  have hs : ∀ i, hostedSlot i t = hostedSlot i a := fun i => by rw [v1, k.hosted]
  have ws : ∀ w, waiter w t = waiter w a := fun w => by rw [v2, k.waiters]
  refine ⟨v6.trans k.control, v7.trans k.directory, fun i => by simp [hs], fun p => ?_,
    fun q => q.same (v5.trans k.engine) (v6.trans k.control) (fun w r => by simp [ws]) (by rw [v8, k.queue]) (by rw [← k.queue]; exact v9)⟩
  obtain ⟨p1, p2, ⟨p3, p4, p5⟩, p6⟩ := p
  refine ⟨p1.handOver hc hd y2 (fun i => by rw [hs]) ds (fun e he => by rw [cs, if_neg he]) (by rw [cs, if_pos rfl]; simp),
    p2.of (fun i => by simp [hs]) (fun i => ?_) (fun i _ e => by rw [hs, e]), ⟨?_, ?_, ?_⟩, ?_⟩
  · have := deliveryCount_update i ds
    rw [hd] at this
    have e : heldFor i none = false := rfl
    have e' : heldFor i (some y) = decide (y.hosted = i) := rfl
    rw [e, e', y1] at this
    by_cases hi : h = i
    · subst hi
      right; refine ⟨op, ?_⟩
      simp at this
      rw [load, hs, this]; rw [load] at room; omega
    · left
      simp [hi] at this
      rw [load, load, hs, this]
  · simpa [hs] using p3
  · simpa [hs, ws] using p4
  · simpa [hs, ws] using p5
  · intro i
    have : ∀ w, priorityOf w t = priorityOf w a := fun w => priorityOf_same (ws w)
    simp only [this, hs]
    exact p6 i

/-- A message that arrives is stored in a free cell at the tail of an OPEN mailbox below its depth limit. -/
theorem storeMessage_tables {h : Fin 16} {c : Fin 64} (msg : Message) (hc : cell c s = none)
    (op : (hostedSlot h s).state = .opened) (room : load h s < (hostedSlot h s).depth) :
    TableWork s (setHosted h { hostedSlot h s with messages := (hostedSlot h s).messages ++ [c] } (setCell c (some msg) s)) := by
  generalize ht : setHosted h { hostedSlot h s with messages := (hostedSlot h s).messages ++ [c] } (setCell c (some msg) s) = t
  have hs : ∀ i, hostedSlot i t = if i = h then { hostedSlot i s with messages := (hostedSlot i s).messages ++ [c] } else hostedSlot i s :=
    fun i => by
      rw [← ht, hostedSlot_setHosted, ite_symm_eq]
      split
      · rename_i a; subst a; rfl
      · rfl
  have ws : ∀ w, waiter w t = waiter w s := fun w => by rw [← ht]; rfl
  have cs : ∀ e, cell e t = if e = c then some msg else cell e s := fun e => by
    rw [← ht]; show cell e (setCell c (some msg) s) = _; rw [cell_setCell, ite_symm_eq]
  have ds : ∀ e, delivery e t = delivery e s := fun e => by rw [← ht]; rfl
  have r1 : t.engine = s.engine ∧ t.control = s.control ∧ t.directory = s.directory ∧ t.queue = s.queue := by
    rw [← ht]; exact ⟨rfl, rfl, rfl, rfl⟩
  obtain ⟨r1, r2, r3, r4⟩ := r1
  refine ⟨r2, r3, fun i => by rw [hs]; split <;> simp, fun p => ?_,
    fun q => q.same r1 r2 (fun w r => by simp [ws]) (by rw [r4]) (by rw [r4]; exact fun o h => .inl h)⟩
  obtain ⟨p1, p2, ⟨p3, p4, p5⟩, p6⟩ := p
  refine ⟨p1.store (h := h) hc (fun i => by rw [hs]; split <;> simp_all) ds (fun e he => by rw [cs, if_neg he]) (by rw [cs, if_pos rfl]; simp),
    p2.of (fun i => by rw [hs]; split <;> simp) (fun i => ?_) (fun i _ e => by rw [hs]; split <;> simp [e]),
        ⟨?_, ?_, ?_⟩, ?_⟩
  · have : deliveryCount i t = deliveryCount i s := deliveryCount_same i (fun e => by rw [ds])
    by_cases hi : i = h
    · subst hi
      right; refine ⟨op, ?_⟩
      rw [load, this, hs, if_pos rfl]; rw [load] at room; simp; omega
    · left; rw [load, load, this, hs, if_neg hi]
  · intro i; rw [hs]; split <;> exact p3 i
  · intro i w hw; rw [ws]; exact p4 i w (by rw [hs] at hw; split at hw <;> exact hw)
  · intro w r hw; rw [ws] at hw; have := p5 w r hw; rw [hs]; split <;> exact this
  · intro i
    have : ∀ w, priorityOf w t = priorityOf w s := fun w => priorityOf_same (ws w)
    simp only [this]
    rw [hs]; split <;> exact p6 i

/-! ### Searches -/

theorem freeDeliverySlot_free {d : Fin 8} (h : freeDeliverySlot s = some d) : delivery d s = none := by
  simpa using List.find?_some h

theorem freeCell_free {c : Fin 64} (h : freeCell s = some c) : cell c s = none := by
  simpa using List.find?_some h

theorem freeWaiter_free {w : Fin 32} (h : freeWaiter s = some w) : waiter w s = none := by
  simpa using List.find?_some h

theorem freeEntry_free {i : Fin 16} (h : freeEntry s = some i) : (entry i s).state = .free := by
  simpa using List.find?_some h

theorem openSlotOf_open {m : Fin 64} {h : Fin 16} (k : openSlotOf m s = some h) :
    (hostedSlot h s).state = .opened ∧ (hostedSlot h s).mailbox = m := by
  simpa using List.find?_some k

/-! ### Pairing -/

/-- One pairing takes the head message of its mailbox and its head waiter, and leaves the other mailboxes alone. -/
theorem pairOnce_tables {b : Bool} {h : Fin 16} (k : pairOnce b h s = some t) : TableWork s t := by
  unfold pairOnce at k
  split at k
  · rename_i c cs w ws hm hw
    split at k
    · rename_i r msg hr hc
      split at k
      · rename_i l
        cases k
        have d := (dropHead_dropped h s).collect hm
        refine d.trans (serveLocal_tables msg (hr : waiter w (setCell c none (dropHead h s)) = some r) ?_)
        rw [self_of d.control]; simpa [isLocal] using l
      · split at k
        · split at k
          · rename_i d hd
            cases k
            unfold serveRemote
            obtain ⟨v1, v2, v3, v4, -, -, -, -⟩ := removeWaiter_views hr
            refine (removeWaiter_tables w s).trans (((Dropped.removeWaiter (h := h) hr).revise _ _ _ _).fill (c := c) (rest := cs) ?_ ?_ _ _)
            · rw [v1]; split <;> simpa using hm
            · simpa [delivery, v4] using freeDeliverySlot_free hd
          · cases k
        · cases k
    · cases k
  · cases k

theorem pairTimes_tables (b : Bool) (h : Fin 16) (n : Nat) (s : State) : TableWork s (pairTimes b h n s) := by
  induction n generalizing s with
  | zero => exact .refl s
  | succ n ih =>
    unfold pairTimes
    split
    · rename_i u k; exact (pairOnce_tables k).trans (ih u)
    · exact .refl s

theorem pairAt_tables (b : Bool) (h : Fin 16) (s : State) : TableWork s (pairAt b h s) := pairTimes_tables _ _ _ _

theorem pairing_tables (s : State) : TableWork s (pairing s) :=
  (TableWork.forEach (pairAt_tables false) s).trans (TableWork.forEach (pairAt_tables true) _)

/-- What one pairing leaves: the other mailboxes, the waiters but the one served, and the delivery slots in use. -/
theorem pairOnce_views {b : Bool} {h : Fin 16} (k : pairOnce b h s = some t) (p : StoreSound s) :
    (∀ i, i ≠ h → hostedSlot i t = hostedSlot i s) ∧
    (hostedSlot h t).messages = (hostedSlot h s).messages.tail ∧ (hostedSlot h s).messages ≠ [] ∧
    (∀ w, w ∉ (hostedSlot h s).waiters → waiter w t = waiter w s) ∧
    (∀ d, delivery d s ≠ none → delivery d t ≠ none) := by
  unfold pairOnce at k
  split at k
  · rename_i c cs w ws hm hw
    split at k
    · rename_i r msg hr hc
      have hh : r.hosted = h := by
        obtain ⟨q, a, b⟩ := p.listed.2.1 h w (by rw [hw]; simp)
        rw [hr] at a; cases a; exact b
      have d := dropHead_dropped h s
      split at k
      · rename_i l
        cases k
        obtain ⟨v1, v2, v3, v4, -, -, -, -⟩ := removeWaiter_views (s := setCell c none (dropHead h s)) hr
        have st : (serveLocal w r msg (setCell c none (dropHead h s))).store = (removeWaiter w (setCell c none (dropHead h s))).store := by
          unfold serveLocal
          rw [(finish_engine_eq _ _ _).2.2.2.1]
          rfl
        generalize serveLocal w r msg (setCell c none (dropHead h s)) = t at *
        generalize removeWaiter w (setCell c none (dropHead h s)) = a at *
        have v1 : ∀ k, hostedSlot k t = if k = r.hosted then { hostedSlot k (dropHead h s) with waiters := (hostedSlot k (dropHead h s)).waiters.filter fun v => v ≠ w } else hostedSlot k (dropHead h s) := fun k => by
          rw [show hostedSlot k t = hostedSlot k a by simp [hostedSlot, st], v1]; rfl
        have v2 : ∀ v, waiter v t = if v = w then none else waiter v s := fun k => by
          rw [show waiter k t = waiter k a by simp [waiter, st], v2]; rfl
        have v4 : ∀ e, delivery e t = delivery e s := fun e => by
          rw [show delivery e t = delivery e a by simp [delivery, st]]; simp only [delivery, v4]; rfl
        refine ⟨fun i hi => ?_, ?_, by simp [hm], fun v hv => ?_, fun e => by rw [v4]; exact id⟩
        · rw [v1, if_neg (by rw [hh]; exact hi), d.hosted, if_neg hi]
        · rw [v1, if_pos hh.symm, d.hosted, if_pos rfl]
        · have : v ≠ w := by rintro rfl; rw [hw] at hv; simp at hv
          rw [v2, if_neg this]
      · split at k
        · split at k
          · rename_i e he
            cases k
            unfold serveRemote
            obtain ⟨v1, v2, v3, v4, -, -, -, -⟩ := removeWaiter_views hr
            have D := (Dropped.removeWaiter (h := h) hr).revise r.requester r.tag .parked (.delivering e)
            obtain ⟨u1, u2, u3, ⟨y, y1, y2, u4⟩, -⟩ := fillDelivery_views e h c r.requester r.tag (revise r.requester r.tag .parked (.delivering e) (removeWaiter w (dropHead h s)))
            refine ⟨fun i hi => ?_, ?_, by simp [hm], fun v hv => ?_, fun f hf => ?_⟩
            · rw [u1, D.hosted, if_neg hi, v1, if_neg (by rw [hh]; exact hi)]
            · rw [u1, D.hosted, if_pos rfl, v1, if_pos hh.symm]
            · have : v ≠ w := by rintro rfl; rw [hw] at hv; simp at hv
              rw [u2, D.waiters, v2, if_neg this]
            · rw [u4]; split
              · simp
              · simpa only [delivery, D.deliveries, v4] using hf
          · cases k
        · cases k
    · cases k
  · cases k

/-- Mailbox `h` holds no message beside a waiter, or its head waiter is remote and no delivery slot is FREE. -/
def PairServed (h : Fin 16) (s : State) : Prop :=
  ∀ w rest, (hostedSlot h s).messages ≠ [] → (hostedSlot h s).waiters = w :: rest →
    (∃ r, waiter w s = some r ∧ r.requester ≠ self s) ∧ ∀ d : Fin 8, delivery d s ≠ none

theorem PairServed.of_none {h : Fin 16} (p : StoreSound s) (k : pairOnce true h s = none) : PairServed h s := by
  intro w rest hm hw
  obtain ⟨c, cs, hm⟩ := List.exists_cons_of_ne_nil hm
  obtain ⟨r, hr, -⟩ := p.listed.2.1 h w (by rw [hw]; simp)
  obtain ⟨msg, hc⟩ := Option.ne_none_iff_exists'.mp (p.cells.stored h c (by rw [hm]; simp))
  unfold pairOnce at k
  rw [hm, hw] at k
  simp only [hr, hc] at k
  split at k
  · cases k
  · rename_i l
    rw [if_pos trivial] at k
    split at k
    · cases k
    · rename_i e
      refine ⟨⟨r, hr, by simpa [isLocal] using l⟩, fun d => ?_⟩
      have := List.find?_eq_none.mp e d (by simp)
      intro h; rw [h] at this; simp at this

theorem PairServed.pairOnce {h k : Fin 16} (p : StoreSound s) (e : pairOnce true k s = some t) (ne : h ≠ k)
    (q : PairServed h s) : PairServed h t := by
  obtain ⟨v1, -, -, v4, v5⟩ := pairOnce_views e p
  intro w rest hm hw
  rw [v1 h ne] at hm hw
  obtain ⟨⟨r, a, b⟩, c⟩ := q w rest hm hw
  refine ⟨⟨r, ?_, by rwa [self_of (pairOnce_tables e).control]⟩, fun d => v5 d (c d)⟩
  rw [v4 w fun hk => ?_]
  · exact a
  · obtain ⟨r', a', b'⟩ := p.listed.2.1 k w hk
    obtain ⟨r'', a'', b''⟩ := p.listed.2.1 h w (by rw [hw]; simp)
    rw [a'] at a''; cases a''; exact ne (b''.symm.trans b')

theorem PairServed.pairTimes {h k : Fin 16} (ne : h ≠ k) (n : Nat) (p : StoreSound s) (q : PairServed h s) :
    PairServed h (pairTimes true k n s) := by
  induction n generalizing s with
  | zero => exact q
  | succ n ih =>
    unfold Machine.pairTimes
    split
    · rename_i u e; exact ih ((pairOnce_tables e).sound p) (q.pairOnce p e ne)
    · exact q

theorem pairTimes_served {h : Fin 16} {n : Nat} (p : StoreSound s) (l : (hostedSlot h s).messages.length ≤ n) :
    PairServed h (pairTimes true h n s) := by
  induction n generalizing s with
  | zero =>
    intro w rest hm
    exact absurd (List.length_eq_zero_iff.mp (Nat.le_zero.mp l)) hm
  | succ n ih =>
    unfold pairTimes
    split
    · rename_i u e
      obtain ⟨-, v2, v3, -, -⟩ := pairOnce_views e p
      refine ih ((pairOnce_tables e).sound p) ?_
      rw [v2, List.length_tail]
      omega
    · rename_i e; exact .of_none p e

/-- After pairing no mailbox holds a message beside a waiter that could be served (R131, R136, R137). -/
theorem pairing_served (p : StoreSound s) : PairsServed (pairing s) := by
  have p := (TableWork.forEach (pairAt_tables false) s).sound p
  unfold pairing
  generalize forEach (pairAt false) s = a at *
  have key : ∀ (l : List (Fin 16)) (a : State), l.Nodup → StoreSound a → ∀ h,
      (h ∈ l ∨ PairServed h a) → PairServed h (l.foldl (fun s i => pairAt true i s) a) := by
    intro l
    induction l with
    | nil => intro a _ _ h k; exact k.resolve_left (by simp)
    | cons i l ih =>
      intro a nd p h k
      obtain ⟨n1, n2⟩ := List.nodup_cons.mp nd
      rw [List.foldl_cons]
      refine ih _ n2 ((pairAt_tables true i a).sound p) h ?_
      by_cases e : h = i
      · subst e; exact .inr (pairTimes_served p (Nat.le_refl _))
      · rcases k with k | k
        · left; simpa [e] using k
        · right; exact k.pairTimes e _ p
  intro h
  exact key _ a (List.nodup_finRange 16) p h (.inl (List.mem_finRange h))

/-! ### Placing a message -/

/-- What a placement of `h` says of the state it was made in. -/
def PlacementFits (p : Placement) (h : Fin 16) (s : State) : Prop :=
  match p with
  | .handLocal w r => (hostedSlot h s).waiters.head? = some w ∧ waiter w s = some r ∧ r.requester = self s
  | .handRemote w r d c =>
    (hostedSlot h s).waiters.head? = some w ∧ waiter w s = some r ∧ r.requester ≠ self s ∧ delivery d s = none ∧
        cell c s = none ∧ load h s < (hostedSlot h s).depth
  | .store c => cell c s = none ∧ load h s < (hostedSlot h s).depth
  | _ => True

theorem placeStored_fits (h : Fin 16) (s : State) : PlacementFits (placeStored h s) h s := by
  unfold placeStored
  split
  · trivial
  · rename_i l
    split
    · rename_i c e; exact ⟨freeCell_free e, not_le.mp l⟩
    · trivial

theorem placement_fits (h : Fin 16) (s : State) : PlacementFits (placement h s) h s := by
  unfold placement
  split
  · exact placeStored_fits h s
  · rename_i w ws hw
    split
    · exact placeStored_fits h s
    · rename_i r hr
      split
      · rename_i l; exact ⟨by rw [hw]; rfl, hr, by simpa [isLocal] using l⟩
      · rename_i l
        split
        · rename_i room
          split
          · rename_i d c e f
            exact ⟨by rw [hw]; rfl, hr, by simpa [isLocal] using l, freeDeliverySlot_free e, freeCell_free f, room⟩
          · exact placeStored_fits h s
        · exact placeStored_fits h s

theorem PlacementFits.slots {p : Placement} {h : Fin 16} (k : SlotWork s t) (f : PlacementFits p h s) :
    PlacementFits p h t := by
  have ld : load h t = load h s := by
    have : deliveryCount h t = deliveryCount h s := deliveryCount_same h fun e => by
      have := k.deliveries e
      cases a : delivery e t <;> cases b : delivery e s <;> simp_all
    rw [load, load, this, k.hosted]
  have fr := k.free
  cases p <;> simp_all [PlacementFits, k.hosted, k.waiters, k.cells, self_of k.control]

theorem place_tables {p : Placement} {h : Fin 16} (msg : Message) (f : PlacementFits p h s)
    (op : (hostedSlot h s).state = .opened) : TableWork s (place p h msg s) := by
  cases p with
  | handLocal w r => exact serveLocal_tables msg f.2.1 f.2.2
  | handRemote w r d c =>
    obtain ⟨f1, f2, f3, f4, f5, f6⟩ := f
    obtain ⟨v1, v2, v3, v4, -, -, -, -⟩ := removeWaiter_views f2
    show TableWork s (serveRemote w r d h c (setCell c (some msg) s))
    unfold serveRemote
    refine (removeWaiter_tables w s).trans (((Stored.removeWaiter msg f2).revise _ _ _ _).fill ?_ ?_ ?_ ?_ _ _)
    · simpa [delivery, v4] using f4
    · simpa [cell, v3] using f5
    · rw [v1]; split <;> exact op
    · have : deliveryCount h (removeWaiter w s) = deliveryCount h s := deliveryCount_same h fun e => by simp [delivery, v4]
      rw [load, this, v1]; rw [load] at f6; split <;> exact f6
  | store c => exact (storeMessage_tables msg f.1 op f.2).trans (pairing_tables _)
  | full => exact .refl s
  | noSpace => exact .refl s

theorem serveLocal_store (w : Fin 32) (r : Waiter) (msg : Message) (s : State) :
    (serveLocal w r msg s).store = (removeWaiter w s).store := by
  unfold serveLocal
  rw [(finish_engine_eq _ _ _).2.2.2.1]
  rfl

theorem place_pairs {p : Placement} {h : Fin 16} (msg : Message) (f : PlacementFits p h s)
    (op : (hostedSlot h s).state = .opened) (so : StoreSound s) (pr : PairsServed s) :
        PairsServed (place p h msg s) := by
  have hosted : ∀ w r, (hostedSlot h s).waiters.head? = some w → waiter w s = some r → r.hosted = h := by
    intro w r a b
    obtain ⟨q, x, y⟩ := so.listed.2.1 h w (List.mem_of_mem_head? a)
    rw [b] at x; cases x; exact y
  have sf := (place_tables msg f op).control
  -- the head waiter of a mailbox that stores nothing leaves its list
  have key : ∀ w r t, (hostedSlot h s).waiters.head? = some w → waiter w s = some r → self t = self s →
      (hostedSlot h s).messages = [] →
      (∀ k, hostedSlot k t = if k = r.hosted then { hostedSlot k s with waiters := (hostedSlot k s).waiters.filter fun v => v ≠ w } else hostedSlot k s) →
      (∀ v, waiter v t = if v = w then none else waiter v s) → (∀ e, delivery e s ≠ none → delivery e t ≠ none) →
          PairsServed t := by
    intro w r t a b c e v1 v2 v3 k x rest hm hw
    have hh := hosted w r a b
    rw [v1] at hm hw
    split at hm
    · rename_i i; rw [i, hh] at hm; exact absurd e hm
    · rename_i i
      rw [if_neg i] at hw
      obtain ⟨⟨y, y1, y2⟩, z⟩ := pr k x rest hm hw
      have : x ≠ w := by
        rintro rfl
        obtain ⟨q, q1, q2⟩ := so.listed.2.1 k x (by rw [hw]; simp)
        rw [b] at q1; cases q1; exact i q2.symm
      exact ⟨⟨y, by rw [v2, if_neg this]; exact y1, by rwa [c]⟩, fun d => v3 d (z d)⟩
  cases p with
  | handLocal w r =>
    obtain ⟨f1, f2, f3⟩ := f
    obtain ⟨v1, v2, v3, v4, -, -, -, -⟩ := removeWaiter_views f2
    have st := serveLocal_store w r msg s
    refine key w r _ f1 f2 (self_of sf) ?_ (fun k => ?_) (fun k => ?_) (fun e => ?_)
    · by_contra e
      obtain ⟨rest, hw⟩ := List.head?_eq_some_iff.mp f1
      obtain ⟨⟨y, y1, y2⟩, -⟩ := pr h w rest e hw
      rw [f2] at y1; cases y1; exact y2 f3
    · rw [← v1]; simp [hostedSlot, place, st]
    · rw [← v2]; simp [waiter, place, st]
    · rw [show delivery e (place (.handLocal w r) h msg s) = delivery e s by simp [delivery, place, st, v4]]; exact id
  | handRemote w r d c =>
    obtain ⟨f1, f2, f3, f4, f5, f6⟩ := f
    obtain ⟨v1, v2, v3, v4, -, -, -, -⟩ := removeWaiter_views f2
    have D := (Stored.removeWaiter (c := c) msg f2).revise r.requester r.tag .parked (.delivering d)
    obtain ⟨u1, u2, u3, ⟨y, y1, y2, u4⟩, -⟩ := fillDelivery_views d h c r.requester r.tag
      (revise r.requester r.tag .parked (.delivering d) (removeWaiter w (setCell c (some msg) s)))
    refine key w r _ f1 f2 (self_of sf) ?_ (fun k => ?_) (fun k => ?_) (fun e he => ?_)
    · by_contra e
      obtain ⟨rest, hw⟩ := List.head?_eq_some_iff.mp f1
      exact (pr h w rest e hw).2 d f4
    · rw [← v1, ← D.hosted]; exact u1 k
    · rw [← v2, ← D.waiters]; exact u2 k
    · show delivery e (fillDelivery _ _ _ _ _ _) ≠ none
      rw [u4]; split
      · simp
      · simpa only [delivery, D.deliveries, v4] using he
  | store c => exact pairing_served ((storeMessage_tables msg f.1 op f.2).sound so)
  | full => exact pr
  | noSpace => exact pr

end Sys2Proof.Machine
end

