-- ==== Sys2Proof/Laws/StoreItems.lean ====
section
/-! SUPPORT. The items and deadlines of the Mailbox Store as steps of the tables (R115 to R120, R132 to R134, R142 to R147). -/

namespace Sys2Proof.Machine

variable {s t u : State}

/-- Work on messages, waiters and requests that keeps the law of R131 between messages and waiters. -/
structure TableStep (s t : State) : Prop where
  work : TableWork s t
  pairs : StoreSound s → PairsServed s → PairsServed t

namespace TableStep

theorem refl (s : State) : TableStep s s := ⟨.refl s, fun _ => id⟩

theorem trans (h : TableStep s t) (k : TableStep t u) : TableStep s u :=
  ⟨h.work.trans k.work, fun a b => k.pairs (h.work.sound a) (h.pairs a b)⟩

theorem foldl {α : Type} {f : State → α → State} (hf : ∀ s a, TableStep s (f s a)) (l : List α) (s : State) :
    TableStep s (l.foldl f s) :=
  foldl_keeps (TableStep s) f (fun t a k => k.trans (hf t a)) l s (refl s)

theorem forEach {n : Nat} {f : Fin n → State → State} (hf : ∀ i s, TableStep s (f i s)) (s : State) :
    TableStep s (Machine.forEach f s) := foldl (fun s i => hf i s) _ s

theorem of_slots (h : SlotWork s t) : TableStep s t := ⟨h.tables, fun _ => h.pairs⟩

/-- Work after which pairing is looked at. -/
theorem paired (h : TableWork s t) : TableStep s (pairing t) :=
  ⟨h.trans (pairing_tables t), fun a _ => pairing_served (h.sound a)⟩

/-- Work that leaves the store alone. -/
theorem of_store (h : TableWork s t) (e : t.store = s.store) : TableStep s t :=
  ⟨h, fun _ p k w rest hm hw => by
    obtain ⟨⟨r, a, b⟩, c⟩ := p k w rest (by simpa [hostedSlot, e] using hm) (by simpa [hostedSlot, e] using hw)
    exact ⟨⟨r, by simpa [waiter, e] using a, by rwa [self_of h.control]⟩, fun d => by simpa [delivery, e] using c d⟩⟩

end TableStep

theorem TablesWhole.sound (h : TablesWhole s) : StoreSound s := ⟨h.cells, h.loads, h.listed, h.ordered⟩

theorem TablesWhole.requests' (h : TablesWhole s) : Requests s := ⟨h.requests, h.orders⟩

theorem DirectoryAgrees.work (p : DirectoryAgrees s) (h : TableWork s t) : DirectoryAgrees t := by
  have e1 : ∀ m, dirEntry m t = dirEntry m s := fun m => by simp [dirEntry, h.directory]
  have e2 : self t = self s := self_of h.control
  have e3 : ∀ k, (hostedSlot k t).state = (hostedSlot k s).state := fun k => (h.slots k).1
  have e4 : ∀ k, (hostedSlot k t).mailbox = (hostedSlot k s).mailbox := fun k => (h.slots k).2
  obtain ⟨p1, p2, p3, p4, p5, p6⟩ := p
  exact ⟨by simpa [e1, e3, e4] using p1, by simpa [e1, e2, e3, e4] using p2, by simpa [e3, e4] using p3,
    by simpa [e1, e2, e3, e4] using p4, by simpa [h.control, e3] using p5, by simpa [h.control, e1] using p6⟩

theorem TablesWhole.mk' (a : StoreSound s) (b : PairsServed s) (c : DirectoryAgrees s) (d : Requests s) :
    TablesWhole s :=
  ⟨a.cells, a.loads, a.listed, a.ordered, b, c, d.whole, d.orders⟩

theorem TablesWhole.step (p : TablesWhole s) (h : TableStep s t) : TablesWhole t :=
  .mk' (h.work.sound p.sound) (h.pairs p.sound p.pairs) (p.directory.work h.work) (h.work.requests p.requests')

/-! ### Answers -/

theorem enqueueA_slots (i : Item) {o : Originator} (ho : ∀ j, o ≠ .entry j) (s : State) :
    SlotWork s (enqueueA i o s) := by
  unfold enqueueA
  split
  · refine ⟨fun _ => rfl, fun _ => rfl, fun _ => rfl, fun _ => rfl, rfl, rfl, rfl, rfl, fun p hp => ?_⟩
    simp only [withQueue_queue, standing_new, List.mem_append, List.mem_singleton] at hp
    rcases hp with hp | rfl
    · exact .inl hp
    · exact .inr ho
  · exact .refl s

theorem answer_slots (x : Fin 32) (b : ItemBody) (s : State) : SlotWork s (answer x b s) := enqueueA_slots _ (by simp) s

theorem remember_slots (x : Fin 32) (g : Byte) (r : Remembered) (s : State) : SlotWork s (remember x g r s) :=
  setExchange_slots _ _ _

theorem countShed_step (s : State) : TableStep s (countShed s) := .of_slots (withCounters_slots _ s)

theorem answer_step (x : Fin 32) (b : ItemBody) (s : State) :
    TableStep s (answer x b s) := .of_slots (answer_slots x b s)

theorem raiseNotice_step (r : Record) (s : State) : TableStep s (raiseNotice r s) :=
  .of_store (raiseNotice_tables r s) (by unfold raiseNotice; split <;> rfl)

/-! ### PUT items -/

theorem takeNewPut_step (x : Fin 32) (m : Fin 64) (g : Byte) (data : List Byte) (s : State) :
    TableStep s (takeNewPut x m g data s) := by
  unfold takeNewPut
  split
  · exact countShed_step s
  · split
    · exact .of_slots ((remember_slots _ _ _ _).trans (answer_slots _ _ _))
    · rename_i h hh
      dsimp only
      have k : SlotWork s (answer x (.putReply g (placementResult (placement h s))) (remember x g (.put (placementResult (placement h s))) s)) :=
        (remember_slots _ _ _ _).trans (answer_slots _ _ _)
      have f := (placement_fits h s).slots k
      have op := (openSlotOf_open hh).1
      rw [← k.hosted] at op
      exact (TableStep.of_slots k).trans ⟨place_tables _ f op, place_pairs _ f op⟩

theorem takePut_step (x : Fin 32) (m : Fin 64) (g : Byte) (data : List Byte) (s : State) :
    TableStep s (takePut x m g data s) := by
  unfold takePut
  repeat' split
  all_goals first
    | exact answer_step _ _ _
    | exact countShed_step _
    | exact takeNewPut_step _ _ _ _ _

/-! ### TAKE items -/

theorem clearOldPair_tables (x : Fin 32) (g : Byte) (s : State) : TableWork s (clearOldPair x g s) := by
  unfold clearOldPair
  cases waiterOf x g s with
  | none =>
    cases h : deliveryTo x g s with
    | none => simpa [h] using TableWork.refl s
    | some d => simpa [h] using returnMessage_tables d s
  | some w =>
    have k := removeWaiter_tables w s
    cases h : deliveryTo x g (removeWaiter w s) with
    | none => simpa [h] using k
    | some d => simpa [h] using k.trans (returnMessage_tables d _)

theorem replyTake_slots (x : Fin 32) (g : Byte) (r : TakeResult) (s : State) : SlotWork s (replyTake x g r s) :=
  (remember_slots _ _ _ _).trans (answer_slots _ _ _)

theorem makeWaiter_tables {w : Fin 32} {h : Fin 16} {x : Fin 32} {g : Byte} (p : Fin 4) (wait : Byte) (fw : waiter w s = none)
    (op : (hostedSlot h s).state = .opened) (fits : Requests s → TakerFits x g s) :
        TableWork s (makeWaiter w h x g p wait s) := by
  obtain ⟨v1, -, -, -, -, -, v7, v8⟩ := makeWaiter_views w h x g p wait s
  exact ⟨v7, v8, fun k => by rw [v1]; split <;> simp_all, makeWaiter_sound x g p wait fw op,
    fun q => makeWaiter_requests p wait (fits q) q⟩

theorem takeNewTake_step {x : Fin 32} (ne : x ≠ self s) (m : Fin 64) (g : Byte) (p : Fin 4) (w : Byte) :
    TableStep s (takeNewTake x m g p w s) := by
  unfold takeNewTake
  split
  · exact countShed_step s
  · dsimp only
    have k := clearOldPair_tables x g s
    generalize clearOldPair x g s = a at *
    rw [← self_of k.control] at ne
    refine TableStep.trans (.paired ?_) (.of_slots (offerPlaces_slots _))
    refine k.trans ?_
    split
    · exact (replyTake_slots _ _ _ _).tables
    · rename_i h hh
      have op := (openSlotOf_open hh).1
      split
      · exact (replyTake_slots _ _ _ _).tables
      · rename_i d c e
        unfold takeCourse at e
        split at e
        · rename_i hm hw
          split at e
          · rename_i d' hd
            cases e
            exact ((dropHead_dropped h a).setExchange _ _).fill hm (freeDeliverySlot_free hd) _ _
          · unfold waitCourse at e; repeat' split at e
            all_goals cases e
        · unfold waitCourse at e; repeat' split at e
          all_goals cases e
      · rename_i v e
        refine (makeWaiter_tables p w ?_ op fun _ h => absurd h ne).trans (replyTake_slots _ _ _ _).tables
        have : waitCourse h w a = .park v := by
          unfold takeCourse at e
          split at e
          · split at e
            · cases e
            · exact e
          · exact e
        unfold waitCourse at this
        split at this
        · split at this <;> cases this
        · split at this
          · rename_i v' hv; cases this; exact freeWaiter_free hv
          · cases this

theorem repeatDelivering_step (x : Fin 32) (g : Byte) (d : Fin 8) (s : State) :
    TableStep s (repeatDelivering x g d s) := by
  unfold repeatDelivering
  split
  · rename_i y hy
    split
    · split
      · split
        · exact .of_slots (requeueDelivery_slots hy rfl rfl)
        · exact countShed_step s
      · exact .refl s
    · exact .refl s
  · exact .refl s

theorem repeatTakeReply_step (x : Fin 32) (g : Byte) (r : TakeResult) (s : State) :
    TableStep s (repeatTakeReply x g r s) := by
  unfold repeatTakeReply
  split
  · exact answer_step _ _ _
  · exact countShed_step _

theorem takeTake_step {x : Fin 32} (ne : x ≠ self s) (m : Fin 64) (g : Byte) (p : Fin 4) (w : Byte) :
    TableStep s (takeTake x m g p w s) := by
  unfold takeTake
  repeat' split
  all_goals first
    | exact repeatTakeReply_step _ _ _ _
    | exact repeatDelivering_step _ _ _ _
    | exact takeNewTake_step ne _ _ _ _

/-! ### CANCEL and DELIVER_ACK items -/

theorem replyCancel_slots (x : Fin 32) (g : Byte) (r : CancelResult) (s : State) : SlotWork s (replyCancel x g r s) :=
  (remember_slots _ _ _ _).trans (answer_slots _ _ _)

theorem takeCancel_step (x : Fin 32) (g : Byte) (s : State) : TableStep s (takeCancel x g s) := by
  have new : TableStep s (takeNewCancel x g s) := by
    unfold takeNewCancel
    split
    · exact countShed_step s
    · split
      · exact .paired ((removeWaiter_tables _ _).trans (replyCancel_slots _ _ _ _).tables)
      · exact .of_slots (replyCancel_slots _ _ _ _)
  unfold takeCancel
  repeat' split
  all_goals first
    | exact answer_step _ _ _
    | exact countShed_step _
    | exact new

theorem takeDeliverAck_step (x : Fin 32) (g q : Byte) (v : AckVerdict) (s : State) :
    TableStep s (takeDeliverAck x g q v s) := by
  unfold takeDeliverAck
  split
  · rename_i d _
    dsimp only
    have k : TableStep s (pairing (offerPlaces (freeDelivery d s))) :=
      .paired ((freeDelivery_tables d s).trans (offerPlaces_slots _).tables)
    split
    · exact k.trans (.of_slots (withCounters_slots _ _))
    · exact k
  · exact .refl s

/-! ### Deadlines of waiters and deliveries -/

theorem expireWaiter_step (w : Fin 32) (s : State) : TableStep s (expireWaiter w s) := by
  unfold expireWaiter
  split
  · rename_i r hr
    dsimp only
    split
    · rename_i l; exact .paired (finishTaker_tables _ hr (by simpa [isLocal] using l))
    · exact .paired (((removeWaiter_tables w s).trans (revise_slots _ _ _ _ _).tables).trans (answer_slots _ _ _).tables)
  · exact .refl s

theorem actOnWaiter_step (w : Fin 32) (s : State) : TableStep s (actOnWaiter w s) := by
  unfold actOnWaiter
  split
  · exact expireWaiter_step w s
  · exact .refl s

theorem actOnDelivery_step (d : Fin 8) (s : State) : TableStep s (actOnDelivery d s) := by
  unfold actOnDelivery
  split
  · unfold deliveryDeadline
    split
    · rename_i x hx
      split
      · exact .of_slots (requeueDelivery_slots hx rfl rfl)
      · exact .paired ((returnMessage_tables d s).trans (revise_slots _ _ _ _ _).tables)
    · exact .refl s
  · exact .refl s

/-! ### The absence of a taker -/

theorem takerAbsent_step (x : Fin 32) (s : State) : TableStep s (takerAbsent x s) := by
  unfold takerAbsent
  dsimp only
  refine .paired (((TableWork.trans (t := forEach (dropWaiterOf x) s) ?_ ?_).trans (setExchange_slots _ _ _).tables).trans (offerPlaces_slots _).tables)
  · refine TableWork.forEach (fun w s => ?_) s
    unfold dropWaiterOf
    split
    · exact removeWaiter_tables w s
    · exact .refl s
  · refine TableWork.forEach (fun w s => ?_) _
    unfold releaseTo
    split
    · exact returnMessage_tables w s
    · exact .refl s

end Sys2Proof.Machine
end

