-- ==== Sys2Proof/Laws/EngineItems.lean ====
section
/-! SUPPORT. New requests, sending, deadlines, replies and losses at the Request Engine as steps of the tables (R152 to R174). -/

namespace Sys2Proof.Machine

variable {s t u : State}

/-! ### Work of the Request Engine -/

/-- Work that leaves the store, Station Control and the directory alone. -/
structure EngineWork (s t : State) : Prop where
  store : t.store = s.store
  control : t.control = s.control
  directory : t.directory = s.directory

theorem EngineWork.refl (s : State) : EngineWork s s := ⟨rfl, rfl, rfl⟩

theorem EngineWork.trans (h : EngineWork s t) (k : EngineWork t u) : EngineWork s u :=
  ⟨k.store.trans h.store, k.control.trans h.control, k.directory.trans h.directory⟩

theorem TableStep.of_engine (h : EngineWork s t) (q : Requests s → Requests t) : TableStep s t :=
  .of_store
    { control := h.control, directory := h.directory, slots := fun k => by simp [hostedSlot, h.store],
      sound := fun p => p.same (fun k => by simp [hostedSlot, h.store]) (fun w => by simp [waiter, h.store])
        (fun w => by simp [cell, h.store]) (fun w => by simp [delivery, h.store]),
      requests := q } h.store

theorem finish_engine (i : Fin 16) (st : Status) (s : State) : EngineWork s (finish i st s) := by
  obtain ⟨-, -, -, f4, f5, f6, -, -⟩ := finish_engine_eq i st s
  exact ⟨f4, f5, f6⟩

theorem promote_engine (h : Fin 32) (s : State) : EngineWork s (promote h s) := by
  rcases promote_cases h s with ⟨e, -⟩ | ⟨i, rest, -, -, -, -, -, -, -, p7, p8, p9, -⟩
  · rw [e]; exact .refl s
  · exact ⟨p8, p7, p9⟩

theorem promoteFor_engine (x : Option (Fin 32)) (s : State) : EngineWork s (promoteFor x s) := by
  cases x with
  | none => exact .refl s
  | some h => exact promote_engine h s

theorem finishAndPromote_engine (i : Fin 16) (st : Status) (s : State) : EngineWork s (finishAndPromote i st s) :=
  (finish_engine i st s).trans (promoteFor_engine _ _)

theorem finishAndPromote_step {i : Fin 16} (st : Status) (live : isLive (entry i s) = true)
    (np : (entry i s).state ≠ .localParked) : TableStep s (finishAndPromote i st s) :=
  .of_engine (finishAndPromote_engine i st s) fun q => finishAndPromote_requests st q live np

/-- Entry `i`, neither HELD nor LOCAL_PARKED before, gets a state in use, with a place in the waiting order and the item
list that goes with it. -/
theorem RequestsWhole.update (q : RequestsWhole s) {i : Fin 16} (w : EngineWork s t) (e1 : ∀ j, j ≠ i →
    entry j t = entry j s)
    (el : t.engine.held = s.engine.held) (ea : t.queue.classA = s.queue.classA)
    (old : (entry i s).state ≠ .held) (old' : (entry i s).state ≠ .localParked)
    (ek : (entry i t).kind = .claim ∨ (entry i t).kind = .release → (entry i t).home = none)
    (new : isLive (entry i t) = true) (new' : (entry i t).state = .localParked → (entry i t).home = some (self s))
    (on : isLive (entry i s) = true ∨ OnBus s)
    (w1 : ∀ h, (waitingOrder h t).Nodup)
    (w2 : ∀ h, i ∈ waitingOrder h t ↔ isWaiting (entry i t) = true ∧ (entry i t).home = some h)
    (w3 : ∀ h j, j ≠ i → (j ∈ waitingOrder h t ↔ j ∈ waitingOrder h s))
    (op : isOpenState (entry i t).state = true → ∀ h, (entry i t).home = some h → ∀ j, j ≠ i →
        (entry j s).home = some h →
      isOpenState (entry j s).state = false)
    (bn : (standing t.queue.classB).Nodup) (bi : .entry i ∈ standing t.queue.classB → hasItem (entry i t) = true)
    (bj : ∀ o ∈ standing t.queue.classB, o ≠ .entry i → o ∈ standing s.queue.classB) : RequestsWhole t := by
  obtain ⟨q1, q2, q3, q4, q5, q6, q7, ⟨q8, q8'⟩, q9, q10, q11, q12, q13⟩ := q
  have e3 : self t = self s := self_of w.control
  have e4 : ∀ j, j ≠ i → entryTag j t = entryTag j s := fun j hj => by simp [entryTag, e1 j hj]
  have e5 : ∀ v, waiter v t = waiter v s := fun v => by simp [waiter, w.store]
  have ec := w.control
  have lt : (entry i t).state ≠ .held ∧ (entry i t).state ≠ .free := by
    simp [isLive] at new; exact ⟨new.2, new.1⟩
  have items : ∀ o ∈ standing t.queue.classB, ∃ i : Fin 16, o = .entry i ∧ hasItem (entry i t) = true := by
    intro o ho
    by_cases e : o = .entry i
    · exact ⟨i, e, bi (e ▸ ho)⟩
    · obtain ⟨j, rfl, k⟩ := q11 o (bj o ho e)
      have : j ≠ i := fun h => e (by rw [h])
      exact ⟨j, rfl, by rwa [e1 j this]⟩
  clear bi bj w
  refine ⟨by rwa [el], ?_, w1, ?_, ?_, ?_, ?_, ⟨?_, ?_⟩, ?_, bn, items, by rwa [ea],
    standing_bound bn fun o ho => (items o ho).imp fun _ h => h.1⟩
  · grind
  · grind
  · grind
  · grind
  · grind
  · grind
  · grind
  · intro h; rw [ec] at h; have := q9 h i
    rcases on with on | on
    · rw [this] at on; cases on
    · unfold OnBus at on; rcases h with h | h <;> rcases on with on | on <;> rw [h] at on <;> cases on

/-- Entry `i` hands an item to the class B list, having none there. -/
theorem queued_items {i : Fin 16} (q : RequestsWhole s) (n : hasItem (entry i s) = false) :
    Originator.entry i ∉ standing s.queue.classB := by
  intro e; obtain ⟨j, e1, e2⟩ := q.items _ e; cases e1; rw [n] at e2; cases e2

theorem withdrawn_items (i : Fin 16) (l : List QueuedItem) :
    Originator.entry i ∉ standing (withdrawFrom (.entry i) l) := by
  rw [standing_withdrawFrom]; simp

/-! ### New requests -/

/-- How entry `i` enters the table in a state with an item: every view of the result. -/
theorem queueRequest_views (i : Fin 16) (s : State) :
    EngineWork s (queueRequest i s) ∧ (∀ j, j ≠ i → entry j (queueRequest i s) = entry j s) ∧
    entry i (queueRequest i s) = { entry i s with state := .queued, deadline := none } ∧
    (∀ h, waitingOrder h (queueRequest i s) = waitingOrder h s) ∧ (queueRequest i s).engine.held = s.engine.held ∧
    (queueRequest i s).queue.classA = s.queue.classA ∧
    standing (queueRequest i s).queue.classB = standing s.queue.classB ++ [.entry i] := by
  unfold queueRequest
  refine ⟨⟨rfl, rfl, rfl⟩, fun j hj => ?_, ?_, fun h => rfl, rfl, rfl, ?_⟩
  · show entry j (setEntry i _ s) = _
    rw [entry_setEntry, if_neg (fun e => hj e.symm)]
  · show entry i (setEntry i _ s) = _
    rw [entry_setEntry, if_pos rfl]
  · exact standing_new _ _ _

theorem queueCancel_views (i : Fin 16) (s : State) :
    EngineWork s (queueCancel i s) ∧ (∀ j, j ≠ i → entry j (queueCancel i s) = entry j s) ∧
    entry i (queueCancel i s) = { entry i s with state := .cancelQueued, deadline := none } ∧
    (∀ h, waitingOrder h (queueCancel i s) = waitingOrder h s) ∧ (queueCancel i s).engine.held = s.engine.held ∧
    (queueCancel i s).queue.classA = s.queue.classA ∧
    standing (queueCancel i s).queue.classB = standing s.queue.classB ++ [.entry i] := by
  unfold queueCancel
  refine ⟨⟨rfl, rfl, rfl⟩, fun j hj => ?_, ?_, fun h => rfl, rfl, rfl, ?_⟩
  · show entry j (setEntry i _ s) = _
    rw [entry_setEntry, if_neg (fun e => hj e.symm)]
  · show entry i (setEntry i _ s) = _
    rw [entry_setEntry, if_pos rfl]
  · exact standing_new _ _ _

theorem setEntry_views (i : Fin 16) (e : Entry) (s : State) :
    EngineWork s (setEntry i e s) ∧ (∀ j, j ≠ i → entry j (setEntry i e s) = entry j s) ∧ entry i (setEntry i e s) = e ∧
    (∀ h, waitingOrder h (setEntry i e s) = waitingOrder h s) ∧ (setEntry i e s).engine.held = s.engine.held ∧
    (setEntry i e s).queue = s.queue :=
  ⟨⟨rfl, rfl, rfl⟩, fun j hj => by rw [entry_setEntry, if_neg (fun e => hj e.symm)], by simp, fun _ => rfl, rfl, rfl⟩

theorem joinWaiting_views (i : Fin 16) (h : Fin 32) (s : State) :
    EngineWork s (joinWaiting i h s) ∧ (∀ j, entry j (joinWaiting i h s) = entry j s) ∧
    (∀ k, waitingOrder k (joinWaiting i h s) = if k = h then waitingOrder k s ++ [i] else waitingOrder k s) ∧
    (joinWaiting i h s).engine.held = s.engine.held ∧ (joinWaiting i h s).queue = s.queue := by
  refine ⟨⟨rfl, rfl, rfl⟩, fun j => rfl, fun k => ?_, rfl, rfl⟩
  unfold joinWaiting
  rw [waitingOrder_setWaiting, ite_symm_eq]
  split
  · rename_i e; subst e; rfl
  · rfl

/-- Entry `i`, not waiting, gets its item in the queue, no other exchange with its home being open. -/
theorem RequestsWhole.queued (q : RequestsWhole s) {i : Fin 16} {x : Option (Fin 32)} (o : OrdersOpenBut x s) (w : EngineWork s t)
    (e1 : ∀ j, j ≠ i → entry j t = entry j s)
    (wo : ∀ h, waitingOrder h t = waitingOrder h s) (el : t.engine.held = s.engine.held)
    (ea : t.queue.classA = s.queue.classA) (ni : Originator.entry i ∉ standing s.queue.classB)
    (eb : standing t.queue.classB = standing s.queue.classB ++ [.entry i])
    (old : (entry i s).state ≠ .held) (old' : (entry i s).state ≠ .localParked) (old'' : isWaiting (entry i s) = false)
    (ek : (entry i t).kind = .claim ∨ (entry i t).kind = .release → (entry i t).home = none)
    (new : (entry i t).state = .queued ∨ (entry i t).state = .cancelQueued)
    (on : isLive (entry i s) = true ∨ OnBus s)
    (hx : x = none ∨ x = (entry i t).home) (hy : isOpenState (entry i s).state = true →
        (entry i t).home = (entry i s).home)
    (op : ∀ h, (entry i t).home = some h → ∀ j, j ≠ i → (entry j s).home = some h →
        isOpenState (entry j s).state = false) :
    Requests t := by
  have st : isLive (entry i t) = true ∧ (entry i t).state ≠ .localParked ∧ isWaiting (entry i t) = false ∧
      hasItem (entry i t) = true ∧ isOpenState (entry i t).state = true := by
    rcases new with e | e <;> simp [isLive, isWaiting, hasItem, isOpenState, e]
  obtain ⟨s1, s2, s3, s4, s5⟩ := st
  refine ⟨q.update w e1 el ea old old' ek s1 (fun e => absurd e s2) on (fun h => by rw [wo]; exact q.waitingOnce h)
    (fun h => ?_) (fun h j _ => by rw [wo]) (fun _ => op) ?_ (fun _ => s4) ?_, fun k hk => ?_⟩
  · rw [wo, q.waiting, old'', s3]; simp
  · rw [eb]; exact List.nodup_append.mpr ⟨q.itemsOnce, by simp, by grind⟩
  · intro p hp np; rw [eb] at hp; simp at hp; grind
  · rw [wo] at hk
    rw [exchangeOpen_iff]
    by_cases a : (entry i t).home = some k
    · exact ⟨i, a, s5⟩
    · have : x ≠ some k := by rcases hx with hx | hx <;> rw [hx] <;> simp_all
      obtain ⟨j, y, z⟩ := (exchangeOpen_iff _ _).mp (o k this hk)
      have : j ≠ i := by rintro rfl; exact a (by rw [hy z]; exact y)
      exact ⟨j, by rwa [e1 j this], by rwa [e1 j this]⟩

/-- Entry `i`, not waiting and with no item in the queue, joins the tail of the waiting order of its home, with which an
exchange of another entry is open. -/
theorem Requests.joined (q : Requests s) {i : Fin 16} {h : Fin 32} (w : EngineWork s t) (e1 : ∀ j, j ≠ i →
    entry j t = entry j s)
    (wo : ∀ k, waitingOrder k t = if k = h then waitingOrder k s ++ [i] else waitingOrder k s) (el : t.engine.held = s.engine.held)
    (eq : t.queue = s.queue) (ni : Originator.entry i ∉ standing s.queue.classB)
    (old : (entry i s).state ≠ .held) (old' : (entry i s).state ≠ .localParked) (old'' : isWaiting (entry i s) = false)
    (old3 : isOpenState (entry i s).state = false)
    (ek : (entry i t).kind = .claim ∨ (entry i t).kind = .release →
        (entry i t).home = none) (eh : (entry i t).home = some h)
    (new : (entry i t).state = .waiting ∨ (entry i t).state = .cancelWaiting)
    (on : isLive (entry i s) = true ∨ OnBus s) (op : exchangeOpen h s = true) : Requests t := by
  have st : isLive (entry i t) = true ∧ (entry i t).state ≠ .localParked ∧ isWaiting (entry i t) = true ∧
      isOpenState (entry i t).state = false := by
    rcases new with e | e <;> simp [isLive, isWaiting, isOpenState, e]
  obtain ⟨s1, s2, s3, s4⟩ := st
  have nm : ∀ k, i ∉ waitingOrder k s := by intro k hk; have := (q.whole.waiting k i).mp hk; rw [old''] at this; cases this.1
  refine ⟨q.whole.update w e1 el (by rw [eq]) old old' ek s1 (fun e => absurd e s2) on (fun k => ?_) (fun k => ?_)
    (fun k j hj => ?_) (fun e => by rw [s4] at e; cases e) (by rw [eq]; exact q.whole.itemsOnce) (fun hb => by rw [eq] at hb; exact absurd hb ni)
    (fun p hp _ => by rwa [eq] at hp), fun k hk => ?_⟩
  · rw [wo]; split
    · exact List.nodup_append.mpr ⟨q.whole.waitingOnce k, by simp, by have := nm k; grind⟩
    · exact q.whole.waitingOnce k
  · rw [wo, s3, eh]; have := nm k; grind
  · rw [wo]; grind
  · rw [exchangeOpen_iff]
    have : exchangeOpen k s = true := by
      rw [wo] at hk
      split at hk
      · rename_i e; rw [e]; exact op
      · exact q.orders k hk
    obtain ⟨j, y, z⟩ := (exchangeOpen_iff _ _).mp this
    have : j ≠ i := by rintro rfl; rw [old3] at z; cases z
    exact ⟨j, by rwa [e1 j this], by rwa [e1 j this]⟩

/-- Entry `i`, not waiting, gets a state in which it has neither an item nor a place in a waiting order. -/
theorem RequestsWhole.settled (q : RequestsWhole s) {i : Fin 16} (w : EngineWork s t) (e1 : ∀ j, j ≠ i →
    entry j t = entry j s)
    (wo : ∀ k, waitingOrder k t = waitingOrder k s) (el : t.engine.held = s.engine.held)
    (ea : t.queue.classA = s.queue.classA)
    (eb : standing t.queue.classB = (standing s.queue.classB).filter fun p => p ≠ .entry i)
    (old : (entry i s).state ≠ .held) (old' : (entry i s).state ≠ .localParked) (old'' : isWaiting (entry i s) = false)
    (ek : (entry i t).kind = .claim ∨ (entry i t).kind = .release → (entry i t).home = none)
    (new : isLive (entry i t) = true) (new' : (entry i t).state = .localParked → (entry i t).home = some (self s))
    (new'' : isWaiting (entry i t) = false)
    (on : isLive (entry i s) = true ∨ OnBus s)
    (op : isOpenState (entry i t).state = true → isOpenState (entry i s).state = true ∧
        (entry i t).home = (entry i s).home) :
    RequestsWhole t := by
  refine q.update w e1 el ea old old' ek new new' on (fun h => by rw [wo]; exact q.waitingOnce h)
    (fun h => by rw [wo, q.waiting, old'', new'']; simp) (fun h j _ => by rw [wo]) ?_ (by rw [eb]; exact q.itemsOnce.filter _) ?_ ?_
  · intro a h b j hj c
    obtain ⟨d, e⟩ := op a
    by_contra f
    exact hj (q.oneOpen h j i c (by rw [← e]; exact b) (by simpa using f) d)
  · intro h; rw [eb] at h; simp at h
  · intro p hp _; rw [eb] at hp; exact (List.mem_filter.mp hp).1

theorem settled_orders {i : Fin 16} {x : Option (Fin 32)} (o : OrdersOpen s) (e1 : ∀ j, j ≠ i → entry j t = entry j s)
    (wo : ∀ k, waitingOrder k t = waitingOrder k s)
    (c : (entry i s).home = x ∨ isOpenState (entry i s).state = false ∨
      (isOpenState (entry i t).state = true ∧ (entry i t).home = (entry i s).home)) : OrdersOpenBut x t := by
  intro h hx hw
  rw [wo] at hw
  obtain ⟨j, y, z⟩ := (exchangeOpen_iff _ _).mp (o h hw)
  rw [exchangeOpen_iff]
  by_cases e : j = i
  · subst e
    rcases c with c | c | ⟨c, d⟩
    · rw [c] at y; exact absurd y hx
    · rw [c] at z; cases z
    · exact ⟨j, by rw [d]; exact y, c⟩
  · exact ⟨j, by rwa [e1 j e], by rwa [e1 j e]⟩

theorem queued_after_set (i : Fin 16) (e : Entry) (s : State) :
    EngineWork s (queueRequest i (setEntry i e s)) ∧ (∀ j, j ≠ i →
        entry j (queueRequest i (setEntry i e s)) = entry j s) ∧
    entry i (queueRequest i (setEntry i e s)) = { e with state := .queued, deadline := none } ∧
    (∀ h, waitingOrder h (queueRequest i (setEntry i e s)) = waitingOrder h s) ∧
    (queueRequest i (setEntry i e s)).engine.held = s.engine.held ∧
    (queueRequest i (setEntry i e s)).queue.classA = s.queue.classA ∧
    standing (queueRequest i (setEntry i e s)).queue.classB = standing s.queue.classB ++ [.entry i] := by
  obtain ⟨a1, a2, a3, a4, a5, a6⟩ := setEntry_views i e s
  obtain ⟨b1, b2, b3, b4, b5, b6, b7⟩ := queueRequest_views i (setEntry i e s)
  exact ⟨a1.trans b1, fun j hj => (b2 j hj).trans (a2 j hj), by rw [b3, a3], fun h => (b4 h).trans (a4 h), b5.trans a5,
    by rw [b6, a6], by rw [b7, a6]⟩

theorem cancel_after_set (i : Fin 16) (e : Entry) (s : State) :
    EngineWork s (queueCancel i (setEntry i e s)) ∧ (∀ j, j ≠ i →
        entry j (queueCancel i (setEntry i e s)) = entry j s) ∧
    entry i (queueCancel i (setEntry i e s)) = { e with state := .cancelQueued, deadline := none } ∧
    (∀ h, waitingOrder h (queueCancel i (setEntry i e s)) = waitingOrder h s) ∧
    (queueCancel i (setEntry i e s)).engine.held = s.engine.held ∧
    (queueCancel i (setEntry i e s)).queue.classA = s.queue.classA ∧
    standing (queueCancel i (setEntry i e s)).queue.classB = standing s.queue.classB ++ [.entry i] := by
  obtain ⟨a1, a2, a3, a4, a5, a6⟩ := setEntry_views i e s
  obtain ⟨b1, b2, b3, b4, b5, b6, b7⟩ := queueCancel_views i (setEntry i e s)
  exact ⟨a1.trans b1, fun j hj => (b2 j hj).trans (a2 j hj), by rw [b3, a3], fun h => (b4 h).trans (a4 h), b5.trans a5,
    by rw [b6, a6], by rw [b7, a6]⟩

theorem join_after_set (i : Fin 16) (h : Fin 32) (e : Entry) (s : State) :
    EngineWork s (joinWaiting i h (setEntry i e s)) ∧ (∀ j, j ≠ i →
        entry j (joinWaiting i h (setEntry i e s)) = entry j s) ∧
    entry i (joinWaiting i h (setEntry i e s)) = e ∧
    (∀ k, waitingOrder k (joinWaiting i h (setEntry i e s)) = if k = h then waitingOrder k s ++ [i] else waitingOrder k s) ∧
    (joinWaiting i h (setEntry i e s)).engine.held = s.engine.held ∧
    (joinWaiting i h (setEntry i e s)).queue = s.queue := by
  obtain ⟨a1, a2, a3, a4, a5, a6⟩ := setEntry_views i e s
  obtain ⟨b1, b2, b3, b4, b5⟩ := joinWaiting_views i h (setEntry i e s)
  exact ⟨a1.trans b1, fun j hj => (b2 j).trans (a2 j hj), by rw [b2, a3], fun k => by rw [b3, a4], b4.trans a5,
    by rw [b5, a6]⟩

theorem exchangeShut {h : Fin 32} (c : ¬ exchangeOpen h s = true) (j : Fin 16) (hj : (entry j s).home = some h) :
    isOpenState (entry j s).state = false := by
  by_contra e
  exact c ((exchangeOpen_iff _ _).mpr ⟨j, hj, by simpa using e⟩)

/-! ### New requests -/

theorem startRequest_step {i : Fin 16} {h : Fin 32} {e : Entry} (f : (entry i s).state = .free) (on : OnBus s)
    (ek : e.kind = .put ∨ e.kind = .take) (eh : e.home = some h) : TableStep s (startRequest i h e s) := by
  have nh : hasItem (entry i s) = false := by simp [hasItem, f]
  have nw : isWaiting (entry i s) = false := by simp [isWaiting, f]
  have no : isOpenState (entry i s).state = false := by simp [isOpenState, f]
  have kk : ∀ p : Prop, e.kind = .claim ∨ e.kind = .release → p := by
    intro p a; rcases ek with b | b <;> rw [b] at a <;> simp at a
  unfold startRequest
  split
  · rename_i op
    obtain ⟨a1, a2, a3, a4, a5, a6⟩ := join_after_set i h { e with state := .waiting } s
    exact .of_engine a1 fun q => q.joined a1 a2 a4 a5 a6 (queued_items q.whole nh) (by simp [f]) (by simp [f]) nw no
      (by rw [a3]; exact kk _) (by rw [a3]; exact eh) (by rw [a3]; exact .inl rfl) (.inr on) op
  · rename_i op
    obtain ⟨a1, a2, a3, a4, a5, a6, a7⟩ := queued_after_set i e s
    refine .of_engine a1 fun q => q.whole.queued (q.orders.but none) a1 a2 a4 a5 a6 (queued_items q.whole nh) a7 (by simp [f]) (by simp [f]) nw
      (by rw [a3]; exact kk _) (by rw [a3]; exact .inl rfl) (.inr on) (.inl rfl) (by rw [no]; simp) ?_
    intro k hk j _ hj
    rw [a3] at hk
    rw [eh] at hk
    cases hk
    exact exchangeShut op j hj

theorem broadcastRequest_step {i : Fin 16} (k : RequestKind) (m : Fin 64) (f : (entry i s).state = .free) (on : OnBus s) :
    TableStep s (broadcastRequest i k m s) := by
  have nh : hasItem (entry i s) = false := by simp [hasItem, f]
  have nw : isWaiting (entry i s) = false := by simp [isWaiting, f]
  have no : isOpenState (entry i s).state = false := by simp [isOpenState, f]
  unfold broadcastRequest
  obtain ⟨a1, a2, a3, a4, a5, a6, a7⟩ := queued_after_set i (newEntry i k m none s) s
  refine .of_engine a1 fun q => q.whole.queued (q.orders.but none) a1 a2 a4 a5 a6 (queued_items q.whole nh) a7 (by simp [f]) (by simp [f]) nw
      (by rw [a3]; exact fun _ => rfl) (by rw [a3]; exact .inl rfl) (.inr on) (.inl rfl) (by rw [no]; simp) ?_
  intro h hk
  rw [a3] at hk
  cases hk

/-- The entry of a local take that waits. -/
theorem localEntry_step {i : Fin 16} {e : Entry} (f : (entry i s).state = .free) (on : OnBus s) (es : e.state = .localParked)
    (eh : e.home = some (self s)) (ek : e.kind = .take) : TableStep s (setEntry i e s) := by
  have nh : hasItem (entry i s) = false := by simp [hasItem, f]
  have nw : isWaiting (entry i s) = false := by simp [isWaiting, f]
  have no : isOpenState (entry i s).state = false := by simp [isOpenState, f]
  obtain ⟨a1, a2, a3, a4, a5, a6⟩ := setEntry_views i e s
  refine .of_engine a1 fun q => ⟨q.whole.settled a1 a2 a4 a5 (by rw [a6]) ?_ (by simp [f]) (by simp [f]) nw (by rw [a3, ek]; simp)
    (by rw [a3]; simp [isLive, es]) (by rw [a3]; exact fun _ => eh) (by rw [a3]; simp [isWaiting, es]) (.inr on) (by rw [a3]; simp [isOpenState, es]),
    (settled_orders q.orders a2 a4 (.inr (.inl no))).none⟩
  rw [a6]
  symm
  refine List.filter_eq_self.mpr fun p hp => ?_
  simp only [decide_eq_true_eq]
  rintro rfl
  exact queued_items q.whole nh hp

/-! ### Sending and deadlines -/

theorem entrySent_views (i : Fin 16) (s : State) : EngineWork s (entrySent i s) ∧ (entrySent i s).queue = s.queue := by
  unfold entrySent
  dsimp only
  split <;> exact ⟨⟨rfl, rfl, rfl⟩, rfl⟩

/-- An entry whose item has left the queue is told "sent". -/
theorem entrySent_step {i : Fin 16} (ni : Originator.entry i ∉ standing s.queue.classB) :
    TableStep s (entrySent i s) := by
  refine .of_engine (entrySent_views i s).1 fun q => ?_
  have key : ∀ e : Entry, isOpenState (entry i s).state = true →
      (entry i s).state = .queued ∨ (entry i s).state = .cancelQueued → e.state = .sent ∨ e.state = .cancelSent →
      e.home = (entry i s).home → e.kind = (entry i s).kind →
      Requests (setEntry i e s) := by
    intro e o st es eh ek
    obtain ⟨a1, a2, a3, a4, a5, a6⟩ := setEntry_views i e s
    have lv : isLive (entry i s) = true := by rcases st with st | st <;> simp [isLive, st]
    have nw : isWaiting (entry i s) = false := by rcases st with st | st <;> simp [isWaiting, st]
    refine ⟨q.whole.settled a1 a2 a4 a5 (by rw [a6]) ?_ (by rcases st with st | st <;> simp [st]) (by rcases st with st | st <;> simp [st]) nw ?_ ?_ ?_ ?_ (.inl lv) ?_,
      (settled_orders q.orders a2 a4 (.inr (.inr ?_))).none⟩
    · rw [a6]; symm
      refine List.filter_eq_self.mpr fun p hp => ?_
      simp only [decide_eq_true_eq]
      rintro rfl
      exact ni hp
    · rw [a3, ek, eh]; exact q.whole.homeless i
    · rw [a3]; rcases es with es | es <;> simp [isLive, es]
    · rw [a3]; rcases es with es | es <;> simp [es]
    · rw [a3]; rcases es with es | es <;> simp [isWaiting, es]
    · rw [a3]; exact fun _ => ⟨o, eh⟩
    · rw [a3]; exact ⟨by rcases es with es | es <;> simp [isOpenState, es], eh⟩
  unfold entrySent
  dsimp only
  split
  · exact q
  · exact q
  · rename_i st _ _; exact key _ (by simp [isOpenState, st]) (.inl st) (.inl rfl) rfl rfl
  · rename_i st; exact key _ (by simp [isOpenState, st]) (.inr st) (.inr rfl) rfl rfl
  · exact q

theorem replyDeadline_step {i : Fin 16} (st : (entry i s).state = .sent ∨ (entry i s).state = .cancelSent) :
    TableStep s (replyDeadline i s) := by
  have lv : isLive (entry i s) = true := by rcases st with st | st <;> simp [isLive, st]
  have nw : isWaiting (entry i s) = false := by rcases st with st | st <;> simp [isWaiting, st]
  have nh : hasItem (entry i s) = false := by rcases st with st | st <;> simp [hasItem, st]
  have np : (entry i s).state ≠ .localParked := by rcases st with st | st <;> simp [st]
  have nl : (entry i s).state ≠ .held := by rcases st with st | st <;> simp [st]
  have op : isOpenState (entry i s).state = true := by rcases st with st | st <;> simp [isOpenState, st]
  unfold replyDeadline
  dsimp only
  split
  · obtain ⟨c, hc⟩ : ∃ c, countRequestRetransmission (setEntry i { entry i s with attempts := (entry i s).attempts + 1 } s) =
      setEntry i { entry i s with attempts := (entry i s).attempts + 1 } (s.withCounters c) :=
    ⟨{ s.port.counters with requestRetransmissions := satInc s.port.counters.requestRetransmissions }, rfl⟩
    rw [hc]
    refine .trans (.of_slots (withCounters_slots c s)) ?_
    have eE : ∀ j, entry j (s.withCounters c) = entry j s := fun _ => rfl
    generalize s.withCounters c = a at *
    rw [← eE] at *
    split
    · obtain ⟨a1, a2, a3, a4, a5, a6, a7⟩ := cancel_after_set i { entry i a with attempts := (entry i a).attempts + 1 } a
      refine .of_engine a1 fun q => q.whole.queued (q.orders.but none) a1 a2 a4 a5 a6 (queued_items q.whole nh) a7 nl np nw
        (by rw [a3]; exact q.whole.homeless i) (by rw [a3]; exact .inr rfl) (.inl lv) (.inl rfl) (by rw [a3]; exact fun _ => rfl) ?_
      intro k hk j hj h
      rw [a3] at hk
      by_contra f
      exact hj (q.whole.oneOpen k j i h hk (by simpa using f) op)
    · obtain ⟨a1, a2, a3, a4, a5, a6, a7⟩ := queued_after_set i { entry i a with attempts := (entry i a).attempts + 1 } a
      refine .of_engine a1 fun q => q.whole.queued (q.orders.but none) a1 a2 a4 a5 a6 (queued_items q.whole nh) a7 nl np nw
        (by rw [a3]; exact q.whole.homeless i) (by rw [a3]; exact .inl rfl) (.inl lv) (.inl rfl) (by rw [a3]; exact fun _ => rfl) ?_
      intro k hk j hj h
      rw [a3] at hk
      by_contra f
      exact hj (q.whole.oneOpen k j i h hk (by simpa using f) op)
  · exact finishAndPromote_step _ lv np

theorem beginCancel_step {i : Fin 16} (c : CancelCause) (st : (entry i s).state = .parked) :
    TableStep s (beginCancel i c s) := by
  have lv : isLive (entry i s) = true := by simp [isLive, st]
  have nw : isWaiting (entry i s) = false := by simp [isWaiting, st]
  have nh : hasItem (entry i s) = false := by simp [hasItem, st]
  have np : (entry i s).state ≠ .localParked := by simp [st]
  have nl : (entry i s).state ≠ .held := by simp [st]
  have no : isOpenState (entry i s).state = false := by simp [isOpenState, st]
  unfold beginCancel
  dsimp only
  split
  · rename_i h eh
    split
    · rename_i op
      obtain ⟨a1, a2, a3, a4, a5, a6⟩ := join_after_set i h { entry i s with attempts := 0, deadline := none, cancelCause := c, state := .cancelWaiting } s
      exact .of_engine a1 fun q => q.joined a1 a2 a4 a5 a6 (queued_items q.whole nh) nl np nw no
        (by rw [a3]; exact q.whole.homeless i) (by rw [a3]; exact eh) (by rw [a3]; exact .inr rfl) (.inl lv) op
    · rename_i op
      obtain ⟨a1, a2, a3, a4, a5, a6, a7⟩ := cancel_after_set i { entry i s with attempts := 0, deadline := none, cancelCause := c } s
      refine .of_engine a1 fun q => q.whole.queued (q.orders.but none) a1 a2 a4 a5 a6 (queued_items q.whole nh) a7 nl np nw
        (by rw [a3]; exact q.whole.homeless i) (by rw [a3]; exact .inr rfl) (.inl lv) (.inl rfl) (by rw [a3]; exact fun _ => rfl) ?_
      intro k hk j _ hj
      rw [a3] at hk
      rw [eh] at hk
      cases hk
      exact exchangeShut op j hj
  · exact .refl s

theorem actOnEntry_step (i : Fin 16) (s : State) : TableStep s (actOnEntry i s) := by
  unfold actOnEntry
  split
  · split
    · rename_i e; exact replyDeadline_step (.inl e)
    · rename_i e; exact replyDeadline_step (.inr e)
    · rename_i e; exact beginCancel_step _ e
    · rename_i e; exact finishAndPromote_step _ (by simp [isLive, e]) (by simp [e])
    · exact .refl s
  · exact .refl s

/-! ### Replies -/

theorem awaitsReply_facts {e : Entry} (h : awaitsReply e = true) :
    isLive e = true ∧ e.state ≠ .localParked ∧ isOpenState e.state = true ∧ isWaiting e = false ∧ e.state ≠ .held := by
  have : e.state = .sent ∨ e.state = .queued := by simp [awaitsReply] at h; tauto
  rcases this with h | h <;> simp [isLive, isOpenState, isWaiting, h]

theorem awaitsCancelReply_facts {e : Entry} (h : awaitsCancelReply e = true) :
    isLive e = true ∧ e.state ≠ .localParked ∧ isOpenState e.state = true ∧ isWaiting e = false ∧ e.state ≠ .held := by
  have : e.state = .cancelSent ∨ e.state = .cancelQueued := by simp [awaitsCancelReply] at h; tauto
  rcases this with h | h <;> simp [isLive, isOpenState, isWaiting, h]

theorem isCancelState_facts {e : Entry} (h : isCancelState e = true) : isLive e = true ∧ e.state ≠ .localParked := by
  have : e.state = .cancelWaiting ∨ e.state = .cancelQueued ∨ e.state = .cancelSent := by simp [isCancelState] at h; tauto
  rcases this with h | h | h <;> simp [isLive, h]

theorem takePutReply_step (x : Fin 32) (g : Byte) (r : PutResult) (s : State) : TableStep s (takePutReply x g r s) := by
  unfold takePutReply
  split
  · rename_i h
    obtain ⟨a, b, -⟩ := awaitsReply_facts (Bool.and_eq_true_iff.mp h).2
    exact finishAndPromote_step _ a b
  · exact .refl s

/-- Entry `i`, with an exchange open, leaves the exchange without finishing, its item withdrawn, and promotion follows. -/
theorem leaveExchange_step {i : Fin 16} {e : Entry} {x : Option (Fin 32)} (op : isOpenState (entry i s).state = true)
    (es : e.state = .parked ∨ e.state = .late) (eh : e.home = (entry i s).home) (ek : e.kind = (entry i s).kind) (hx : x = (entry i s).home) :
    TableStep s (promoteFor x (setEntry i e (withdrawEntry i s))) := by
  have lv : isLive (entry i s) = true := by revert op; cases h : (entry i s).state <;> simp [isLive, isOpenState, h]
  have nw : isWaiting (entry i s) = false := by revert op; cases h : (entry i s).state <;> simp [isWaiting, isOpenState, h]
  have np : (entry i s).state ≠ .localParked := by intro h; rw [h] at op; simp [isOpenState] at op
  have nl : (entry i s).state ≠ .held := by intro h; rw [h] at op; simp [isOpenState] at op
  obtain ⟨a1, a2, a3, a4, a5, a6⟩ := setEntry_views i e (withdrawEntry i s)
  have w : EngineWork s (withdrawEntry i s) := ⟨rfl, rfl, rfl⟩
  refine .of_engine ((w.trans a1).trans (promoteFor_engine _ _)) fun q => promoteFor_requests _ ?_ ?_
  · refine q.whole.settled (w.trans a1) a2 a4 a5 (by rw [a6]; rfl) (by rw [a6]; exact standing_withdrawFrom _ _) nl np nw ?_ ?_ ?_ ?_ (.inl lv) ?_
    · rw [a3, ek, eh]; exact q.whole.homeless i
    · rw [a3]; rcases es with h | h <;> simp [isLive, h]
    · rw [a3]; rcases es with h | h <;> simp [h]
    · rw [a3]; rcases es with h | h <;> simp [isWaiting, h]
    · rw [a3]; rcases es with h | h <;> simp [isOpenState, h]
  · exact settled_orders (s := s) q.orders a2 a4 (.inl hx.symm)

theorem takeParked_step {i : Fin 16} (h : awaitsReply (entry i s) = true) : TableStep s (takeParked i s) := by
  obtain ⟨lv, np, op, nw, nl⟩ := awaitsReply_facts h
  unfold takeParked
  dsimp only
  have ee : entry i (withdrawEntry i s) = entry i s := rfl
  rw [ee]
  split
  · -- the item leaves the queue and the CANCEL item enters it
    generalize hb : withdrawEntry i s = b
    have be : ∀ j, entry j b = entry j s := fun j => by rw [← hb]; rfl
    have bw : EngineWork s b := by rw [← hb]; exact ⟨rfl, rfl, rfl⟩
    have bn : Originator.entry i ∉ standing b.queue.classB := by rw [← hb]; exact withdrawn_items _ _
    have bq : ∀ q : Requests s, Requests b := fun q => by
      rw [← hb]
      obtain ⟨q1, q2, q3, q4, q5, q6, q7, q8, q9, q10, q11, q12, q13⟩ := q.whole
      have e : standing (withdrawEntry i s).queue.classB = (standing s.queue.classB).filter fun p => p ≠ .entry i := standing_withdrawFrom _ _
      exact ⟨⟨q1, q2, q3, q4, q5, q6, q7, q8, q9, by rw [e]; exact q10.filter _,
          by rw [e]; exact fun o ho => q11 o (List.mem_filter.mp ho).1, q12,
        by rw [e]; exact (List.length_filter_le _ _).trans q13⟩, q.orders⟩
    rw [← be] at *
    refine .trans (.of_engine bw bq) ?_
    obtain ⟨a1, a2, a3, a4, a5, a6, a7⟩ := cancel_after_set i { entry i b with attempts := 0, cancelCause := .localCause } b
    refine .of_engine a1 fun q => q.whole.queued (q.orders.but none) a1 a2 a4 a5 a6 bn a7 nl np nw
        (by rw [a3]; exact q.whole.homeless i) (by rw [a3]; exact .inr rfl) (.inl lv) (.inl rfl) (by rw [a3]; exact fun _ => rfl) ?_
    intro k hk j hj h
    rw [a3] at hk
    by_contra f
    exact hj (q.whole.oneOpen k j i h hk (by simpa using f) op)
  · exact leaveExchange_step op (.inl rfl) rfl rfl rfl

theorem takeTakeReply_step (x : Fin 32) (g : Byte) (r : TakeResult) (s : State) :
    TableStep s (takeTakeReply x g r s) := by
  unfold takeTakeReply
  dsimp only
  split
  · split
    · split
      · rename_i h; exact takeParked_step h
      · exact .refl s
    · split
      · rename_i h; obtain ⟨a, b, -⟩ := awaitsReply_facts h; exact finishAndPromote_step _ a b
      · exact .refl s
    · split
      · rename_i h; obtain ⟨a, b, -⟩ := awaitsReply_facts h; exact finishAndPromote_step _ a b
      · exact .refl s
    · split
      · rename_i h; obtain ⟨a, b, -⟩ := awaitsReply_facts h; exact finishAndPromote_step _ a b
      · exact .refl s
    · split
      · rename_i h; obtain ⟨a, b, -⟩ := awaitsReply_facts h; exact finishAndPromote_step _ a b
      · exact .refl s
    · split
      · rename_i h
        have : isLive (entry (slotOfTag g) s) = true ∧ (entry (slotOfTag g) s).state ≠ .localParked := by
          rcases Bool.or_eq_true_iff.mp h with h | h
          · rcases Bool.or_eq_true_iff.mp h with h | h
            · exact ⟨(awaitsReply_facts h).1, (awaitsReply_facts h).2.1⟩
            · have h : (entry (slotOfTag g) s).state = .parked := by simpa using h
              simp [isLive, h]
          · exact isCancelState_facts h
        exact finishAndPromote_step _ this.1 this.2
      · exact .refl s
  · exact .refl s

theorem takeCancelReply_step (x : Fin 32) (g : Byte) (r : CancelResult) (s : State) :
    TableStep s (takeCancelReply x g r s) := by
  unfold takeCancelReply
  dsimp only
  split
  · rename_i h
    obtain ⟨lv, np, op, -⟩ := awaitsCancelReply_facts (Bool.and_eq_true_iff.mp h).2
    split
    · exact leaveExchange_step op (.inr rfl) rfl rfl rfl
    · exact finishAndPromote_step _ lv np
  · exact .refl s

theorem takeDeliver_step (x : Fin 32) (g q : Byte) (o : Fin 32) (data : List Byte) (s : State) :
    TableStep s (takeDeliver x g q o data s) := by
  unfold takeDeliver
  dsimp only
  split
  · exact countShed_step s
  · split
    · rename_i h
      have h := (Bool.and_eq_true_iff.mp h).2
      have lv : isLive (entry (slotOfTag g) s) = true ∧ (entry (slotOfTag g) s).state ≠ .localParked := by
        unfold acceptsDeliver at h
        rcases Bool.or_eq_true_iff.mp h with h | h
        · rcases Bool.or_eq_true_iff.mp h with h | h
          · rcases Bool.or_eq_true_iff.mp h with h | h
            · exact ⟨(awaitsReply_facts h).1, (awaitsReply_facts h).2.1⟩
            · have h : (entry (slotOfTag g) s).state = .parked := by simpa using h
              simp [isLive, h]
          · exact isCancelState_facts h
        · have h : (entry (slotOfTag g) s).state = .late := by simpa using h
          simp [isLive, h]
      generalize hi : slotOfTag g = i at *
      have sh : SameShape (entry i s) { entry i s with result := { status := none, origin := o, data := data } } := ⟨rfl, rfl, rfl, rfl⟩
      obtain ⟨a1, a2, a3, a4, a5, a6⟩ := setEntry_views i { entry i s with result := { status := none, origin := o, data := data } } s
      have k := fun q : Requests s => setEntry_shape sh q
      generalize ha : setEntry i { entry i s with result := { status := none, origin := o, data := data } } s = a at *
      have la : isLive (entry i a) = true := by rw [a3]; exact lv.1
      have na : (entry i a).state ≠ .localParked := by rw [a3]; exact lv.2
      have hh : (entry i a).home = (entry i s).home := by rw [a3]
      have an := answer_slots x (.deliverAck g q .accepted) (finish i .delivered a)
      have w := a1.trans (finish_engine i .delivered a)
      have aw : EngineWork (finish i .delivered a) (answer x (.deliverAck g q .accepted) (finish i .delivered a)) :=
        ⟨by unfold answer enqueueA; split <;> rfl, an.control, an.directory⟩
      refine .of_engine ((w.trans aw).trans (promoteFor_engine _ _)) fun qs => promoteFor_requests _ ?_ ?_
      · refine RequestsWhole.same (finish_whole _ (k qs).whole la fun v y hv ly e => ?_) an.engine an.control
          (fun v y => by rw [an.waiters]; exact id) an.classB an.classA
        have := ((k qs).whole.takers.1 v y hv ly).1
        rw [e] at this; exact na this
      · have o := finish_orders (i := i) (x := (entry i s).home) .delivered ((k qs).orders.but _) (.inl hh)
        intro h hx hw
        have e1 : ∀ j, entry j (answer x (.deliverAck g q .accepted) (finish i .delivered a)) = entry j (finish i .delivered a) :=
          fun j => by simp [entry, an.engine]
        rw [exchangeOpen_iff]
        simp only [e1]
        exact (exchangeOpen_iff _ _).mp (o h hx (by simpa [waitingOrder, an.engine] using hw))
    · exact answer_step _ _ _

theorem requestCancel_step (i : Fin 16) (s : State) : TableStep s (requestCancel i s) :=
  .of_engine ⟨rfl, rfl, rfl⟩ fun q => setEntry_shape ⟨rfl, rfl, rfl, rfl⟩ q

/-! ### A mailbox or a home disappears -/

theorem mailboxGone_step (m : Fin 64) (h : Fin 32) (s : State) : TableStep s (mailboxGone m h s) := by
  have one : ∀ i s, EngineWork s (goneAt m h i s) ∧ (RequestsWhole s → OrdersOpenBut (some h) s →
      RequestsWhole (goneAt m h i s) ∧ OrdersOpenBut (some h) (goneAt m h i s)) := by
    intro i s
    have key : ∀ st, isLive (entry i s) = true → (entry i s).state ≠ .localParked → (entry i s).home = some h →
        EngineWork s (finish i st s) ∧ (RequestsWhole s → OrdersOpenBut (some h) s →
          RequestsWhole (finish i st s) ∧ OrdersOpenBut (some h) (finish i st s)) := by
      intro st lv np hh
      refine ⟨finish_engine i st s, fun q o => ⟨finish_whole st q lv fun v y hv ly e => ?_,
          finish_orders st o (.inl hh)⟩⟩
      have := (q.takers.1 v y hv ly).1
      rw [e] at this; exact np this
    unfold goneAt
    split
    · rename_i c
      have hh : (entry i s).home = some h := by simpa using (Bool.and_eq_true_iff.mp c).2
      split
      · rename_i e; exact key _ (by simp [isLive, e]) (by simp [e]) hh
      · rename_i e; exact key _ (by simp [isLive, e]) (by simp [e]) hh
      · rename_i e; exact key _ (by simp [isLive, e]) (by simp [e]) hh
      · rename_i e; exact key _ (by simp [isLive, e]) (by simp [e]) hh
      · rename_i e; exact key _ (by simp [isLive, e]) (by simp [e]) hh
      · exact ⟨.refl s, fun a b => ⟨a, b⟩⟩
    · exact ⟨.refl s, fun a b => ⟨a, b⟩⟩
  have all := forEach_keeps (fun t => EngineWork s t ∧ (RequestsWhole s → OrdersOpenBut (some h) s → RequestsWhole t ∧
      OrdersOpenBut (some h) t))
    (goneAt m h) (fun i t k => ⟨k.1.trans (one i t).1, fun a b => (one i t).2 (k.2 a b).1 (k.2 a b).2⟩) s ⟨.refl s,
        fun a b => ⟨a, b⟩⟩
  unfold mailboxGone
  refine .of_engine (all.1.trans (promote_engine h _)) fun q => ?_
  obtain ⟨a, b⟩ := all.2 q.whole (q.orders.but _)
  exact promote_requests h a b

theorem homeLost_step {x : Fin 32} (ne : x ≠ self s) : TableStep s (homeLost x s) := by
  have one : ∀ i t, self t = self s → EngineWork t (homeLostAt x i t) ∧ (RequestsWhole t → OrdersOpenBut (some x) t →
      RequestsWhole (homeLostAt x i t) ∧ OrdersOpenBut (some x) (homeLostAt x i t)) := by
    intro i t se
    unfold homeLostAt
    split
    · rename_i c
      have hh : (entry i t).home = some x := by simpa using (Bool.and_eq_true_iff.mp c).1
      have lv := (Bool.and_eq_true_iff.mp c).2
      refine ⟨finish_engine i _ t, fun q o => ⟨finish_whole _ q lv fun v y hv ly e => ?_, finish_orders _ o (.inl hh)⟩⟩
      have := q.localHome _ (q.takers.1 v y hv ly).1
      rw [e, hh, se] at this
      exact ne (Option.some.inj this)
    · exact ⟨.refl t, fun a b => ⟨a, b⟩⟩
  have gone : ∀ i t, ¬ ((entry i (homeLostAt x i t)).home = some x ∧ isLive (entry i (homeLostAt x i t)) = true) := by
    intro i t
    unfold homeLostAt
    split
    · rintro ⟨-, b⟩
      obtain ⟨-, -, -, -, -, -, -, f⟩ := finish_engine_eq i .homeLost t
      rcases f with ⟨-, f⟩ | ⟨-, f⟩ <;> rw [f] at b <;> simp [isLive, Entry.blank] at b
    · rename_i c; intro d; exact c (by simpa using d)
  have keep : ∀ i j t, ¬ ((entry j t).home = some x ∧ isLive (entry j t) = true) →
      ¬ ((entry j (homeLostAt x i t)).home = some x ∧ isLive (entry j (homeLostAt x i t)) = true) := by
    intro i j t h
    by_cases e : j = i
    · subst e; exact gone j t
    · unfold homeLostAt
      split
      · rw [(finish_engine_eq i .homeLost t).1 j e]; exact h
      · exact h
  have all : ∀ (l : List (Fin 16)) t, self t = self s → 
      EngineWork t (l.foldl (fun s i => homeLostAt x i s) t) ∧ (RequestsWhole t → OrdersOpenBut (some x) t →
      RequestsWhole (l.foldl (fun s i => homeLostAt x i s) t) ∧
          OrdersOpenBut (some x) (l.foldl (fun s i => homeLostAt x i s) t)) ∧
      ∀ j, (j ∈ l ∨ ¬ ((entry j t).home = some x ∧ isLive (entry j t) = true)) →
        ¬ ((entry j (l.foldl (fun s i => homeLostAt x i s) t)).home = some x ∧
            isLive (entry j (l.foldl (fun s i => homeLostAt x i s) t)) = true) := by
    intro l
    induction l with
    | nil => intro t _; exact ⟨.refl t, fun a b => ⟨a, b⟩, fun j h => h.resolve_left (by simp)⟩
    | cons i l ih =>
      intro t se
      obtain ⟨o1, o2⟩ := one i t se
      obtain ⟨a, b, c⟩ := ih (homeLostAt x i t) ((self_of o1.control).trans se)
      refine ⟨o1.trans a, fun y z => b (o2 y z).1 (o2 y z).2, fun j h => c j ?_⟩
      rcases h with h | h
      · rcases List.mem_cons.mp h with rfl | h
        · exact .inr (gone j t)
        · exact .inl h
      · exact .inr (keep i j t h)
  obtain ⟨a, b, c⟩ := all (List.finRange 16) s rfl
  unfold homeLost Machine.forEach
  refine .of_engine a fun q => ?_
  obtain ⟨y, z⟩ := b q.whole (q.orders.but _)
  refine ⟨y, fun h hw => ?_⟩
  by_cases e : x = h
  · subst e
    obtain ⟨i, hi⟩ := List.exists_mem_of_ne_nil _ hw
    have := (y.waiting x i).mp hi
    exact absurd ⟨this.2, (isWaiting_not_item this.1).2.1⟩ (c i (.inl (List.mem_finRange i)))
  · exact z h (by simpa using e) hw

/-! ### The held list -/

theorem moveHeldIn_step (s : State) : TableStep s (moveHeldIn s) := by
  unfold moveHeldIn
  split
  · exact .refl s
  · rename_i i rest e
    dsimp only
    generalize hr : recordOf i _ _ = r
    generalize ht : freeTheEntry i (appendRecord r (s.withEngine { s.engine with held := rest })) = t
    have w : EngineWork s t := by rw [← ht]; exact ⟨rfl, rfl, rfl⟩
    have f1 : ∀ j, j ≠ i → entry j t = entry j s := fun j hj => by
      rw [← ht]; unfold freeTheEntry; rw [entry_setEntry, if_neg (fun e => hj e.symm)]; rfl
    have f2 : entry i t = Entry.blank ((entry i s).generation + 1) := by
      rw [← ht]; unfold freeTheEntry; rw [entry_setEntry, if_pos rfl]; rfl
    have f3 : t.engine.held = rest := by rw [← ht]; rfl
    have f4 : ∀ h, waitingOrder h t = waitingOrder h s := fun h => by rw [← ht]; rfl
    have f5 : t.queue = s.queue := by rw [← ht]; rfl
    have e3 : self t = self s := self_of w.control
    have e4 : ∀ j, j ≠ i → entryTag j t = entryTag j s := fun j hj => by simp [entryTag, f1 j hj]
    have e5 : ∀ v, waiter v t = waiter v s := fun v => by simp [waiter, w.store]
    have ec := w.control
    have e6 : (entry i t).state = .free := by rw [f2]; rfl
    have e7 : (entry i t).home = none := by rw [f2]; rfl
    have e8 : isLive (entry i t) = false := by simp [isLive, e6]
    have e9 : isWaiting (entry i t) = false := by simp [isWaiting, e6]
    refine .of_engine w fun q => ?_
    have hi : (entry i s).state = .held := (q.whole.held i).mp (by rw [e]; simp)
    have g1 : isWaiting (entry i s) = false := by simp [isWaiting, hi]
    have g2 : hasItem (entry i s) = false := by simp [hasItem, hi]
    have g3 : isOpenState (entry i s).state = false := by simp [isOpenState, hi]
    refine ⟨?_, fun h hk => ?_⟩
    · obtain ⟨q1, q2, q3, q4, q5, q6, q7, ⟨q8, q8'⟩, q9, q10, q11, q12, q13⟩ := q.whole
      rw [e, List.nodup_cons] at q1
      clear f2 w
      refine ⟨by rw [f3]; exact q1.2, ?_, by simpa [f4] using q3, ?_, ?_, ?_, ?_, ⟨?_, ?_⟩, ?_, by rwa [f5], ?_,
          by rwa [f5], by rwa [f5]⟩
      · intro j; rw [f3]; have := q2 j; rw [e] at this; grind
      · intro h j; rw [f4]; grind
      · grind
      · grind
      · grind
      · grind
      · grind
      · intro h j; rw [ec] at h; have := q9 h j; grind
      · intro o ho; rw [f5] at ho; obtain ⟨j, rfl, hj⟩ := q11 o ho; exact ⟨j, rfl, by grind⟩
    · rw [f4] at hk
      rw [exchangeOpen_iff]
      obtain ⟨j, y, z⟩ := (exchangeOpen_iff _ _).mp (q.orders h hk)
      have : j ≠ i := by rintro rfl; rw [g3] at z; cases z
      exact ⟨j, by rwa [f1 j this], by rwa [f1 j this]⟩

/-- The CLAIM or RELEASE entry of a mailbox finishes. -/
theorem finishBroadcast_step {k : RequestKind} (hk : k = .claim ∨ k = .release) (m : Fin 64) (st : Status) (s : State) :
    TableStep s (finishBroadcast k m st s) := by
  unfold finishBroadcast
  split
  · rename_i i hi
    have := List.find?_some hi
    simp only [Bool.and_eq_true, decide_eq_true_eq] at this
    obtain ⟨⟨a, b⟩, c⟩ := this
    refine .of_engine (finish_engine i st s) fun q => ⟨finish_whole st q.whole (by simp [isLive, c]) fun v y hv ly e => ?_,
      (finish_orders st (q.orders.but none) (.inl (q.whole.homeless i (by rw [a]; exact hk)))).none⟩
    have := (q.whole.takers.1 v y hv ly).1
    rw [e, c] at this; cases this
  · exact .refl s

end Sys2Proof.Machine
end

