-- ==== Sys2Proof/Laws/Frames.lean ====
section
/-! SUPPORT. The outcome of an own frame at the item queue as a step of the tables (R69, R70, R140, R158). -/

namespace Sys2Proof.Machine

variable {s t u : State}

/-! ### The item queue at a frame -/

/-- The part of a step of the tables that the requests have no part in. -/
structure StoreStep (s t : State) : Prop where
  control : t.control = s.control
  directory : t.directory = s.directory
  slots : ∀ k, (hostedSlot k t).state = (hostedSlot k s).state ∧ (hostedSlot k t).mailbox = (hostedSlot k s).mailbox
  sound : StoreSound s → StoreSound t
  pairs : StoreSound s → PairsServed s → PairsServed t

theorem TableStep.storeStep (h : TableStep s t) : StoreStep s t :=
  ⟨h.work.control, h.work.directory, h.work.slots, h.work.sound, h.pairs⟩

theorem StoreStep.refl (s : State) : StoreStep s s := (TableStep.refl s).storeStep

theorem StoreStep.trans (h : StoreStep s t) (k : StoreStep t u) : StoreStep s u :=
  ⟨k.control.trans h.control, k.directory.trans h.directory, fun i => ⟨(k.slots i).1.trans (h.slots i).1,
      (k.slots i).2.trans (h.slots i).2⟩,
    fun a => k.sound (h.sound a), fun a b => k.pairs (h.sound a) (h.pairs a b)⟩

theorem StoreStep.tables (h : StoreStep s t) (q : Requests s → Requests t) : TableStep s t :=
  ⟨⟨h.control, h.directory, h.slots, h.sound, q⟩, h.pairs⟩

theorem StoreStep.of_engine (h : EngineWork s t) : StoreStep s t := by
  have k : TableStep s ({ t with engine := s.engine, queue := s.queue } : State) :=
    .of_engine ⟨h.store, h.control, h.directory⟩ fun q => q.same rfl h.control (fun w r => by simp [waiter, h.store]) rfl fun o ho => .inl ho
  have l : StoreStep ({ t with engine := s.engine, queue := s.queue } : State) t :=
    ⟨rfl, rfl, fun _ => ⟨rfl, rfl⟩, fun p => p.same (fun _ => rfl) (fun _ => rfl) (fun _ => rfl) (fun _ => rfl),
        fun _ => id⟩
  exact k.storeStep.trans l

/-- The lists lose items or keep them. -/
theorem queue_step (w : EngineWork s t) (he : t.engine = s.engine)
    (hb : (standing t.queue.classB).Sublist (standing s.queue.classB))
    (ha : ∀ o ∈ standing t.queue.classA, o ∈ standing s.queue.classA) : TableStep s t := by
  refine .of_engine w fun q => ⟨?_, q.orders.same he⟩
  have k : RequestsWhole ({ t with queue := s.queue } : State) :=
    q.whole.same (t := { t with queue := s.queue }) he w.control (fun v r => by simp [waiter, w.store]) rfl fun o ho => .inl ho
  obtain ⟨q1, q2, q3, q4, q5, q6, q7, q8, q9, q10, q11, q12, q13⟩ := k
  exact ⟨q1, q2, q3, q4, q5, q6, q7, q8, q9, q10.sublist hb, fun o ho => q11 o (hb.subset ho),
      fun o ho => q12 o (ha o ho),
    hb.length_le.trans q13⟩

theorem abortFrame_step (s : State) : TableStep s (abortFrame s) := by
  refine .trans (queue_step (t := s.withQueue { classA := unmark s.queue.classA, classB := unmark s.queue.classB, onAir := none }) ⟨rfl, rfl, rfl⟩ rfl ?_ ?_)
    (.of_slots (offerPlaces_slots _))
  · rw [withQueue_queue, standing_unmark]
  · rw [withQueue_queue, standing_unmark]; exact fun o => id

theorem tracker_step (k : TurnTracker) (s : State) : TableStep s (s.withTracker k) :=
  queue_step ⟨rfl, rfl, rfl⟩ rfl (.refl _) fun _ => id

theorem line_step (k : LineUnit) (s : State) : TableStep s (s.withLine k) :=
  queue_step ⟨rfl, rfl, rfl⟩ rfl (.refl _) fun _ => id

theorem tellSent_store (q : QueuedItem) (s : State) : StoreStep s (tellSent s q) ∧ (tellSent s q).queue = s.queue := by
  unfold tellSent
  split
  · exact ⟨.refl s, rfl⟩
  · split
    · exact ⟨.refl s, rfl⟩
    · exact ⟨.of_engine (entrySent_views _ s).1, (entrySent_views _ s).2⟩
    · refine ⟨(TableStep.of_slots (deliverySent_slots _ s)).storeStep, ?_⟩
      unfold deliverySent; split <;> rfl

/-- An item on air is the only one that stands for its originator. -/
theorem standing_split {l : List QueuedItem} (n : (standing l).Nodup) {q : QueuedItem} (h : q ∈ l) (a : q.onAir = true) (w : q.withdrawn = false) :
    q.originator ∉ standing (l.filter fun i => !i.onAir) := by
  induction l with
  | nil => simp at h
  | cons p l ih =>
    have sub : (standing l).Sublist (standing (p :: l)) := by
      simp only [standing, List.filter_cons]
      split
      · exact List.sublist_cons_self _ _
      · exact .refl _
    rcases List.mem_cons.mp h with rfl | h
    · rw [List.filter_cons, a]
      simp only [Bool.not_true, Bool.false_eq_true, if_false]
      intro m
      have m' := (standing_filter (fun i => !i.onAir) l).subset m
      have : standing (q :: l) = q.originator :: standing l := by simp [standing, w]
      rw [this, List.nodup_cons] at n
      exact n.1 m'
    · have nl := n.sublist sub
      have := ih nl h
      rw [List.filter_cons]
      split
      · intro m
        simp only [standing, List.filter_cons] at m
        split at m
        · rename_i pw
          rcases List.mem_cons.mp m with e | m
          · have e2 : standing (p :: l) = p.originator :: standing l := by
              have : (!p.withdrawn) = true := pw
              simp [standing, this]
            rw [e2, List.nodup_cons] at n
            exact n.1 (by rw [← e]; exact mem_standing.mpr ⟨q, h, w, rfl⟩)
          · exact this m
        · exact this m
      · exact this

theorem frameSent_step (s : State) : TableStep s (frameSent s) := by
  unfold frameSent
  split
  · exact .refl s
  · rename_i f _
    dsimp only
    generalize hs1 : (if f.presence = true then setPresenceCounter 0 s else s) = s1
    have k1 : TableStep s s1 := by rw [← hs1]; split <;> exact tracker_step _ s
    have e1 : s1.queue = s.queue := by rw [← hs1]; split <;> rfl
    have k2 : TableStep s1 (s1.withQueue (dropSent s.queue)) := by
      refine queue_step ⟨rfl, rfl, rfl⟩ rfl ?_ ?_
      · rw [e1]; exact standing_filter _ _
      · rw [e1]; exact fun o ho => (standing_filter _ _).subset ho
    have told : ∀ (l : List QueuedItem) (u : State),
        (∀ q ∈ l, q.withdrawn = false → ∀ i, q.originator = .entry i → Originator.entry i ∉ standing u.queue.classB) →
        Requests u → Requests (l.foldl tellSent u) := by
      intro l
      induction l with
      | nil => exact fun u _ => id
      | cons q l ih =>
        intro u hu r
        obtain ⟨-, b⟩ := tellSent_store q u
        refine ih (tellSent u q) (fun p hp => by rw [b]; exact hu p (List.mem_cons_of_mem _ hp)) ?_
        unfold tellSent
        split
        · exact r
        · rename_i w
          split
          · exact r
          · rename_i i e; exact (entrySent_step (hu q (by simp) (by simpa using w) i e)).work.requests r
          · exact (deliverySent_slots _ u).tables.requests r
    have k3 : TableStep s1 ((onAirItems s1.queue).foldl tellSent (s1.withQueue (dropSent s1.queue))) := by
      rw [e1]
      refine (k2.storeStep.trans (foldl_keeps (StoreStep _) tellSent (fun t p k => k.trans (tellSent_store p t).1) _ _ (.refl _))).tables fun q => ?_
      · refine told _ _ (fun p hp w i e => ?_) (k2.work.requests q)
        rw [withQueue_queue]
        obtain ⟨hp, a⟩ := List.mem_filter.mp hp
        rcases List.mem_append.mp hp with hp | hp
        · have := q.whole.answers (.entry i) (by rw [e1]; exact mem_standing.mpr ⟨p, hp, w, e⟩) i
          exact absurd rfl this
        · rw [← e]
          exact standing_split (by rw [← e1]; exact q.whole.itemsOnce) hp a w
    rw [e1] at k3
    exact (k1.trans k3).trans (.of_slots (offerPlaces_slots _))

end Sys2Proof.Machine
end

