-- ==== Sys2Proof/Laws/Discard.lean ====
section
/-! SUPPORT. The discard of a mailbox and the agreement of the directory with the hosted slots (R88, R110, R121, R122). -/

namespace Sys2Proof.Machine

variable {s t u : State}

/-! ### The discard of a mailbox -/

theorem discardWaiter_tables (st : Status) (b : Bool) (w : Fin 32) (s : State) :
    TableWork s (discardWaiter st b w s) := by
  unfold discardWaiter
  split
  · rename_i r hr
    split
    · rename_i l
      split
      · rename_i c; exact finishTaker_tables st hr (by rw [c] at l; simpa [isLocal] using l)
      · exact (removeWaiter_tables w s).trans (revise_slots _ _ _ _ _).tables
    · exact .refl s
  · exact .refl s

/-- Waiters leave, and nothing else of the lists and the delivery slots changes. -/
structure WaitersLeft (s t : State) : Prop where
  records : ∀ v r, waiter v t = some r → waiter v s = some r
  lists : ∀ k v, v ∈ (hostedSlot k t).waiters → v ∈ (hostedSlot k s).waiters

theorem WaitersLeft.trans (h : WaitersLeft s t) (k : WaitersLeft t u) : WaitersLeft s u :=
  ⟨fun v r a => h.records v r (k.records v r a), fun i v a => h.lists i v (k.lists i v a)⟩

theorem removeWaiter_left {w : Fin 32} {r : Waiter} (hr : waiter w s = some r) :
    WaitersLeft s (removeWaiter w s) ∧ waiter w (removeWaiter w s) = none := by
  obtain ⟨v1, v2, -⟩ := removeWaiter_views hr
  refine ⟨⟨fun v x h => ?_, fun k v h => ?_⟩, by rw [v2, if_pos rfl]⟩
  · rw [v2] at h; split at h
    · cases h
    · exact h
  · rw [v1] at h; split at h
    · exact (List.mem_filter.mp h).1
    · exact h

theorem discardWaiter_left (st : Status) (b : Bool) (w : Fin 32) (s : State) :
    WaitersLeft s (discardWaiter st b w s) ∧ ∀ r, waiter w (discardWaiter st b w s) = some r →
        decide (r.requester = self s) ≠ b := by
  unfold discardWaiter
  split
  · rename_i r hr
    obtain ⟨k1, k2⟩ := removeWaiter_left hr
    split
    · split
      · have e : (finish (slotOfTag r.tag) st (removeWaiter w s)).store = (removeWaiter w s).store := (finish_engine _ _ _).store
        refine ⟨⟨fun v x h => k1.records v x (by simpa [waiter, e] using h),
            fun k v h => k1.lists k v (by simpa [hostedSlot, e] using h)⟩, fun x h => ?_⟩
        have : waiter w (removeWaiter w s) = some x := by simpa [waiter, e] using h
        rw [k2] at this; cases this
      · have e := revise_slots r.requester r.tag .parked .noMailbox (removeWaiter w s)
        refine ⟨⟨fun v x h => k1.records v x (by rwa [e.waiters] at h),
            fun k v h => k1.lists k v (by rwa [e.hosted] at h)⟩, fun x h => ?_⟩
        rw [e.waiters, k2] at h; cases h
    · rename_i l
      refine ⟨⟨fun v x h => h, fun k v h => h⟩, fun x h => ?_⟩
      rw [hr] at h; cases h; exact l
  · rename_i hr
    exact ⟨⟨fun v x h => h, fun k v h => h⟩, fun x h => by rw [hr] at h; cases h⟩

theorem discardWaiters_left (st : Status) (b : Bool) (l : List (Fin 32)) (s : State) :
    WaitersLeft s (l.foldl (fun s w => discardWaiter st b w s) s) ∧
    ∀ w ∈ l, ∀ r, waiter w (l.foldl (fun s w => discardWaiter st b w s) s) = some r →
        decide (r.requester = self s) ≠ b := by
  induction l generalizing s with
  | nil => exact ⟨⟨fun v x h => h, fun k v h => h⟩, fun w h => absurd h (by simp)⟩
  | cons w l ih =>
    obtain ⟨a, b'⟩ := discardWaiter_left st b w s
    obtain ⟨c, d⟩ := ih (discardWaiter st b w s)
    have e := self_of (discardWaiter_tables st b w s).control
    refine ⟨a.trans c, fun v hv r hr => ?_⟩
    rcases List.mem_cons.mp hv with rfl | hv
    · exact b' r (c.records _ _ hr)
    · have := d v hv r hr; rwa [e] at this

/-- After the two passes of the discard no waiter stands at the mailbox. -/
theorem discardWaiters_empty (st : Status) (h : Fin 16) (p : StoreSound s) :
    let s1 := (hostedSlot h s).waiters.foldl (fun s w => discardWaiter st true w s) s
    let s2 := (hostedSlot h s1).waiters.foldl (fun s w => discardWaiter st false w s) s1
    TableWork s s2 ∧ (hostedSlot h s2).waiters = [] := by
  intro s1 s2
  have w1 : TableWork s s1 := .foldl (fun s w => discardWaiter_tables st true w s) _ _
  have w2 : TableWork s1 s2 := .foldl (fun s w => discardWaiter_tables st false w s) _ _
  obtain ⟨a1, b1⟩ := discardWaiters_left st true (hostedSlot h s).waiters s
  obtain ⟨a2, b2⟩ := discardWaiters_left st false (hostedSlot h s1).waiters s1
  refine ⟨w1.trans w2, ?_⟩
  by_contra ne
  obtain ⟨w, hw⟩ := List.exists_mem_of_ne_nil _ ne
  obtain ⟨r, hr, -⟩ := ((w1.trans w2).sound p).listed.2.1 h w hw
  have h1 := a2.lists h w hw
  have h0 := a1.lists h w h1
  have r1 := a2.records w r hr
  have c2 := b2 w h1 r hr
  have c1 := b1 w h0 r r1
  rw [self_of w1.control] at c2
  cases e : decide (r.requester = self s) <;> simp_all

theorem discardDelivery_tables (h : Fin 16) (d : Fin 8) (s : State) : TableWork s (discardDelivery h d s) := by
  unfold discardDelivery
  split
  · split
    · exact (freeDelivery_tables d s).trans (revise_slots _ _ _ _ _).tables
    · exact .refl s
  · exact .refl s

theorem freeDelivery_views (d : Fin 8) (s : State) :
    (freeDelivery d s).store.hosted = s.store.hosted ∧
    ∀ e, delivery e (freeDelivery d s) = if e = d then none else delivery e s := by
  unfold freeDelivery
  split
  · refine ⟨rfl, fun e => ?_⟩
    show delivery e (setDelivery d _ _) = _
    rw [delivery_setDelivery, ite_symm_eq]; rfl
  · rename_i hd
    refine ⟨rfl, fun e => ?_⟩
    split
    · rename_i a; rw [a, hd]
    · rfl

theorem revise_views (x : Fin 32) (g : Byte) (o p : TakeOutcome) (s : State) :
    (revise x g o p s).store.hosted = s.store.hosted ∧ ∀ e, delivery e (revise x g o p s) = delivery e s := by
  unfold revise
  split <;> exact ⟨rfl, fun _ => rfl⟩

theorem discardDelivery_views (h : Fin 16) (d : Fin 8) (s : State) :
    (discardDelivery h d s).store.hosted = s.store.hosted ∧
    (∀ e x, delivery e (discardDelivery h d s) = some x → delivery e s = some x) ∧
    ∀ x, delivery d (discardDelivery h d s) = some x → x.hosted ≠ h := by
  unfold discardDelivery
  split
  · rename_i y hy
    split
    · obtain ⟨a, b⟩ := freeDelivery_views d s
      obtain ⟨c, e⟩ := revise_views y.dest y.tag (.delivering d) .noMailbox (freeDelivery d s)
      refine ⟨c.trans a, fun f x hf => ?_, fun x hf => ?_⟩
      · rw [e, b] at hf; split at hf
        · cases hf
        · exact hf
      · rw [e, b, if_pos rfl] at hf; cases hf
    · rename_i ne
      exact ⟨rfl, fun _ _ => id, fun x hx => by rw [hy] at hx; cases hx; exact ne⟩
  · rename_i hy
    exact ⟨rfl, fun _ _ => id, fun x hx => by rw [hy] at hx; cases hx⟩

theorem discardDeliveries_views (h : Fin 16) (l : List (Fin 8)) (s : State) :
    (l.foldl (fun s d => discardDelivery h d s) s).store.hosted = s.store.hosted ∧
    (∀ e x, delivery e (l.foldl (fun s d => discardDelivery h d s) s) = some x → delivery e s = some x) ∧
    ∀ d ∈ l, ∀ x, delivery d (l.foldl (fun s d => discardDelivery h d s) s) = some x → x.hosted ≠ h := by
  induction l generalizing s with
  | nil => exact ⟨rfl, fun _ _ => id, fun d hd => absurd hd (by simp)⟩
  | cons d l ih =>
    obtain ⟨a, b, c⟩ := discardDelivery_views h d s
    obtain ⟨a', b', c'⟩ := ih (discardDelivery h d s)
    refine ⟨a'.trans a, fun e x hx => b e x (b' e x hx), fun e he x hx => ?_⟩
    rcases List.mem_cons.mp he with rfl | he
    · exact c x (b' _ x hx)
    · exact c' e he x hx

theorem freeCells_views (l : List (Fin 64)) (s : State) :
    (∀ k, hostedSlot k (l.foldl (fun s c => setCell c none s) s) = hostedSlot k s) ∧
    (∀ w, waiter w (l.foldl (fun s c => setCell c none s) s) = waiter w s) ∧
    (∀ d, delivery d (l.foldl (fun s c => setCell c none s) s) = delivery d s) ∧
    (∀ c, cell c (l.foldl (fun s c => setCell c none s) s) = if c ∈ l then none else cell c s) ∧
    (l.foldl (fun s c => setCell c none s) s).engine = s.engine ∧
        (l.foldl (fun s c => setCell c none s) s).queue = s.queue ∧
    (l.foldl (fun s c => setCell c none s) s).control = s.control ∧
    (l.foldl (fun s c => setCell c none s) s).directory = s.directory := by
  induction l generalizing s with
  | nil => simp
  | cons c l ih =>
    obtain ⟨a1, a2, a3, a4, a5, a6, a7, a8⟩ := ih (setCell c none s)
    refine ⟨a1, a2, a3, fun e => ?_, a5, a6, a7, a8⟩
    rw [List.foldl_cons, a4, cell_setCell]
    by_cases h : e ∈ l <;> by_cases k : c = e <;> simp [h, k, eq_comm]

/-- What the five steps of a discard leave of the tables. -/
structure SlotDropped (h : Fin 16) (s t : State) : Prop where
  control : t.control = s.control
  directory : t.directory = s.directory
  blank : (hostedSlot h t).state = .free
  slots : ∀ k, k ≠ h → (hostedSlot k t).state = (hostedSlot k s).state ∧
      (hostedSlot k t).mailbox = (hostedSlot k s).mailbox
  sound : StoreSound s → StoreSound t
  requests : Requests s → Requests t

theorem discardSteps_dropped (st : Status) (h : Fin 16) (s : State) : SlotDropped h s (discardSteps st h s) := by
  unfold discardSteps
  dsimp only
  have w1 : ∀ (l : List (Fin 32)) s, TableWork s (l.foldl (fun s w => discardWaiter st true w s) s) := fun l s => .foldl (fun s w => discardWaiter_tables st true w s) _ _
  have w2 : ∀ (l : List (Fin 32)) s, TableWork s (l.foldl (fun s w => discardWaiter st false w s) s) := fun l s => .foldl (fun s w => discardWaiter_tables st false w s) _ _
  have em := fun p : StoreSound s => discardWaiters_empty st h p
  dsimp only at em
  have w12 := (w1 (hostedSlot h s).waiters s).trans (w2 (hostedSlot h ((hostedSlot h s).waiters.foldl (fun s w => discardWaiter st true w s) s)).waiters _)
  generalize (hostedSlot h ((hostedSlot h s).waiters.foldl (fun s w => discardWaiter st true w s) s)).waiters.foldl (fun s w => discardWaiter st false w s)
    ((hostedSlot h s).waiters.foldl (fun s w => discardWaiter st true w s) s) = a at *
  have w3 : TableWork a (forEach (discardDelivery h) a) := .forEach (discardDelivery_tables h) a
  obtain ⟨d1, d2, d3⟩ := discardDeliveries_views h (List.finRange 8) a
  have d0 : (List.finRange 8).foldl (fun s d => discardDelivery h d s) a = forEach (discardDelivery h) a := rfl
  rw [d0] at d1 d2 d3
  generalize forEach (discardDelivery h) a = b at *
  have d3 : ∀ d x, delivery d b = some x → x.hosted ≠ h := fun d => d3 d (List.mem_finRange d)
  have hb : ∀ k, hostedSlot k b = hostedSlot k a := fun k => by simp [hostedSlot, d1]
  obtain ⟨c1, c2, c3, c4, c5, c6, c7, c8⟩ := freeCells_views (hostedSlot h b).messages b
  generalize (hostedSlot h b).messages.foldl (fun s c => setCell c none s) b = c at *
  have hs : ∀ k, hostedSlot k (setHosted h HostedSlot.blank c) = if k = h then HostedSlot.blank else hostedSlot k b := fun k => by
    rw [hostedSlot_setHosted, ite_symm_eq, c1]
  have ws : ∀ w, waiter w (setHosted h HostedSlot.blank c) = waiter w b := c2
  have ds : ∀ w, delivery w (setHosted h HostedSlot.blank c) = delivery w b := c3
  have cs : ∀ w, cell w (setHosted h HostedSlot.blank c) = if w ∈ (hostedSlot h b).messages then none else cell w b := c4
  have k := w12.trans w3
  refine ⟨c7.trans k.control, c8.trans k.directory, by rw [hs, if_pos rfl]; rfl,
      fun i hi => by rw [hs, if_neg hi]; exact k.slots i, fun p => ?_,
    fun q => (k.requests q).same c5 c7 (fun w r => by rw [ws]; exact id) (by rw [setHosted_queue, c6]) (by rw [setHosted_queue, c6]; exact fun o h => .inl h)⟩
  have q := k.sound p
  have wb : (hostedSlot h b).waiters = [] := by rw [hb]; exact (em p).2
  generalize setHosted h HostedSlot.blank c = t at *
  obtain ⟨p1, ⟨l1, l2, l3⟩, ⟨p3, p4, p5⟩, p6⟩ := q
  have dc : ∀ i, deliveryCount i t = deliveryCount i b := fun i => deliveryCount_same i fun e => by rw [ds]
  have dh : deliveryCount h b = 0 := by
    unfold deliveryCount
    rw [List.countP_eq_zero]
    intro d _
    cases e : delivery d b with
    | none => simp
    | some x => simpa [e] using d3 d x e
  refine ⟨p1.empty (h := h) (fun i => by rw [hs]; split <;> rfl) ds cs, ⟨fun i => ?_, fun i => ?_, fun i => ?_⟩,
      ⟨fun i => ?_, fun i w => ?_, fun w r hw => ?_⟩, fun i => ?_⟩
  · rw [load, dc, hs]; split
    · rename_i e; rw [e, dh]; simp [HostedSlot.blank]
    · exact l1 i
  · rw [hs]; split
    · intro e; exact absurd rfl e
    · exact l2 i
  · rw [dc, hs]; split
    · rename_i e; rw [e, dh]; exact fun _ => ⟨rfl, rfl, rfl⟩
    · exact l3 i
  · rw [hs]; split
    · exact List.nodup_nil
    · exact p3 i
  · rw [hs, ws]; split
    · intro e; simp [HostedSlot.blank] at e
    · exact p4 i w
  · rw [ws] at hw
    have := p5 w r hw
    rw [hs]; split
    · rename_i e; rw [e, wb] at this; simp at this
    · exact this
  · have : ∀ w, priorityOf w t = priorityOf w b := fun w => priorityOf_same (ws w)
    simp only [this]
    rw [hs]; split
    · exact List.Pairwise.nil
    · exact p6 i

/-! ### Directory entries -/

theorem dirEntry_set (m n : Fin 64) (e : DirEntry) (s : State) :
    dirEntry n (setDirEntry m e s) = if n = m then e else dirEntry n s := by
  rw [dirEntry_setDirEntry, ite_symm_eq]

/-- A directory entry that this station neither hosts nor claims gets another value of that sort. -/
theorem DirectoryAgrees.other (p : DirectoryAgrees s) {m : Fin 64} {e : DirEntry} (ds : ∀ n,
    dirEntry n t = if n = m then e else dirEntry n s)
    (hs : ∀ k, (hostedSlot k t).state = (hostedSlot k s).state ∧ (hostedSlot k t).mailbox = (hostedSlot k s).mailbox)
    (hc : t.control = s.control) (o1 : dirEntry m s ≠ .claiming) (o2 : dirEntry m s ≠ .homed (self s))
    (n1 : e ≠ .claiming) (n2 : e ≠ .homed (self s)) (on : e = .free ∨ s.control.state ≠ .offline) :
        DirectoryAgrees t := by
  have e2 : self t = self s := self_of hc
  obtain ⟨p1, p2, p3, p4, p5, p6⟩ := p
  constructor
  · intro h a; rw [(hs h).1] at a; rw [(hs h).2, ds]; have := p1 h a; grind
  · intro h a; rw [(hs h).1] at a; rw [(hs h).2, ds, e2]; have := p2 h a; grind
  · intro h k a b c; rw [(hs _).1] at a b; rw [(hs _).2, (hs _).2] at c; exact p3 h k a b c
  · intro n a; rw [ds, e2] at a
    split at a
    · rcases a with a | a <;> contradiction
    · obtain ⟨h, b, c⟩ := p4 n a; exact ⟨h, by rw [(hs h).1]; exact b, by rw [(hs h).2]; exact c⟩
  · intro a h; rw [hc] at a; rw [(hs h).1]; exact p5 a h
  · intro a n; rw [hc] at a; rw [ds]; split
    · exact on.resolve_right (fun b => b a)
    · exact p6 a n

/-- A hosted slot becomes FREE, and with it its mailbox leaves this station in the directory. -/
theorem DirectoryAgrees.dropped (p : DirectoryAgrees s) {h : Fin 16} {m : Fin 64} {e : DirEntry}
    (ds : ∀ n, dirEntry n t = if n = m then e else dirEntry n s) (hm : (hostedSlot h s).mailbox = m) (hu : (hostedSlot h s).state ≠ .free)
    (hh : (hostedSlot h t).state = .free)
    (hs : ∀ k, k ≠ h → (hostedSlot k t).state = (hostedSlot k s).state ∧
        (hostedSlot k t).mailbox = (hostedSlot k s).mailbox)
    (hc : t.control = s.control) (n1 : e ≠ .claiming) (n2 : e ≠ .homed (self s)) : DirectoryAgrees t := by
  have e2 : self t = self s := self_of hc
  obtain ⟨p1, p2, p3, p4, p5, p6⟩ := p
  have ne : ∀ k, (hostedSlot k t).state ≠ .free → k ≠ h := by rintro k a rfl; exact a hh
  have nm : ∀ k, k ≠ h → (hostedSlot k s).state ≠ .free →
      (hostedSlot k s).mailbox ≠ m := fun k a b c => a (p3 k h b hu (c.trans hm.symm))
  constructor
  · intro k a
    have hk := ne k (by rw [a]; simp)
    rw [(hs k hk).1] at a
    rw [(hs k hk).2, ds, if_neg (nm k hk (by rw [a]; simp))]; exact p1 k a
  · intro k a
    have hk := ne k (by rw [a]; simp)
    rw [(hs k hk).1] at a
    rw [(hs k hk).2, ds, if_neg (nm k hk (by rw [a]; simp)), e2]; exact p2 k a
  · intro k l a b c
    have hk := ne k a
    have hl := ne l b
    rw [(hs _ hk).1] at a; rw [(hs _ hl).1] at b; rw [(hs _ hk).2, (hs _ hl).2] at c; exact p3 k l a b c
  · intro n a; rw [ds, e2] at a
    split at a
    · rcases a with a | a <;> contradiction
    · rename_i nn
      obtain ⟨k, b, c⟩ := p4 n a
      have hk : k ≠ h := by rintro rfl; exact nn (c.symm.trans hm)
      exact ⟨k, by rw [(hs k hk).1]; exact b, by rw [(hs k hk).2]; exact c⟩
  · intro a k; rw [hc] at a
    exact absurd (p5 a h) hu
  · intro a n; rw [hc] at a
    exact absurd (p5 (.inl a) h) hu

/-- The slot that hosts a mailbox HOMED(S) is the OPEN one of that number. -/
theorem DirectoryAgrees.openSlot (p : DirectoryAgrees s) {m : Fin 64} (h : dirEntry m s = .homed (self s)) :
    ∃ k, openSlotOf m s = some k ∧ (hostedSlot k s).state = .opened ∧ (hostedSlot k s).mailbox = m := by
  obtain ⟨k, a, b⟩ := p.hosted m (.inr h)
  have o : (hostedSlot k s).state = .opened := by
    cases e : (hostedSlot k s).state with
    | free => exact absurd e a
    | claiming => have := p.claiming k e; rw [b, h] at this; cases this
    | opened => rfl
  cases e : openSlotOf m s with
  | none =>
    have := List.find?_eq_none.mp e k (List.mem_finRange k)
    simp [o, b] at this
  | some l => exact ⟨l, rfl, openSlotOf_open e⟩

/-- An update of the directory touches nothing else. -/
theorem setDirEntry_keeps (m : Fin 64) (e : DirEntry) (s : State) :
    (StoreSound s → StoreSound (setDirEntry m e s)) ∧ (PairsServed s → PairsServed (setDirEntry m e s)) ∧
    (Requests s → Requests (setDirEntry m e s)) :=
  ⟨fun q => q.same (fun _ => rfl) (fun _ => rfl) (fun _ => rfl) (fun _ => rfl), id,
      fun q => q.same rfl rfl (fun _ _ => id) rfl fun _ h => .inl h⟩

theorem discard_dropped (st : Status) (k : Fin 16) (s : State) :
    SlotDropped k s (discard st k s) ∧ (StoreSound s → PairsServed (discard st k s)) := by
  unfold discard
  have d := discardSteps_dropped st k s
  generalize discardSteps st k s = u at *
  have w : TableStep u (offerPlaces (pairing u)) := .trans ⟨pairing_tables u,
      fun a _ => pairing_served a⟩ (.of_slots (offerPlaces_slots _))
  have pr := fun a : StoreSound u => (offerPlaces_slots _).pairs (pairing_served a)
  have b : (hostedSlot k (offerPlaces (pairing u))).state = .free := (w.work.slots k).1.trans d.blank
  generalize offerPlaces (pairing u) = t at *
  exact ⟨⟨w.work.control.trans d.control, w.work.directory.trans d.directory, b,
      fun i hi => ⟨(w.work.slots i).1.trans (d.slots i hi).1, (w.work.slots i).2.trans (d.slots i hi).2⟩,
    fun a => w.work.sound (d.sound a), fun q => w.work.requests (d.requests q)⟩, fun a => pr (d.sound a)⟩

/-- The OPEN mailbox `m` leaves this station: discarded, with its directory entry changed before or after. -/
theorem discardMailbox_keeps {m : Fin 64} {e : DirEntry} (st : Status) (p : TablesWhole s) (hm : dirEntry m s = .homed (self s))
    (n1 : e ≠ .claiming) (n2 : e ≠ .homed (self s)) :
    TablesWhole (setDirEntry m e (discardMailbox st m s)) ∧ TablesWhole (discardMailbox st m (setDirEntry m e s)) := by
  obtain ⟨k, a, b, c⟩ := p.directory.openSlot hm
  have a' : openSlotOf m (setDirEntry m e s) = some k := a
  unfold discardMailbox
  rw [a, a']
  dsimp only
  obtain ⟨s1, s2, s3⟩ := setDirEntry_keeps m e s
  constructor
  · obtain ⟨d, pr⟩ := discard_dropped st k s
    generalize discard st k s = u at *
    obtain ⟨u1, u2, u3⟩ := setDirEntry_keeps m e u
    refine .mk' (u1 (d.sound p.sound)) (u2 (pr p.sound)) (p.directory.dropped (h := k) (fun n => ?_) c (by rw [b]; simp) d.blank d.slots d.control n1 n2)
      (u3 (d.requests p.requests'))
    rw [dirEntry_set]; simp [dirEntry, d.directory]
  · obtain ⟨d, pr⟩ := discard_dropped st k (setDirEntry m e s)
    generalize discard st k (setDirEntry m e s) = u at *
    refine .mk' (d.sound (s1 p.sound)) (pr (s1 p.sound)) (p.directory.dropped (h := k) (fun n => ?_) c (by rw [b]; simp) d.blank d.slots d.control n1 n2)
      (d.requests (s3 p.requests'))
    rw [← dirEntry_set]; simp [dirEntry, d.directory]

end Sys2Proof.Machine
end

