-- ==== Sys2Proof/Laws/DirectoryItems.lean ====
section
/-! SUPPORT. The items of the Directory Unit, the absence of a station and the dispatch of items keep the tables (R89 to R100,
R11, R81). -/

namespace Sys2Proof.Machine

variable {s t u : State}

/-! ### Directory items -/

theorem setOther_keeps {m : Fin 64} {e : DirEntry} (p : TablesWhole s) (o1 : dirEntry m s ≠ .claiming) (o2 : dirEntry m s ≠ .homed (self s))
    (n1 : e ≠ .claiming) (n2 : e ≠ .homed (self s)) (on : e = .free ∨ s.control.state ≠ .offline) :
        TablesWhole (setDirEntry m e s) := by
  obtain ⟨s1, s2, s3⟩ := setDirEntry_keeps m e s
  exact .mk' (s1 p.sound) (s2 p.pairs)
    (p.directory.other (fun n => dirEntry_set m n e s) (fun _ => ⟨rfl, rfl⟩) rfl o1 o2 n1 n2 on) (s3 p.requests')

theorem OnBus.joined (on : OnBus s) : s.control.state ≠ .offline := by rcases on with h | h <;> rw [h] <;> simp

/-- A hosted slot that is CLAIMING gets another value without messages and waiters. -/
theorem setClaiming_sound {h : Fin 16} {x : HostedSlot} (st : (hostedSlot h s).state = .claiming) (x1 : x.messages = []) (x2 : x.waiters = [])
    (x3 : x.state ≠ .free → x.depth = (hostedSlot h s).depth) (p : StoreSound s) : StoreSound (setHosted h x s) := by
  have hs : ∀ i, hostedSlot i (setHosted h x s) = if i = h then x else hostedSlot i s := fun i => by rw [hostedSlot_setHosted, ite_symm_eq]
  have dc : ∀ i, deliveryCount i (setHosted h x s) = deliveryCount i s := fun i => rfl
  have ws : ∀ w, waiter w (setHosted h x s) = waiter w s := fun _ => rfl
  obtain ⟨p1, ⟨l1, l2, l3⟩, ⟨p3, p4, p5⟩, p6⟩ := p
  obtain ⟨c1, c2, c3⟩ := l3 h (by rw [st]; simp)
  refine ⟨p1.same (fun i => ?_) (fun _ => rfl) (fun _ => rfl), ⟨fun i => ?_, fun i => ?_, fun i => ?_⟩,
      ⟨fun i => ?_, fun i w => ?_, fun w r hw => ?_⟩, fun i => ?_⟩
  · rw [hs]; split
    · rename_i e; rw [e, x1, c1]
    · rfl
  · rw [load, dc, hs]; split
    · rename_i e; rw [e, c3, x1]; simp
    · exact l1 i
  · rw [hs]; split
    · intro e; rw [x3 e]; exact l2 h (by rw [st]; simp)
    · exact l2 i
  · rw [dc, hs]; split
    · rename_i e; rw [e, c3]; exact fun _ => ⟨x1, x2, rfl⟩
    · exact l3 i
  · rw [hs]; split
    · rw [x2]; exact List.nodup_nil
    · exact p3 i
  · rw [hs, ws]; split
    · intro e; rw [x2] at e; simp at e
    · exact p4 i w
  · rw [ws] at hw
    have := p5 w r hw
    rw [hs]; split
    · rename_i e; rw [e, c2] at this; simp at this
    · exact this
  · have : ∀ w, priorityOf w (setHosted h x s) = priorityOf w s := fun w => priorityOf_same (ws w)
    simp only [this]
    rw [hs]; split
    · rw [x2]; exact List.Pairwise.nil
    · exact p6 i

theorem setHosted_requests (h : Fin 16) (x : HostedSlot) (q : Requests s) : Requests (setHosted h x s) :=
  q.same rfl rfl (fun _ _ => id) rfl fun _ h => .inl h

theorem setEmpty_pairs (h : Fin 16) {x : HostedSlot} (x1 : x.messages = []) (p : PairsServed s) :
    PairsServed (setHosted h x s) := by
  intro k w rest hm hw
  rw [hostedSlot_setHosted] at hm hw
  split at hm
  · exact absurd x1 hm
  · rename_i e; rw [if_neg e] at hw; exact p k w rest hm hw

/-- The slot that claims a mailbox is the CLAIMING one of that number. -/
theorem DirectoryAgrees.claimingSlot (p : DirectoryAgrees s) {m : Fin 64} (h : dirEntry m s = .claiming) :
    ∃ k, usedSlotOf m s = some k ∧ (hostedSlot k s).state = .claiming ∧ (hostedSlot k s).mailbox = m := by
  have key : ∀ k, (hostedSlot k s).state ≠ .free → (hostedSlot k s).mailbox = m →
      (hostedSlot k s).state = .claiming := by
    intro k a b
    cases e : (hostedSlot k s).state with
    | free => exact absurd e a
    | claiming => rfl
    | opened => have := p.opened k e; rw [b, h] at this; cases this
  obtain ⟨k, a, b⟩ := p.hosted m (.inl h)
  cases e : usedSlotOf m s with
  | none =>
    have := List.find?_eq_none.mp e k (List.mem_finRange k)
    simp [a, b] at this
  | some l =>
    have := List.find?_some e
    simp only [Bool.and_eq_true, decide_eq_true_eq] at this
    exact ⟨l, rfl, key l this.1 this.2, this.2⟩

theorem loseClaim_keeps {x : Fin 32} {m : Fin 64} (ne : x ≠ self s) (hm : dirEntry m s = .claiming) (p : TablesWhole s) :
    TablesWhole (loseClaim x m s) := by
  obtain ⟨k, a, b, c⟩ := p.directory.claimingSlot hm
  obtain ⟨s1, s2, s3⟩ := setDirEntry_keeps m (.homed x) s
  unfold loseClaim
  refine TablesWhole.step ?_ (finishBroadcast_step (.inl rfl) _ _ _)
  unfold freeClaimingSlot
  have a' : usedSlotOf m (setDirEntry m (.homed x) s) = some k := a
  rw [a']
  dsimp only
  refine .mk' (setClaiming_sound (s := setDirEntry m (.homed x) s) b rfl rfl (fun e => absurd rfl e) (s1 p.sound)) (setEmpty_pairs k rfl (s2 p.pairs))
    (p.directory.dropped (h := k) (e := .homed x) (fun n => dirEntry_set m n _ s) c (by rw [b]; simp) ?_ (fun i hi => ?_) rfl (by simp) (by simpa using ne))
    (setHosted_requests _ _ (s3 p.requests'))
  · rw [hostedSlot_setHosted, if_pos rfl]; rfl
  · rw [hostedSlot_setHosted, if_neg (fun e => hi e.symm)]; exact ⟨rfl, rfl⟩

theorem contest_step (x : Fin 32) (m : Fin 64) (s : State) : TableStep s (contest x m s) :=
  (TableStep.of_slots (withCounters_slots _ s)).trans (answer_step _ _ _)

theorem countConflict_step (s : State) : TableStep s (countConflict s) := .of_slots (withCounters_slots _ s)

theorem takeClaim_keeps {x : Fin 32} {m : Fin 64} (ne : x ≠ self s) (on : OnBus s) (p : TablesWhole s) :
    TablesWhole (takeClaim x m s) := by
  unfold takeClaim
  split
  · rename_i e; exact setOther_keeps p (by rw [e]; simp) (by rw [e]; simp) (by simp) (by simpa using ne) (.inr on.joined)
  · rename_i e; exact setOther_keeps p (by rw [e]; simp) (by rw [e]; simp) (by simp) (by simpa using ne) (.inr on.joined)
  · rename_i e; exact loseClaim_keeps ne e p
  · split
    · split
      · exact p.step (contest_step _ _ _)
      · exact p.step (countShed_step _)
    · split
      · exact p
      · exact p.step (countConflict_step _)

theorem ownClaim_keeps {m : Fin 64} (on : OnBus s) (p : TablesWhole s) : TablesWhole (ownClaim m s) := by
  unfold ownClaim
  split
  · rename_i hm
    obtain ⟨k, a, b, c⟩ := p.directory.claimingSlot hm
    obtain ⟨s1, s2, s3⟩ := setDirEntry_keeps m (.homed (self s)) s
    refine TablesWhole.step ?_ (finishBroadcast_step (.inl rfl) _ _ _)
    unfold openClaimedSlot
    have a' : usedSlotOf m (setDirEntry m (.homed (self s)) s) = some k := a
    rw [a']
    dsimp only
    generalize hx : ({ hostedSlot k (setDirEntry m (.homed (self s)) s) with state := .opened, messages := [], waiters := [] } : HostedSlot) = x
    have x0 : x.state = .opened := by rw [← hx]
    have x1 : x.messages = [] := by rw [← hx]
    have x2 : x.waiters = [] := by rw [← hx]
    have x3 : x.depth = (hostedSlot k s).depth := by rw [← hx]; rfl
    have x4 : x.mailbox = m := by rw [← hx]; exact c
    refine .mk' (setClaiming_sound (s := setDirEntry m (.homed (self s)) s) b x1 x2 (fun _ => x3) (s1 p.sound)) (setEmpty_pairs k x1 (s2 p.pairs))
      ?_ (setHosted_requests _ _ (s3 p.requests'))
    have hs : ∀ i, hostedSlot i (setHosted k x (setDirEntry m (.homed (self s)) s)) = if i = k then x else hostedSlot i s := fun i => by
      rw [hostedSlot_setHosted, ite_symm_eq]; rfl
    have ds : ∀ n, dirEntry n (setHosted k x (setDirEntry m (.homed (self s)) s)) = if n = m then .homed (self s) else dirEntry n s :=
      fun n => dirEntry_set m n _ s
    have hc : (setHosted k x (setDirEntry m (.homed (self s)) s)).control = s.control := rfl
    have e2 : self (setHosted k x (setDirEntry m (.homed (self s)) s)) = self s := rfl
    generalize setHosted k x (setDirEntry m (.homed (self s)) s) = t at *
    have mb : ∀ i, (hostedSlot i t).mailbox = (hostedSlot i s).mailbox := fun i => by
      rw [hs]; split
      · rename_i e; rw [e, x4, c]
      · rfl
    have sf : ∀ i, (hostedSlot i t).state ≠ .free ↔ (hostedSlot i s).state ≠ .free := fun i => by
      rw [hs]; split
      · rename_i e; rw [e, x0, b]; simp
      · exact Iff.rfl
    obtain ⟨p1, p2, p3, p4, p5, p6⟩ := p.directory
    constructor
    · intro i hi
      have ik : i ≠ k := by rintro rfl; rw [hs, if_pos rfl, x0] at hi; cases hi
      rw [hs, if_neg ik] at hi
      rw [mb, ds]
      have : (hostedSlot i s).mailbox ≠ m := fun e => ik (p3 i k (by rw [hi]; simp) (by rw [b]; simp) (by rw [e, c]))
      rw [if_neg this]; exact p1 i hi
    · intro i hi
      rw [mb, ds, e2]
      split
      · rfl
      · rename_i ne
        have ik : i ≠ k := by rintro rfl; exact ne c
        rw [hs, if_neg ik] at hi
        exact p2 i hi
    · intro i j hi hj e
      rw [mb, mb] at e
      exact p3 i j ((sf i).mp hi) ((sf j).mp hj) e
    · intro n hn
      rw [ds, e2] at hn
      split at hn
      · rename_i e; exact ⟨k, (sf k).mpr (by rw [b]; simp), by rw [mb, c, e]⟩
      · obtain ⟨i, x, y⟩ := p4 n hn; exact ⟨i, (sf i).mpr x, by rw [mb]; exact y⟩
    · intro h; rw [hc] at h; rcases on with o | o <;> rcases h with h | h <;> rw [h] at o <;> cases o
    · intro h; rw [hc] at h; exact absurd h on.joined
  · exact p

theorem takeRelease_keeps {x : Fin 32} {m : Fin 64} (ne : x ≠ self s) (p : TablesWhole s) :
    TablesWhole (takeRelease x m s) := by
  unfold takeRelease
  split
  · rename_i e
    exact (setOther_keeps p (by rw [e]; simp) (by rw [e]; simpa using ne) (by simp) (by simp) (.inl rfl)).step (mailboxGone_step _ _ _)
  · exact p

theorem takeDispute_keeps {x : Fin 32} {m : Fin 64} (ne : x ≠ self s) (p : TablesWhole s) :
    TablesWhole (takeDispute x m s) := by
  unfold takeDispute
  split
  · rename_i e
    have w := raiseNotice_step (.mailboxLost m) s
    have q := p.step w
    have e' : dirEntry m (raiseNotice (.mailboxLost m) s) = .homed (self (raiseNotice (.mailboxLost m) s)) := by
      rw [self_of w.work.control]; simpa [dirEntry, w.work.directory] using e
    exact (discardMailbox_keeps .lost q e' (by simp) (by rw [self_of w.work.control]; simpa using ne)).1
  · exact p

theorem reconcile_keeps {x : Fin 32} {b : BitVec 64} {m : Fin 64} (ne : x ≠ self s) (on : OnBus s) (p : TablesWhole s) :
    TablesWhole (reconcile x b m s) := by
  unfold reconcile
  split
  · split
    · rename_i e; exact setOther_keeps p (by rw [e]; simp) (by rw [e]; simp) (by simp) (by simpa using ne) (.inr on.joined)
    · rename_i e; exact setOther_keeps p (by rw [e]; simp) (by rw [e]; simp) (by simp) (by simpa using ne) (.inr on.joined)
    · rename_i e; exact loseClaim_keeps ne e p
    · split
      · exact p.step (contest_step _ _ _)
      · split
        · exact p
        · exact p.step (countConflict_step _)
  · split
    · rename_i y e
      split
      · rename_i h
        subst h
        exact (setOther_keeps p (by rw [e]; simp) (by rw [e]; simpa using ne) (by simp) (by simp) (.inl rfl)).step (mailboxGone_step _ _ _)
      · exact p
    · rename_i y e
      split
      · exact setOther_keeps p (by rw [e]; simp) (by rw [e]; simp) (by simp) (by simp) (.inl rfl)
      · exact p
    · exact p
    · exact p

theorem OnBus.work (w : ItemWork s t) (on : OnBus s) : OnBus t := by simpa [OnBus, w.control] using on

theorem takePresence_keeps {x : Fin 32} {b : BitVec 64} (ne : x ≠ self s) (on : OnBus s) (p : TablesWhole s) :
    TablesWhole (takePresence x b s) := by
  unfold takePresence
  split
  · exact p.step (countShed_step _)
  · refine (forEach_keeps (fun t => TablesWhole t ∧ x ≠ self t ∧ OnBus t) (reconcile x b) (fun m t k => ?_) s ⟨p, ne,
        on⟩).1
    have w := reconcile_work x b m (ItemWork.refl t)
    exact ⟨reconcile_keeps k.2.1 k.2.2 k.1, by rw [self_of w.control]; exact k.2.1, OnBus.work w k.2.2⟩

theorem absentAt_keeps {x : Fin 32} {c : AbsenceCause} {m : Fin 64} (ne : x ≠ self s) (p : TablesWhole s) :
    TablesWhole (absentAt x c m s) := by
  unfold absentAt
  split
  · rename_i y e
    split
    · rename_i h
      subst h
      refine setOther_keeps p (by rw [e]; simp) (by rw [e]; simpa using ne) (by simp) (by simp) (.inr fun o => ?_)
      have := p.directory.offline o m
      rw [e] at this; cases this
    · exact p
  · rename_i y e
    split
    · rename_i h
      subst h
      exact (setOther_keeps p (by rw [e]; simp) (by rw [e]; simpa using ne) (by simp) (by simp) (.inl rfl)).step (mailboxGone_step _ _ _)
    · exact p
  · rename_i y e
    split
    · exact setOther_keeps p (by rw [e]; simp) (by rw [e]; simp) (by simp) (by simp) (.inl rfl)
    · exact p
  · exact p

theorem stationAbsent_keeps {x : Fin 32} {c : AbsenceCause} (ne : x ≠ self s) (p : TablesWhole s) :
    TablesWhole (stationAbsent x c s) := by
  unfold stationAbsent
  have w1 := raiseNotice_step (.stationAbsent x c) s
  generalize raiseNotice (.stationAbsent x c) s = a at *
  have na : x ≠ self a := by rw [self_of w1.work.control]; exact ne
  have w := w1.trans ((homeLost_step na).trans (takerAbsent_step x _))
  generalize takerAbsent x (homeLost x a) = b at *
  have nb : x ≠ self b := by rw [self_of w.work.control]; exact ne
  refine (forEach_keeps (fun t => TablesWhole t ∧ x ≠ self t) (absentAt x c) (fun m t k => ?_) b ⟨p.step w, nb⟩).1
  have w := absentAt_work x c m (ItemWork.refl t)
  exact ⟨absentAt_keeps k.2 k.1, by rw [self_of w.control]; exact k.2⟩

theorem setRoster_step (x : Fin 32) (e : RosterEntry) (s : State) : TableStep s (setRoster x e s) :=
  queue_step ⟨rfl, rfl, rfl⟩ rfl (.refl _) fun _ => id

theorem heard_step (x : Fin 32) (s : State) : TableStep s (heard x s) := by
  unfold heard
  dsimp only
  split
  · exact (setRoster_step _ _ _).trans (raiseNotice_step _ _)
  · exact setRoster_step _ _ _

theorem missedTurn_keeps (x : Fin 32) (p : TablesWhole s) : TablesWhole (missedTurn x s) := by
  unfold missedTurn
  dsimp only
  split
  · exact p
  · rename_i ne
    split
    · exact p
    · split
      · split
        · exact stationAbsent_keeps (s := setRoster x { presence := .absent, missed := 8 } s) ne (p.step (setRoster_step _ _ _))
        · exact p.step (setRoster_step _ _ _)
      · exact p.step (setRoster_step _ _ _)

theorem takeFarewell_keeps {x : Fin 32} (ne : x ≠ self s) (p : TablesWhole s) : TablesWhole (takeFarewell x s) := by
  unfold takeFarewell
  dsimp only
  split
  · exact p
  · exact stationAbsent_keeps (s := setRoster x _ s) ne (p.step (setRoster_step _ _ _))

theorem routeItem_keeps {x : Fin 32} {b : ItemBody} (ne : x ≠ self s) (on : OnBus s) (p : TablesWhole s) :
    TablesWhole (routeItem x b s) := by
  unfold routeItem
  split
  · exact takePresence_keeps ne on p
  · exact takeFarewell_keeps ne p
  · exact takeClaim_keeps ne on p
  · exact takeRelease_keeps ne p
  · exact takeDispute_keeps ne p
  · exact p.step (takePut_step _ _ _ _ _)
  · exact p.step (takeTake_step ne _ _ _ _)
  · exact p.step (takeCancel_step _ _ _)
  · exact p.step (takeDeliverAck_step _ _ _ _ _)
  · exact p.step (takePutReply_step _ _ _ _)
  · exact p.step (takeTakeReply_step _ _ _ _)
  · exact p.step (takeCancelReply_step _ _ _ _)
  · exact p.step (takeDeliver_step _ _ _ _ _ _)

theorem dispatchItem_keeps (x : Fin 32) (i : Item) (p : TablesWhole s) : TablesWhole (dispatchItem x i s) := by
  unfold dispatchItem
  split
  · rename_i h
    have on : OnBus s := by
      have := (Bool.and_eq_true_iff.mp h).1
      simpa [dispatching, OnBus] using this
    split
    · unfold ownItem
      split
      · exact ownClaim_keeps on p
      · exact p.step (finishBroadcast_step (.inr rfl) _ _ _)
      · exact p
    · rename_i ne; exact routeItem_keeps ne on p
  · exact p

theorem dispatchItems_keeps (x : Fin 32) (items : List Item) (p : TablesWhole s) :
    TablesWhole (dispatchItems x items s) :=
  foldl_keeps TablesWhole _ (fun _ i k => dispatchItem_keeps x i k) items s p

end Sys2Proof.Machine
end

