-- ==== Sys2Proof/Laws/Levels.lean ====
section
/-! SUPPORT. What the levels of the output pin TXD are (R1, R14), and which bits the PRESENCE bitmap has (R66). -/

namespace Sys2Proof.Machine

theorem charLevels_length (b : Byte) : (charLevels b).length = 10 := by simp [charLevels]

theorem charLevels_get (b : Byte) (j : Nat) (hj : j < 10) :
    (charLevels b)[j]? =
      some (if j = 0 then .active else if j = 9 then .idle else if b.getLsbD (j - 1) then .idle else .active) := by
  have : j = 0 ∨ j = 1 ∨ j = 2 ∨ j = 3 ∨ j = 4 ∨ j = 5 ∨ j = 6 ∨ j = 7 ∨ j = 8 ∨ j = 9 := by omega
  rcases this with rfl | rfl | rfl | rfl | rfl | rfl | rfl | rfl | rfl | rfl <;> simp [charLevels, bitLevel, List.finRange]

theorem frameLevels_length (l : List Byte) : (frameLevels l).length = 10 * l.length := by
  induction l with
  | nil => rfl
  | cons b l ih =>
    simp only [frameLevels, List.map_cons, List.flatten_cons, List.length_append, charLevels_length, List.length_cons] at *
    omega

/-- Bit time `j` of character `k` of characters sent back to back. -/
theorem frameLevels_get (l : List Byte) (k j : Nat) (hj : j < 10) :
    (frameLevels l)[10 * k + j]? = (l[k]?).bind fun b => (charLevels b)[j]? := by
  induction l generalizing k with
  | nil => simp [frameLevels]
  | cons b l ih =>
    cases k with
    | zero =>
      simp only [frameLevels, List.map_cons, List.flatten_cons, Nat.mul_zero, Nat.zero_add, List.getElem?_cons_zero,
        Option.bind_some]
      rw [List.getElem?_append_left (by rw [charLevels_length]; exact hj)]
    | succ k =>
      have := ih k
      simp only [frameLevels, List.map_cons, List.flatten_cons, List.getElem?_cons_succ] at *
      rw [List.getElem?_append_right (by rw [charLevels_length]; omega), charLevels_length, ← this]
      congr 1
      omega

/-- A byte time is ten bit times (R1). -/
theorem byteTimeAt_bitTimeAt (r : Fin 4) : byteTimeAt r = 10 * bitTimeAt r := by revert r; decide

theorem bitTimeAt_pos (r : Fin 4) : 0 < bitTimeAt r := by revert r; decide

/-- The level of TXD while the own frame is sent. -/
theorem txdPin_sending {m : Moment} {s : State} (h : s.line.tx = .sending) (k : s.line.txStart ≤ m) :
    txdPin m s = ((frameLevels (sentCharacters s))[(m - s.line.txStart) / bitTime s]?).getD .idle := by
  simp only [txdPin, h]
  exact if_neg (Nat.not_lt.mpr k)

theorem presenceBitmap_bit (s : State) (m : Fin 64) :
    (presenceBitmap s).getLsbD m.val = true ↔ dirEntry m s = .homed (self s) := by
  let bits := (List.finRange 64).map fun m => decide (dirEntry m s = .homed (self s))
  rw [show (presenceBitmap s).getLsbD m.val = (BitVec.ofBoolListLE bits).getLsbD m.val from rfl,
    BitVec.getLsbD_ofBoolListLE]
  simp [bits]

end Sys2Proof.Machine
end

