-- ==== Sys2Proof/Laws/PerInstr.lean ====
section
/-! SUPPORT. What being well formed says of each command, one lemma for each constructor. -/

namespace Sys2Proof.Laws.WellFormedness

open Sys2Proof.Machine

/-- The row is a character on the line: `ch`, from the moment `start`. -/
def ReadsCharacter (i : Instr) (ch : LineChar) (start : Moment) : Prop :=
  i = .activityOpens ch start ∨ i = .characterReceived ch start ∨ i = .frameAssemblyComplete ch start

/-- A command is well formed exactly when a BAD_COMMAND carries no code of the command table (R180), and a faulty character
ends no earlier than it begins (R2). -/
def Statement (i : Instr) : Prop :=
  i.wellFormed = true ↔
    (∀ code, i = .badCommand code → commandOfCode code = none) ∧
      ∀ start ends, ReadsCharacter i (.faulty ends) start → start ≤ ends

theorem character (i : Instr) (ch : LineChar) (start : Moment) (f : i.wellFormed = ch.wellFormed start)
    (n : ∀ code, i ≠ .badCommand code) (c : ∀ ch' start', ReadsCharacter i ch' start' ↔ ch = ch' ∧ start = start') :
    Statement i := by
  unfold Statement
  rw [f]
  constructor
  · intro h
    refine ⟨fun code e => absurd e (n code), fun start' ends k => ?_⟩
    obtain ⟨e, e'⟩ := (c _ _).mp k
    subst e e'
    simpa [LineChar.wellFormed] using h
  · rintro ⟨_, k⟩
    cases ch with
    | data b => rfl
    | faulty ends => simpa [LineChar.wellFormed] using k start ends ((c _ _).mpr ⟨rfl, rfl⟩)

theorem hardwareReset : Statement .hardwareReset := by
  simp [Statement, ReadsCharacter, Instr.wellFormed]

theorem dataWrite (value : Byte) : Statement (.dataWrite value) := by
  simp [Statement, ReadsCharacter, Instr.wellFormed]

theorem dataRead : Statement .dataRead := by
  simp [Statement, ReadsCharacter, Instr.wellFormed]

theorem commandWriteWhileBusy : Statement .commandWriteWhileBusy := by
  simp [Statement, ReadsCharacter, Instr.wellFormed]

theorem badCommand (code : Byte) : Statement (.badCommand code) := by
  simp [Statement, ReadsCharacter, Instr.wellFormed]

theorem configure : Statement .configure := by
  simp [Statement, ReadsCharacter, Instr.wellFormed]

theorem join (moment : Moment) (rxdActive : Bool) : Statement (.join moment rxdActive) := by
  simp [Statement, ReadsCharacter, Instr.wellFormed]

theorem leave : Statement .leave := by
  simp [Statement, ReadsCharacter, Instr.wellFormed]

theorem readStatus : Statement .readStatus := by
  simp [Statement, ReadsCharacter, Instr.wellFormed]

theorem openMailbox : Statement .openMailbox := by
  simp [Statement, ReadsCharacter, Instr.wellFormed]

theorem closeMailbox : Statement .closeMailbox := by
  simp [Statement, ReadsCharacter, Instr.wellFormed]

theorem readDirectoryStart : Statement .readDirectoryStart := by
  simp [Statement, ReadsCharacter, Instr.wellFormed]

theorem readDirectoryContinue : Statement .readDirectoryContinue := by
  simp [Statement, ReadsCharacter, Instr.wellFormed]

theorem readRoster : Statement .readRoster := by
  simp [Statement, ReadsCharacter, Instr.wellFormed]

theorem put : Statement .put := by
  simp [Statement, ReadsCharacter, Instr.wellFormed]

theorem take : Statement .take := by
  simp [Statement, ReadsCharacter, Instr.wellFormed]

theorem cancel : Statement .cancel := by
  simp [Statement, ReadsCharacter, Instr.wellFormed]

theorem mailboxStatus : Statement .mailboxStatus := by
  simp [Statement, ReadsCharacter, Instr.wellFormed]

theorem popCompletion : Statement .popCompletion := by
  simp [Statement, ReadsCharacter, Instr.wellFormed]

theorem setAttention : Statement .setAttention := by
  simp [Statement, ReadsCharacter, Instr.wellFormed]

theorem readCounters : Statement .readCounters := by
  simp [Statement, ReadsCharacter, Instr.wellFormed]

theorem clearCounters : Statement .clearCounters := by
  simp [Statement, ReadsCharacter, Instr.wellFormed]

theorem activityOpens (ch : LineChar) (start : Moment) : Statement (.activityOpens ch start) := by
  apply character _ ch start rfl <;> simp [ReadsCharacter]

theorem activityClosesBySilence : Statement .activityClosesBySilence := by
  simp [Statement, ReadsCharacter, Instr.wellFormed]

theorem frameAssemblyComplete (ch : LineChar) (start : Moment) : Statement (.frameAssemblyComplete ch start) := by
  apply character _ ch start rfl <;> simp [ReadsCharacter]

theorem turnLapse : Statement .turnLapse := by
  simp [Statement, ReadsCharacter, Instr.wellFormed]

theorem quietRule : Statement .quietRule := by
  simp [Statement, ReadsCharacter, Instr.wellFormed]

theorem quietResync : Statement .quietResync := by
  simp [Statement, ReadsCharacter, Instr.wellFormed]

theorem frameTransmitStart : Statement .frameTransmitStart := by
  simp [Statement, ReadsCharacter, Instr.wellFormed]

theorem echoGood : Statement .echoGood := by
  simp [Statement, ReadsCharacter, Instr.wellFormed]

theorem collision (ends : Moment) : Statement (.collision ends) := by
  simp [Statement, ReadsCharacter, Instr.wellFormed]

theorem breakEnd : Statement .breakEnd := by
  simp [Statement, ReadsCharacter, Instr.wellFormed]

theorem replyDeadline : Statement .replyDeadline := by
  simp [Statement, ReadsCharacter, Instr.wellFormed]

theorem backstop : Statement .backstop := by
  simp [Statement, ReadsCharacter, Instr.wellFormed]

theorem lateDeadline : Statement .lateDeadline := by
  simp [Statement, ReadsCharacter, Instr.wellFormed]

theorem waiterExpiry : Statement .waiterExpiry := by
  simp [Statement, ReadsCharacter, Instr.wellFormed]

theorem deliveryDeadline : Statement .deliveryDeadline := by
  simp [Statement, ReadsCharacter, Instr.wellFormed]

theorem characterReceived (ch : LineChar) (start : Moment) : Statement (.characterReceived ch start) := by
  apply character _ ch start rfl <;> simp [ReadsCharacter]

theorem resetReleased : Statement .resetReleased := by
  simp [Statement, ReadsCharacter, Instr.wellFormed]

theorem commandResultWritten : Statement .commandResultWritten := by
  simp [Statement, ReadsCharacter, Instr.wellFormed]

end Sys2Proof.Laws.WellFormedness
end

