-- ==== Sys2Proof/Laws/Sessions.lean ====
section
/-! SUPPORT. The start and the end of a session, entering LEAVING, the Turn Tracker and the Line Unit keep the tables (R20, R39,
R49, R52, R106, R127, R128, R172). -/

namespace Sys2Proof.Machine

variable {s t u : State}

/-! ### The station state -/

/-- The tables do not rest on the state of a station that is on the bus. -/
theorem bus_keeps (p : TablesWhole s) (hs : t.store = s.store) (he : t.engine = s.engine) (hd : t.directory.entries = s.directory.entries)
    (hq : t.queue = s.queue) (hc : t.control.config = s.control.config) (on : OnBus t) : TablesWhole t := by
  have e1 : ∀ m, dirEntry m t = dirEntry m s := fun m => by simp [dirEntry, hd]
  have e2 : self t = self s := by simp [self, hc]
  have e3 : ∀ k, hostedSlot k t = hostedSlot k s := fun k => by simp [hostedSlot, hs]
  have e4 : ∀ w, waiter w t = waiter w s := fun k => by simp [waiter, hs]
  have e5 : ∀ w, delivery w t = delivery w s := fun k => by simp [delivery, hs]
  have e6 : ∀ i, entry i t = entry i s := fun i => by simp [entry, he]
  have e7 : ∀ h, waitingOrder h t = waitingOrder h s := fun i => by simp [waitingOrder, he]
  have e8 : ∀ i, entryTag i t = entryTag i s := fun i => by simp [entryTag, e6]
  have no : ¬ (t.control.state = .offline ∨ t.control.state = .leaving) := by
    rcases on with h | h <;> rw [h] <;> simp
  refine .mk' (p.sound.same e3 e4 (fun c => by simp [cell, hs]) (fun d => by rw [e5])) ?_ ?_ ⟨?_, p.orders.same he⟩
  · intro k w rest hm hw
    rw [e3] at hm hw
    obtain ⟨⟨r, a, b⟩, c⟩ := p.pairs k w rest hm hw
    exact ⟨⟨r, by rw [e4]; exact a, by rwa [e2]⟩, fun d => by rw [e5]; exact c d⟩
  · obtain ⟨p1, p2, p3, p4, p5, p6⟩ := p.directory
    exact ⟨by simpa [e1, e3] using p1, by simpa [e1, e2, e3] using p2, by simpa [e3] using p3,
        by simpa [e1, e2, e3] using p4,
      fun h => absurd h no, fun h => absurd (.inl h) no⟩
  · obtain ⟨q1, q2, q3, q4, q5, q6, q7, ⟨q8, q8'⟩, q9, q10, q11, q12, q13⟩ := p.requests
    exact ⟨by simpa [he] using q1, by simpa [he, e6] using q2, by simpa [e7] using q3, by simpa [e7, e6] using q4,
      by simpa [e6] using q5, by simpa [e6] using q6, by simpa [e6, e2] using q7,
      ⟨by simpa [e4, e2, e6, e8] using q8, by simpa [e4, e2] using q8'⟩, fun h => absurd h no, by simpa [hq] using q10,
      by simpa [hq, e6] using q11, by simpa [hq] using q12, by simpa [hq] using q13⟩

theorem enterState_bus {st : StationState} (h : st = .seeking ∨ st = .active) (p : TablesWhole s) :
    TablesWhole (enterState st s) :=
  bus_keeps p rfl rfl rfl rfl rfl h

/-! ### The requests at an end -/

theorem finish_live (i : Fin 16) (st : Status) (s : State) :
    isLive (entry i (finish i st s)) = false ∧ ∀ j, isLive (entry j (finish i st s)) = true →
        isLive (entry j s) = true := by
  obtain ⟨f1, -, -, -, -, -, -, f7⟩ := finish_engine_eq i st s
  have a : isLive (entry i (finish i st s)) = false := by
    rcases f7 with ⟨-, f⟩ | ⟨-, f⟩ <;> rw [f] <;> simp [isLive, Entry.blank]
  refine ⟨a, fun j h => ?_⟩
  by_cases e : j = i
  · subst e; rw [a] at h; cases h
  · rwa [f1 j e] at h

theorem removeWaiter_engine (w : Fin 32) (s : State) : (removeWaiter w s).engine = s.engine := by
  unfold removeWaiter; split <;> rfl

/-- The waiter of the LOCAL_PARKED entry `i` is gone, and no other local waiter bears its tag. -/
theorem removeLocalWaiter_tables (i : Fin 16) (s : State) :
    TableWork s (removeLocalWaiter i s) ∧ (removeLocalWaiter i s).engine = s.engine ∧
    (RequestsWhole s → (entry i s).state = .localParked →
      ∀ v y, waiter v (removeLocalWaiter i s) = some y → y.requester = self (removeLocalWaiter i s) →
          slotOfTag y.tag ≠ i) := by
  unfold removeLocalWaiter
  split
  · rename_i w hw
    refine ⟨removeWaiter_tables w s, removeWaiter_engine w s, fun q st v y hv ly e => ?_⟩
    have := List.find?_some hw
    cases hr : waiter w s with
    | none => simp [hr] at this
    | some r =>
      simp [hr] at this
      have un := removeWaiter_unnamed q hr this.1 v y hv ly
      rw [this.2, slotOfTag_entryTag] at un
      exact un e
  · rename_i hw
    refine ⟨.refl s, rfl, fun q st v y hv ly e => ?_⟩
    have := List.find?_eq_none.mp hw v (List.mem_finRange v)
    have t := (q.takers.1 v y hv ly).2
    rw [e] at t
    simp [hv, ly, t] at this

/-- An entry finishes SESSION_END. -/
theorem endEntry_keeps (i : Fin 16) (s : State) :
    (endEntry i s).control = s.control ∧ (endEntry i s).directory = s.directory ∧
    (∀ k, (hostedSlot k (endEntry i s)).state = (hostedSlot k s).state ∧
        (hostedSlot k (endEntry i s)).mailbox = (hostedSlot k s).mailbox) ∧
    (StoreSound s → StoreSound (endEntry i s)) ∧ (RequestsWhole s → RequestsWhole (endEntry i s)) ∧
    isLive (entry i (endEntry i s)) = false ∧ (∀ j, isLive (entry j (endEntry i s)) = true →
        isLive (entry j s) = true) := by
  unfold endEntry
  split
  · rename_i lv
    obtain ⟨k1, k2, k3⟩ := removeLocalWaiter_tables i s
    have whole : RequestsWhole s → RequestsWhole (removeLocalWaiter i s) := by
      intro q
      unfold removeLocalWaiter
      split
      · rename_i w _
        cases hr : waiter w s with
        | none => have : removeWaiter w s = s := by simp [removeWaiter, hr]
                  rwa [this]
        | some r =>
          obtain ⟨v1, v2, v3, v4, v5, v6, v7, v8⟩ := removeWaiter_views hr
          refine q.same v5 v7 (fun v x h => ?_) (by rw [v6]) (by rw [v6]; exact fun _ h => .inl h)
          rw [v2] at h; split at h
          · cases h
          · exact h
      · exact q
    generalize ha : (if (entry i s).state = .localParked then removeLocalWaiter i s else s) = a
    have hk : TableWork s a ∧ a.engine = s.engine ∧ (RequestsWhole s → RequestsWhole a ∧
        ∀ v y, waiter v a = some y → y.requester = self a → slotOfTag y.tag ≠ i) := by
      rw [← ha]
      split
      · rename_i st; exact ⟨k1, k2, fun q => ⟨whole q, k3 q st⟩⟩
      · rename_i st
        refine ⟨.refl s, rfl, fun q => ⟨q, fun v y hv ly e => st ?_⟩⟩
        have := (q.takers.1 v y hv ly).1
        rwa [e] at this
    obtain ⟨h1, h2, h3⟩ := hk
    have w := finish_engine i .sessionEnd a
    have ea : ∀ j, entry j a = entry j s := fun j => by simp [entry, h2]
    obtain ⟨l1, l2⟩ := finish_live i .sessionEnd a
    refine ⟨w.control.trans h1.control, w.directory.trans h1.directory, fun k => ?_,
        fun p => finish_sound (h1.sound p), fun q => ?_, l1, fun j h => ?_⟩
    · simpa [hostedSlot, w.store] using h1.slots k
    · obtain ⟨q1, q2⟩ := h3 q
      exact finish_whole _ q1 (by rw [ea]; exact lv) q2
    · rw [← ea]; exact l2 j h
  · rename_i lv
    exact ⟨rfl, rfl, fun _ => ⟨rfl, rfl⟩, id, id, by simpa using lv, fun _ => id⟩

theorem endEntries_keeps (s : State) :
    (endEntries s).control = s.control ∧ (endEntries s).directory = s.directory ∧
    (∀ k, (hostedSlot k (endEntries s)).state = (hostedSlot k s).state ∧
        (hostedSlot k (endEntries s)).mailbox = (hostedSlot k s).mailbox) ∧
    (StoreSound s → StoreSound (endEntries s)) ∧ (RequestsWhole s → Requests (endEntries s)) ∧
    (∀ i, isLive (entry i (endEntries s)) = false) ∧ ∀ h, waitingOrder h (endEntries s) = [] := by
  have all : ∀ (l : List (Fin 16)) s, 
      (l.foldl (fun s i => endEntry i s) s).control = s.control ∧
          (l.foldl (fun s i => endEntry i s) s).directory = s.directory ∧
      (∀ k, (hostedSlot k (l.foldl (fun s i => endEntry i s) s)).state = (hostedSlot k s).state ∧
          (hostedSlot k (l.foldl (fun s i => endEntry i s) s)).mailbox = (hostedSlot k s).mailbox) ∧
      (StoreSound s → StoreSound (l.foldl (fun s i => endEntry i s) s)) ∧
          (RequestsWhole s → RequestsWhole (l.foldl (fun s i => endEntry i s) s)) ∧
      (∀ i ∈ l, isLive (entry i (l.foldl (fun s i => endEntry i s) s)) = false) ∧
          (∀ j, isLive (entry j (l.foldl (fun s i => endEntry i s) s)) = true → isLive (entry j s) = true) := by
    intro l
    induction l with
    | nil => exact fun s => ⟨rfl, rfl, fun _ => ⟨rfl, rfl⟩, id, id, fun i h => absurd h (by simp), fun _ => id⟩
    | cons i l ih =>
      intro s
      obtain ⟨a1, a2, a3, a4, a5, a6, a7⟩ := endEntry_keeps i s
      obtain ⟨b1, b2, b3, b4, b5, b6, b7⟩ := ih (endEntry i s)
      refine ⟨b1.trans a1, b2.trans a2, fun k => ⟨(b3 k).1.trans (a3 k).1, (b3 k).2.trans (a3 k).2⟩,
          fun h => b4 (a4 h), fun h => b5 (a5 h), fun j hj => ?_, fun j h => a7 j (b7 j h)⟩
      rcases List.mem_cons.mp hj with rfl | hj
      · by_contra c
        have := b7 j (by simpa using c)
        rw [a6] at this; cases this
      · exact b6 j hj
  obtain ⟨a1, a2, a3, a4, a5, a6, a7⟩ := all (List.finRange 16) s
  have eb : (List.finRange 16).foldl (fun s i => endEntry i s) s = forEach endEntry s := rfl
  rw [eb] at a1 a2 a3 a4 a5 a6 a7
  clear eb all
  unfold endEntries
  generalize forEach endEntry s = b at *
  have wo : ∀ h, waitingOrder h (clearWaiting b) = [] := fun h => by simp [waitingOrder, clearWaiting]
  have lv : ∀ i, isLive (entry i (clearWaiting b)) = false := fun i => by rw [show entry i (clearWaiting b) = entry i b from rfl]; exact a6 i (by simp)
  refine ⟨a1, a2, a3, fun p => (a4 p).same (fun _ => rfl) (fun _ => rfl) (fun _ => rfl) (fun _ => rfl), fun q => ?_,
      lv, wo⟩
  obtain ⟨q1, q2, q3, q4, q5, q6, q7, q8, q9, q10, q11, q12, q13⟩ := a5 q
  refine ⟨⟨q1, q2, fun h => by rw [wo]; exact List.nodup_nil, fun h i => ?_, q5, q6, q7, q8, q9, q10, q11, q12, q13⟩,
      fun h k => absurd (wo h) k⟩
  rw [wo]
  constructor
  · intro h; simp at h
  · rintro ⟨h, -⟩
    have := (isWaiting_not_item h).2.1
    rw [lv] at this; cases this

/-! ### The end of a session -/

theorem cleared_sound (a : Word) (d : Byte) (h : s.store = MailboxStore.cleared a d) : StoreSound s := by
  have e3 : ∀ k, hostedSlot k s = HostedSlot.blank := fun k => by simp [hostedSlot, h, MailboxStore.cleared]
  have e4 : ∀ w, waiter w s = none := fun k => by simp [waiter, h, MailboxStore.cleared]
  have e5 : ∀ w, delivery w s = none := fun k => by simp [delivery, h, MailboxStore.cleared]
  have e6 : ∀ w, cell w s = none := fun k => by simp [cell, h, MailboxStore.cleared]
  have dc : ∀ k, deliveryCount k s = 0 := fun k => by
    unfold deliveryCount; rw [List.countP_eq_zero]; intro d _; simp [e5]
  exact ⟨⟨by simp [e3, HostedSlot.blank], by simp [e3, HostedSlot.blank], by simp [e3, HostedSlot.blank],
      by simp [e5], by simp [e5], by simp [e6]⟩,
    ⟨fun k => by simp [load, e3, dc, HostedSlot.blank], fun k a => by simp [e3, HostedSlot.blank] at a,
        fun k _ => by simp [e3, dc, HostedSlot.blank]⟩,
    ⟨by simp [e3, HostedSlot.blank], by simp [e3, HostedSlot.blank], by simp [e4]⟩,
        fun k => by simp [e3, HostedSlot.blank]⟩

/-- With nothing hosted, nothing live and nothing queued the tables are whole in any station state. -/
theorem empty_keeps (so : StoreSound s) (hf : ∀ k, (hostedSlot k s).state = .free) (q : Requests u) (he : s.engine = u.engine)
    (lv : ∀ i, isLive (entry i u) = false) (hq : standing s.queue.classA = [] ∧ standing s.queue.classB = [])
    (hd : ∀ m, dirEntry m s ≠ .claiming ∧ dirEntry m s ≠ .homed (self s))
    (ho : s.control.state = .offline → ∀ m, dirEntry m s = .free) : TablesWhole s := by
  have sh := fun k => so.loads.shut k (by rw [hf]; simp)
  have e6 : ∀ i, entry i s = entry i u := fun i => by simp [entry, he]
  have e7 : ∀ h, waitingOrder h s = waitingOrder h u := fun i => by simp [waitingOrder, he]
  have nw : ∀ w, waiter w s = none := fun w => by
    cases e : waiter w s with
    | none => rfl
    | some r => have := so.listed.2.2 w r e; rw [(sh r.hosted).2.1] at this; simp at this
  refine .mk' so (fun k w rest a => absurd (sh k).1 a) ⟨fun k a => ?_, fun k a => ?_, fun k l a => absurd (hf k) a,
      fun m a => ?_, fun _ => hf, ho⟩ ⟨?_, q.orders.same he⟩
  · rw [hf] at a; cases a
  · rw [hf] at a; cases a
  · rcases a with a | a
    · exact absurd a (hd m).1
    · exact absurd a (hd m).2
  · obtain ⟨q1, q2, q3, q4, q5, q6, q7, -, -, -, -, -, -⟩ := q.whole
    refine ⟨by simpa [he] using q1, by simpa [he, e6] using q2, by simpa [e7] using q3, by simpa [e7, e6] using q4,
      by simpa [e6] using q5, by simpa [e6] using q6, fun i a => ?_, ⟨fun w r h => ?_, fun w v r y h => ?_⟩,
          fun _ i => by rw [e6]; exact lv i,
      by rw [hq.2]; exact List.nodup_nil, by rw [hq.2]; simp, by rw [hq.1]; simp, by rw [hq.2]; simp⟩
    · have := lv i; rw [e6] at a; simp [isLive, a] at this
    · rw [nw] at h; cases h
    · rw [nw] at h; cases h

theorem sessionEnd_keeps (c : EndCause) (p : TablesWhole s) : TablesWhole (sessionEnd c s) := by
  obtain ⟨a1, a2, a3, a4, a5, a6, a7⟩ := endEntries_keeps s
  unfold sessionEnd
  generalize endEntries s = b at *
  refine empty_keeps (u := b) (cleared_sound b.store.arrivalStamp b.store.dseq rfl) (fun k => ?_) (a5 p.requests) rfl a6 ⟨rfl, rfl⟩ (fun m => ?_) (fun _ m => ?_)
  · simp [hostedSlot, clearSession, MailboxStore.cleared, HostedSlot.blank]
  · simp [dirEntry, clearSession, Directory.reset]
  · simp [dirEntry, clearSession, Directory.reset]

/-! ### Entering LEAVING -/

/-- What reads the configuration and not the station state does the same before and after the state changes. -/
def Blind (f : State → State) : Prop := ∀ st s, f (enterState st s) = enterState st (f s)

theorem Blind.comp {f g : State → State} (hf : Blind f) (hg : Blind g) : Blind fun s => f (g s) := fun st s => by
  show f (g (enterState st s)) = enterState st (f (g s))
  rw [hg, hf]

theorem Blind.foldl {α : Type} {f : State → α → State} (hf : ∀ a, Blind fun s => f s a) (l : List α) :
    Blind fun s => l.foldl f s := by
  intro st s
  induction l generalizing s with
  | nil => rfl
  | cons a l ih =>
    have e : f (enterState st s) a = enterState st (f s a) := hf a st s
    show (l.foldl f (f (enterState st s) a)) = enterState st (l.foldl f (f s a))
    rw [e]; exact ih _

theorem Blind.forEach {n : Nat} {f : Fin n → State → State} (hf : ∀ i, Blind (f i)) : Blind (Machine.forEach f) :=
  Blind.foldl (f := fun s i => f i s) hf _

theorem finish_blind (i : Fin 16) (st : Status) : Blind (finish i st) := by
  intro a s
  have e : leaveWaiting i (withdrawEntry i (enterState a s)) = enterState a (leaveWaiting i (withdrawEntry i s)) := by
    unfold leaveWaiting
    have : (entry i (withdrawEntry i (enterState a s))).home = (entry i (withdrawEntry i s)).home := rfl
    rw [this]
    split <;> rfl
  unfold finish
  rw [e]
  dsimp only
  generalize leaveWaiting i (withdrawEntry i s) = b
  have : completionRoom (enterState a b) = completionRoom b := rfl
  rw [this]
  split <;> rfl

theorem removeWaiter_blind (w : Fin 32) : Blind (removeWaiter w) := by
  intro a s
  unfold removeWaiter
  have : waiter w (enterState a s) = waiter w s := rfl
  rw [this]
  split <;> rfl

theorem revise_blind (x : Fin 32) (g : Byte) (o p : TakeOutcome) : Blind (revise x g o p) := by
  intro a s
  unfold revise
  have : refersTo x g o (enterState a s) = refersTo x g o s := rfl
  rw [this]
  split <;> rfl

theorem freeDelivery_blind (d : Fin 8) : Blind (freeDelivery d) := by
  intro a s
  unfold freeDelivery
  have : delivery d (enterState a s) = delivery d s := rfl
  rw [this]
  split <;> rfl

theorem discardWaiter_blind (st : Status) (b : Bool) (w : Fin 32) : Blind (discardWaiter st b w) := by
  intro a s
  unfold discardWaiter
  have e1 : waiter w (enterState a s) = waiter w s := rfl
  rw [e1]
  split
  · rename_i r _
    have e2 : isLocal r (enterState a s) = isLocal r s := rfl
    rw [e2, removeWaiter_blind, finish_blind, revise_blind]
    split
    · split <;> rfl
    · rfl
  · rfl

theorem discardDelivery_blind (h : Fin 16) (d : Fin 8) : Blind (discardDelivery h d) := by
  intro a s
  unfold discardDelivery
  have e1 : delivery d (enterState a s) = delivery d s := rfl
  rw [e1]
  split
  · rw [freeDelivery_blind, revise_blind]
    split <;> rfl
  · rfl

theorem discardSteps_blind (st : Status) (h : Fin 16) : Blind (discardSteps st h) := by
  have f1 : ∀ b, Blind fun s => (hostedSlot h s).waiters.foldl (fun s w => discardWaiter st b w s) s := fun b a s =>
    Blind.foldl (f := fun s w => discardWaiter st b w s) (discardWaiter_blind st b) (hostedSlot h s).waiters a s
  have f2 : Blind (Machine.forEach (discardDelivery h)) := Blind.forEach (discardDelivery_blind h)
  have f3 : Blind fun s => (hostedSlot h s).messages.foldl (fun s c => setCell c none s) s := fun a s =>
    Blind.foldl (f := fun s c => setCell c none s) (fun c a s => rfl) (hostedSlot h s).messages a s
  have f4 : Blind (setHosted h HostedSlot.blank) := fun a s => rfl
  have all := f4.comp (f3.comp (f2.comp ((f1 false).comp (f1 true))))
  intro a s
  exact all a s

theorem leaveSlot_blind (h : Fin 16) : Blind (leaveSlot h) := by
  intro a s
  unfold leaveSlot
  have e1 : (hostedSlot h (enterState a s)).state = (hostedSlot h s).state := rfl
  rw [e1, discardSteps_blind]
  split <;> rfl

theorem leaveDirEntry_blind (m : Fin 64) : Blind (leaveDirEntry m) := by
  intro a s
  unfold leaveDirEntry
  have e1 : dirEntry m (enterState a s) = dirEntry m s := rfl
  have e2 : self (enterState a s) = self s := rfl
  rw [e1, e2]
  split
  · rfl
  · split <;> rfl
  · rfl

theorem removeLocalWaiter_blind (i : Fin 16) : Blind (removeLocalWaiter i) := by
  intro a s
  unfold removeLocalWaiter
  have e1 : waiterOf (self (enterState a s)) (entryTag i (enterState a s)) (enterState a s) = waiterOf (self s) (entryTag i s) s := rfl
  rw [e1]
  split
  · exact removeWaiter_blind _ a s
  · rfl

theorem endEntry_blind (i : Fin 16) : Blind (endEntry i) := by
  intro a s
  unfold endEntry
  have e1 : entry i (enterState a s) = entry i s := rfl
  rw [e1, removeLocalWaiter_blind]
  split
  · have : (if (entry i s).state = .localParked then enterState a (removeLocalWaiter i s) else enterState a s) =
        enterState a (if (entry i s).state = .localParked then removeLocalWaiter i s else s) := by split <;> rfl
    rw [this]
    exact finish_blind i _ a _
  · rfl

/-- The state becomes LEAVING before or after the work of leaving: the work does not read it. -/
theorem enterLeaving_eq (s : State) :
    enterLeaving s = enterState .leaving (forEach leaveDirEntry (forEach leaveSlot (endEntries (emptyLists s)))) := by
  have f1 : Blind (forEach leaveDirEntry) := .forEach leaveDirEntry_blind
  have f2 : Blind (forEach leaveSlot) := .forEach leaveSlot_blind
  have f3 : Blind (forEach endEntry) := .forEach endEntry_blind
  have e1 : emptyLists (enterState .leaving s) = enterState .leaving (emptyLists s) := rfl
  have e2 : ∀ s, clearWaiting (enterState .leaving s) = enterState .leaving (clearWaiting s) := fun _ => rfl
  unfold enterLeaving endEntries
  rw [e1, f3, e2, f2, f1]

theorem leaveSlot_dropped (h : Fin 16) (s : State) :
    (leaveSlot h s).control = s.control ∧ (leaveSlot h s).directory = s.directory ∧
        (hostedSlot h (leaveSlot h s)).state = .free ∧
    (∀ k, k ≠ h → (hostedSlot k (leaveSlot h s)).state = (hostedSlot k s).state) ∧
    (StoreSound s → StoreSound (leaveSlot h s)) ∧ (Requests s → Requests (leaveSlot h s)) := by
  unfold leaveSlot
  split
  · have d := discardSteps_dropped .sessionEnd h s
    exact ⟨d.control, d.directory, d.blank, fun k hk => (d.slots k hk).1, d.sound, d.requests⟩
  · rename_i e
    refine ⟨rfl, rfl, by rw [hostedSlot_setHosted, if_pos rfl]; rfl,
        fun k hk => by rw [hostedSlot_setHosted, if_neg (fun e => hk e.symm)],
      setClaiming_sound e rfl rfl (fun a => absurd rfl a), setHosted_requests _ _⟩
  · rename_i e; exact ⟨rfl, rfl, e, fun _ _ => rfl, id, id⟩

theorem leaveSlots_dropped (l : List (Fin 16)) (s : State) :
    (l.foldl (fun s h => leaveSlot h s) s).control = s.control ∧
        (l.foldl (fun s h => leaveSlot h s) s).directory = s.directory ∧
    (∀ h, (h ∈ l ∨ (hostedSlot h s).state = .free) →
        (hostedSlot h (l.foldl (fun s h => leaveSlot h s) s)).state = .free) ∧
    (StoreSound s → StoreSound (l.foldl (fun s h => leaveSlot h s) s)) ∧
        (Requests s → Requests (l.foldl (fun s h => leaveSlot h s) s)) := by
  induction l generalizing s with
  | nil => exact ⟨rfl, rfl, fun h a => a.resolve_left (by simp), id, id⟩
  | cons k l ih =>
    obtain ⟨a1, a2, a3, a4, a5, a6⟩ := leaveSlot_dropped k s
    obtain ⟨b1, b2, b3, b4, b5⟩ := ih (leaveSlot k s)
    refine ⟨b1.trans a1, b2.trans a2, fun h c => b3 h ?_, fun h => b4 (a5 h), fun h => b5 (a6 h)⟩
    by_cases e : h = k
    · subst e; exact .inr a3
    · rcases c with c | c
      · left; simpa [e] using c
      · right; rw [a4 h e]; exact c

/-- No entry becomes live by a discard. -/
theorem discardSteps_live (st : Status) (h : Fin 16) (s : State) (j : Fin 16) (k : isLive (entry j (discardSteps st h s)) = true) :
    isLive (entry j s) = true := by
  have w : ∀ b w s, isLive (entry j (discardWaiter st b w s)) = true → isLive (entry j s) = true := by
    intro b w s k
    unfold discardWaiter at k
    split at k
    · split at k
      · split at k
        · have := (finish_live _ _ _).2 j k
          simpa [entry, removeWaiter_engine] using this
        · rename_i r _ _ _
          have := (revise_slots r.requester r.tag .parked .noMailbox (removeWaiter w s)).engine
          simpa [entry, this, removeWaiter_engine] using k
      · exact k
    · exact k
  have ws : ∀ (b : Bool) (l : List (Fin 32)) (s : State),
      isLive (entry j (l.foldl (fun s w => discardWaiter st b w s) s)) = true → isLive (entry j s) = true := by
    intro b l
    induction l with
    | nil => exact fun s => id
    | cons w' l ih => exact fun s k => w b w' s (ih _ k)
  have d : ∀ d s, (discardDelivery h d s).engine = s.engine := by
    intro d s
    unfold discardDelivery
    split
    · split
      · rw [(revise_slots _ _ _ _ _).engine]; unfold freeDelivery; split <;> rfl
      · rfl
    · rfl
  have ds : ∀ s, (forEach (discardDelivery h) s).engine = s.engine := fun s =>
    forEach_keeps (fun t => t.engine = s.engine) (discardDelivery h) (fun i t k => (d i t).trans k) s rfl
  unfold discardSteps at k
  dsimp only at k
  refine ws true (hostedSlot h s).waiters s ?_
  generalize (hostedSlot h s).waiters.foldl (fun s w => discardWaiter st true w s) s = a at *
  refine ws false (hostedSlot h a).waiters a ?_
  generalize (hostedSlot h a).waiters.foldl (fun s w => discardWaiter st false w s) a = b at *
  have c5 := (freeCells_views (hostedSlot h (forEach (discardDelivery h) b)).messages (forEach (discardDelivery h) b)).2.2.2.2.1
  have : ∀ x t, entry j (setHosted h x t) = entry j t := fun _ _ => rfl
  rw [this] at k
  simpa [entry, c5, ds] using k

theorem leaveSlots_live (l : List (Fin 16)) (s : State) (j : Fin 16) (k : isLive (entry j (l.foldl (fun s h => leaveSlot h s) s)) = true) :
    isLive (entry j s) = true := by
  induction l generalizing s with
  | nil => exact k
  | cons h l ih =>
    have := ih (leaveSlot h s) k
    unfold leaveSlot at this
    split at this
    · exact discardSteps_live _ _ _ _ this
    · exact this
    · exact this

theorem leaveDir_views (l : List (Fin 64)) (s : State) :
    (l.foldl (fun s m => leaveDirEntry m s) s).control = s.control ∧
        (l.foldl (fun s m => leaveDirEntry m s) s).store = s.store ∧
    (l.foldl (fun s m => leaveDirEntry m s) s).engine = s.engine ∧
        (l.foldl (fun s m => leaveDirEntry m s) s).queue = s.queue ∧
    ∀ m, (m ∈ l ∨ (dirEntry m s ≠ .claiming ∧ dirEntry m s ≠ .homed (self s))) →
      dirEntry m (l.foldl (fun s m => leaveDirEntry m s) s) ≠ .claiming ∧
          dirEntry m (l.foldl (fun s m => leaveDirEntry m s) s) ≠ .homed (self s) := by
  induction l generalizing s with
  | nil => exact ⟨rfl, rfl, rfl, rfl, fun m h => h.resolve_left (by simp)⟩
  | cons k l ih =>
    obtain ⟨b1, b2, b3, b4, b5⟩ := ih (leaveDirEntry k s)
    have one : (leaveDirEntry k s).control = s.control ∧ (leaveDirEntry k s).store = s.store ∧
        (leaveDirEntry k s).engine = s.engine ∧
        (leaveDirEntry k s).queue = s.queue ∧ (∀ m, m ≠ k → dirEntry m (leaveDirEntry k s) = dirEntry m s) ∧
        dirEntry k (leaveDirEntry k s) ≠ .claiming ∧ dirEntry k (leaveDirEntry k s) ≠ .homed (self s) := by
      unfold leaveDirEntry
      split
      · exact ⟨rfl, rfl, rfl, rfl, fun m h => by rw [dirEntry_set, if_neg h], by rw [dirEntry_set]; simp,
            by rw [dirEntry_set]; simp⟩
      · rename_i y e
        split
        · exact ⟨rfl, rfl, rfl, rfl, fun m h => by rw [dirEntry_set, if_neg h], by rw [dirEntry_set]; simp,
              by rw [dirEntry_set]; simp⟩
        · rename_i ne; exact ⟨rfl, rfl, rfl, rfl, fun m h => rfl, by rw [e]; simp, by rw [e]; simpa using ne⟩
      · rename_i n1 n2; exact ⟨rfl, rfl, rfl, rfl, fun m h => rfl, fun h => n1 h, fun h => n2 _ h⟩
    obtain ⟨a1, a2, a3, a4, a5, a6⟩ := one
    have se := self_of a1
    rw [se] at b5
    refine ⟨b1.trans a1, b2.trans a2, b3.trans a3, b4.trans a4, fun m h => b5 m ?_⟩
    by_cases e : m = k
    · subst e; exact .inr a6
    · rcases h with h | h
      · left; simpa [e] using h
      · right; rw [a5 m e]; exact h

/-- Both lists of the item queue are empty. -/
def Silent (s : State) : Prop := s.queue.classA = [] ∧ s.queue.classB = []

theorem finish_silent {i : Fin 16} {st : Status} (h : Silent s) : Silent (finish i st s) := by
  have := (finish_engine_eq i st s).2.2.1
  unfold Silent at *
  rw [this, h.1, h.2]
  exact ⟨rfl, rfl⟩

theorem removeWaiter_silent {w : Fin 32} (h : Silent s) : Silent (removeWaiter w s) := by
  unfold removeWaiter; split <;> exact h

theorem revise_silent {x : Fin 32} {g : Byte} {o p : TakeOutcome} (h : Silent s) : Silent (revise x g o p s) := by
  unfold revise; split <;> exact h

theorem freeDelivery_silent {d : Fin 8} (h : Silent s) : Silent (freeDelivery d s) := by
  unfold freeDelivery
  split
  · refine ⟨?_, h.2⟩
    show withdrawFrom _ s.queue.classA = []
    rw [h.1]; rfl
  · exact h

theorem endEntries_silent (h : Silent s) : Silent (endEntries s) := by
  have one : ∀ i t, Silent t → Silent (endEntry i t) := by
    intro i t k
    unfold endEntry
    split
    · refine finish_silent ?_
      split
      · unfold removeLocalWaiter
        split
        · exact removeWaiter_silent k
        · exact k
      · exact k
    · exact k
  have all : Silent (forEach endEntry s) := forEach_keeps Silent endEntry (fun i t k => one i t k) s h
  unfold endEntries
  generalize forEach endEntry s = b at *
  exact all

theorem discardSteps_silent {st : Status} {h : Fin 16} (k : Silent s) : Silent (discardSteps st h s) := by
  have w : ∀ b s w, Silent s → Silent (discardWaiter st b w s) := by
    intro b s w k
    unfold discardWaiter
    split
    · split
      · split
        · exact finish_silent (removeWaiter_silent k)
        · exact revise_silent (removeWaiter_silent k)
      · exact k
    · exact k
  have d : ∀ d s, Silent s → Silent (discardDelivery h d s) := by
    intro d s k
    unfold discardDelivery
    split
    · split
      · exact revise_silent (freeDelivery_silent k)
      · exact k
    · exact k
  have ws : ∀ b (l : List (Fin 32)) s, Silent s → Silent (l.foldl (fun s w => discardWaiter st b w s) s) := fun b l s k =>
    foldl_keeps Silent (fun s w => discardWaiter st b w s) (fun t v k => w b t v k) l s k
  have ds : ∀ s, Silent s → Silent (forEach (discardDelivery h) s) := fun s k =>
    forEach_keeps Silent (discardDelivery h) (fun i t k => d i t k) s k
  have cs : ∀ (l : List (Fin 64)) s, Silent s → Silent (l.foldl (fun s c => setCell c none s) s) := fun l s k =>
    foldl_keeps Silent (fun s c => setCell c none s) (fun t c k => k) l s k
  unfold discardSteps
  dsimp only
  have a1 := ws true (hostedSlot h s).waiters s k
  generalize (hostedSlot h s).waiters.foldl (fun s w => discardWaiter st true w s) s = a at *
  have a2 := ws false (hostedSlot h a).waiters a a1
  generalize (hostedSlot h a).waiters.foldl (fun s w => discardWaiter st false w s) a = b at *
  have a3 := ds b a2
  generalize forEach (discardDelivery h) b = c at *
  have a4 := cs (hostedSlot h c).messages c a3
  generalize (hostedSlot h c).messages.foldl (fun s c => setCell c none s) c = e at *
  exact a4

theorem leaveSlots_silent (k : Silent s) : Silent (forEach leaveSlot s) := by
  refine forEach_keeps Silent leaveSlot (fun h t k => ?_) s k
  unfold leaveSlot
  split
  · exact discardSteps_silent k
  · exact k
  · exact k

theorem enterLeaving_keeps (p : TablesWhole s) : TablesWhole (enterLeaving s) := by
  rw [enterLeaving_eq]
  have k0 : TableStep s (emptyLists s) := queue_step ⟨rfl, rfl,
      rfl⟩ rfl (by simp [emptyLists, standing]) (by simp [emptyLists, standing])
  have p0 := p.step k0
  have q0 : Silent (emptyLists s) := ⟨rfl, rfl⟩
  generalize emptyLists s = a at *
  obtain ⟨a1, a2, a3, a4, a5, a6, a7⟩ := endEntries_keeps a
  have qa := endEntries_silent q0
  generalize endEntries a = b at *
  obtain ⟨b1, b2, b3, b4, b5⟩ := leaveSlots_dropped (List.finRange 16) b
  have b6 := leaveSlots_live (List.finRange 16) b
  have qb := leaveSlots_silent qa
  have fb : (List.finRange 16).foldl (fun s h => leaveSlot h s) b = forEach leaveSlot b := rfl
  rw [fb] at b1 b2 b3 b4 b5 b6
  clear fb
  generalize forEach leaveSlot b = c at *
  obtain ⟨c1, c2, c3, c4, c5⟩ := leaveDir_views (List.finRange 64) c
  have fc : (List.finRange 64).foldl (fun s m => leaveDirEntry m s) c = forEach leaveDirEntry c := rfl
  rw [fc] at c1 c2 c3 c4 c5
  clear fc
  generalize forEach leaveDirEntry c = d at *
  have so : StoreSound d := (b4 (a4 p0.sound)).same (fun k => by simp [hostedSlot, c2]) (fun k => by simp [waiter, c2]) (fun k => by simp [cell, c2])
    (fun k => by simp [delivery, c2])
  have so' : StoreSound (enterState .leaving d) := so.same (fun _ => rfl) (fun _ => rfl) (fun _ => rfl) (fun _ => rfl)
  refine empty_keeps (u := c) so' (fun k => ?_) (b5 (a5 p0.requests)) c3 (fun i => ?_) ?_ (fun m => ?_) (fun h => ?_)
  · show (hostedSlot k d).state = .free
    have := b3 k (.inl (List.mem_finRange k))
    simpa [hostedSlot, c2] using this
  · by_contra h
    have := b6 i (by simpa using h)
    rw [a6] at this; cases this
  · show standing d.queue.classA = [] ∧ standing d.queue.classB = []
    rw [c4, qb.1, qb.2]; exact ⟨rfl, rfl⟩
  · have := c5 m (.inl (List.mem_finRange m))
    have e : self (enterState .leaving d) = self c := self_of (s := c) (t := d) c1
    rw [e]; exact this
  · cases h

/-! ### The Turn Tracker -/

theorem offerTurn_step (s : State) : TableStep s (offerTurn s) := by
  unfold offerTurn
  split
  · unfold offerActive
    dsimp only
    split
    · exact tracker_step _ s
    · refine queue_step ⟨rfl, rfl, rfl⟩ rfl ?_ ?_
      · show (standing (chosenB s).list).Sublist _
        rw [chosenB, standing_chooseFrom]
      · show ∀ o ∈ standing (chosenA s).list, _
        rw [chosenA, standing_chooseFrom]; exact fun _ => id
  · exact queue_step ⟨rfl, rfl, rfl⟩ rfl (.refl _) fun _ => id
  · exact .refl s

theorem closeOwnTurn_step (s : State) : TableStep s (closeOwnTurn s) := (tracker_step _ s).trans (offerTurn_step _)

theorem settle_step (s : State) : TableStep s (settle s) := by
  unfold settle
  split
  · exact closeOwnTurn_step s
  · exact .refl s

theorem ownTurn_step (s : State) : TableStep s (ownTurn s) := (tracker_step _ s).trans (settle_step _)

theorem actOnDeadlines_step (s : State) : TableStep s (actOnDeadlines s) :=
  ((TableStep.forEach actOnEntry_step s).trans (TableStep.forEach actOnWaiter_step _)).trans (TableStep.forEach actOnDelivery_step _)

theorem finishOwnTurn_step (s : State) : TableStep s (finishOwnTurn s) := by
  unfold finishOwnTurn
  split
  · exact (actOnDeadlines_step s).trans (closeOwnTurn_step _)
  · exact .refl s

theorem handOwnTurn_step (s : State) : TableStep s (handOwnTurn s) := by
  unfold handOwnTurn
  split
  · exact ownTurn_step s
  · exact .refl s

theorem counters_step (c : Counters) (s : State) : TableStep s (s.withCounters c) := .of_slots (withCounters_slots c s)

theorem placeTurn_step (x : Fin 32) (m : Moment) (s : State) : TableStep s (placeTurn x m s) := tracker_step _ s

theorem syncGained_keeps (p : TablesWhole s) : TablesWhole (syncGained s) := by
  unfold syncGained
  split
  · exact enterState_bus (.inr rfl) p
  · exact p

theorem syncLost_keeps (p : TablesWhole s) : TablesWhole (syncLost s) := by
  unfold syncLost
  split
  · exact enterState_bus (.inl rfl) p
  · exact sessionEnd_keeps _ p
  · exact p

theorem frameToTracker_keeps (x : Fin 32) (m : Moment) (p : TablesWhole s) : TablesWhole (frameToTracker x m s) := by
  unfold frameToTracker
  split
  · split
    · exact p.step (placeTurn_step _ _ _)
    · exact (p.step (placeTurn_step _ _ _)).step (counters_step _ _)
  · exact syncGained_keeps (p.step (placeTurn_step _ _ _))

theorem loseSync_keeps (p : TablesWhole s) : TablesWhole (loseSync s) := by
  unfold loseSync
  split
  · exact syncLost_keeps (p.step (tracker_step _ _))
  · exact p

theorem turnLapse_keeps (p : TablesWhole s) : TablesWhole (turnLapse s) := by
  unfold turnLapse
  split
  · split
    · exact ((missedTurn_keeps _ p).step (placeTurn_step _ _ _)).step (handOwnTurn_step _)
    · exact p
  · exact p

theorem quietRule_keeps (p : TablesWhole s) : TablesWhole (quietRule s) := by
  unfold quietRule
  split
  · split
    · exact ((p.step (placeTurn_step _ _ _)).step (tracker_step _ _)).step (handOwnTurn_step _)
    · exact p
  · exact p

theorem quietResync_keeps (p : TablesWhole s) : TablesWhole (quietResync s) := by
  unfold quietResync
  split
  · split
    · exact (syncGained_keeps (((p.step (placeTurn_step _ _ _)).step (tracker_step _ _)).step (counters_step _ _))).step (handOwnTurn_step _)
    · exact p
  · exact p

/-! ### The Line Unit -/

theorem receiveGood_keeps (x : Fin 32) (items : List Item) (m : Moment) (p : TablesWhole s) :
    TablesWhole (receiveGood x items m s) :=
  (dispatchItems_keeps x items ((frameToTracker_keeps x m p).step (heard_step x _))).step (handOwnTurn_step _)

theorem handOn_keeps (v : Verdict) (m : Moment) (p : TablesWhole s) : TablesWhole (handOn v m s) := by
  unfold handOn
  split
  · exact receiveGood_keeps _ _ _ (p.step (counters_step _ _))
  · exact loseSync_keeps (p.step (counters_step _ _))
  · exact loseSync_keeps (p.step (counters_step _ _))
  · exact sessionEnd_keeps _ p

theorem closeActivity_step (m : Moment) (s : State) :
    TableStep s (closeActivity m s) := (line_step _ s).trans (tracker_step _ _)

theorem closeBySilence_keeps (p : TablesWhole s) : TablesWhole (closeBySilence s) := by
  unfold closeBySilence
  split
  · dsimp only
    split
    · exact p.step (closeActivity_step _ _)
    · exact handOn_keeps _ _ (p.step (closeActivity_step _ _))
  · exact p

theorem abortWaiting_step (s : State) : TableStep s (abortWaiting s) := by
  unfold abortWaiting
  split
  · exact (abortFrame_step s).trans (line_step _ _)
  · exact .refl s

theorem activityOpens_step (ch : LineChar) (m : Moment) (s : State) : TableStep s (activityOpens ch m s) := by
  unfold activityOpens
  split
  · exact ((abortWaiting_step s).trans (tracker_step _ _)).trans (line_step _ _)
  · exact .refl s

theorem assembleCharacter_keeps (ch : LineChar) (m : Moment) (p : TablesWhole s) :
    TablesWhole (assembleCharacter ch m s) := by
  unfold assembleCharacter
  split
  · exact p.step (line_step _ _)
  · dsimp only
    split
    · exact p.step (line_step _ _)
    · split
      · exact handOn_keeps _ _ (p.step (closeActivity_step _ _))
      · exact p.step (line_step _ _)

theorem transmitStart_step (s : State) : TableStep s (transmitStart s) := by
  unfold transmitStart
  split
  · split
    · split
      · exact (line_step _ s).trans (tracker_step _ _)
      · exact abortWaiting_step s
    · exact .refl s
  · exact .refl s

theorem echoGood_keeps (p : TablesWhole s) : TablesWhole (echoGood s) := by
  have k : TablesWhole (ownFrameReceived s) := by
    unfold ownFrameReceived
    exact receiveGood_keeps _ _ _ ((((p.step (counters_step _ s)).step (line_step _ _)).step (closeActivity_step _ _)).step (frameSent_step _))
  unfold echoGood
  split
  · dsimp only
    split
    · exact sessionEnd_keeps _ k
    · exact k
  · exact p

theorem collision_keeps (m : Moment) (p : TablesWhole s) : TablesWhole (collision m s) := by
  unfold collision
  split
  · exact loseSync_keeps (((p.step (line_step _ _)).step (counters_step _ _)).step (abortFrame_step _))
  · exact p

theorem breakEnd_step (s : State) : TableStep s (breakEnd s) := by
  unfold breakEnd
  split
  · dsimp only
    split
    · exact (line_step _ s).trans (line_step _ _)
    · exact line_step _ s
  · exact .refl s

theorem echoCharacter_keeps (ch : LineChar) (m : Moment) (p : TablesWhole s) : TablesWhole (echoCharacter ch m s) := by
  unfold echoCharacter
  split
  · split
    · split
      · exact echoGood_keeps p
      · exact p.step (line_step _ _)
    · exact collision_keeps _ p
  · exact p

theorem laterCharacter_keeps (ch : LineChar) (m : Moment) (p : TablesWhole s) :
    TablesWhole (laterCharacter ch m s) := by
  unfold laterCharacter
  split
  · exact (closeBySilence_keeps p).step (activityOpens_step _ _ _)
  · split
    · exact assembleCharacter_keeps _ _ p
    · exact p.step (line_step _ _)

theorem lineCharacter_keeps (ch : LineChar) (m : Moment) (p : TablesWhole s) : TablesWhole (lineCharacter ch m s) := by
  unfold lineCharacter
  split
  · exact p
  · split
    · exact p.step (activityOpens_step _ _ _)
    · exact laterCharacter_keeps _ _ p
    · exact laterCharacter_keeps _ _ p
    · exact echoCharacter_keeps _ _ p

/-! ### Deadlines -/

theorem actOnDueEntry_step (f : EntryState → Bool) (s : State) : TableStep s (actOnDueEntry f s) := by
  unfold actOnDueEntry
  split
  · split
    · exact (actOnEntry_step _ s).trans (settle_step _)
    · exact .refl s
  · exact .refl s

theorem expireDueWaiter_step (s : State) : TableStep s (expireDueWaiter s) := by
  unfold expireDueWaiter
  split
  · exact (actOnWaiter_step _ s).trans (settle_step _)
  · exact .refl s

theorem actOnDueDelivery_step (s : State) : TableStep s (actOnDueDelivery s) := by
  unfold actOnDueDelivery
  split
  · exact .refl s
  · split
    · exact (actOnDelivery_step _ s).trans (settle_step _)
    · exact .refl s

end Sys2Proof.Machine
end

