-- ==== Sys2Proof/Laws/TableCommands.lean ====
section
/-! SUPPORT. The work of each command and the taking of a command keep the tables (R43, R46, R48, R89, R93, R119, R135, R165,
R186). -/

namespace Sys2Proof.Machine

variable {s t u : State}

/-! ### The work of each command -/

theorem port_step (k : LocalPort) (s : State) : TableStep s (s.withPort k) := queue_step ⟨rfl, rfl,
    rfl⟩ rfl (.refl _) fun _ => id

theorem configureWork_keeps (b : List Byte) (h : s.control.state = .offline) (p : TablesWhole s) :
    TablesWhole (configureWork b s).1 := by
  unfold configureWork
  split
  · rename_i c _
    have sf := p.directory.quiet (.inl h)
    have de := p.directory.offline h
    have lv := p.requests.idle (.inl h)
    generalize ht : ({ s with control := { s.control with config := some c } } : State) = t
    have hs : t.store = s.store := by rw [← ht]
    have he : t.engine = s.engine := by rw [← ht]
    have hq : t.queue = s.queue := by rw [← ht]
    have hd : t.directory = s.directory := by rw [← ht]
    have hc : t.control.state = s.control.state := by rw [← ht]
    have so : StoreSound t := p.sound.same (fun k => by simp [hostedSlot, hs]) (fun k => by simp [waiter, hs]) (fun k => by simp [cell, hs]) (fun k => by simp [delivery, hs])
    have sh := fun k => so.loads.shut k (by simp [hostedSlot, hs]; have := sf k; simp [hostedSlot] at this; rw [this]; simp)
    have nw : ∀ w, waiter w t = none := fun w => by
      cases e : waiter w t with
      | none => rfl
      | some r => have := so.listed.2.2 w r e; rw [(sh r.hosted).2.1] at this; simp at this
    have e6 : ∀ i, entry i t = entry i s := fun i => by simp [entry, he]
    have e7 : ∀ h, waitingOrder h t = waitingOrder h s := fun i => by simp [waitingOrder, he]
    have e8 : ∀ m, dirEntry m t = .free := fun m => by simpa [dirEntry, hd] using de m
    have e9 : ∀ k, (hostedSlot k t).state = .free := fun k => by simpa [hostedSlot, hs] using sf k
    refine .mk' so (fun k w rest a => absurd (sh k).1 a) ⟨fun k a => ?_, fun k a => ?_, fun k l a => absurd (e9 k) a,
        fun m a => ?_, fun _ => e9, fun _ => e8⟩ ⟨?_, p.orders.same he⟩
    · rw [e9] at a; cases a
    · rw [e9] at a; cases a
    · rw [e8] at a; rcases a with a | a <;> cases a
    · obtain ⟨q1, q2, q3, q4, q5, q6, q7, -, -, q10, q11, q12, q13⟩ := p.requests
      refine ⟨by simpa [he] using q1, by simpa [he, e6] using q2, by simpa [e7] using q3, by simpa [e7, e6] using q4,
        by simpa [e6] using q5, by simpa [e6] using q6, fun i a => ?_, ⟨fun w r h => ?_, fun w v r y h => ?_⟩,
            fun _ i => by rw [e6]; exact lv i,
        by rwa [hq], by rw [hq]; simpa [e6] using q11, by rwa [hq], by rwa [hq]⟩
      · have := lv i; rw [e6] at a; simp [isLive, a] at this
      · rw [nw] at h; cases h
      · rw [nw] at h; cases h
  · exact p

theorem joinWork_keeps (m : Moment) (a : Bool) (b : List Byte) (h : s.control.state = .offline) (p : TablesWhole s) :
    TablesWhole (joinWork m a b s).1 := by
  unfold joinWork
  split
  · unfold startSession
    have sf := p.directory.quiet (.inl h)
    generalize ht : ({ s with line := s.line.started m a, tracker := TurnTracker.started m, roster := Vector.replicate 32 RosterEntry.blank, directory := Directory.reset } : State) = t
    have q : TablesWhole ({ t with directory := s.directory } : State) := by
      rw [← ht]; exact p.step (queue_step ⟨rfl, rfl, rfl⟩ rfl (.refl _) fun _ => id)
    have hd : t.directory = Directory.reset := by rw [← ht]
    have hs : t.store = s.store := by rw [← ht]
    refine enterState_bus (.inl rfl) ?_
    have e8 : ∀ m, dirEntry m t = .free := fun m => by simp [dirEntry, hd, Directory.reset]
    have e9 : ∀ k, (hostedSlot k t).state = .free := fun k => by simpa [hostedSlot, hs] using sf k
    refine .mk' (q.sound.same (fun _ => rfl) (fun _ => rfl) (fun _ => rfl) (fun _ => rfl)) q.pairs
      ⟨fun k a => ?_, fun k a => ?_, fun k l a => absurd (e9 k) a, fun m a => ?_, fun _ => e9,
          fun _ => e8⟩ (q.requests'.same rfl rfl (fun _ _ => id) rfl fun _ h => .inl h)
    · rw [e9] at a; cases a
    · rw [e9] at a; cases a
    · rw [e8] at a; rcases a with a | a <;> cases a
  · exact p

theorem leaveWork_keeps (b : List Byte) (p : TablesWhole s) : TablesWhole (leaveWork b s).1 := by
  unfold leaveWork
  dsimp only
  split
  · exact enterLeaving_keeps p
  · exact sessionEnd_keeps _ p

theorem openWork_keeps (b : List Byte) (on : OnBus s) (p : TablesWhole s) : TablesWhole (openWork b s).1 := by
  have key : ∀ m (depth : Nat) h i, openCheck m s = .taken h i → 1 ≤ depth ∧ depth ≤ 32 →
      TablesWhole (openTaken m depth h i s) := by
    intro m depth h i e dp
    have : (dirEntry m s ≠ .claiming ∧ dirEntry m s ≠ .homed (self s)) ∧ freeHosted s = some h ∧
        freeEntry s = some i := by
      have room : openRoom s = .taken h i → freeHosted s = some h ∧ freeEntry s = some i := by
        intro e
        unfold openRoom at e
        split at e
        · cases e
        · rename_i h' eh
          split at e
          · cases e
          · rename_i i' ei; cases e; exact ⟨eh, ei⟩
      unfold openCheck at e
      split at e
      · cases e
      · split at e <;> cases e
      · rename_i n1 n2
        exact ⟨⟨fun h => n1 h, fun h => n2 _ h⟩, room e⟩
    obtain ⟨⟨d1, d2⟩, fh, fe⟩ := this
    have hf : (hostedSlot h s).state = .free := by simpa using List.find?_some fh
    have ef := freeEntry_free fe
    unfold openTaken
    refine TablesWhole.step ?_ (broadcastRequest_step .claim m (s := setDirEntry m .claiming (setHosted h (claimingSlot m depth) s)) ef on)
    have hs : ∀ i, hostedSlot i (setDirEntry m .claiming (setHosted h (claimingSlot m depth) s)) = if i = h then claimingSlot m depth else hostedSlot i s := fun i => by
      show hostedSlot i (setHosted h _ s) = _
      rw [hostedSlot_setHosted, ite_symm_eq]
    have ds : ∀ n, dirEntry n (setDirEntry m .claiming (setHosted h (claimingSlot m depth) s)) = if n = m then .claiming else dirEntry n s :=
      fun n => dirEntry_set m n _ _
    obtain ⟨c1, c2, c3⟩ := p.loads.shut h (by rw [hf]; simp)
    have pr : PairsServed (setDirEntry m .claiming (setHosted h (claimingSlot m depth) s)) := setEmpty_pairs h rfl p.pairs
    have rq : Requests (setDirEntry m .claiming (setHosted h (claimingSlot m depth) s)) :=
      p.requests'.same rfl rfl (fun _ _ => id) rfl fun _ h => .inl h
    have ws : ∀ w, waiter w (setDirEntry m .claiming (setHosted h (claimingSlot m depth) s)) = waiter w s := fun _ => rfl
    have dc : ∀ i, deliveryCount i (setDirEntry m .claiming (setHosted h (claimingSlot m depth) s)) = deliveryCount i s := fun _ => rfl
    have r1 : ∀ d, delivery d (setDirEntry m .claiming (setHosted h (claimingSlot m depth) s)) = delivery d s := fun _ => rfl
    have r2 : ∀ d, cell d (setDirEntry m .claiming (setHosted h (claimingSlot m depth) s)) = cell d s := fun _ => rfl
    have hc : (setDirEntry m .claiming (setHosted h (claimingSlot m depth) s)).control = s.control := rfl
    have es : self (setDirEntry m .claiming (setHosted h (claimingSlot m depth) s)) = self s := rfl
    generalize setDirEntry m .claiming (setHosted h (claimingSlot m depth) s) = t at *
    refine .mk' ?_ pr ?_ rq
    · obtain ⟨p1, ⟨l1, l2, l3⟩, ⟨p3, p4, p5⟩, p6⟩ := p.sound
      refine ⟨p1.same (fun i => ?_) (fun d => by rw [r1]) r2, ⟨fun i => ?_, fun i => ?_, fun i => ?_⟩,
          ⟨fun i => ?_, fun i w => ?_, fun w r hw => ?_⟩, fun i => ?_⟩
      · rw [hs]; split
        · rename_i e; rw [e, c1]; rfl
        · rfl
      · rw [load, dc, hs]; split
        · rename_i e; rw [e, c3]; simp [claimingSlot]
        · exact l1 i
      · rw [hs]; split
        · exact fun _ => dp
        · exact l2 i
      · rw [dc, hs]; split
        · rename_i e; rw [e, c3]; exact fun _ => ⟨rfl, rfl, rfl⟩
        · exact l3 i
      · rw [hs]; split
        · exact List.nodup_nil
        · exact p3 i
      · rw [hs, ws]; split
        · intro e; simp [claimingSlot] at e
        · exact p4 i w
      · rw [ws] at hw
        have := p5 w r hw
        rw [hs]; split
        · rename_i e; rw [e, c2] at this; simp at this
        · exact this
      · have : ∀ w, priorityOf w t = priorityOf w s := fun w => priorityOf_same (ws w)
        simp only [this]
        rw [hs]; split
        · exact List.Pairwise.nil
        · exact p6 i
    · obtain ⟨p1, p2, p3, p4, p5, p6⟩ := p.directory
      have nm : ∀ k, (hostedSlot k s).state ≠ .free → (hostedSlot k s).mailbox ≠ m := by
        intro k a b
        cases e : (hostedSlot k s).state with
        | free => exact a e
        | claiming => exact d1 (by rw [← b]; exact p1 k e)
        | opened => exact d2 (by rw [← b]; exact p2 k e)
      constructor
      · intro k a
        rw [hs] at a ⊢
        split at a
        · rw [ds]; simp [*, claimingSlot]
        · rename_i e
          rw [if_neg e, ds, if_neg (nm k (by rw [a]; simp))]; exact p1 k a
      · intro k a
        rw [hs] at a ⊢
        split at a
        · cases a
        · rename_i e
          rw [if_neg e, ds, if_neg (nm k (by rw [a]; simp)), es]; exact p2 k a
      · intro k l a b c
        rw [hs] at a b
        rw [hs, hs] at c
        split at a <;> split at b
        · rename_i x y; rw [x, y]
        · rename_i x y; rw [if_pos x, if_neg y] at c; exact absurd c.symm (nm l b)
        · rename_i x y; rw [if_neg x, if_pos y] at c; exact absurd c (nm k a)
        · rename_i x y; rw [if_neg x, if_neg y] at c; exact p3 k l a b c
      · intro n a
        rw [ds, es] at a
        split at a
        · rename_i e; exact ⟨h, by rw [hs, if_pos rfl]; simp [claimingSlot], by rw [hs, if_pos rfl, e]; rfl⟩
        · obtain ⟨k, x, y⟩ := p4 n a
          have : k ≠ h := by rintro rfl; exact x hf
          exact ⟨k, by rw [hs, if_neg this]; exact x, by rw [hs, if_neg this]; exact y⟩
      · intro a; rw [hc] at a; rcases on with o | o <;> rcases a with h | h <;> rw [h] at o <;> cases o
      · intro a; rw [hc] at a; exact absurd a on.joined
  unfold openWork
  repeat' split
  all_goals first
    | exact p
    | (unfold openMailboxAt
       split
       · exact p
       · rename_i dp _ h i e; exact key _ _ h i e dp)

/-- Work of the Request Engine and of the store that leaves FREE entries FREE. -/
structure FreeKept (s t : State) : Prop where
  requests : Requests s → Requests t
  free : Requests s → ∀ j, (entry j s).state = .free → (entry j t).state = .free

theorem FreeKept.refl (s : State) : FreeKept s s := ⟨id, fun _ _ => id⟩

theorem FreeKept.trans (h : FreeKept s t) (k : FreeKept t u) : FreeKept s u :=
  ⟨fun q => k.requests (h.requests q), fun q j f => k.free (h.requests q) j (h.free q j f)⟩

theorem FreeKept.of_engine (h : Requests s → Requests t) (e : t.engine = s.engine) : FreeKept s t :=
  ⟨h, fun _ j f => by simpa [entry, e] using f⟩

theorem FreeKept.foldl {α : Type} {f : State → α → State} (hf : ∀ s a, FreeKept s (f s a)) (l : List α) (s : State) :
    FreeKept s (l.foldl f s) := foldl_keeps (FreeKept s) f (fun t a k => k.trans (hf t a)) l s (.refl s)

theorem finishTaker_free {w : Fin 32} {r : Waiter} {st : Status} (a : State) (e : ∀ j,
    (entry j a).state = (entry j s).state)
    (h : waiter w s = some r) (l : r.requester = self s) (q : Requests s) (j : Fin 16) (f : (entry j s).state = .free) :
    (entry j (finish (slotOfTag r.tag) st a)).state = .free := by
  have := (q.whole.takers.1 w r h l).1
  have ne : j ≠ slotOfTag r.tag := by rintro rfl; rw [f] at this; cases this
  rw [(finish_engine_eq _ st a).1 j ne, e]; exact f

theorem serveLocal_free {w : Fin 32} {r : Waiter} (msg : Message) (h : waiter w s = some r) (l : r.requester = self s) :
    FreeKept s (serveLocal w r msg s) := by
  refine ⟨(serveLocal_tables msg h l).requests, fun q j f => ?_⟩
  unfold serveLocal
  refine finishTaker_free _ (fun j => ?_) h l q j f
  rw [entry_setEntry]
  split
  · rename_i e; subst e; simp [entry, removeWaiter_engine]
  · simp [entry, removeWaiter_engine]

theorem pairOnce_free {b : Bool} {h : Fin 16} (k : pairOnce b h s = some t) : FreeKept s t := by
  have rq := (pairOnce_tables k).requests
  unfold pairOnce at k
  split at k
  · rename_i c cs w ws hm hw
    split at k
    · rename_i r msg hr hc
      split at k
      · rename_i l
        cases k
        have d := (dropHead_dropped h s).collect hm
        exact (FreeKept.of_engine d.requests rfl).trans (serveLocal_free (s := setCell c none (dropHead h s)) msg hr (by rw [self_of d.control]; simpa [isLocal] using l))
      · split at k
        · split at k
          · rename_i d hd
            cases k
            refine .of_engine rq ?_
            unfold serveRemote
            rw [(fillDelivery_views _ _ _ _ _ _).2.2.2.2.1, (revise_slots _ _ _ _ _).engine, removeWaiter_engine]; rfl
          · cases k
        · cases k
    · cases k
  · cases k

theorem pairing_free (s : State) : FreeKept s (pairing s) := by
  have times : ∀ b h n s, FreeKept s (pairTimes b h n s) := by
    intro b h n
    induction n with
    | zero => exact fun s => .refl s
    | succ n ih =>
      intro s
      unfold pairTimes
      split
      · rename_i u k; exact (pairOnce_free k).trans (ih u)
      · exact .refl s
  have at' : ∀ b s, FreeKept s (forEach (pairAt b) s) := fun b s => .foldl (f := fun s h => pairAt b h s) (fun s h => times b h _ s) _ s
  exact (at' false s).trans (at' true _)

theorem discard_free (st : Status) (h : Fin 16) (s : State) : FreeKept s (discard st h s) := by
  have w : ∀ b s w, FreeKept s (discardWaiter st b w s) := by
    intro b s w
    refine ⟨(discardWaiter_tables st b w s).requests, fun q j f => ?_⟩
    unfold discardWaiter
    split
    · rename_i r hr
      split
      · rename_i l
        split
        · rename_i c
          exact finishTaker_free _ (fun j => by simp [entry, removeWaiter_engine]) hr (by rw [c] at l; simpa [isLocal] using l) q j f
        · simpa [entry, (revise_slots _ _ _ _ _).engine, removeWaiter_engine] using f
      · exact f
    · exact f
  have d : ∀ s d, FreeKept s (discardDelivery h d s) := by
    intro s d
    refine .of_engine (discardDelivery_tables h d s).requests ?_
    unfold discardDelivery
    split
    · split
      · rw [(revise_slots _ _ _ _ _).engine]; unfold freeDelivery; split <;> rfl
      · rfl
    · rfl
  have steps : ∀ j, Requests s → (entry j s).state = .free → (entry j (discardSteps st h s)).state = .free := by
    intro j q f
    unfold discardSteps
    dsimp only
    have a1 := FreeKept.foldl (f := fun s w => discardWaiter st true w s) (fun s v => w true s v) (hostedSlot h s).waiters s
    generalize (hostedSlot h s).waiters.foldl (fun s w => discardWaiter st true w s) s = a at *
    have a2 := FreeKept.foldl (f := fun s w => discardWaiter st false w s) (fun s v => w false s v) (hostedSlot h a).waiters a
    generalize (hostedSlot h a).waiters.foldl (fun s w => discardWaiter st false w s) a = b at *
    have a3 : FreeKept b (forEach (discardDelivery h) b) := FreeKept.foldl (f := fun s v => discardDelivery h v s) (fun s v => d s v) _ b
    generalize forEach (discardDelivery h) b = c at *
    have a4 := (freeCells_views (hostedSlot h c).messages c).2.2.2.2.1
    generalize (hostedSlot h c).messages.foldl (fun s c => setCell c none s) c = e at *
    have := ((a1.trans a2).trans a3).free q j f
    show (entry j e).state = .free
    simpa [entry, a4] using this
  have r := (discardSteps_dropped st h s).requests
  unfold discard
  generalize discardSteps st h s = a at *
  have k1 : FreeKept s a := ⟨r, fun q j => steps j q⟩
  have k2 := offerPlaces_slots (pairing a)
  exact (k1.trans (pairing_free a)).trans (.of_engine k2.tables.requests k2.engine)

theorem closeWork_keeps (b : List Byte) (on : OnBus s) (p : TablesWhole s) : TablesWhole (closeWork b s).1 := by
  have key : ∀ m, TablesWhole (closeMailboxAt m s).1 := by
    intro m
    unfold closeMailboxAt
    split
    · rename_i e
      split
      · exact p
      · rename_i i₀ fe
        dsimp only
        have q := (discardMailbox_keeps (e := .free) .closed p e (by simp) (by simp)).2
        have w : ItemWork s (closedMailbox m s) := discardMailbox_work _ _ ((ItemWork.refl s).setDirEntry _ _)
        have on' : OnBus (closedMailbox m s) := OnBus.work w on
        have fr : ∃ i, freeEntry (closedMailbox m s) = some i := by
          have k : FreeKept (setDirEntry m .free s) (closedMailbox m s) := by
            unfold closedMailbox discardMailbox
            split
            · exact discard_free _ _ _
            · exact .refl _
          have := k.free ((setDirEntry_keeps m .free s).2.2 p.requests') i₀ (freeEntry_free fe)
          cases h : freeEntry (closedMailbox m s) with
          | some i => exact ⟨i, rfl⟩
          | none =>
            have := List.find?_eq_none.mp h i₀ (List.mem_finRange i₀)
            simp_all
        obtain ⟨i, fi⟩ := fr
        rw [fi]
        exact TablesWhole.step (s := closedMailbox m s) q (broadcastRequest_step .release m (freeEntry_free fi) on')
    · exact p
  unfold closeWork
  repeat' split
  all_goals first
    | exact p
    | exact key _

theorem putWork_keeps (b : List Byte) (on : OnBus s) (p : TablesWhole s) : TablesWhole (putWork b s).1 := by
  have key : ∀ m data, TablesWhole (putAt m data s).1 := by
    intro m data
    unfold putAt
    split
    · split
      · unfold putLocal
        split
        · rename_i h e
          have f := placement_fits h s
          have op := (openSlotOf_open e).1
          exact p.step ⟨place_tables _ f op, place_pairs _ f op⟩
        · exact p
      · unfold putRemote
        split
        · rename_i i e; exact p.step (startRequest_step (freeEntry_free e) on (.inl rfl) rfl)
        · exact p
    · exact p
  unfold putWork
  repeat' split
  all_goals first
    | exact p
    | exact key _ _

theorem takeWork_keeps (b : List Byte) (on : OnBus s) (p : TablesWhole s) : TablesWhole (takeWork b s).1 := by
  have key : ∀ m pr w, TablesWhole (takeAt m pr w s).1 := by
    intro m pr w
    unfold takeAt
    split
    · split
      · unfold takeLocal
        split
        · rename_i h e
          have op := openSlotOf_open e
          unfold takeLocalAt
          split
          · rename_i c rest hm hw
            refine p.step ⟨(dropHead_dropped h s).collect hm, fun so pr k v l a b => ?_⟩
            have d := dropHead_dropped h s
            have hk : hostedSlot k (setCell c none (dropHead h s)) = if k = h then { hostedSlot k s with messages := (hostedSlot k s).messages.tail } else hostedSlot k s := d.hosted k
            rw [hk] at a b
            split at a
            · rename_i x; rw [if_pos x] at b; subst x; rw [hw] at b; cases b
            · rename_i x; rw [if_neg x] at b; exact pr k v l a b
          · split
            · exact p
            · unfold takeLocalWaiting
              split
              · exact p
              · rename_i i fe
                split
                · exact p
                · rename_i v fw
                  have ef := freeEntry_free fe
                  have vf := freeWaiter_free fw
                  unfold parkLocal
                  have e1 : (localTakeEntry i m pr w s).state = .localParked := rfl
                  have e2 : (localTakeEntry i m pr w s).home = some (self s) := rfl
                  have e3 : (localTakeEntry i m pr w s).kind = .take := rfl
                  have e4 : (localTakeEntry i m pr w s).generation = (entry i s).generation := rfl
                  generalize localTakeEntry i m pr w s = e at *
                  have k1 : TableStep s (setEntry i e s) := localEntry_step ef on e1 e2 e3
                  have b1 : entry i (setEntry i e s) = e := by simp
                  have b2 : waiter v (setEntry i e s) = none := vf
                  have b3 : (hostedSlot h (setEntry i e s)).state = .opened := op.1
                  have b4 : ∀ v, waiter v (setEntry i e s) = waiter v s := fun _ => rfl
                  have b5 : self (setEntry i e s) = self s := rfl
                  generalize setEntry i e s = a at *
                  dsimp only
                  refine p.step (.paired (k1.work.trans (makeWaiter_tables pr w b2 b3 fun _ _ => ?_)))
                  rw [slotOfTag_entryTag, b1]
                  refine ⟨e1, by simp [entryTag, b1, e4], fun v r hv lr tr => ?_⟩
                  rw [b4] at hv
                  rw [b5] at lr
                  have := (p.requests.takers.1 v r hv lr).1
                  rw [tr, slotOfTag_entryTag, ef] at this
                  cases this
        · exact p
      · unfold takeRemote
        split
        · rename_i i e; exact p.step (startRequest_step (freeEntry_free e) on (.inr rfl) rfl)
        · exact p
    · exact p
  unfold takeWork
  repeat' split
  all_goals first
    | exact p
    | exact key _ _ _

theorem cancelLocal_step {i : Fin 16} (st : (entry i s).state = .localParked) : TableStep s (cancelLocal i s) := by
  unfold cancelLocal
  refine .paired ?_
  obtain ⟨k1, k2, k3⟩ := removeLocalWaiter_tables i s
  generalize removeLocalWaiter i s = a at *
  have w := finish_engine i .cancelled a
  have ea : entry i a = entry i s := by simp [entry, k2]
  refine ⟨w.control.trans k1.control, w.directory.trans k1.directory,
      fun k => by simpa [hostedSlot, w.store] using k1.slots k,
    fun p => finish_sound (k1.sound p), fun q => ?_⟩
  have qa := k1.requests q
  exact ⟨finish_whole _ qa.whole (by rw [ea]; simp [isLive, st]) (k3 q.whole st),
    (finish_orders _ (qa.orders.but none) (.inr (by rw [ea, st]; rfl))).none⟩

theorem cancelWork_keeps (b : List Byte) (p : TablesWhole s) : TablesWhole (cancelWork b s).1 := by
  have key : ∀ i, TablesWhole (cancelTake i s).1 := by
    intro i
    unfold cancelTake
    split
    · rename_i e; exact p.step (finishAndPromote_step _ (by simp [isLive, e]) (by simp [e]))
    · rename_i e
      split
      · exact p.step (finishAndPromote_step _ (by simp [isLive, e]) (by simp [e]))
      · exact p.step (requestCancel_step _ _)
    · exact p.step (requestCancel_step _ _)
    · rename_i e; exact p.step (beginCancel_step _ e)
    · rename_i e; have k := p.step (cancelLocal_step e); dsimp only; exact k
    · exact p
  unfold cancelWork
  split
  · unfold cancelTag
    dsimp only
    split
    · exact p
    · split
      · exact p
      · exact key _
  · exact p

theorem popWork_keeps (b : List Byte) (p : TablesWhole s) : TablesWhole (popWork b s).1 := by
  unfold popWork
  split
  · exact p
  · exact p.step ((port_step _ s).trans (moveHeldIn_step _))

theorem readDirectory_keeps (c : Fin 64) (p : TablesWhole s) : TablesWhole (readDirectory c s).1 := by
  unfold readDirectory
  dsimp only
  refine .mk' (p.sound.same (fun _ => rfl) (fun _ => rfl) (fun _ => rfl) (fun _ => rfl)) p.pairs ?_ (p.requests'.same rfl rfl (fun _ _ => id) rfl fun _ h => .inl h)
  obtain ⟨p1, p2, p3, p4, p5, p6⟩ := p.directory
  exact ⟨p1, p2, p3, p4, p5, p6⟩

/-! ### The taking of a command -/

theorem takeCommand_keeps (c : Command) (work : Work) (h : ∀ b u, permitted c u.control.state → TablesWhole u →
    TablesWhole (work b u).1)
    (p : TablesWhole s) : TablesWhole (takeCommand c work s) := by
  unfold takeCommand
  split
  · exact p
  · split
    · exact p.step (port_step _ s)
    · have k : TablesWhole (clearResult true (finishOwnTurn s)) := (p.step (finishOwnTurn_step s)).step (port_step _ _)
      exact (checkedWork_keeps TablesWhole c work h k).step (port_step _ _)

theorem onBus_of_permitted {c : Command} (h : permitted c s.control.state = true)
    (k : c ∈ [Command.leave, .openMailbox, .closeMailbox, .put, .take, .cancel]) : OnBus s := by
  unfold OnBus
  revert h
  cases s.control.state <;> simp at k <;> rcases k with rfl | rfl | rfl | rfl | rfl | rfl <;> simp [permitted]

theorem offline_of_permitted {c : Command} (h : permitted c s.control.state = true) (k : c = .configure ∨ c = .join) :
    s.control.state = .offline := by
  revert h
  cases s.control.state <;> rcases k with rfl | rfl <;> simp [permitted]

end Sys2Proof.Machine
end

