-- ==== Sys2Proof/Tests/Slice0.lean ====
section
/-! SUPPORT. The model's own tests: the well-formedness checks, values the spec writes out, one step each of a few commands,
and for every statement with hypotheses states and operands that meet them. -/

namespace Sys2Proof.Tests

open Sys2Proof.Machine

-- One theorem after the other: each kernel evaluation that waits for an earlier one would hold a thread of its own.
set_option Elab.async false

/-! ### Well-formedness -/

theorem test_badCommandWithTableCodeIsIllFormed : (Instr.badCommand 0x01).wellFormed = false := by decide
theorem test_badCommandIsWellFormed : (Instr.badCommand 0x00).wellFormed = true := by decide
theorem test_openingThatEndsBeforeItBeginsIsIllFormed : (Instr.activityOpens (.faulty 9) 10).wellFormed = false := by decide
theorem test_characterThatEndsBeforeItBeginsIsIllFormed :
    (Instr.characterReceived (.faulty 9) 10).wellFormed = false := by decide
theorem test_lastCharacterThatEndsBeforeItBeginsIsIllFormed :
    (Instr.frameAssemblyComplete (.faulty 9) 10).wellFormed = false := by decide
theorem test_breakIsWellFormed : (Instr.activityOpens (.faulty 10) 10).wellFormed = true := by decide

/-! ### Values the spec writes out -/

/-- The CRC of the nine characters "123456789" is 29B1h (R6). -/
theorem test_crcCheckValue : crc16 [0x31, 0x32, 0x33, 0x34, 0x35, 0x36, 0x37, 0x38, 0x39] = 0x29B1 := by decide +kernel

/-- The bus of the worked exchanges (chapter 11). -/
def example11 (n : Fin 32) : StationConfig := { station := n, cycle := 3, rate := 2, window := 6, replyLimit := 3 }

theorem test_signatureOfTheExampleBus : signature (example11 0) = 0x4A ∧ quietTime (example11 0) = 30 := by decide
theorem test_byteTimes : [0, 1, 2, 3].map byteTimeAt = [80 * 16, 40 * 16, 20 * 16, 10 * 16] := by decide

/-- The frame of 12.2 without its CRC, and its length with it. -/
theorem test_frameOfChapter12 :
    frameBytes (example11 1) [⟨.station 0, .putReply 0x21 .stored⟩, ⟨.broadcast, .claim 40⟩] =
        [0xA7, 0x4A, 0x01, 0x02, 0x07, 0x00, 0x07, 0x21, 0x01, 0x3F, 0x03, 0x28] ∧
      (withCrc (frameBytes (example11 1) [⟨.station 0, .putReply 0x21 .stored⟩, ⟨.broadcast, .claim 40⟩])).length = 14 := by
  decide +kernel

/-! ### Small states -/

def cfg : StationConfig := { station := 1, cycle := 4, rate := 0, window := 8, replyLimit := 3 }

/-- A configured station in OFFLINE. -/
def offline : State := { State.reset with control := { state := .offline, config := some cfg, lastCause := .reset } }

/-- A station in ACTIVE: the turn is at station 3 since moment 100000. Mailbox 5 is homed by station 2, 6 here with depth 2
in hosted slot 0, 8 was homed by station 3; 7 is being claimed in hosted slot 1 by request entry 0. -/
def active : State :=
  { offline with
    control := { offline.control with state := .active }
    line := { offline.line with endOfLast := some 100000 }
    tracker :=
      { rotation := some ⟨3, 100000, false⟩, joinedAt := some 5, quietApplied := false, ownTurnCount := 65535,
        presenceCounter := 1, ownTurnOpen := false }
    directory :=
      { entries := put (put (put (put (Vector.replicate 64 .free) 5 (.homed 2)) 6 (.homed 1)) 7 .claiming) 8 (.orphaned 3)
        cursor := some 6 }
    store :=
      { offline.store with
        hosted :=
          put (put (Vector.replicate 16 HostedSlot.blank) 0 { HostedSlot.blank with state := .opened, mailbox := 6, depth := 2 })
            1 { HostedSlot.blank with state := .claiming, mailbox := 7, depth := 32 } }
    engine :=
      { offline.engine with
        entries := put (Vector.replicate 16 (Entry.blank 0)) 0
          { Entry.blank 0 with kind := .claim, mailbox := 7, state := .queued } }
    queue := { ItemQueue.empty with classB := [newItem ⟨.broadcast, .claim 7⟩ (.entry 0)] } }

/-- The parameter FIFO filled. -/
def params (p : List Byte) (s : State) : State := s.withPort { s.port with fifo := p }

/-- The station state set. -/
def inState (st : StationState) (s : State) : State := { s with control := { s.control with state := st } }

/-- A request entry of home 2 in the state given. -/
def remoteEntry (kind : RequestKind) (st : EntryState) (attempts : Nat) (deadline : Option Word) : Entry :=
  { Entry.blank 0 with kind := kind, mailbox := 5, home := some 2, state := st, attempts := attempts, deadline := deadline }

/-- A full class A list. -/
def fullA (s : State) : State :=
  s.withQueue { s.queue with classA := List.replicate 24 (newItem ⟨.station 2, .putReply 0 .stored⟩ .nobody) }

/-- The completion queue with `n` records. -/
def records (n : Nat) (s : State) : State :=
  s.withPort { s.port with completions := List.replicate n (.stationPresent 2) }

/-- Every request entry in use. -/
def tableFull (s : State) : State :=
  s.withEngine { s.engine with entries := Vector.replicate 16 (remoteEntry .take .sent 0 none) }

/-- A waiter of station `x` at hosted slot 0 in record 0, with tag 7. -/
def waiting (x : Fin 32) (s : State) : State :=
  setHosted 0 { hostedSlot 0 s with waiters := [0] }
    (setWaiter 0 (some { hosted := 0, requester := x, tag := 7, priority := 1, deadline := none, stamp := 0 }) s)

/-- A message of station 2 in cell 0, stored at hosted slot 0. -/
def stored (s : State) : State :=
  setHosted 0 { hostedSlot 0 s with messages := [0] } (setCell 0 (some { origin := 2, data := [1] }) s)

/-- A delivery slot to station 2. -/
def sending (st : DeliveryState) (attempts : Nat) : Delivery :=
  { state := st, dseq := 4, hosted := 0, cell := 0, dest := 2, tag := 7, attempts := attempts }

/-- Every delivery slot in use. -/
def deliveriesFull (s : State) : State :=
  s.withStore { s.store with deliveries := Vector.replicate 8 (some (sending .queued 1)) }

/-- Every hosted slot in use. -/
def hostedFull (s : State) : State :=
  s.withStore { s.store with hosted := Vector.replicate 16 { HostedSlot.blank with state := .opened } }

/-- Every waiter record in use. -/
def waitersFull (s : State) : State :=
  s.withStore
    { s.store with
      waiters :=
        Vector.replicate 32 (some { hosted := 0, requester := 2, tag := 9, priority := 0, deadline := none, stamp := 0 }) }

/-- Every cell in use. -/
def poolFull (s : State) : State :=
  s.withStore { s.store with pool := Vector.replicate 64 (some { origin := 2, data := [1] }) }

/-- The Line Unit with an open frame of which `l` has been read. -/
def assembling (l : List Byte) (s : State) : State :=
  s.withLine { s.line with rx := .assembling, assembly := l, lastCharEnd := 100000 }

/-- An own turn under way. -/
def owning (s : State) : State := s.withTracker { s.tracker with ownTurnOpen := true }

/-- Hosted slot 0 with a local waiter of tag 7, whose entry is LOCAL_PARKED, a remote waiter that the exchange memory refers
to, a stored message in cell 0 and a delivery on its way from cell 1. -/
def busyMailbox : State :=
  let s := setEntry 7 { Entry.blank 0 with kind := .take, mailbox := 6, home := some 1, state := .localParked } active
  let s := setWaiter 1 (some { hosted := 0, requester := 2, tag := 9, priority := 2, deadline := none, stamp := 1 }) s
  let s := setDelivery 0 (some { sending .queued 1 with cell := 1, dest := 3 }) (setCell 1 (some { origin := 2, data := [5] }) s)
  let s := setExchange 2 (some ⟨9, .take .parked⟩) (setExchange 3 (some ⟨7, .take (.delivering 0)⟩) s)
  let s := stored (waiting 1 s)
  setHosted 0 { hostedSlot 0 s with waiters := [0, 1] } s

theorem takersAgree {s : State}
    (h : (∀ w : Fin 32, ∀ r ∈ waiter w s, r.requester = self s →
        (entry (slotOfTag r.tag) s).state = .localParked ∧ entryTag (slotOfTag r.tag) s = r.tag) ∧
      ∀ w v : Fin 32, ∀ r ∈ waiter w s, ∀ q ∈ waiter v s, r.requester = self s → q.requester = self s → r.tag = q.tag → w = v) :
    LocalTakersAgree s := ⟨fun w r e => h.1 w r e, fun w v r q a b => h.2 w v r a q b⟩

theorem waitersListed {s : State}
    (h : (∀ k : Fin 16, (hostedSlot k s).waiters.Nodup ∧ ∀ w ∈ (hostedSlot k s).waiters, ∃ r ∈ waiter w s, r.hosted = k) ∧
      ∀ w : Fin 32, ∀ r ∈ waiter w s, w ∈ (hostedSlot r.hosted s).waiters) : WaitersListed s :=
  ⟨fun k => (h.1 k).1, fun k w m => (h.1 k).2 w m, fun w r e => h.2 w r e⟩

theorem ready (p : List Byte) (s : State)
    (h : s.rstAsserted = false ∧ s.port.taking = none ∧ s.tracker.ownTurnOpen = false) : CommandReady p (params p s) :=
  ⟨h.1, h.2.1, h.2.2, rfl⟩

theorem headless (h : Fin 16) (s : State) (k : (hostedSlot h s).waiters = []) : HeadCannotBeServed h s := by
  intro w rest e
  simp [k] at e

/-! ### One step each -/

theorem test_resetHandsNothingToAFirstRead :
    exec .dataRead State.reset = .next State.reset := by rfl
theorem test_joinBeforeConfigureIsRefused :
    exec (.join 0 false) State.reset = .next (taken [0x19] State.reset) := by rfl
theorem test_turnLapsePassesTheTurn :
    (match exec .turnLapse active with
      | .next t => t.tracker.rotation.map Rotation.holder
      | _ => none) = some 0 := by decide +kernel

/-- A discard of a mailbox frees its waiters, its delivery slot and its cells, finishes the local taker, and adjusts the
exchange memory (R121, R122). -/
theorem test_discardFreesAll :
    (let t := discardSteps .closed 0 busyMailbox;
      hostedSlot 0 t = HostedSlot.blank ∧ (∀ w : Fin 32, waiter w t = none) ∧ (∀ d : Fin 8, delivery d t = none) ∧
      (∀ c : Fin 64, cell c t = none) ∧ exchange 2 t = some ⟨9, .take .noMailbox⟩ ∧
      exchange 3 t = some ⟨7, .take .noMailbox⟩ ∧ entry 7 t = Entry.blank 1 ∧
      t.port.completions = [.request .take 7 .closed 6 0 []]) := by decide +kernel

/-- TXD through the sync character A7h: the start bit, bit 0, bit 3, the stop bit (R1). -/
theorem test_txdOfTheSyncCharacter :
    (let s := active.withLine { active.line with tx := .sending, txBuffer := frameBytes cfg [farewellItem], txStart := 7 };
      ([6, 7, 135, 519, 1159].map fun m => txdPin m s) = [.idle, .active, .idle, .active, .idle]) := by decide +kernel

/-! ### What meets the hypotheses of the statements -/

theorem test_witness_StepRunsFrontCommand :
    (active.withPending [.leave, .join 3 true]).pending = .leave :: [.join 3 true] ∧ active.pending = [] := ⟨rfl, rfl⟩

theorem test_witness_DataLocationAccess :
    (resetPart active).rstAsserted = true ∧
      (active.port.taking = none ∧ (params (List.replicate 31 0) active).port.fifo.length < 32) ∧
      32 ≤ (params (List.replicate 32 0) active).port.fifo.length ∧ (holdResult [0] active).port.taking ≠ none ∧
      (let s := writeResult (holdResult [7] active);
        s.port.result[s.port.readPointer]? = some 7 ∧ (readData s).port.result.length ≤ (readData s).port.readPointer) := by decide +kernel

theorem test_witness_BusyWindow :
    (commandRow .leave).isSome = true ∧ active.rstAsserted = false ∧ (holdResult [0] active).port.taking ≠ none ∧
      (holdResult [0] active).port.taking = some [0] := by decide +kernel

theorem test_witness_CommandCheckRefusals :
    ((∀ c : Command, commandCode c ≠ 0x34) ∧ active.rstAsserted = false ∧ active.port.taking = none) ∧
      (commandRow .configure = some .configure ∧ CommandReady [1] (params [1] active) ∧ NotPermitted .configure active.control.state) ∧
      (commandRow .put = some .put ∧ CommandReady [5, 24] (params [5, 24] active) ∧
        ¬ NotPermitted .put active.control.state ∧ WrongLength .put [5, 24]) ∧
      WrongLength .join [0] ∧ WrongLength .put [5] ∧ NotPermitted .leave .leaving := by
  refine ⟨⟨fun c => by cases c <;> decide, rfl, rfl⟩, ⟨rfl, ready _ _ (by decide), by simp [NotPermitted, active, offline]⟩,
    ⟨rfl, ready _ _ (by decide), by simp [NotPermitted, active, offline], Or.inr ⟨rfl, ?_⟩⟩, Or.inl (by decide),
    Or.inr ⟨rfl, ?_⟩, by simp [NotPermitted]⟩
  · rintro m l rest ⟨⟩; decide
  · rintro m l rest ⟨⟩

theorem test_witness_ResetPinHeldAndReleased :
    (resetPart active).rstAsserted = true ∧ (commandRow .put).isSome = true := ⟨rfl, rfl⟩

theorem test_witness_OwnTurnIsTakenWhole :
    IsLineEvent .turnLapse ∧ IsLineEvent (.collision 0) ∧ IsLineEvent (.activityOpens (.data 0) 0) ∧
      ((commandRow .leave).isSome = true ∧ active.rstAsserted = false ∧ active.port.taking = none) := ⟨Or.inr (Or.inr (by simp)), Or.inr (Or.inl ⟨_, rfl⟩), Or.inl ⟨_, _, Or.inl rfl⟩, rfl, rfl, rfl⟩

theorem test_witness_OwnTurnIsTakenWhole_deadlines :
    (let s := fun e : Entry => owning (setEntry 3 e active);
      (owning active).tracker.ownTurnOpen = true ∧ deadlinesDue (owning active) = false ∧
      (∀ st ∈ [EntryState.sent, .cancelSent, .parked, .late, .free], dueEntry (s (remoteEntry .take st 0 (some 65535))) = some 3) ∧
      (entry 3 (owning active)).deadline ≠ some 65535) ∧
      (let r : Waiter := { hosted := 0, requester := 2, tag := 7, priority := 1, deadline := some 65535, stamp := 0 };
        dueWaiter (owning (setWaiter 4 (some r) active)) = some 4 ∧ dueWaiter (owning active) = none) ∧
      (dueDelivery (owning (setDelivery 5 (some (sending (.sent 65535) 4)) active)) = some 5 ∧
        dueWaiter (owning (setDelivery 5 (some (sending (.sent 65535) 4)) active)) = none ∧
        dueDelivery (owning active) = none) := by decide +kernel

theorem test_witness_StatusByteAndAttention :
    (let f := withCrc (frameBytes cfg [farewellItem]);
      let s := active.withLine { active.line with tx := .sending, txBuffer := frameBytes cfg [farewellItem], txStart := 7 };
      s.line.tx = .sending ∧ s.control.config ≠ none ∧ f[0]? = some 0xA7 ∧ f[8]?.isSome = true ∧ f.length = 9 ∧
      (7 + 0 * byteTime s + 0 * (byteTime s / 10) ≤ 7 ∧ 7 < 7 + 0 * byteTime s + (0 + 1) * (byteTime s / 10)) ∧
      (7 + 8 * byteTime s + 9 * (byteTime s / 10) ≤ 11526 ∧ 11526 < 7 + 8 * byteTime s + (9 + 1) * (byteTime s / 10)) ∧
      7 + f.length * byteTime s ≤ 11527 ∧
      active.line.tx = .off ∧ (active.withLine { active.line with tx := .breaking, breakEnd := 9 }).line.tx = .breaking) := by
  decide +kernel

theorem test_witness_ConfigureEffect :
    (offline.control.state = .offline ∧ CommandReady [31, 32, 3, 15, 15] (params [31, 32, 3, 15, 15] offline)) ∧
      CommandReady [0, 2, 0, 4, 2] (params [0, 2, 0, 4, 2] offline) ∧
      CommandReady [2, 2, 0, 4, 2] (params [2, 2, 0, 4, 2] offline) := ⟨⟨rfl, ready _ _ (by decide)⟩, ready _ _ (by decide), ready _ _ (by decide)⟩

theorem test_witness_JoinStartsSession :
    (offline.control.state = .offline ∧ CommandReady [] offline ∧ offline.control.config ≠ none) ∧
      (State.reset.control.state = .offline ∧ CommandReady [] State.reset ∧ State.reset.control.config = none) := ⟨⟨rfl, ready _ offline (by decide), by decide⟩, rfl, ready _ State.reset (by decide), rfl⟩

theorem test_witness_LeaveEffect :
    (CommandReady [] active ∧ active.control.state = .active) ∧
      CommandReady [] (inState .seeking active) ∧ (inState .seeking active).control.state = .seeking := ⟨⟨ready _ active (by decide), rfl⟩, ready _ (inState .seeking active) (by decide), rfl⟩

theorem test_witness_LeaveEffect_entries :
    LocalTakersAgree busyMailbox ∧ WaitersListed busyMailbox ∧ liveEntries busyMailbox = [0, 7] :=
  ⟨takersAgree (by decide +kernel), waitersListed (by decide +kernel), by decide +kernel⟩

theorem test_witness_AttentionMaskChanges :
    CommandReady [3] (params [3] active) ∧ CommandReady [4] (params [4] active) ∧
      Instr.leave ≠ .setAttention ∧ Instr.leave ≠ .hardwareReset ∧ exec .dataRead State.reset = .next State.reset := ⟨ready _ _ (by decide), ready _ _ (by decide), by decide, by decide, rfl⟩

theorem test_witness_CommandsWithoutParameters :
    (let s := params [] active;
        CommandReady [] s ∧
        (cycleLength s ≤ 32) ∧
        (s.directory.cursor = some 6 ∧ (listed 6 s)[7]? = none)) ∧
      (let s := params [] (forEach (fun m s => setDirEntry m (.homed 2) s) active);
        CommandReady [] s ∧
        ((listed 6 s)[7]? = some 13 ∧ (listed 57 s)[7]? = none ∧ (listed 56 s)[7]? = some 63)) ∧
      (let s := params [] State.reset;
        CommandReady [] s ∧
        (s.directory.cursor = none)) ∧
      (let s := params [0] active;
        CommandReady [0] s ∧
        (s.port.fifo ≠ [])) := 
  ⟨⟨ready _ _ (by decide), by decide +kernel⟩,
    ⟨ready _ _ (by decide), by decide +kernel⟩,
    ⟨ready _ _ (by decide), by decide +kernel⟩,
    ⟨ready _ _ (by decide), by decide +kernel⟩⟩

theorem test_witness_OpenClaimsMailbox :
    (let s := params [63, 32] active;
        CommandReady [63, 32] s ∧
        (OnBus s) ∧
        (Lowest (fun h => (hostedSlot h s).state = .free) 2) ∧
        (Lowest (fun i => (entry i s).state = .free) 1) ∧
        (dirEntry 63 s = .free) ∧
        (dirEntry 8 s = .orphaned 3)) := 
  ⟨ready _ _ (by decide), Or.inr rfl, by unfold Lowest; decide +kernel, by unfold Lowest; decide +kernel, by decide +kernel⟩

theorem test_witness_MailboxCommandRefusals :
    (let s := params [64, 1] active;
        CommandReady [64, 1] s ∧
        (OnBus s)) ∧
      (let s := params [63, 33] active;
        CommandReady [63, 33] s ∧
        (OnBus s)) ∧
      (let s := params [64] active;
        CommandReady [64] s ∧
        (OnBus s)) ∧
      (let s := params [7, 1] active;
        CommandReady [7, 1] s ∧
        (OnBus s) ∧
        (∃ h : Fin 16, (hostedSlot h s).state = .free) ∧
        (dirEntry 7 s = .claiming) ∧
        (dirEntry 6 s = .homed (self s)) ∧
        ((2 : Fin 32) ≠ self s ∧ dirEntry 5 s = .homed 2)) ∧
      (let s := params [8, 32] (hostedFull active);
        CommandReady [8, 32] s ∧
        (OnBus s) ∧
        (dirEntry 8 s = .orphaned 3) ∧
        (∀ h : Fin 16, (hostedSlot h s).state ≠ .free)) ∧
      (let s := params [63, 1] (tableFull active);
        CommandReady [63, 1] s ∧
        (OnBus s) ∧
        (∃ h : Fin 16, (hostedSlot h s).state = .free) ∧
        (dirEntry 63 s = .free) ∧
        (∀ i : Fin 16, (entry i s).state ≠ .free) ∧
        (dirEntry 6 s = .homed (self s))) := 
  ⟨⟨ready _ _ (by decide), Or.inr rfl⟩,
    ⟨ready _ _ (by decide), Or.inr rfl⟩,
    ⟨ready _ _ (by decide), Or.inr rfl⟩,
    ⟨ready _ _ (by decide), Or.inr rfl, ⟨2, by decide +kernel⟩, by decide +kernel⟩,
    ⟨ready _ _ (by decide), Or.inr rfl, by decide +kernel⟩,
    ⟨ready _ _ (by decide), Or.inr rfl, ⟨2, by decide +kernel⟩, by decide +kernel⟩⟩

theorem test_witness_CloseReleasesMailbox :
    (let s := params [6] active;
        CommandReady [6] s ∧
        (OnBus s) ∧
        (∃ i : Fin 16, (entry i s).state = .free) ∧
        (dirEntry 6 s = .homed (self s)) ∧
        (openSlotOf 6 s = some 0)) := 
  ⟨ready _ _ (by decide), Or.inr rfl, ⟨1, by decide +kernel⟩, by decide +kernel⟩

theorem test_witness_CloseReleasesMailbox_discard :
    (let u := offerPlaces (pairing (discardSteps .closed 0 (setDirEntry 6 .free (begun (params [6] active)))));
      freeEntry u = some 1) ∧
      Status.closed ≠ .delivered ∧ LocalTakersAgree busyMailbox ∧ WaitersListed busyMailbox :=
  ⟨by decide +kernel, by decide, takersAgree (by decide +kernel), waitersListed (by decide +kernel)⟩

theorem test_witness_RemoteRequestTakesEntry :
    (let s := params [5, 3, 255] active;
        CommandReady [5, 3, 255] s ∧
        (OnBus s) ∧
        (Lowest (fun i => (entry i s).state = .free) 1) ∧
        (dirEntry 5 s = .homed 2 ∧ (2 : Fin 32) ≠ self s) ∧
        (exchangeOpen 2 s = false)) ∧
      (let s := params (5 :: 24 :: List.replicate 24 0) (setEntry 3 (remoteEntry .put .cancelSent 0 none) active);
        CommandReady (5 :: 24 :: List.replicate 24 0) s ∧
        (OnBus s) ∧
        (Lowest (fun i => (entry i s).state = .free) 1) ∧
        (dirEntry 5 s = .homed 2 ∧ (2 : Fin 32) ≠ self s) ∧
        (exchangeOpen 2 s = true)) := 
  ⟨⟨ready _ _ (by decide), Or.inr rfl, by unfold Lowest; decide +kernel, by decide +kernel⟩,
    ⟨ready _ _ (by decide), Or.inr rfl, by unfold Lowest; decide +kernel, by decide +kernel⟩⟩

theorem test_witness_LocalPutPlacesMessage :
    (let s := params [6, 1, 9] active;
        CommandReady [6, 1, 9] s ∧
        (OnBus s) ∧
        (HeadCannotBeServed 0 s) ∧
        (Lowest (fun c => cell c s = none) 0) ∧
        (dirEntry 6 s = .homed (self s)) ∧
        (openSlotOf 6 s = some 0) ∧
        (load 0 s < (hostedSlot 0 s).depth)) ∧
      (let s := params [6, 1, 9] (setHosted 0 { hostedSlot 0 active with messages := [0, 1] } active);
        CommandReady [6, 1, 9] s ∧
        (OnBus s) ∧
        (HeadCannotBeServed 0 s) ∧
        (dirEntry 6 s = .homed (self s)) ∧
        (openSlotOf 6 s = some 0) ∧
        ((hostedSlot 0 s).depth ≤ load 0 s)) ∧
      (let s := params [6, 1, 9] (poolFull active);
        CommandReady [6, 1, 9] s ∧
        (OnBus s) ∧
        (HeadCannotBeServed 0 s) ∧
        (dirEntry 6 s = .homed (self s)) ∧
        (openSlotOf 6 s = some 0) ∧
        (load 0 s < (hostedSlot 0 s).depth ∧ ∀ c : Fin 64, cell c s ≠ none)) := 
  ⟨⟨ready _ _ (by decide), Or.inr rfl, headless _ _ (by decide +kernel), by unfold Lowest; decide +kernel, by decide +kernel⟩,
    ⟨ready _ _ (by decide), Or.inr rfl, headless _ _ (by decide +kernel), by decide +kernel⟩,
    ⟨ready _ _ (by decide), Or.inr rfl, headless _ _ (by decide +kernel), by decide +kernel⟩⟩

theorem test_witness_LocalPutServesHeadWaiter :
    (let s := params [6, 1, 9] (waiting 1 active);
        CommandReady [6, 1, 9] s ∧
        (OnBus s) ∧
        (dirEntry 6 s = .homed (self s)) ∧
        (openSlotOf 6 s = some 0) ∧
        ((hostedSlot 0 s).waiters = [0]) ∧
        ((waiter 0 s).map (fun r => (r.hosted, r.requester)) = some (0, self s))) ∧
      (let s := params [6, 1, 9] (waiting 2 active);
        CommandReady [6, 1, 9] s ∧
        (OnBus s) ∧
        (Lowest (fun d => delivery d s = none) 0) ∧
        (Lowest (fun c => cell c s = none) 0) ∧
        (dirEntry 6 s = .homed (self s)) ∧
        (openSlotOf 6 s = some 0) ∧
        ((hostedSlot 0 s).waiters = [0]) ∧
        ((waiter 0 s).map (fun r => (r.hosted, r.requester)) = some (0, 2)) ∧
        ((2 : Fin 32) ≠ self s ∧ load 0 s < (hostedSlot 0 s).depth)) := 
  ⟨⟨ready _ _ (by decide), Or.inr rfl, by decide +kernel⟩,
    ⟨ready _ _ (by decide), Or.inr rfl, by unfold Lowest; decide +kernel, by unfold Lowest; decide +kernel, by decide +kernel⟩⟩

theorem test_witness_MessageCommandRefusals :
    (let s := params [64, 1, 9] active;
        CommandReady [64, 1, 9] s ∧
        (OnBus s)) ∧
      (let s := params (5 :: 25 :: List.replicate 25 0) active;
        CommandReady (5 :: 25 :: List.replicate 25 0) s ∧
        (OnBus s)) ∧
      (let s := params [5, 0] active;
        CommandReady [5, 0] s ∧
        (OnBus s)) ∧
      (let s := params [64, 3, 0] active;
        CommandReady [64, 3, 0] s ∧
        (OnBus s)) ∧
      (let s := params [5, 4, 0] active;
        CommandReady [5, 4, 0] s ∧
        (OnBus s)) ∧
      (let s := params [8, 1, 9] active;
        CommandReady [8, 1, 9] s ∧
        (OnBus s) ∧
        (∀ x, dirEntry 8 s ≠ .homed x)) ∧
      (let s := params [5, 3, 0] (tableFull active);
        CommandReady [5, 3, 0] s ∧
        (OnBus s) ∧
        ((2 : Fin 32) ≠ self s ∧ dirEntry 5 s = .homed 2) ∧
        (∀ i : Fin 16, (entry i s).state ≠ .free)) := 
  ⟨⟨ready _ _ (by decide), Or.inr rfl⟩,
    ⟨ready _ _ (by decide), Or.inr rfl⟩,
    ⟨ready _ _ (by decide), Or.inr rfl⟩,
    ⟨ready _ _ (by decide), Or.inr rfl⟩,
    ⟨ready _ _ (by decide), Or.inr rfl⟩,
    ⟨ready _ _ (by decide), Or.inr rfl, by decide +kernel⟩,
    ⟨ready _ _ (by decide), Or.inr rfl, by decide +kernel⟩⟩

theorem test_witness_LocalTakeEffect :
    (let s := params [6, 3, 0] (stored active);
        CommandReady [6, 3, 0] s ∧
        (OnBus s) ∧
        (dirEntry 6 s = .homed (self s)) ∧
        (openSlotOf 6 s = some 0) ∧
        ((hostedSlot 0 s).messages = [0] ∧ (hostedSlot 0 s).waiters = [] ∧ cell 0 s = some { origin := 2, data := [1] })) ∧
      (let s := params [6, 0, 1] active;
        CommandReady [6, 0, 1] s ∧
        (OnBus s) ∧
        (Lowest (fun i => (entry i s).state = .free) 1) ∧
        (Lowest (fun v => waiter v s = none) 0) ∧
        (dirEntry 6 s = .homed (self s)) ∧
        (openSlotOf 6 s = some 0) ∧
        ((hostedSlot 0 s).messages = [])) ∧
      (let s := params [6, 0, 0] (waiting 2 (stored active));
        CommandReady [6, 0, 0] s ∧
        (OnBus s) ∧
        (dirEntry 6 s = .homed (self s)) ∧
        (openSlotOf 6 s = some 0) ∧
        ((hostedSlot 0 s).messages ≠ [] ∧ (hostedSlot 0 s).waiters ≠ [])) ∧
      (let s := params [6, 0, 255] (tableFull active);
        CommandReady [6, 0, 255] s ∧
        (OnBus s) ∧
        (dirEntry 6 s = .homed (self s)) ∧
        (openSlotOf 6 s = some 0) ∧
        (∀ i : Fin 16, (entry i s).state ≠ .free)) ∧
      (let s := params [6, 0, 255] (waitersFull active);
        CommandReady [6, 0, 255] s ∧
        (OnBus s) ∧
        (∃ i : Fin 16, (entry i s).state = .free) ∧
        (dirEntry 6 s = .homed (self s)) ∧
        (openSlotOf 6 s = some 0) ∧
        (∀ v : Fin 32, waiter v s ≠ none)) := 
  ⟨⟨ready _ _ (by decide), Or.inr rfl, by decide +kernel⟩,
    ⟨ready _ _ (by decide), Or.inr rfl, by unfold Lowest; decide +kernel, by unfold Lowest; decide +kernel, by decide +kernel⟩,
    ⟨ready _ _ (by decide), Or.inr rfl, by decide +kernel⟩,
    ⟨ready _ _ (by decide), Or.inr rfl, by decide +kernel⟩,
    ⟨ready _ _ (by decide), Or.inr rfl, ⟨1, by decide +kernel⟩, by decide +kernel⟩⟩

theorem test_witness_CancelEffect :
    (let s := params [0x0F] (setEntry 15 (remoteEntry .take .waiting 0 none) active);
        CommandReady [0x0F] s ∧
        (OnBus s) ∧
        (slotOfTag 0x0F = 15 ∧ entryTag 15 s = 0x0F ∧ (entry 15 s).kind = .take) ∧
        (s.port.completions.length < 16) ∧
        ((entry 15 s).state = .waiting)) ∧
      (let s := params [0x0F] (setEntry 15 (remoteEntry .take .queued 0 none) active);
        CommandReady [0x0F] s ∧
        (OnBus s) ∧
        (slotOfTag 0x0F = 15 ∧ entryTag 15 s = 0x0F ∧ (entry 15 s).kind = .take) ∧
        (s.port.completions.length < 16) ∧
        ((entry 15 s).state = .queued ∧ (entry 15 s).attempts = 0 ∧ itemOnAir 15 s = false)) ∧
      (let s := params [0x0F] (setEntry 15 (remoteEntry .take .queued 1 none) active);
        CommandReady [0x0F] s ∧
        (OnBus s) ∧
        (slotOfTag 0x0F = 15 ∧ entryTag 15 s = 0x0F ∧ (entry 15 s).kind = .take) ∧
        (s.port.completions.length < 16) ∧
        ((entry 15 s).state = .queued ∧ (entry 15 s).attempts ≠ 0)) ∧
      (let s := params [0x0F] (setEntry 15 (remoteEntry .take .sent 0 none) active);
        CommandReady [0x0F] s ∧
        (OnBus s) ∧
        (slotOfTag 0x0F = 15 ∧ entryTag 15 s = 0x0F ∧ (entry 15 s).kind = .take) ∧
        (s.port.completions.length < 16) ∧
        ((entry 15 s).state = .sent)) ∧
      (let s := params [0x0F] (setEntry 15 (remoteEntry .take .parked 0 none) active);
        CommandReady [0x0F] s ∧
        (OnBus s) ∧
        (slotOfTag 0x0F = 15 ∧ entryTag 15 s = 0x0F ∧ (entry 15 s).kind = .take) ∧
        (s.port.completions.length < 16) ∧
        ((entry 15 s).state = .parked ∧ (entry 15 s).home = some 2 ∧ exchangeOpen 2 s = false)) ∧
      (let s := params [0x0F] (setEntry 3 (remoteEntry .put .sent 0 none) (setEntry 15 (remoteEntry .take .parked 0 none) active));
        CommandReady [0x0F] s ∧
        (OnBus s) ∧
        (slotOfTag 0x0F = 15 ∧ entryTag 15 s = 0x0F ∧ (entry 15 s).kind = .take) ∧
        (s.port.completions.length < 16) ∧
        ((entry 15 s).state = .parked ∧ (entry 15 s).home = some 2 ∧ exchangeOpen 2 s = true)) ∧
      (let s := params [7] (setEntry 7 { Entry.blank 0 with kind := .take, mailbox := 6, home := some 1, state := .localParked } (waiting 1 active));
        CommandReady [7] s ∧
        (OnBus s) ∧
        (slotOfTag 7 = 7 ∧ entryTag 7 s = 7 ∧ waiterOf (self s) 7 s = some 0)) ∧
      (let s := params [0x10] active;
        CommandReady [0x10] s ∧
        (OnBus s) ∧
        ((entry 15 s).state = .free) ∧
        (entryTag 0 s ≠ 0x10) ∧
        ((entry 0 s).state ≠ .free ∧ entryTag 0 s = 0 ∧ (entry 0 s).kind ≠ .take)) ∧
      (let s := params [0x0F] (setEntry 15 (remoteEntry .take .late 0 none) active);
        CommandReady [0x0F] s ∧
        (OnBus s) ∧
        ((entry 15 s).state ∈ [EntryState.cancelWaiting, .cancelQueued, .cancelSent, .late, .held])) := 
  ⟨⟨ready _ _ (by decide), Or.inr rfl, by decide +kernel⟩,
    ⟨ready _ _ (by decide), Or.inr rfl, by decide +kernel⟩,
    ⟨ready _ _ (by decide), Or.inr rfl, by decide +kernel⟩,
    ⟨ready _ _ (by decide), Or.inr rfl, by decide +kernel⟩,
    ⟨ready _ _ (by decide), Or.inr rfl, by decide +kernel⟩,
    ⟨ready _ _ (by decide), Or.inr rfl, by decide +kernel⟩,
    ⟨ready _ _ (by decide), Or.inr rfl, by decide +kernel⟩,
    ⟨ready _ _ (by decide), Or.inr rfl, by decide +kernel⟩,
    ⟨ready _ _ (by decide), Or.inr rfl, by decide +kernel⟩⟩

theorem test_witness_MailboxStatusReport :
    (let s := params [64] active;
        CommandReady [64] s ∧
        (OnBus s)) ∧
      (let s := params [6] active;
        CommandReady [6] s ∧
        (Lowest (fun h => (hostedSlot h s).state ≠ .free ∧ (hostedSlot h s).mailbox = 6) 0) ∧
        (∀ h : Fin 16, ¬ ((hostedSlot h s).state ≠ .free ∧ (hostedSlot h s).mailbox = 63))) := 
  ⟨⟨ready _ _ (by decide), Or.inr rfl⟩,
    ⟨ready _ _ (by decide), by unfold Lowest; decide +kernel, by decide +kernel⟩⟩

theorem test_witness_PopCompletionEffect :
    (let s := params [] active;
        CommandReady [] s ∧
        (s.port.completions = [])) ∧
      (let s := params [] (records 16 active);
        CommandReady [] s ∧
        (s.port.completions ≠ [] ∧ s.engine.held = [])) ∧
      (let s := params [] (holdEntry 0 .sessionEnd (records 16 active));
        CommandReady [] s ∧
        (s.port.completions ≠ [] ∧ s.engine.held = [0] ∧ (entry 0 s).result.status = some .sessionEnd)) := 
  ⟨⟨ready _ _ (by decide), by decide +kernel⟩,
    ⟨ready _ _ (by decide), by decide +kernel⟩,
    ⟨ready _ _ (by decide), by decide +kernel⟩⟩

theorem test_witness_CharacterEffect :
    active.control.state ≠ .offline ∧ active.tracker.ownTurnOpen = false ∧ active.line.tx ≠ .breaking ∧
      active.line.rx = .idle ∧ frameWaiting active = false ∧
      frameWaiting (active.withLine { active.line with txBuffer := [0xA7] }) = true ∧
      (quietReference active = some 100000 ∧ 100000 + byteTime active ≤ 101280) ∧
      (assembling [0xA7] active).line.lastCharEnd + 2 * byteTime active < 102561 ∧
      102560 ≤ (assembling [0xA7] active).line.lastCharEnd + 2 * byteTime active ∧
      (discardActivity 100000 active).line.rx = .discarding ∧
      (assembling [0xA7, 0, 0, 4] active).line.assembly = [0xA7, 0, 0, 4] := by decide +kernel

theorem test_witness_FrameVerdicts :
    (let c : StationConfig := { cfg with station := 3 };
      let f := withCrc (frameBytes c [⟨.broadcast, .farewell⟩]);
      let s := assembling f.dropLast active;
      s.control.config = some cfg ∧ s.line.rx = .assembling ∧ f.length = 9 ∧
      verdictOn f s = .good 3 [⟨.broadcast, .farewell⟩] ∧
      verdictOn (withCrc (frameBytes cfg [⟨.broadcast, .farewell⟩])) s = .impostor ∧
      verdictOn (withCrc (frameBytes { c with window := 9 } [⟨.broadcast, .farewell⟩])) s = .foreign ∧
      verdictOn (withCrc (frameBytes { c with station := 4 } [⟨.broadcast, .farewell⟩])) s = .foreign ∧
      verdictOn (withCrc (frameBytes c [⟨.station 0, .farewell⟩])) s = .corrupt ∧
      verdictOn (frameBytes c [⟨.broadcast, .farewell⟩] ++ [0, 0]) s = .corrupt) := by decide +kernel

theorem test_witness_VerdictEffects :
    (inState .seeking (active.withTracker { active.tracker with rotation := none })).tracker.rotation = none ∧
      (active.tracker.rotation ≠ none ∧ active.control.state = .active) ∧
      (inState .leaving active).control.state = .leaving ∧ active.tracker.rotation = some ⟨3, 100000, false⟩ := by decide +kernel

theorem test_witness_SilenceClosesActivity :
    active.tracker.ownTurnOpen = false ∧ (assembling [0xA7] active).line.rx = .assembling ∧
      (assembling [0xA7] active).line.tx ≠ .breaking ∧ active.line.rx = .idle ∧ offline.control.state = .offline := by decide +kernel

theorem test_witness_TurnLapseEffect :
    (active.tracker.rotation.map Rotation.activity) = some false ∧ frameWaiting active = false ∧
      (quietMoment active).map (fun q => decide (100000 + turnWindow active * byteTime active < q)) = some true ∧
      successor active 3 = 0 ∧ successor active 0 = self active ∧ State.reset.tracker.rotation = none := by decide +kernel

theorem test_witness_QuietTimeEffect :
    (let q := 100000 + 48 * 1280;
      let s := active.withTracker { active.tracker with rotation := some ⟨0, 100000 + 40 * 1280, false⟩ };
      quietMoment s = some q ∧ q ≤ 100000 + 40 * 1280 + turnWindow s * byteTime s ∧ frameWaiting s = false ∧
      s.tracker.quietApplied = false ∧ s.line.rx = .idle ∧
      (let u := inState .seeking (active.withTracker { active.tracker with rotation := none });
        u.control.state = .seeking ∧ u.tracker.rotation = none ∧ u.line.tx = .off ∧ quietMoment u = some q) ∧
      (let v := active.withTracker { active.tracker with quietApplied := true };
        v.tracker.quietApplied = true ∧ v.tracker.ownTurnOpen = false ∧ v.line.rx = .idle ∧ quietMoment v = some q)) := by
  decide +kernel

theorem test_witness_OwnTurnEffect :
    (let raised := fun s : State =>
        s.withTracker { s.tracker with ownTurnCount := s.tracker.ownTurnCount + 1, ownTurnOpen := true };
      deadlinesDue (raised (setEntry 3 (remoteEntry .put .sent 0 (some 0)) active)) = true ∧
      deadlinesDue (raised active) = false ∧ (inState .leaving active).control.config = some cfg ∧
      frameItems active ≠ [] ∧ (active.withQueue ItemQueue.empty).tracker.presenceCounter ≠ 3 ∧
      (∀ q ∈ active.queue.classA ++ active.queue.classB, q.onAir = false)) := by decide +kernel

theorem test_witness_OwnTurnEffect_choice :
    (∀ q ∈ active.queue.classA ++ active.queue.classB, ItemFits q.item) ∧ active.queue.classB ≠ [] ∧
      (active.withTracker { active.tracker with presenceCounter := 3 }).tracker.presenceCounter = 3 ∧
      ((3 < 4 ∧ 36 + (itemBytes ⟨.station 2, .put 5 3 (List.replicate 24 0)⟩).length = 64 + 1) ∧
        35 + (itemBytes ⟨.station 2, .put 5 3 (List.replicate 24 0)⟩).length = 64) := by
  refine ⟨?_, by decide +kernel, rfl, by decide +kernel⟩
  intro q h
  simp [active, ItemQueue.empty, newItem] at h
  subst h
  exact ⟨rfl, trivial⟩

theorem test_witness_TransmitStartEffect :
    (let s := active.withLine { active.line with txBuffer := [0xA7] };
      s.tracker.rotation = some ⟨3, 100000, false⟩ ∧ quietReference s = some 100000 ∧ s.line.tx = .off ∧
      s.line.txBuffer ≠ [] ∧ s.line.rx = .idle ∧ (discardActivity 1 s).line.rx ≠ .idle) := by decide +kernel

theorem test_witness_EchoComparison :
    (let s := active.withLine { active.line with tx := .sending, rx := .echo, txBuffer := frameBytes cfg [farewellItem], txStart := 7, echoed := 8 };
      (sentCharacters s)[0]? = some 0xA7 ∧ (sentCharacters s)[8]?.isSome = true ∧ s.line.echoed + 1 = (sentCharacters s).length ∧
      s.line.rx = .echo ∧ s.line.tx = .sending) := by decide +kernel

theorem test_witness_EchoGoodEffect :
    (let s := active.withLine { active.line with tx := .sending, txBuffer := frameBytes cfg [farewellItem] };
      s.line.tx = .sending ∧ farewellOnAir s = false ∧
      farewellOnAir (s.withQueue { s.queue with onAir := some ⟨[farewellItem], false, true⟩ }) = true ∧
      (inState .leaving s).control.state = .leaving) := by decide +kernel

theorem test_witness_EchoGoodEffect_sent :
    active.queue.onAir = none ∧
      (active.withQueue { active.queue with onAir := some ⟨[farewellItem], true, false⟩ }).queue.onAir.isSome = true ∧
      (let q := newItem ⟨.station 2, .put 5 3 [1]⟩ (.entry 3);
        q.withdrawn = false ∧ q.originator = .entry 3 ∧
        (∀ k ∈ [RequestKind.put, .take], (entry 3 (setEntry 3 (remoteEntry k .queued 0 none) active)).kind = k ∧
          (entry 3 (setEntry 3 (remoteEntry k .queued 0 none) active)).state = .queued) ∧
        (entry 3 (setEntry 3 (remoteEntry .take .cancelQueued 0 none) active)).state = .cancelQueued ∧
        ((entry 0 active).state = .queued ∧ (entry 0 active).kind = .claim)) ∧
      (newItem ⟨.station 2, .deliver 7 4 2 [1]⟩ (.delivery 0)).originator = .delivery 0 ∧
      delivery 0 (setDelivery 0 (some (sending .queued 1)) active) = some (sending .queued 1) := by decide +kernel

theorem test_witness_CollisionAbortAndBreak :
    (let s := active.withLine { active.line with tx := .sending };
      let u := active.withLine { active.line with tx := .breaking };
      s.line.tx = .sending ∧ s.tracker.rotation ≠ none ∧ s.control.state = .active ∧
      (inState .leaving s).control.state = .leaving ∧ u.line.tx = .breaking ∧ (inState .offline u).control.state = .offline ∧
      s.store.unqueued = []) := by decide +kernel

theorem test_witness_EntryDeadlineEffect :
    (let s := fun e : Entry => setEntry 3 e active;
      (∀ e ∈ [remoteEntry .put .sent 2 (some 65535), remoteEntry .take .cancelSent 2 (some 65535),
          remoteEntry .take .sent 3 (some 65535), remoteEntry .take .parked 0 (some 65535),
          remoteEntry .take .late 0 (some 65535)],
        (entry 3 (s e)).deadline = some (s e).tracker.ownTurnCount ∧
          ∀ j, j < 3 → ¬ (entry j (s e)).deadline = some (s e).tracker.ownTurnCount) ∧
      exchangeOpen 2 (s (remoteEntry .take .parked 0 none)) = false ∧
      exchangeOpen 2 (setEntry 4 (remoteEntry .put .sent 0 none) (s (remoteEntry .take .parked 0 none))) = true) := by decide +kernel

theorem test_witness_StoreDeadlineEffect :
    (let r : Fin 32 → Waiter := fun x => { hosted := 0, requester := x, tag := 7, priority := 1, deadline := some 65535, stamp := 0 };
      (∀ x ∈ [(1 : Fin 32), 2], dueWaiter (setWaiter 0 (some (r x)) active) = some 0) ∧
      (∀ n ∈ [3, 4], dueDelivery (setDelivery 0 (some (sending (.sent 65535) n)) active) = some 0 ∧
        dueWaiter (setDelivery 0 (some (sending (.sent 65535) n)) active) = none) ∧
      active.queue.classA.length < 24 ∧ 24 ≤ (fullA active).queue.classA.length) := by decide +kernel

theorem test_witness_EntryFinishes :
    (records 15 active).port.completions.length < 16 ∧ 16 ≤ (records 16 active).port.completions.length := by decide +kernel

theorem test_witness_EntryFinishes_promotion :
    (let s := fun e : Entry => setWaiting 2 [3] (setEntry 3 e active);
      waitingOrder 2 active = [] ∧ exchangeOpen 2 (setEntry 4 (remoteEntry .put .sent 0 none) active) = true ∧
      (∀ e ∈ [remoteEntry .take .cancelWaiting 0 none, remoteEntry .put .waiting 0 none, remoteEntry .take .waiting 0 none],
        waitingOrder 2 (s e) = 3 :: [] ∧ exchangeOpen 2 (s e) = false ∧ entry 3 (s e) = e)) := by decide +kernel

theorem test_witness_DeliveryAndPairing :
    (let s := waiting 2 (stored active);
      cell 0 s = some { origin := 2, data := [1] } ∧ s.queue.classA.length < 24 ∧ 24 ≤ (fullA s).queue.classA.length ∧
      (hostedSlot 0 s).messages = 0 :: [] ∧ (hostedSlot 0 s).waiters = 0 :: [] ∧
      ((waiter 0 s).map fun r => (r.hosted, r.requester)) = some (0, 2) ∧ (2 : Fin 32) ≠ self s ∧
      ((waiter 0 (waiting 1 s)).map Waiter.requester) = some (self s) ∧
      freeDeliverySlot s = some 0 ∧ (∀ d : Fin 8, delivery d (deliveriesFull s) ≠ none) ∧
      (∀ k : Fin 16, (hostedSlot k active).messages = [] ∨ (hostedSlot k active).waiters = []) ∧
      (pairOnce true 0 s).isSome = true ∧ pairOnce false 0 s = none ∧ pairOnce true 0 active = none ∧
      delivery 0 (setUnqueued [0] (setDelivery 0 (some (sending .unqueued 1)) s)) = some (sending .unqueued 1)) := by
  decide +kernel

theorem test_witness_RosterChangesAndNotices :
    (rosterEntry 2 active).presence ≠ .absent ∧ (rosterEntry 2 (setRoster 2 ⟨.absent, 8⟩ active)).presence = .absent ∧
      (1 : Fin 32) = self active ∧ (2 : Fin 32) ≠ self active ∧ 8 ≤ (rosterEntry 2 (setRoster 2 ⟨.absent, 8⟩ active)).missed ∧
      (rosterEntry 2 (setRoster 2 ⟨.present, 6⟩ active)).missed < 7 ∧ (rosterEntry 2 (setRoster 2 ⟨.present, 7⟩ active)).missed = 7 ∧
      (rosterEntry 2 (setRoster 2 ⟨.unknown, 7⟩ active)).presence ≠ .present ∧
      (records 15 active).port.completions.length < 16 ∧ 16 ≤ (records 16 active).port.completions.length := by decide +kernel

theorem test_witness_RosterChangesAndNotices_absence :
    (let s := setEntry 3 (remoteEntry .put .sent 0 none) active;
      ((entry 3 s).home = some 2 ∧ (entry 3 s).state ≠ .free ∧ (entry 3 s).state ≠ .held) ∧ (entry 4 s).state = .free) ∧
      ((waiter 0 (waiting 2 active)).map Waiter.requester = some 2 ∧ waiter 1 (waiting 2 active) = none) ∧
      (delivery 0 (setDelivery 0 (some (sending .queued 1)) active) = some (sending .queued 1) ∧
        (sending .queued 1).dest = 2 ∧ delivery 1 active = none) ∧
      dirEntry 5 active = .homed 2 ∧ dirEntry 8 active = .orphaned 3 ∧
      (dirEntry 6 active ≠ .homed 2 ∧ dirEntry 6 active ≠ .orphaned 2) := by decide +kernel

theorem test_witness_DirectoryItems :
    (2 : Fin 32) ≠ self active ∧ dirEntry 63 active = .free ∧ dirEntry 8 active = .orphaned 3 ∧ dirEntry 5 active = .homed 2 ∧
      ((2 : Fin 32) ≠ 0 ∧ (0 : Fin 32) ≠ self active) ∧ dirEntry 6 active = .homed (self active) ∧
      active.queue.classA.length < 24 ∧ 24 ≤ (fullA active).queue.classA.length ∧ dirEntry 7 active = .claiming ∧
      usedSlotOf 7 active = some 1 ∧ broadcastEntry .claim 7 active = some 0 ∧ dirEntry 63 active ≠ .homed 2 ∧
      dirEntry 5 active ≠ .homed (self active) := by decide +kernel

theorem test_witness_DirectoryItems_homed :
    (dirEntry 6 active = .homed (self active) ∧ openSlotOf 6 active = some 0) ∧
      (dirEntry 63 (setDirEntry 63 (.homed 1) active) = .homed (self active) ∧
        openSlotOf 63 (setDirEntry 63 (.homed 1) active) = none) ∧
      (contestedCount 0x40 active = 1 ∧ 24 < (fullA active).queue.classA.length + contestedCount 0x40 (fullA active) ∧
        active.queue.classA.length + contestedCount 0x40 active ≤ 24 ∧ contestedCount 0 (fullA active) = 0) ∧
      ((0x40 : BitVec 64).getLsbD 6 = true ∧ (0x40 : BitVec 64).getLsbD 5 = false ∧ (0x80 : BitVec 64).getLsbD 7 = true) ∧
      dirEntry 8 active = .orphaned 3 ∧ (dirEntry 63 active ≠ .homed 2 ∧ dirEntry 63 active ≠ .orphaned 2) := by
  decide +kernel

theorem test_witness_DirectoryItems_requests :
    (∀ st ∈ [EntryState.waiting, .queued, .parked, .cancelWaiting, .cancelQueued, .free, .sent, .localParked, .cancelSent,
        .late, .held],
      let e := entry 3 (setEntry 3 (remoteEntry .take st 0 none) active);
      e.mailbox = 5 ∧ e.home = some 2 ∧ e.state = st) ∧
      (entry 0 active).home ≠ some 2 ∧ active.control.state = .active ∧
      (let s := setEntry 3 { Entry.blank 0 with kind := .release, mailbox := 9, state := .queued } active;
        broadcastEntry .release 9 s = some 3 ∧
        ∀ i : Fin 16, ¬ ((entry i s).kind = .release ∧ (entry i s).mailbox = 8 ∧ (entry i s).state = .queued)) ∧
      (Dest.station 3 ≠ .broadcast ∧ Dest.station 3 ≠ .station (self active) ∧ Dest.station 1 = .station (self active)) ∧
      (inState .leaving active).control.state = .leaving := by decide +kernel

theorem test_witness_PutItemEffect :
    24 ≤ (fullA active).queue.classA.length ∧ active.queue.classA.length < 24 ∧
      exchange 2 (setExchange 2 (some ⟨7, .put .full⟩) active) = some ⟨7, .put .full⟩ ∧
      (∀ r, exchange 2 active ≠ some ⟨7, .put r⟩) ∧ openSlotOf 5 active = none ∧ openSlotOf 6 active = some 0 ∧
      HeadCannotBeServed 0 active ∧ load 0 active < (hostedSlot 0 active).depth ∧ freeCell active = some 0 ∧
      freeCell (poolFull active) = none ∧
      (let s := setHosted 0 { hostedSlot 0 active with messages := [0, 1] } active;
        (hostedSlot 0 s).depth ≤ load 0 s) := ⟨by decide +kernel, by decide +kernel, by decide +kernel, fun r => by cases r <;> decide +kernel, by decide +kernel, by decide +kernel,
    headless _ _ (by decide +kernel), by decide +kernel, by decide +kernel, by decide +kernel, by decide +kernel⟩

theorem test_witness_PutItemEffect_waiter :
    (∀ x ∈ [(1 : Fin 32), 2], openSlotOf 6 (waiting x active) = some 0 ∧
      (hostedSlot 0 (waiting x active)).waiters = 0 :: [] ∧
      (waiter 0 (waiting x active)).map (fun r => (r.hosted, r.requester)) = some (0, x) ∧
      load 0 (waiting x active) < (hostedSlot 0 (waiting x active)).depth ∧
      freeDeliverySlot (waiting x active) = some 0 ∧ freeCell (waiting x active) = some 0) ∧
      ((1 : Fin 32) = self active ∧ (2 : Fin 32) ≠ self active) := by decide +kernel

theorem test_witness_TakeItemEffect :
    exchange 2 (setExchange 2 (some ⟨7, .take .homeBusy⟩) active) = some ⟨7, .take (repliedOutcome .homeBusy)⟩ ∧
      exchange 2 active = none ∧ 24 ≤ (fullA active).queue.classA.length ∧ active.queue.classA.length < 24 ∧
      waiterOf 2 7 active = none ∧ deliveryTo 2 7 active = none ∧ openSlotOf 5 active = none ∧ openSlotOf 6 active = some 0 ∧
      ((hostedSlot 0 (stored active)).messages = 0 :: [] ∧ (hostedSlot 0 (stored active)).waiters = [] ∧
        freeDeliverySlot (stored active) = some 0) ∧
      (hostedSlot 0 active).messages = [] ∧ (hostedSlot 0 (waiting 3 (stored active))).waiters ≠ [] ∧
      waiterOf 2 7 (waiting 3 (stored active)) = none ∧ (∀ v : Fin 32, waiter v (waitersFull active) ≠ none) ∧
      waiterOf 2 7 (waitersFull active) = none ∧ freeWaiter active = some 0 := by decide +kernel

theorem test_witness_TakeItemEffect_repeats :
    (let s := fun st : DeliveryState =>
        setExchange 2 (some ⟨7, .take (.delivering 0)⟩) (setDelivery 0 (some (sending st 1)) active);
      (∀ st ∈ [DeliveryState.sent 5, .queued, .unqueued], exchange 2 (s st) = some ⟨7, .take (.delivering 0)⟩ ∧
        delivery 0 (s st) = some (sending st 1) ∧ (sending st 1).dest = 2 ∧ (sending st 1).tag = 7) ∧
      delivery 0 (setExchange 2 (some ⟨7, .take (.delivering 0)⟩) active) = none) ∧
      (∀ o ∈ [TakeOutcome.returned, .expired], exchange 2 (setExchange 2 (some ⟨7, .take o⟩) active) = some ⟨7, .take o⟩) ∧
      (waiterOf 2 7 (waiting 2 active) = some 0 ∧ deliveryTo 2 7 (waiting 2 active) = none) ∧
      deliveryTo 2 7 (setDelivery 3 (some (sending .queued 1)) active) = some 3 := by decide +kernel

theorem test_witness_CancelAndAckItems :
    exchange 2 active = none ∧ active.queue.classA.length < 24 ∧ waiterOf 2 7 (waiting 2 active) = some 0 ∧
      waiterOf 2 7 active = none ∧ deliveryTo 2 7 active = none ∧
      deliveryTo 2 7 (setDelivery 3 (some (sending .queued 1)) active) ≠ none ∧
      exchange 2 (setExchange 2 (some ⟨7, .cancel .removed⟩) active) = some ⟨7, .cancel .removed⟩ ∧
      24 ≤ (fullA active).queue.classA.length ∧ ackedSlot 2 7 4 active = none ∧
      ackedSlot 2 7 4 (setDelivery 3 (some (sending .queued 1)) active) = some 3 := by decide +kernel

theorem test_witness_RepliesFromHome :
    (let s := fun e : Entry => setEntry 3 e active;
      (entryMatches 2 3 .put (s (remoteEntry .put .sent 0 none)) = true ∧ awaitsReply (remoteEntry .put .sent 0 none) = true) ∧
      (entryMatches 2 3 .take (s (remoteEntry .take .queued 1 none)) = true ∧
        awaitsReply (remoteEntry .take .queued 1 none) = true) ∧
      entryMatches 2 3 .put active = false ∧ entryMatches 2 3 .take active = false ∧
      24 ≤ (fullA active).queue.classA.length ∧ active.queue.classA.length < 24 ∧
      acceptsDeliver (remoteEntry .take .queued 0 none) = false) := by decide +kernel

theorem test_witness_RepliesFromHome_takes :
    (∀ st ∈ [EntryState.sent, .parked, .cancelWaiting, .cancelQueued, .cancelSent, .late],
      entryMatches 2 3 .take (setEntry 3 (remoteEntry .take st 1 none) active) = true ∧
        acceptsDeliver (remoteEntry .take st 1 none) = true) ∧
      awaitsReply { remoteEntry .take .sent 1 none with cancelRequested := true } = true ∧
      entryMatches 2 3 .take (setEntry 3 { remoteEntry .take .sent 1 none with cancelRequested := true } active) = true ∧
      (awaitsReply (remoteEntry .take .parked 1 none) = false ∧ awaitsReply (remoteEntry .take .late 1 none) = false) ∧
      (∀ c ∈ [CancelCause.localCause, .backstopCause], ∀ st ∈ [EntryState.cancelSent, .cancelQueued],
        awaitsCancelReply { remoteEntry .take st 1 none with cancelCause := c } = true) ∧
      awaitsCancelReply (remoteEntry .take .cancelQueued 0 none) = false := by decide +kernel

theorem test_witness_ItemsParseBack :
    ItemFits ⟨.station 31, .put 63 255 (List.replicate 24 0)⟩ ∧ ItemFits ⟨.broadcast, .presence 0⟩ := ⟨⟨rfl, by simp⟩, rfl, trivial⟩

theorem test_witness_BuiltFrameIsGoodElsewhere :
    ItemsFit [⟨.broadcast, .farewell⟩] ∧ (3 : Nat) < cfg.cycle ∧ active.control.config = some cfg ∧
      signature cfg = signature { cfg with station := 3 } ∧ cfg.station ≠ 3 := ⟨⟨fun i h => by simp at h; subst h; exact ⟨rfl, trivial⟩, by decide, by decide, by decide⟩, by decide, rfl, by decide, by decide⟩

theorem test_witness_EveryStepKeepsBounds :
    Bounded State.reset ∧ step State.reset = .next State.reset := ⟨⟨by simp [queueBounded, State.reset, ItemQueue.empty], by simp [portBounded, State.reset, LocalPort.reset],
    fun h => absurd rfl h, fun x => by simp [State.reset, look, RosterEntry.blank],
    by simp [flagFollowsTransmit, State.reset, LineUnit.reset]⟩, rfl⟩

theorem test_witness_EveryStepKeepsSyncAgreement :
    SyncMatches active ∧ step active = .next active := ⟨⟨(fun h => nomatch h), (fun h => nomatch h), fun _ => rfl⟩, rfl⟩

theorem test_witness_EveryStepKeepsPortAndConfiguration :
    ConfigLegal active ∧ ResultWhole active ∧ step active = .next active := ⟨fun c h => by cases h; decide, ⟨by decide, fun _ => rfl⟩, rfl⟩

theorem active_cells : CellsPlaced active := by
  have m : ∀ h : Fin 16, (hostedSlot h active).messages = [] := by decide +kernel
  have d : ∀ d : Fin 8, delivery d active = none := by decide +kernel
  have c : ∀ c : Fin 64, cell c active = none := by decide +kernel
  exact ⟨fun h => by simp [m], fun h k a b => by simp [m] at b, fun h a b => by simp [m] at b, fun k x e => by simp [d] at e,
    fun k e x y a => by simp [d] at a, fun a e => absurd (c a) e⟩

theorem active_loads : LoadsKept active := ⟨by decide +kernel, by decide +kernel, by decide +kernel⟩

theorem active_waiters : WaitersListed active ∧ WaitersOrdered active ∧ PairsServed active := by
  have l : ∀ h : Fin 16, (hostedSlot h active).waiters = [] := by decide +kernel
  exact ⟨waitersListed (by decide +kernel), fun h => by simp [l], fun h w r _ e => by simp [l] at e⟩

theorem active_directory : DirectoryAgrees active :=
  ⟨by decide +kernel, by decide +kernel, by decide +kernel, by decide +kernel, by decide +kernel, fun e => nomatch e⟩

theorem active_requests : RequestsWhole active where
  heldOnce := by decide +kernel
  held := by decide +kernel
  waitingOnce := by decide +kernel
  waiting := by decide +kernel
  oneOpen := by
    have n : ∀ i : Fin 16, (entry i active).home = none := by decide +kernel
    intro h i j e; simp [n] at e
  homeless := by decide +kernel
  localHome := by decide +kernel
  takers := takersAgree (by decide +kernel)
  idle := fun e => by rcases e with e | e <;> cases e
  itemsOnce := by decide +kernel
  items := by decide +kernel
  answers := by decide +kernel
  classB := by decide +kernel

theorem active_tables : TablesWhole active :=
  ⟨active_cells, active_loads, active_waiters.1, active_waiters.2.1, active_waiters.2.2, active_directory, active_requests,
    fun h e => absurd (show waitingOrder h active = [] by revert h; decide +kernel) e⟩

theorem test_witness_LeaveEffect_emptied :
    WaitersListed active ∧ LocalTakersAgree active ∧ LoadsKept active ∧ CellsPlaced active :=
  ⟨active_waiters.1, active_requests.takers, active_loads, active_cells⟩

theorem test_witness_EveryStepKeepsTables :
    (let s := active.withPending [.turnLapse];
      TablesWhole s ∧ ∃ t, step s = .next t) :=
  ⟨active_tables.step (queue_step ⟨rfl, rfl, rfl⟩ rfl (.refl _) fun _ => id), _, rfl⟩

end Sys2Proof.Tests
end

/-! SUPPORT. The readout of the directory (R103, R104): what a scan collects and what it leaves unexamined, the work of the
two readout commands, and READ DIRECTORY START. -/

namespace Sys2Proof.Machine

variable {s : State} {p : List Byte}

/-! ### A scan of mailbox numbers in ascending order -/

/-- A scan collects the first `room` of the numbers whose entry is not FREE. -/
theorem scan_collects (s : State) (l : List (Fin 64)) (room : Nat) :
    (scan s room l).1 = (l.filter fun m => decide (dirEntry m s ≠ .free)).take room := by
  induction l generalizing room with
  | nil => simp [scan]
  | cons m l ih =>
    cases room with
    | zero => simp [scan]
    | succ room => by_cases free : dirEntry m s = .free <;> simp [scan, free, ih]

/-- A scan of ascending numbers leaves unexamined those above the last entry it has room for, and none where it does not
fill. -/
theorem scan_leaves (s : State) (l : List (Fin 64)) (room : Nat) (ascending : l.Pairwise (· < ·)) :
    (scan s (room + 1) l).2 =
      ((l.filter fun m => decide (dirEntry m s ≠ .free))[room]?).elim [] fun e => l.filter (e < ·) := by
  induction l generalizing room with
  | nil => simp [scan]
  | cons m l ih =>
    obtain ⟨first, rest⟩ := List.pairwise_cons.mp ascending
    have drop_first (e : Fin 64) (he : e ∈ l) : (m :: l).filter (e < ·) = l.filter (e < ·) := by
      simp [(first e he).le]
    have elim_first (k : Nat) :
        ((l.filter fun m => decide (dirEntry m s ≠ .free))[k]?).elim [] (fun e => (m :: l).filter (e < ·)) =
          ((l.filter fun m => decide (dirEntry m s ≠ .free))[k]?).elim [] fun e => l.filter (e < ·) := by
      cases at_k : (l.filter fun m => decide (dirEntry m s ≠ .free))[k]? with
      | none => rfl
      | some e => exact drop_first e (List.mem_of_mem_filter (List.mem_of_getElem? at_k))
    by_cases free : dirEntry m s = .free
    · rw [List.filter_cons_of_neg (by simpa using free), elim_first, ← ih room rest]
      simp [scan, free]
    · rw [List.filter_cons_of_pos (by simpa using free)]
      cases room with
      | zero =>
        have above : (m :: l).filter (m < ·) = l := by simpa using first
        cases l <;> simp [scan, free, above]
      | succ room =>
        rw [List.getElem?_cons_succ, elim_first, ← ih room rest]
        simp [scan, free]

/-! ### A scan from a cursor -/

theorem fromCursor_ascending (c : Fin 64) : (fromCursor c).Pairwise (· < ·) :=
  (List.pairwise_lt_finRange 64).filter _

/-- The numbers from the cursor up whose entry is not FREE are the listed ones. -/
theorem fromCursor_filter_used (c : Fin 64) (s : State) :
    ((fromCursor c).filter fun m => decide (dirEntry m s ≠ .free)) = listed c s := by
  simp only [fromCursor, listed, List.filter_filter, Bool.and_comm]

theorem cursor_le_of_mem_listed {c m : Fin 64} (h : m ∈ listed c s) : c ≤ m := by
  simp only [listed, List.mem_filter, Bool.and_eq_true, decide_eq_true_eq] at h
  exact h.2.1

/-- The first number above `m` is the next one, if `m` is not 63. -/
theorem head_above {c m : Fin 64} (h : c ≤ m) :
    ((fromCursor c).filter (m < ·)).head? = if k : m.val + 1 < 64 then some ⟨m.val + 1, k⟩ else none := by
  rw [fromCursor, List.filter_filter, List.head?_filter]
  split
  next k =>
    refine find_lowest ⟨?_, fun j hj => ?_⟩ <;>
      simp only [Bool.and_eq_true, decide_eq_true_eq, Fin.lt_def, Fin.le_def] at *
    · omega
    · omega
  next k =>
    refine find_none fun j => ?_
    simp only [Bool.and_eq_false_iff, decide_eq_false_iff_not, Fin.lt_def]
    omega

/-- The lowest number a scan from `c` leaves unexamined is the cursor it leaves (R104). -/
theorem scan_next (c : Fin 64) (s : State) : (scan s 8 (fromCursor c)).2.head? = cursorAfter c s := by
  rw [scan_leaves s _ 7 (fromCursor_ascending c), fromCursor_filter_used, cursorAfter]
  cases eighth : (listed c s)[7]? with
  | none => rfl
  | some m => exact head_above (cursor_le_of_mem_listed (List.mem_of_getElem? eighth))

/-! ### The work of the two readout commands -/

/-- The state with the readout cursor moved. -/
def withCursor (k : Option (Fin 64)) (s : State) : State := { s with directory := { s.directory with cursor := k } }

theorem CommandReady.withCursor (r : CommandReady p s) (k : Option (Fin 64)) : CommandReady p (withCursor k s) :=
  ⟨r.released, r.notBusy, r.between, r.parameters⟩

/-- What a scan from `c` leaves as its result: OK, the number of entries collected, the END mark, and three values for each
entry (R104). -/
def readoutResult (c : Fin 64) (s : State) : List Byte :=
  [0x00, byteOf ((listed c s).take 8).length, if cursorAfter c s = none then 1 else 0] ++
    (((listed c s).take 8).map (scanEntryBytes s)).flatten

/-- A scan moves the cursor, leaves its result and changes nothing else. -/
theorem readDirectory_eq (c : Fin 64) (s : State) :
    readDirectory c s = (withCursor (cursorAfter c s) s, readoutResult c s) := by
  have collected : (scan s 8 (fromCursor c)).1 = (listed c s).take 8 := by rw [scan_collects, fromCursor_filter_used]
  have ended : ((scan s 8 (fromCursor c)).2.isEmpty = true) = (cursorAfter c s = none) := by
    rw [← scan_next, List.head?_eq_none_iff, List.isEmpty_iff]
  simp only [readDirectory, readoutResult, withCursor, collected, ended, scan_next, statusCode]

/-- A command that finds a wrong number of parameters leaves BAD_LENGTH and changes no block (R180 check 3). -/
theorem takeCommand_length {c : Command} {work : Work} (r : CommandReady p s) (h : permitted c s.control.state = true)
    (k : lengthFits c p = false) : takeCommand c work s = taken [0x82] s := by
  have wrong : lengthFits c (begun s).port.fifo = false := by simpa [begun, r.parameters] using k
  rw [takeCommand_ready r, checkedWork_length (by simpa using h) wrong]
  rfl

/-- START scans from 0, whatever the cursor was (R103). -/
theorem exec_readDirectoryStart (r : CommandReady [] s) :
    exec .readDirectoryStart s =
      .next (answered (readoutResult 0 s) (withCursor (cursorAfter 0 s) (begun s))) := by
  show Host.Outcome.next (takeCommand .readDirectoryStart readDirectoryStartWork s) = _
  rw [takeCommand_work r rfl rfl, readDirectoryStartWork, readDirectory_eq]
  rfl

/-- CONTINUE scans from the cursor (R104). -/
theorem exec_readDirectoryContinue {c : Fin 64} (r : CommandReady [] s) (h : s.directory.cursor = some c) :
    exec .readDirectoryContinue s =
      .next (answered (readoutResult c s) (withCursor (cursorAfter c s) (begun s))) := by
  show Host.Outcome.next (takeCommand .readDirectoryContinue readDirectoryContinueWork s) = _
  have scans : readDirectoryContinueWork [] (begun s) = readDirectory c (begun s) := by
    simp [readDirectoryContinueWork, h]
  rw [takeCommand_work r rfl rfl, scans, readDirectory_eq]
  rfl

/-- START with parameters leaves BAD_LENGTH (R103, R180). -/
theorem exec_readDirectoryStart_parameters (r : CommandReady p s) (h : p ≠ []) :
    exec .readDirectoryStart s = .next (taken [0x82] s) :=
  congrArg Host.Outcome.next (takeCommand_length r rfl (by simpa [lengthFits] using h))

/-- Settles O19. What a scan from 0 leaves does not depend on the cursor before, so START from any cursor and CONTINUE from
cursor 0 leave the same state. -/
theorem readoutStartsAtZero : Obligations.ReadoutStartsAtZero := by
  intro p s ready
  refine ⟨?scans, ?result, exec_readDirectoryStart_parameters ready⟩
  case scans =>
    rintro rfl
    exact (exec_readDirectoryStart ready).trans (exec_readDirectoryContinue (ready.withCursor (some 0)) rfl).symm
  case result =>
    rintro rfl
    exact exec_readDirectoryStart ready

end Sys2Proof.Machine

/-! SUPPORT. READ COUNTERS (R192): the result as the list of the fourteen counters, the two outcomes of its taking, and
their statement. -/

namespace Sys2Proof.Machine

variable {s : State} {p : List Byte}

/-- The fourteen counters in the order of R191. -/
def Counters.inOrder (c : Counters) : List Word :=
  [c.framesSent, c.goodFrames, c.corruptActivity, c.collisions, c.turnSlips, c.foreignFrames, c.quietResyncs,
    c.itemsShed, c.requestRetransmissions, c.deliveryRetransmissions, c.staleAcks, c.directoryConflicts, c.noticesLost,
    c.messagesReturned]

/-- The bytes READ COUNTERS returns are those of the counters in order, one counter after the other. -/
theorem counterBytes_eq (c : Counters) : counterBytes c = (c.inOrder.map wordBytes).flatten := by
  simp [counterBytes, Counters.inOrder]

/-- Step 1 of a taking leaves the counters as they were, so a command reports those of the moment it is taken. -/
@[simp] theorem begun_counters (s : State) : (begun s).port.counters = s.port.counters := rfl

/-- Without parameters, READ COUNTERS leaves OK with the counters, and its work changes no block (R192). -/
theorem exec_readCounters (r : CommandReady [] s) :
    exec .readCounters s = .next (taken (0x00 :: (s.port.counters.inOrder.map wordBytes).flatten) s) := by
  show Host.Outcome.next (takeCommand .readCounters readCountersWork s) = _
  rw [takeCommand_work r rfl rfl, readCountersWork, begun_counters, counterBytes_eq]
  rfl

/-- READ COUNTERS with parameters leaves BAD_LENGTH (R180, R192). -/
theorem exec_readCounters_parameters (r : CommandReady p s) (h : p ≠ []) :
    exec .readCounters s = .next (taken [0x82] s) :=
  congrArg Host.Outcome.next (takeCommand_length r rfl (by simpa [lengthFits] using h))

/-- Settles O31. The work returns the state it is given, so the state differs from the one before by the taking alone. -/
theorem readCountersReport : Obligations.ReadCountersReport := by
  intro p s ready
  refine ⟨?report, exec_readCounters_parameters ready⟩
  case report =>
    rintro rfl
    exact exec_readCounters ready

end Sys2Proof.Machine

/-! SUPPORT. The forty rows in four groups: the commands of the local processor, the events of the line and of the rotation,
the deadlines, and the accesses and edges of the pins. What a property must survive for every row to keep it is said once. -/

namespace Sys2Proof.Machine

variable {s t u : State} {i : Instr}

/-! ### What each row does -/

/-- The work of the command whose code a row writes. -/
def rowWork : Instr → Work
  | .configure => configureWork
  | .join m a => joinWork m a
  | .leave => leaveWork
  | .readStatus => readStatusWork
  | .openMailbox => openWork
  | .closeMailbox => closeWork
  | .readDirectoryStart => readDirectoryStartWork
  | .readDirectoryContinue => readDirectoryContinueWork
  | .readRoster => readRosterWork
  | .put => putWork
  | .take => takeWork
  | .cancel => cancelWork
  | .mailboxStatus => mailboxStatusWork
  | .popCompletion => popWork
  | .setAttention => setAttentionWork
  | .readCounters => readCountersWork
  | .clearCounters => clearCountersWork
  | _ => fun _ s => (s, [])

/-- What an event of the line or of the rotation does outside an own turn. -/
def lineEffect : Instr → State → State
  | .activityOpens ch m => lineCharacter ch m
  | .characterReceived ch m => lineCharacter ch m
  | .frameAssemblyComplete ch m => lineCharacter ch m
  | .activityClosesBySilence => closeBySilence
  | .turnLapse => turnLapse
  | .quietRule => quietRule
  | .quietResync => quietResync
  | .frameTransmitStart => transmitStart
  | .echoGood => echoGood
  | .collision ends => collision ends
  | .breakEnd => breakEnd
  | _ => id

/-- What a deadline row does. -/
def deadlineEffect : Instr → State → State
  | .replyDeadline => actOnDueEntry hasReplyDeadline
  | .backstop => actOnDueEntry fun st => st = .parked
  | .lateDeadline => actOnDueEntry fun st => st = .late
  | .waiterExpiry => expireDueWaiter
  | .deliveryDeadline => actOnDueDelivery
  | _ => id

/-- What an access to a location that writes no command code of the table does, and an edge of RST#. -/
def accessEffect : Instr → State → State
  | .hardwareReset => resetPart
  | .dataWrite b => writeData b
  | .dataRead => readData
  | .commandWriteWhileBusy => writeWhileBusy
  | .badCommand code => takeUnknown code
  | .resetReleased => releaseReset
  | .commandResultWritten => writeResult
  | _ => id

/-- A command row is the taking of its command. -/
theorem exec_command {c : Command} (h : commandRow i = some c) (s : State) :
    exec i s = .next (takeCommand c (rowWork i) s) := by
  cases i <;> cases h <;> rfl

/-- A character does in each of its three rows what the receive state makes of it. -/
theorem exec_character {ch : LineChar} {m : Moment} (h : IsCharacter i ch m) (s : State) :
    exec i s = .next (lineCharacter ch m (finishOwnTurn s)) := by
  obtain rfl | rfl | rfl := h <;> rfl

/-- An event of the line finds the own turn taken to its end. -/
theorem exec_lineEvent (h : IsLineEvent i) (s : State) : exec i s = .next (lineEffect i (finishOwnTurn s)) := by
  obtain ⟨ch, m, rfl | rfl | rfl⟩ | ⟨ends, rfl⟩ | h := h
  iterate 4 rfl
  simp only [List.mem_cons, List.not_mem_nil, or_false] at h
  obtain rfl | rfl | rfl | rfl | rfl | rfl | rfl := h <;> rfl

/-- What a row does to a state is one of four things, so a property of the state after any row splits into four. -/
theorem exec_cases {P : State → Prop} (h : exec i s = .next t)
    (command : ∀ c, commandRow i = some c → P (takeCommand c (rowWork i) s))
    (event : IsLineEvent i → P (lineEffect i (finishOwnTurn s)))
    (deadline : P (deadlineEffect i s)) (access : P (accessEffect i s)) : P t := by
  have next {u : State} (e : exec i s = .next u) (p : P u) : P t := by
    cases e.symm.trans h
    exact p
  cases c : commandRow i with
  | some c => exact next (exec_command c s) (command _ ‹_›)
  | none =>
    cases i with
    | hardwareReset | dataWrite | dataRead | commandWriteWhileBusy | badCommand | resetReleased | commandResultWritten =>
      exact next rfl access
    | replyDeadline | backstop | lateDeadline | waiterExpiry | deliveryDeadline => exact next rfl deadline
    | activityOpens ch m | frameAssemblyComplete ch m | characterReceived ch m =>
      exact next rfl (event (.inl ⟨ch, m, by simp [IsCharacter]⟩))
    | collision ends => exact next rfl (event (.inr (.inl ⟨ends, rfl⟩)))
    | activityClosesBySilence | turnLapse | quietRule | quietResync | frameTransmitStart | echoGood | breakEnd =>
      exact next rfl (event (.inr (.inr (by simp))))
    | _ => cases c

/-- A property that the queue of commands does not touch and every row keeps is kept by every step. -/
theorem step_keeps {P : State → Prop} (pending : ∀ s q, P s → P (s.withPending q))
    (row : ∀ i s t, exec i s = .next t → P s → P t) (p : P s) (h : step s = .next t) : P t := by
  unfold step at h
  split at h
  · cases h
    exact p
  · exact row _ _ _ h (pending _ _ p)

/-! ### Bounds -/

theorem rowWork_bounded (i : Instr) (b : List Byte) (u : State) (k : Bounded u) : Bounded (rowWork i b u).1 := by
  cases i with
  | configure =>
    show Bounded (configureWork b u).1
    unfold configureWork
    split <;> exact k
  | join m a =>
    show Bounded (joinWork m a b u).1
    unfold joinWork
    split
    · exact startSession_bounded m a k
    · exact k
  | leave =>
    show Bounded (leaveWork b u).1
    unfold leaveWork
    dsimp only
    split
    · exact enterLeaving_bounded k
    · exact sessionEnd_bounded _ k
  | openMailbox => exact (openWork_work b u).bounded k
  | closeMailbox => exact (closeWork_work b u).bounded k
  | put => exact (putWork_work b u).bounded k
  | take => exact (takeWork_work b u).bounded k
  | cancel => exact (cancelWork_work b u).bounded k
  | mailboxStatus => exact (mailboxStatusWork_state b u).symm ▸ k
  | popCompletion => exact popWork_bounded b k
  | setAttention =>
    show Bounded (setAttentionWork b u).1
    unfold setAttentionWork
    split
    · split <;> exact k
    · exact k
  | readDirectoryContinue =>
    show Bounded (readDirectoryContinueWork b u).1
    unfold readDirectoryContinueWork
    split <;> exact k
  | _ => exact k

theorem lineEffect_bounded (i : Instr) (b : Bounded s) : Bounded (lineEffect i s) := by
  cases i with
  | activityOpens ch m | characterReceived ch m | frameAssemblyComplete ch m => exact lineCharacter_bounded ch m b
  | activityClosesBySilence => exact closeBySilence_bounded b
  | turnLapse => exact turnLapse_bounded b
  | quietRule => exact quietRule_bounded b
  | quietResync => exact quietResync_bounded b
  | frameTransmitStart => exact transmitStart_bounded b
  | echoGood => exact echoGood_bounded b
  | collision ends => exact collision_bounded ends b
  | breakEnd => exact breakEnd_bounded b
  | _ => exact b

/-- A deadline row does work on items and then may settle the own turn, or it does nothing. -/
theorem deadlineEffect_cases (i : Instr) (s : State) :
    deadlineEffect i s = s ∨ ∃ u, ItemWork s u ∧ deadlineEffect i s = settle u := by
  have entry (p : EntryState → Bool) :
      actOnDueEntry p s = s ∨ ∃ u, ItemWork s u ∧ actOnDueEntry p s = settle u := by
    unfold actOnDueEntry
    split
    · split
      · exact .inr ⟨_, actOnEntry_work _ (.refl s), rfl⟩
      · exact .inl rfl
    · exact .inl rfl
  cases i with
  | replyDeadline => exact entry hasReplyDeadline
  | backstop => exact entry fun st => st = .parked
  | lateDeadline => exact entry fun st => st = .late
  | waiterExpiry =>
    show expireDueWaiter s = s ∨ ∃ u, _ ∧ expireDueWaiter s = settle u
    unfold expireDueWaiter
    split
    · exact .inr ⟨_, actOnWaiter_work _ (.refl s), rfl⟩
    · exact .inl rfl
  | deliveryDeadline =>
    show actOnDueDelivery s = s ∨ ∃ u, _ ∧ actOnDueDelivery s = settle u
    unfold actOnDueDelivery
    split
    · exact .inl rfl
    · split
      · exact .inr ⟨_, actOnDelivery_work _ (.refl s), rfl⟩
      · exact .inl rfl
  | _ => exact .inl rfl

theorem deadlineEffect_bounded (i : Instr) (b : Bounded s) : Bounded (deadlineEffect i s) := by
  obtain e | ⟨u, w, e⟩ := deadlineEffect_cases i s <;> rw [e]
  · exact b
  · exact settle_bounded (w.bounded b)

theorem reset_bounded : Bounded State.reset :=
  ⟨Nat.zero_le _, ⟨Nat.zero_le _, Nat.zero_le _⟩, fun h => absurd rfl h,
    fun x => by simp [State.reset, RosterEntry.blank], by simp [flagFollowsTransmit, State.reset, LineUnit.reset]⟩

/-- A byte joins the FIFO only while it holds fewer than 32. -/
theorem writeData_bounded (v : Byte) (b : Bounded s) : Bounded (writeData v s) := by
  obtain ⟨q, ⟨_, c⟩, rest⟩ := b
  unfold writeData
  split
  · exact ⟨q, ⟨‹_›, c⟩, rest⟩
  · split
    · exact ⟨q, ⟨‹_›, c⟩, rest⟩
    next k =>
      simp only [Bool.or_eq_true, decide_eq_true_eq, not_or] at k
      exact ⟨q, ⟨by simp only [withPort_port, List.length_append, List.length_singleton]; omega, c⟩, rest⟩

theorem accessEffect_bounded (i : Instr) (b : Bounded s) : Bounded (accessEffect i s) := by
  cases i with
  | hardwareReset => exact reset_bounded
  | dataWrite v => exact writeData_bounded v b
  | dataRead =>
    show Bounded (readData s)
    unfold readData
    repeat' first | exact b | split
  | commandWriteWhileBusy =>
    show Bounded (writeWhileBusy s)
    unfold writeWhileBusy
    split <;> exact b
  | badCommand code =>
    show Bounded (takeUnknown code s)
    unfold takeUnknown
    repeat' first | exact b | split
  | commandResultWritten =>
    show Bounded (writeResult s)
    unfold writeResult
    split
    · exact ⟨b.1, ⟨Nat.zero_le _, b.2.1.2⟩, b.2.2⟩
    · exact b
  | _ => exact b

/-- Settles O56. -/
theorem everyStepKeepsBounds : Obligations.EveryStepKeepsBounds := by
  intro s t b h
  refine step_keeps (P := Bounded) (fun _ _ k => k) (fun i s t e k => ?_) b h
  exact exec_cases e (fun c _ => takeCommand_bounded c _ (fun p u _ => rowWork_bounded i p u) k)
    (fun _ => lineEffect_bounded i (finishOwnTurn_bounded k)) (deadlineEffect_bounded i k) (accessEffect_bounded i k)

/-! ### Station state and synchronisation -/

theorem rowWork_matches (b : List Byte) (on : ∀ c, commandRow i = some c → permitted c u.control.state = true)
    (m : SyncMatches u) : SyncMatches (rowWork i b u).1 := by
  cases i with
  | configure =>
    show SyncMatches (configureWork b u).1
    unfold configureWork
    split
    · exact matches_of_fields rfl rfl rfl rfl rfl rfl m
    · exact m
  | join e a =>
    show SyncMatches (joinWork e a b u).1
    unfold joinWork
    split
    · exact startSession_matches e a u
    · exact m
  | leave =>
    show SyncMatches (leaveWork b u).1
    unfold leaveWork
    dsimp only
    split
    · exact enterLeaving_matches ‹_› m
    · exact sessionEnd_matches _ u
  | openMailbox => exact (openWork_work b u).matches m
  | closeMailbox => exact (closeWork_work b u).matches m
  | put => exact (putWork_work b u).matches m
  | take => exact (takeWork_work b u).matches m
  | cancel => exact (cancelWork_work b u).matches m
  | mailboxStatus => exact (mailboxStatusWork_state b u).symm ▸ m
  | popCompletion => exact popWork_matches b m
  | setAttention =>
    show SyncMatches (setAttentionWork b u).1
    unfold setAttentionWork
    split
    · split <;> exact m
    · exact m
  | readDirectoryContinue =>
    show SyncMatches (readDirectoryContinueWork b u).1
    unfold readDirectoryContinueWork
    split <;> exact m
  | _ => exact m

theorem lineEffect_matches (i : Instr) (m : SyncMatches s) : SyncMatches (lineEffect i s) := by
  cases i with
  | activityOpens ch e | characterReceived ch e | frameAssemblyComplete ch e => exact lineCharacter_matches ch e m
  | activityClosesBySilence => exact closeBySilence_matches m
  | turnLapse => exact turnLapse_matches m
  | quietRule => exact quietRule_matches m
  | quietResync => exact quietResync_matches m
  | frameTransmitStart => exact transmitStart_matches m
  | echoGood => exact echoGood_matches m
  | collision ends => exact collision_matches ends m
  | breakEnd => exact breakEnd_matches m
  | _ => exact m

theorem deadlineEffect_matches (i : Instr) (m : SyncMatches s) : SyncMatches (deadlineEffect i s) := by
  obtain e | ⟨u, w, e⟩ := deadlineEffect_cases i s <;> rw [e]
  · exact m
  · exact settle_matches (w.matches m)

theorem reset_matches : SyncMatches State.reset :=
  ⟨fun _ => ⟨rfl, rfl, rfl, nofun⟩, fun _ => rfl, by rintro (h | h) <;> cases h⟩

theorem accessEffect_matches (i : Instr) (m : SyncMatches s) : SyncMatches (accessEffect i s) := by
  cases i with
  | hardwareReset => exact reset_matches
  | dataWrite v =>
    show SyncMatches (writeData v s)
    unfold writeData
    repeat' first | exact m | split
  | dataRead =>
    show SyncMatches (readData s)
    unfold readData
    repeat' first | exact m | split
  | commandWriteWhileBusy =>
    show SyncMatches (writeWhileBusy s)
    unfold writeWhileBusy
    split <;> exact m
  | badCommand code =>
    show SyncMatches (takeUnknown code s)
    unfold takeUnknown
    repeat' first | exact m | split
  | commandResultWritten =>
    show SyncMatches (writeResult s)
    unfold writeResult
    split <;> exact m
  | _ => exact m

/-- Settles O57. -/
theorem everyStepKeepsSyncAgreement : Obligations.EveryStepKeepsSyncAgreement := by
  intro s t m h
  refine step_keeps (P := SyncMatches) (fun _ _ k => k) (fun i s t e k => ?_) m h
  refine exec_cases e (fun c hc => takeCommand_matches c _ (fun p u on => rowWork_matches p ?_) k)
    (fun _ => lineEffect_matches i (finishOwnTurn_matches k)) (deadlineEffect_matches i k) (accessEffect_matches i k)
  rintro c' hc'
  cases hc.symm.trans hc'
  exact on

/-! ### The tables -/

theorem rowWork_tables (b : List Byte) (on : ∀ c, commandRow i = some c → permitted c u.control.state = true)
    (p : TablesWhole u) : TablesWhole (rowWork i b u).1 := by
  have bus {c : Command} (e : commandRow i = some c)
      (k : c ∈ [Command.leave, .openMailbox, .closeMailbox, .put, .take, .cancel]) : OnBus u :=
    onBus_of_permitted (on c e) k
  cases i with
  | configure => exact configureWork_keeps b (offline_of_permitted (on _ rfl) (.inl rfl)) p
  | join e a => exact joinWork_keeps e a b (offline_of_permitted (on _ rfl) (.inr rfl)) p
  | leave => exact leaveWork_keeps b p
  | readStatus => exact p.step (port_step _ u)
  | openMailbox => exact openWork_keeps b (bus rfl (by simp)) p
  | closeMailbox => exact closeWork_keeps b (bus rfl (by simp)) p
  | readDirectoryStart => exact readDirectory_keeps 0 p
  | readDirectoryContinue =>
    show TablesWhole (readDirectoryContinueWork b u).1
    unfold readDirectoryContinueWork
    split
    · exact readDirectory_keeps _ p
    · exact p
  | put => exact putWork_keeps b (bus rfl (by simp)) p
  | take => exact takeWork_keeps b (bus rfl (by simp)) p
  | cancel => exact cancelWork_keeps b p
  | mailboxStatus => exact (mailboxStatusWork_state b u).symm ▸ p
  | popCompletion => exact popWork_keeps b p
  | setAttention =>
    show TablesWhole (setAttentionWork b u).1
    unfold setAttentionWork
    split
    · split
      · exact p.step (port_step _ u)
      · exact p
    · exact p
  | clearCounters => exact p.step (counters_step _ u)
  | _ => exact p

theorem lineEffect_tables (i : Instr) (p : TablesWhole s) : TablesWhole (lineEffect i s) := by
  cases i with
  | activityOpens ch e | characterReceived ch e | frameAssemblyComplete ch e => exact lineCharacter_keeps ch e p
  | activityClosesBySilence => exact closeBySilence_keeps p
  | turnLapse => exact turnLapse_keeps p
  | quietRule => exact quietRule_keeps p
  | quietResync => exact quietResync_keeps p
  | frameTransmitStart => exact p.step (transmitStart_step s)
  | echoGood => exact echoGood_keeps p
  | collision ends => exact collision_keeps ends p
  | breakEnd => exact p.step (breakEnd_step s)
  | _ => exact p

theorem deadlineEffect_step (i : Instr) (s : State) : TableStep s (deadlineEffect i s) := by
  cases i with
  | replyDeadline => exact actOnDueEntry_step hasReplyDeadline s
  | backstop => exact actOnDueEntry_step (fun st => st = .parked) s
  | lateDeadline => exact actOnDueEntry_step (fun st => st = .late) s
  | waiterExpiry => exact expireDueWaiter_step s
  | deliveryDeadline => exact actOnDueDelivery_step s
  | _ => exact .refl s

theorem reset_requests : Requests State.reset := by
  have blank (j : Fin 16) : entry j State.reset = Entry.blank 0 := by simp [entry, State.reset, RequestEngine.reset]
  have order (h : Fin 32) : waitingOrder h State.reset = [] := by simp [waitingOrder, State.reset, RequestEngine.reset]
  have noWaiter (w : Fin 32) : waiter w State.reset = none := by simp [waiter, State.reset, MailboxStore.cleared]
  have noneHeld : State.reset.engine.held = [] := rfl
  have noneStands : standing State.reset.queue.classA = [] ∧ standing State.reset.queue.classB = [] := ⟨rfl, rfl⟩
  constructor
  · constructor <;> simp [LocalTakersAgree, blank, order, noWaiter, noneHeld, noneStands, Entry.blank, isWaiting, isLive]
  · simp [OrdersOpen, order]

theorem reset_tables : TablesWhole State.reset := by
  have free (m : Fin 64) : dirEntry m State.reset = .free := by simp [dirEntry, State.reset, Directory.reset]
  have noSlot (h : Fin 16) : (hostedSlot h State.reset).state = .free := by
    simp [hostedSlot, State.reset, MailboxStore.cleared, HostedSlot.blank]
  have notLive (j : Fin 16) : isLive (entry j State.reset) = false := by
    simp [entry, State.reset, RequestEngine.reset, Entry.blank, isLive]
  exact empty_keeps (cleared_sound 0 0 rfl) noSlot reset_requests rfl notLive ⟨rfl, rfl⟩ (fun m => by simp [free])
    (fun _ => free)

/-- The tables do not read the RST# pin and the queue of commands. -/
theorem outside_step (b : Bool) (q : List Instr) (s : State) :
    TableStep s { s with rstAsserted := b, pending := q } :=
  queue_step ⟨rfl, rfl, rfl⟩ rfl (.refl _) fun _ => id

theorem accessEffect_tables (i : Instr) (p : TablesWhole s) : TablesWhole (accessEffect i s) := by
  have port (k : LocalPort) : TablesWhole (s.withPort k) := p.step (port_step k s)
  cases i with
  | hardwareReset => exact reset_tables.step (outside_step true s.pending _)
  | dataWrite v =>
    show TablesWhole (writeData v s)
    unfold writeData
    repeat' first | exact p | exact port _ | split
  | dataRead =>
    show TablesWhole (readData s)
    unfold readData
    repeat' first | exact p | exact port _ | split
  | commandWriteWhileBusy =>
    show TablesWhole (writeWhileBusy s)
    unfold writeWhileBusy
    split
    · exact port _
    · exact p
  | badCommand code =>
    show TablesWhole (takeUnknown code s)
    unfold takeUnknown
    repeat' first | exact p | exact port _ | split
  | commandResultWritten =>
    show TablesWhole (writeResult s)
    unfold writeResult
    split
    · exact port _
    · exact p
  | resetReleased => exact p.step (outside_step false s.pending s)
  | _ => exact p

/-- Settles O60. -/
theorem everyStepKeepsTables : Obligations.EveryStepKeepsTables := by
  intro s t p h
  refine step_keeps (P := TablesWhole) (fun s q k => k.step (outside_step s.rstAsserted q s)) (fun i s t e k => ?_) p h
  refine exec_cases e (fun c hc => takeCommand_keeps c _ (fun b u on => rowWork_tables b ?_) k)
    (fun _ => lineEffect_tables i (k.step (finishOwnTurn_step s))) (k.step (deadlineEffect_step i s))
    (accessEffect_tables i k)
  rintro c' hc'
  cases hc.symm.trans hc'
  exact on

/-! ### What leaves the configuration, the location and the mask alone -/

/-- What happens at the bus, in a session or at an own turn: it leaves the pins, the configuration and the queue of commands
alone, and of the Local Port all but the completion queue, the counters and two latches. -/
structure BusWork (s t : State) : Prop where
  rstAsserted : t.rstAsserted = s.rstAsserted
  config : t.control.config = s.control.config
  pending : t.pending = s.pending
  port : t.port = { s.port with
    completions := t.port.completions, noticeLost := t.port.noticeLost, stateChange := t.port.stateChange,
    counters := t.port.counters }

namespace BusWork

theorem refl (s : State) : BusWork s s := ⟨rfl, rfl, rfl, rfl⟩

theorem trans (h : BusWork s t) (k : BusWork t u) : BusWork s u :=
  ⟨k.rstAsserted.trans h.rstAsserted, k.config.trans h.config, k.pending.trans h.pending, by rw [k.port, h.port]⟩

theorem after (k : BusWork t u) (h : BusWork s t) : BusWork s u := h.trans k

theorem of_items (h : ItemWork s t) : BusWork s t :=
  ⟨h.rstAsserted, by rw [h.control], h.pending, by rw [h.port]⟩

theorem legal (h : BusWork s t) (k : ConfigLegal s) : ConfigLegal t := by simpa [ConfigLegal, h.config] using k

theorem result (h : BusWork s t) :
    t.port.result = s.port.result ∧ t.port.readPointer = s.port.readPointer ∧ t.port.taking = s.port.taking := by
  rw [h.port]
  exact ⟨rfl, rfl, rfl⟩

end BusWork

/-! ### Own turns and sessions as work at the bus -/

theorem offerTurn_bus (s : State) : BusWork s (offerTurn s) := by
  unfold offerTurn
  split
  · unfold offerActive
    dsimp only
    split <;> exact ⟨rfl, rfl, rfl, rfl⟩
  · exact ⟨rfl, rfl, rfl, rfl⟩
  · exact .refl s

theorem closeOwnTurn_bus (s : State) : BusWork s (closeOwnTurn s) :=
  (offerTurn_bus _).after ⟨rfl, rfl, rfl, rfl⟩

theorem settle_bus (s : State) : BusWork s (settle s) := by
  unfold settle
  split
  · exact closeOwnTurn_bus s
  · exact .refl s

theorem finishOwnTurn_bus (s : State) : BusWork s (finishOwnTurn s) := by
  unfold finishOwnTurn
  split
  · exact (BusWork.of_items (actOnDeadlines_work (.refl s))).trans (closeOwnTurn_bus _)
  · exact .refl s

theorem handOwnTurn_bus (s : State) : BusWork s (handOwnTurn s) := by
  unfold handOwnTurn
  split
  · exact (settle_bus _).after ⟨rfl, rfl, rfl, rfl⟩
  · exact .refl s

theorem sessionEnd_bus (c : EndCause) (s : State) : BusWork s (sessionEnd c s) := by
  have ended := BusWork.of_items (endEntries_work (.refl s))
  unfold sessionEnd
  generalize endEntries s = b at *
  exact ended.trans ⟨rfl, rfl, rfl, rfl⟩

theorem enterLeaving_bus (s : State) : BusWork s (enterLeaving s) :=
  (BusWork.of_items (enterLeaving_work s)).after ⟨rfl, rfl, rfl, rfl⟩

theorem syncGained_bus (s : State) : BusWork s (syncGained s) := by
  unfold syncGained
  split
  · exact ⟨rfl, rfl, rfl, rfl⟩
  · exact .refl s

theorem loseSync_bus (s : State) : BusWork s (loseSync s) := by
  unfold loseSync syncLost
  repeat' split
  · exact ⟨rfl, rfl, rfl, rfl⟩
  · exact (sessionEnd_bus _ _).after ⟨rfl, rfl, rfl, rfl⟩
  · exact ⟨rfl, rfl, rfl, rfl⟩
  · exact .refl s

/-! ### The turn -/

theorem frameToTracker_bus (x : Fin 32) (m : Moment) (s : State) : BusWork s (frameToTracker x m s) := by
  unfold frameToTracker
  split
  · split <;> exact ⟨rfl, rfl, rfl, rfl⟩
  · exact (syncGained_bus _).after ⟨rfl, rfl, rfl, rfl⟩

theorem turnLapse_bus (s : State) : BusWork s (turnLapse s) := by
  unfold turnLapse
  split
  next r _ =>
    split
    · exact (handOwnTurn_bus _).after
        (.trans (.of_items (missedTurn_work r.holder (.refl s))) ⟨rfl, rfl, rfl, rfl⟩)
    · exact .refl s
  · exact .refl s

theorem quietRule_bus (s : State) : BusWork s (quietRule s) := by
  unfold quietRule
  split
  · split
    · exact (handOwnTurn_bus _).after ⟨rfl, rfl, rfl, rfl⟩
    · exact .refl s
  · exact .refl s

theorem quietResync_bus (s : State) : BusWork s (quietResync s) := by
  unfold quietResync
  split
  · split
    · exact (handOwnTurn_bus _).after ((syncGained_bus _).after ⟨rfl, rfl, rfl, rfl⟩)
    · exact .refl s
  · exact .refl s

/-! ### The line -/

theorem receiveGood_bus (x : Fin 32) (items : List Item) (m : Moment) (s : State) :
    BusWork s (receiveGood x items m s) :=
  (frameToTracker_bus x m s).trans
    ((BusWork.of_items (dispatchItems_work x items (heard_work x (.refl _)))).trans (handOwnTurn_bus _))

theorem handOn_bus (v : Verdict) (m : Moment) (s : State) : BusWork s (handOn v m s) := by
  cases v with
  | good x items => exact (receiveGood_bus x items m _).after ⟨rfl, rfl, rfl, rfl⟩
  | corrupt => exact (loseSync_bus _).after ⟨rfl, rfl, rfl, rfl⟩
  | foreign => exact (loseSync_bus _).after ⟨rfl, rfl, rfl, rfl⟩
  | impostor => exact sessionEnd_bus _ s

theorem closeActivity_bus (m : Moment) (s : State) : BusWork s (closeActivity m s) := ⟨rfl, rfl, rfl, rfl⟩

theorem closeBySilence_bus (s : State) : BusWork s (closeBySilence s) := by
  unfold closeBySilence
  split
  · dsimp only
    split
    · exact closeActivity_bus _ s
    · exact (closeActivity_bus _ s).trans (handOn_bus _ _ _)
  · exact .refl s

theorem abortWaiting_bus (s : State) : BusWork s (abortWaiting s) := by
  unfold abortWaiting
  split
  · exact (BusWork.of_items (abortFrame_work (.refl s))).trans ⟨rfl, rfl, rfl, rfl⟩
  · exact .refl s

theorem activityOpens_bus (ch : LineChar) (m : Moment) (s : State) : BusWork s (activityOpens ch m s) := by
  unfold activityOpens
  split
  · exact (abortWaiting_bus s).trans ⟨rfl, rfl, rfl, rfl⟩
  · exact .refl s

theorem assembleCharacter_bus (ch : LineChar) (m : Moment) (s : State) : BusWork s (assembleCharacter ch m s) := by
  unfold assembleCharacter
  split
  · exact ⟨rfl, rfl, rfl, rfl⟩
  · dsimp only
    split
    · exact ⟨rfl, rfl, rfl, rfl⟩
    · split
      · exact (closeActivity_bus _ s).trans (handOn_bus _ _ _)
      · exact ⟨rfl, rfl, rfl, rfl⟩

theorem transmitStart_bus (s : State) : BusWork s (transmitStart s) := by
  unfold transmitStart
  split
  · split
    · split
      · exact ⟨rfl, rfl, rfl, rfl⟩
      · exact abortWaiting_bus s
    · exact .refl s
  · exact .refl s

theorem frameSent_bus (s : State) : BusWork s (frameSent s) := by
  unfold frameSent
  split
  · exact .refl s
  · dsimp only
    refine .trans ?_ (.of_items (offerPlaces_work (ItemWork.foldl (fun q k => tellSent_work q k) _ (.refl _))))
    split <;> exact ⟨rfl, rfl, rfl, rfl⟩

theorem echoGood_bus (s : State) : BusWork s (echoGood s) := by
  have received : BusWork s (ownFrameReceived s) :=
    (receiveGood_bus _ _ _ _).after ((frameSent_bus _).after ⟨rfl, rfl, rfl, rfl⟩)
  unfold echoGood
  split
  · dsimp only
    split
    · exact received.trans (sessionEnd_bus _ _)
    · exact received
  · exact .refl s

theorem collision_bus (m : Moment) (s : State) : BusWork s (collision m s) := by
  unfold collision
  split
  · exact (loseSync_bus _).after ((BusWork.of_items (abortFrame_work (.refl _))).after ⟨rfl, rfl, rfl, rfl⟩)
  · exact .refl s

theorem breakEnd_bus (s : State) : BusWork s (breakEnd s) := by
  unfold breakEnd
  dsimp only
  repeat' split
  all_goals exact ⟨rfl, rfl, rfl, rfl⟩

theorem echoCharacter_bus (ch : LineChar) (m : Moment) (s : State) : BusWork s (echoCharacter ch m s) := by
  unfold echoCharacter
  split
  · split
    · split
      · exact echoGood_bus s
      · exact ⟨rfl, rfl, rfl, rfl⟩
    · exact collision_bus _ s
  · exact .refl s

theorem laterCharacter_bus (ch : LineChar) (m : Moment) (s : State) : BusWork s (laterCharacter ch m s) := by
  unfold laterCharacter
  split
  · exact (closeBySilence_bus s).trans (activityOpens_bus ch m _)
  · split
    · exact assembleCharacter_bus ch m s
    · exact ⟨rfl, rfl, rfl, rfl⟩

theorem lineCharacter_bus (ch : LineChar) (m : Moment) (s : State) : BusWork s (lineCharacter ch m s) := by
  unfold lineCharacter
  split
  · exact .refl s
  · split
    · exact activityOpens_bus ch m s
    · exact laterCharacter_bus ch m s
    · exact laterCharacter_bus ch m s
    · exact echoCharacter_bus ch m s

theorem lineEffect_bus (i : Instr) (s : State) : BusWork s (lineEffect i s) := by
  cases i with
  | activityOpens ch e | characterReceived ch e | frameAssemblyComplete ch e => exact lineCharacter_bus ch e s
  | activityClosesBySilence => exact closeBySilence_bus s
  | turnLapse => exact turnLapse_bus s
  | quietRule => exact quietRule_bus s
  | quietResync => exact quietResync_bus s
  | frameTransmitStart => exact transmitStart_bus s
  | echoGood => exact echoGood_bus s
  | collision ends => exact collision_bus ends s
  | breakEnd => exact breakEnd_bus s
  | _ => exact .refl s

theorem deadlineEffect_bus (i : Instr) (s : State) : BusWork s (deadlineEffect i s) := by
  obtain e | ⟨u, w, e⟩ := deadlineEffect_cases i s <;> rw [e]
  · exact .refl s
  · exact (BusWork.of_items w).trans (settle_bus u)

/-! ### Commands -/

theorem popWork_bus (b : List Byte) (u : State) : BusWork u (popWork b u).1 := by
  unfold popWork moveHeldIn
  repeat' split
  all_goals exact ⟨rfl, rfl, rfl, rfl⟩

/-- The work of a command other than CONFIGURE and SET ATTENTION. -/
theorem rowWork_bus (hc : i ≠ .configure) (ha : i ≠ .setAttention) (b : List Byte) (u : State) :
    BusWork u (rowWork i b u).1 := by
  cases i with
  | configure => exact absurd rfl hc
  | setAttention => exact absurd rfl ha
  | join e a =>
    show BusWork u (joinWork e a b u).1
    unfold joinWork
    split
    · exact ⟨rfl, rfl, rfl, rfl⟩
    · exact .refl u
  | leave =>
    show BusWork u (leaveWork b u).1
    unfold leaveWork
    dsimp only
    split
    · exact enterLeaving_bus u
    · exact sessionEnd_bus _ u
  | openMailbox => exact .of_items (openWork_work b u)
  | closeMailbox => exact .of_items (closeWork_work b u)
  | put => exact .of_items (putWork_work b u)
  | take => exact .of_items (takeWork_work b u)
  | cancel => exact .of_items (cancelWork_work b u)
  | mailboxStatus => exact (mailboxStatusWork_state b u).symm ▸ .refl u
  | popCompletion => exact popWork_bus b u
  | readDirectoryContinue =>
    show BusWork u (readDirectoryContinueWork b u).1
    unfold readDirectoryContinueWork
    split <;> exact ⟨rfl, rfl, rfl, rfl⟩
  | _ => exact ⟨rfl, rfl, rfl, rfl⟩

/-- CONFIGURE leaves a configuration in the ranges of its check (R43). -/
theorem parseConfig_legal {b : List Byte} {c : StationConfig} (h : parseConfig b = some c) :
    2 ≤ c.cycle ∧ c.cycle ≤ 32 ∧ c.station.val < c.cycle ∧ 4 ≤ c.window ∧ c.window ≤ 15 ∧ 2 ≤ c.replyLimit ∧
      c.replyLimit ≤ 15 := by
  unfold parseConfig at h
  split at h
  · split at h
    · split at h
      · split at h
        · cases h
          dsimp only
          omega
        · cases h
      · cases h
    · cases h
  · cases h

theorem configureWork_frame (b : List Byte) (u : State) :
    (configureWork b u).1.pending = u.pending ∧ (configureWork b u).1.port = u.port := by
  unfold configureWork
  split <;> exact ⟨rfl, rfl⟩

theorem configureWork_legal (b : List Byte) (k : ConfigLegal u) : ConfigLegal (configureWork b u).1 := by
  unfold configureWork
  split
  next h =>
    rintro _ ⟨⟩
    exact parseConfig_legal h
  · exact k

theorem setAttentionWork_frame (b : List Byte) (u : State) :
    (setAttentionWork b u).1.pending = u.pending ∧ (setAttentionWork b u).1.control = u.control ∧
      (setAttentionWork b u).1.port.result = u.port.result ∧
      (setAttentionWork b u).1.port.readPointer = u.port.readPointer := by
  unfold setAttentionWork
  repeat' split
  all_goals exact ⟨rfl, rfl, rfl, rfl⟩

/-- A command is not taken, and at most the overrun latch changes, or its checks and its work run after the own turn. -/
theorem takeCommand_cases (c : Command) (work : Work) (s : State) :
    takeCommand c work s = s ∨ takeCommand c work s = setOverrun s ∨
      takeCommand c work s = holdResult (checkedWork c work (clearResult true (finishOwnTurn s))).2
        (checkedWork c work (clearResult true (finishOwnTurn s))).1 := by
  unfold takeCommand
  split
  · exact .inl rfl
  · split
    · exact .inr (.inl rfl)
    · exact .inr (.inr rfl)

/-- What every work keeps and the taking itself does not touch, the taking keeps. -/
theorem takeCommand_preserves {P : State → Prop} (c : Command) {work : Work} (overrun : ∀ u, P u → P (setOverrun u))
    (clear : ∀ u, P u → P (clearResult true (finishOwnTurn u))) (hold : ∀ r u, P u → P (holdResult r u))
    (run : ∀ b u, P u → P (work b u).1) (k : P s) : P (takeCommand c work s) := by
  obtain e | e | e := takeCommand_cases c work s <;> rw [e]
  · exact k
  · exact overrun s k
  · exact hold _ _ (checkedWork_keeps P c work (fun b u _ => run b u) (clear s k))

/-! ### The queue of commands -/

theorem accessEffect_pending (i : Instr) (s : State) : (accessEffect i s).pending = s.pending := by
  cases i with
  | dataWrite v =>
    show (writeData v s).pending = _
    unfold writeData
    repeat' split
    all_goals rfl
  | dataRead =>
    show (readData s).pending = _
    unfold readData
    repeat' split
    all_goals rfl
  | commandWriteWhileBusy =>
    show (writeWhileBusy s).pending = _
    unfold writeWhileBusy
    split <;> rfl
  | badCommand code =>
    show (takeUnknown code s).pending = _
    unfold takeUnknown
    repeat' split
    all_goals rfl
  | commandResultWritten =>
    show (writeResult s).pending = _
    unfold writeResult
    split <;> rfl
  | _ => rfl

theorem rowWork_pending (i : Instr) (b : List Byte) (u : State) : (rowWork i b u).1.pending = u.pending := by
  by_cases hc : i = .configure
  · subst hc
    exact (configureWork_frame b u).1
  · by_cases ha : i = .setAttention
    · subst ha
      exact (setAttentionWork_frame b u).1
    · exact (rowWork_bus hc ha b u).pending

theorem exec_pending (h : exec i s = .next t) : t.pending = s.pending := by
  refine exec_cases (P := fun t => t.pending = s.pending) h (fun c _ => ?_)
    (fun _ => (lineEffect_bus i _).pending.trans (finishOwnTurn_bus s).pending) (deadlineEffect_bus i s).pending
    (accessEffect_pending i s)
  exact takeCommand_preserves (P := fun t => t.pending = s.pending) c (fun _ k => k)
    (fun u k => (finishOwnTurn_bus u).pending.trans k) (fun _ _ k => k) (fun b u k => (rowWork_pending i b u).trans k) rfl

theorem exec_answers (i : Instr) (s : State) : ∃ t, exec i s = .next t := by cases i <;> exact ⟨_, rfl⟩

/-- Settles O2. -/
theorem everyCommandAnswersNext : Obligations.EveryCommandAnswersNext := by
  intro i s
  obtain ⟨t, h⟩ := exec_answers i s
  exact ⟨t, h, exec_pending h⟩

/-! ### The configuration and the result -/

theorem accessEffect_legal (i : Instr) (k : ConfigLegal s) : ConfigLegal (accessEffect i s) := by
  have control : i = .hardwareReset ∨ (accessEffect i s).control = s.control := by
    cases i with
    | hardwareReset => exact .inl rfl
    | dataWrite v =>
      refine .inr (show (writeData v s).control = _ from ?_)
      unfold writeData
      repeat' split
      all_goals rfl
    | dataRead =>
      refine .inr (show (readData s).control = _ from ?_)
      unfold readData
      repeat' split
      all_goals rfl
    | commandWriteWhileBusy =>
      refine .inr (show (writeWhileBusy s).control = _ from ?_)
      unfold writeWhileBusy
      split <;> rfl
    | badCommand code =>
      refine .inr (show (takeUnknown code s).control = _ from ?_)
      unfold takeUnknown
      repeat' split
      all_goals rfl
    | commandResultWritten =>
      refine .inr (show (writeResult s).control = _ from ?_)
      unfold writeResult
      split <;> rfl
    | _ => exact .inr rfl
  obtain rfl | e := control
  · nofun
  · simpa [ConfigLegal, e] using k

theorem rowWork_legal (i : Instr) (b : List Byte) (k : ConfigLegal u) : ConfigLegal (rowWork i b u).1 := by
  by_cases hc : i = .configure
  · subst hc
    exact configureWork_legal b k
  · by_cases ha : i = .setAttention
    · subst ha
      have control : (rowWork .setAttention b u).1.control = u.control := (setAttentionWork_frame b u).2.1
      simpa [ConfigLegal, control] using k
    · exact (rowWork_bus hc ha b u).legal k

theorem exec_legal (h : exec i s = .next t) (k : ConfigLegal s) : ConfigLegal t := by
  refine exec_cases h (fun c _ => ?_) (fun _ => (lineEffect_bus i _).legal ((finishOwnTurn_bus s).legal k))
    ((deadlineEffect_bus i s).legal k) (accessEffect_legal i k)
  exact takeCommand_preserves c (fun _ k => k) (fun u k => (finishOwnTurn_bus u).legal k) (fun _ _ k => k)
    (fun b u k => rowWork_legal i b k) k

theorem BusWork.whole (h : BusWork s t) (k : ResultWhole s) : ResultWhole t := by
  obtain ⟨result, pointer, taking⟩ := h.result
  simpa [ResultWhole, result, pointer, taking] using k

theorem rowWork_result (i : Instr) (b : List Byte) (u : State) :
    (rowWork i b u).1.port.result = u.port.result ∧ (rowWork i b u).1.port.readPointer = u.port.readPointer := by
  by_cases hc : i = .configure
  · subst hc
    have port : (rowWork .configure b u).1.port = u.port := (configureWork_frame b u).2
    rw [port]
    exact ⟨rfl, rfl⟩
  · by_cases ha : i = .setAttention
    · subst ha
      exact (setAttentionWork_frame b u).2.2
    · obtain ⟨result, pointer, _⟩ := (rowWork_bus hc ha b u).result
      exact ⟨result, pointer⟩

/-- While a command is taken the result is empty: its taking clears it, and no work writes it. -/
theorem takeCommand_whole (c : Command) (i : Instr) (k : ResultWhole s) :
    ResultWhole (takeCommand c (rowWork i) s) := by
  obtain e | e | e := takeCommand_cases c (rowWork i) s <;> rw [e]
  · exact k
  · exact k
  · obtain ⟨result, pointer⟩ : _ ∧ _ := checkedWork_keeps (P := fun u => u.port.result = [] ∧ u.port.readPointer = 0) c
      (rowWork i) (fun b u _ k => by rwa [(rowWork_result i b u).1, (rowWork_result i b u).2])
      (s := clearResult true (finishOwnTurn s)) ⟨rfl, rfl⟩
    exact ⟨by simp [result, pointer], fun _ => result⟩

/-- A read moves the pointer only onto or past a byte of the result (R177). -/
theorem readData_whole (k : ResultWhole s) : ResultWhole (readData s) := by
  unfold readData
  split
  · exact k
  · split
    next read =>
      obtain ⟨inside, _⟩ := List.getElem?_eq_some_iff.mp read
      exact ⟨inside, k.2⟩
    · exact k

theorem accessEffect_whole (i : Instr) (k : ResultWhole s) : ResultWhole (accessEffect i s) := by
  cases i with
  | hardwareReset => exact ⟨Nat.zero_le _, fun _ => rfl⟩
  | dataWrite v =>
    show ResultWhole (writeData v s)
    unfold writeData
    repeat' split
    all_goals exact k
  | dataRead => exact readData_whole k
  | commandWriteWhileBusy =>
    show ResultWhole (writeWhileBusy s)
    unfold writeWhileBusy
    split <;> exact k
  | badCommand code =>
    show ResultWhole (takeUnknown code s)
    unfold takeUnknown
    repeat' split
    · exact k
    · exact k
    · exact k
    · exact ⟨Nat.zero_le _, fun _ => rfl⟩
  | commandResultWritten =>
    show ResultWhole (writeResult s)
    unfold writeResult
    split
    · exact ⟨Nat.zero_le _, fun busy => absurd rfl busy⟩
    · exact k
  | _ => exact k

theorem exec_whole (h : exec i s = .next t) (k : ResultWhole s) : ResultWhole t :=
  exec_cases h (fun c _ => takeCommand_whole c i k)
    (fun _ => (lineEffect_bus i _).whole ((finishOwnTurn_bus s).whole k)) ((deadlineEffect_bus i s).whole k)
    (accessEffect_whole i k)

/-- Settles O58. -/
theorem everyStepKeepsPortAndConfiguration : Obligations.EveryStepKeepsPortAndConfiguration :=
  ⟨fun _ _ k h => step_keeps (P := ConfigLegal) (fun _ _ k => k) (fun _ _ _ e k => exec_legal e k) k h,
    fun _ _ k h => step_keeps (P := ResultWhole) (fun _ _ k => k) (fun _ _ _ e k => exec_whole e k) k h⟩

/-- Settles O59. -/
theorem invariantsHoldAtReset : Obligations.InvariantsHoldAtReset :=
  ⟨reset_bounded, reset_matches, nofun, ⟨Nat.zero_le _, fun _ => rfl⟩, reset_tables⟩

/-- Settles O1. -/
theorem stepRunsFrontCommand : Obligations.StepRunsFrontCommand :=
  ⟨fun c rest s h => by simp [step, h, State.withPending], fun s h => by simp [step, h]⟩

/-! ### The attention mask -/

/-- The two mask bits are those of `s`. -/
def MaskKept (s t : State) : Prop := t.port.maskCQ = s.port.maskCQ ∧ t.port.maskST = s.port.maskST

theorem MaskKept.trans (h : MaskKept s t) (k : MaskKept t u) : MaskKept s u := ⟨k.1.trans h.1, k.2.trans h.2⟩

theorem BusWork.maskKept (h : BusWork s t) : MaskKept s t := by
  unfold MaskKept
  rw [h.port]
  exact ⟨rfl, rfl⟩

theorem accessEffect_mask (hr : i ≠ .hardwareReset) (s : State) : MaskKept s (accessEffect i s) := by
  cases i with
  | hardwareReset => exact absurd rfl hr
  | dataWrite v =>
    show MaskKept s (writeData v s)
    unfold writeData
    repeat' split
    all_goals exact ⟨rfl, rfl⟩
  | dataRead =>
    show MaskKept s (readData s)
    unfold readData
    repeat' split
    all_goals exact ⟨rfl, rfl⟩
  | commandWriteWhileBusy =>
    show MaskKept s (writeWhileBusy s)
    unfold writeWhileBusy
    split <;> exact ⟨rfl, rfl⟩
  | badCommand code =>
    show MaskKept s (takeUnknown code s)
    unfold takeUnknown
    repeat' split
    all_goals exact ⟨rfl, rfl⟩
  | commandResultWritten =>
    show MaskKept s (writeResult s)
    unfold writeResult
    split <;> exact ⟨rfl, rfl⟩
  | _ => exact ⟨rfl, rfl⟩

theorem rowWork_mask (ha : i ≠ .setAttention) (b : List Byte) (u : State) : MaskKept u (rowWork i b u).1 := by
  by_cases hc : i = .configure
  · subst hc
    have port : (rowWork .configure b u).1.port = u.port := (configureWork_frame b u).2
    exact ⟨by rw [port], by rw [port]⟩
  · exact (rowWork_bus hc ha b u).maskKept

theorem exec_mask (ha : i ≠ .setAttention) (hr : i ≠ .hardwareReset) (h : exec i s = .next t) : MaskKept s t := by
  refine exec_cases h (fun c _ => ?_)
    (fun _ => (finishOwnTurn_bus s).maskKept.trans (lineEffect_bus i _).maskKept) (deadlineEffect_bus i s).maskKept
    (accessEffect_mask hr s)
  exact takeCommand_preserves (P := MaskKept s) c (fun _ k => k) (fun u k => k.trans (finishOwnTurn_bus u).maskKept)
    (fun _ _ k => k) (fun b u k => k.trans (rowWork_mask ha b u)) ⟨rfl, rfl⟩

end Sys2Proof.Machine

/-! SUPPORT. The two locations of the Local Port, RST#, the checks of a command and the status byte (R56, R57, R176 to R181,
R190), and that an own turn is taken whole before a command or an event of the line (R34, LOG 10). -/

namespace Sys2Proof.Machine

variable {s t u : State} {i : Instr} {p : List Byte} {c : Command}

/-! ### The data location -/

theorem exec_dataWrite_full (b : Byte) (released : s.rstAsserted = false)
    (h : s.port.taking ≠ none ∨ 32 ≤ s.port.fifo.length) :
    exec (.dataWrite b) s = .next { s with port := { s.port with overrun := true } } := by
  have dropped : (s.port.busy || decide (32 ≤ s.port.fifo.length)) = true := by
    simpa [LocalPort.busy, Option.isSome_iff_ne_none] using h
  show Host.Outcome.next (writeData b s) = _
  simp [writeData, released, dropped, setOverrun, State.withPort]

theorem exec_dataRead_none (h : s.rstAsserted = true ∨ s.port.taking ≠ none ∨ s.port.result.length ≤ s.port.readPointer) :
    exec .dataRead s = .next { s with port := { s.port with dataOut := 0 } } := by
  show Host.Outcome.next (readData s) = _
  unfold readData
  split
  · rfl
  next k =>
    simp only [LocalPort.busy, Bool.or_eq_true, Option.isSome_iff_ne_none, not_or] at k
    have ended := (h.resolve_left k.1).resolve_left k.2
    rw [List.getElem?_eq_none ended]
    rfl

/-- Settles O3. -/
theorem dataLocationAccess : Obligations.DataLocationAccess := by
  refine ⟨fun b s => ⟨fun held => ?held, fun released idle room => ?pushed, fun released => exec_dataWrite_full b released⟩,
    fun s => ⟨fun b released idle read => ?read, exec_dataRead_none⟩⟩
  case held =>
    show Host.Outcome.next (writeData b s) = _
    simp [writeData, held]
  case pushed =>
    show Host.Outcome.next (writeData b s) = _
    simp [writeData, released, idle, LocalPort.busy, Nat.not_le.mpr room, State.withPort]
  case read =>
    show Host.Outcome.next (readData s) = _
    simp [readData, released, idle, LocalPort.busy, read, State.withPort]

/-! ### BUSY and RST# at the command location -/

/-- The rows that write to the command/status location. -/
def WritesCommand (i : Instr) : Prop :=
  i = .commandWriteWhileBusy ∨ (∃ code, i = .badCommand code) ∨ (commandRow i).isSome = true

theorem exec_busy (h : WritesCommand i) (released : s.rstAsserted = false) (busy : s.port.taking ≠ none) :
    exec i s = .next (setOverrun s) := by
  have busy' : s.port.busy = true := Option.isSome_iff_ne_none.mpr busy
  obtain rfl | ⟨code, rfl⟩ | h := h
  · show Host.Outcome.next (writeWhileBusy s) = _
    simp [writeWhileBusy, released, busy']
  · show Host.Outcome.next (takeUnknown code s) = _
    simp [takeUnknown, released, busy']
  · obtain ⟨c, hc⟩ := Option.isSome_iff_exists.mp h
    simp [exec_command hc, takeCommand, released, busy']

/-- Settles O4. -/
theorem busyWindow : Obligations.BusyWindow := by
  refine ⟨fun i s h released busy => exec_busy h released busy, fun r s h => ?_⟩
  show Host.Outcome.next (writeResult s) = _
  simp [writeResult, h, State.withPort]

/-- Settles O6. -/
theorem resetPinHeldAndReleased : Obligations.ResetPinHeldAndReleased := by
  refine ⟨fun i s held h => ?_, fun s => rfl⟩
  obtain rfl | ⟨code, rfl⟩ | ⟨b, rfl⟩ | h := h
  · show Host.Outcome.next (writeWhileBusy s) = _
    simp [writeWhileBusy, held]
  · show Host.Outcome.next (takeUnknown code s) = _
    simp [takeUnknown, held]
  · show Host.Outcome.next (writeData b s) = _
    simp [writeData, held]
  · obtain ⟨c, hc⟩ := Option.isSome_iff_exists.mp h
    simp [exec_command hc, takeCommand, held]

/-! ### Hardware reset -/

/-- Settles O9. -/
theorem resetEmptiesItemQueue : Obligations.ResetEmptiesItemQueue := fun s =>
  ⟨resetPart s, rfl, rfl, rfl, rfl, rfl, rfl, rfl, rfl, rfl, rfl⟩

/-- Settles O10. -/
theorem resetFreesDirectory : Obligations.ResetFreesDirectory := fun s =>
  ⟨resetPart s, rfl, fun m => look_replicate _ m, rfl, rfl, rfl, rfl, rfl, rfl, rfl⟩

/-- Settles O11. -/
theorem resetValuesOfBlocks : Obligations.ResetValuesOfBlocks := by
  intro s
  refine ⟨resetPart s, rfl, rfl, ⟨rfl, rfl, rfl, rfl, rfl, rfl, rfl⟩, ⟨rfl, rfl, rfl, rfl⟩, fun x => look_replicate _ x,
    fun h => ?slot, fun c => look_replicate _ c, fun w => look_replicate _ w, fun d => look_replicate _ d,
    fun x => look_replicate _ x, rfl, rfl, fun i => ?entry, rfl, fun h => look_replicate _ h,
    ⟨rfl, rfl, rfl, rfl, rfl, rfl, rfl, rfl, rfl, rfl, rfl⟩⟩
  case slot =>
    have blank : hostedSlot h (resetPart s) = HostedSlot.blank := look_replicate _ h
    rw [blank]
    rfl
  case entry =>
    have blank : entry i (resetPart s) = Entry.blank 0 := look_replicate _ i
    rw [blank]
    exact ⟨rfl, rfl⟩

/-! ### The checks of a command -/

/-- Check 2 of R180 fails exactly where the station state does not permit the command. -/
theorem permitted_eq_false_iff (c : Command) (st : StationState) : permitted c st = false ↔ NotPermitted c st := by
  cases c <;> cases st <;> simp [permitted, NotPermitted]

/-- Check 3 of R180 fails exactly on a wrong number of parameter bytes. -/
theorem lengthFits_eq_false_iff (c : Command) (p : List Byte) : lengthFits c p = false ↔ WrongLength c p := by
  cases c with
  | put =>
    match p with
    | [] => simp [lengthFits, WrongLength]
    | [m] => simp [lengthFits, WrongLength]
    | m :: l :: rest =>
      simp only [lengthFits, WrongLength, ne_eq, not_true_eq_false, false_and, true_and, false_or, decide_eq_false_iff_not]
      exact ⟨fun h m' l' rest' e => by cases e; exact h, fun h => h m l rest rfl⟩
  | _ => simp [lengthFits, WrongLength, parameterCount]

theorem commandOfCode_eq_none {code : Byte} (h : ∀ c, commandCode c ≠ code) : commandOfCode code = none := by
  simp [commandOfCode, h]

/-- A command that its station state does not permit leaves BAD_STATE. -/
theorem exec_badState (row : commandRow i = some c) (ready : CommandReady p s) (h : NotPermitted c s.control.state) :
    exec i s = .next (taken [0x81] s) := by
  have refused : permitted c (begun s).control.state = false := (permitted_eq_false_iff c _).mpr h
  rw [exec_command row, takeCommand_ready ready, checkedWork_state refused]
  rfl

/-- Settles O5. -/
theorem commandCheckRefusals : Obligations.CommandCheckRefusals := by
  refine ⟨fun code s unknown released idle => ?_, fun i c p s row ready => exec_badState row ready,
    fun i c p s row ready allowed wrong => ?_⟩
  · show Host.Outcome.next (takeUnknown code s) = _
    simp [takeUnknown, released, LocalPort.busy, idle, commandOfCode_eq_none unknown, holdResult, clearResult,
      State.withPort, only, statusCode]
  · rw [← permitted_eq_false_iff, Bool.not_eq_false] at allowed
    rw [exec_command row, takeCommand_length ready allowed ((lengthFits_eq_false_iff c p).mpr wrong)]

/-! ### An own turn is taken whole -/

theorem offerTurn_open (s : State) : (offerTurn s).tracker.ownTurnOpen = s.tracker.ownTurnOpen := by
  unfold offerTurn
  split
  · unfold offerActive
    dsimp only
    split <;> rfl
  · rfl
  · rfl

theorem finishOwnTurn_closed (h : s.tracker.ownTurnOpen = false) : finishOwnTurn s = s := by simp [finishOwnTurn, h]

theorem finishOwnTurn_opened (h : s.tracker.ownTurnOpen = true) :
    finishOwnTurn s = closeOwnTurn (actOnDeadlines s) := by simp [finishOwnTurn, h]

theorem finishOwnTurn_open (s : State) : (finishOwnTurn s).tracker.ownTurnOpen = false := by
  cases h : s.tracker.ownTurnOpen with
  | false => rw [finishOwnTurn_closed h, h]
  | true => rw [finishOwnTurn_opened h, closeOwnTurn, offerTurn_open]; rfl

/-- An own turn that has been taken to its end is over. -/
theorem finishOwnTurn_twice (s : State) : finishOwnTurn (finishOwnTurn s) = finishOwnTurn s :=
  finishOwnTurn_closed (finishOwnTurn_open s)

/-- A part that takes a command finds the own turn taken whole first. -/
theorem takeCommand_finishOwnTurn (work : Work) (released : s.rstAsserted = false) (idle : s.port.taking = none) :
    takeCommand c work s = takeCommand c work (finishOwnTurn s) := by
  have pin : (finishOwnTurn s).rstAsserted = false := (finishOwnTurn_bus s).rstAsserted.trans released
  have busy : (finishOwnTurn s).port.taking = none := (finishOwnTurn_bus s).result.2.2.trans idle
  simp [takeCommand, released, pin, LocalPort.busy, idle, busy, finishOwnTurn_twice]

theorem actOnEntry_of_not_due {i : Fin 16} (h : (entry i s).deadline ≠ some s.tracker.ownTurnCount) :
    actOnEntry i s = s := by simp [actOnEntry, entryDue, h]

/-- A deadline row acts on the lowest entry whose deadline is reached. -/
theorem actOnDueEntry_lowest {i : Fin 16} {f : EntryState → Bool}
    (h : Lowest (fun j => (entry j s).deadline = some s.tracker.ownTurnCount) i) (k : f (entry i s).state = true) :
    actOnDueEntry f s = settle (actOnEntry i s) := by
  have found : dueEntry s = some i := find_lowest (h.congr fun j => by simp [entryDue])
  simp [actOnDueEntry, found, k]

theorem waiterDue_iff (w : Fin 32) (s : State) :
    waiterDue w s = true ↔ ∃ r, waiter w s = some r ∧ r.deadline = some s.tracker.ownTurnCount := by
  cases h : waiter w s <;> simp [waiterDue, h]

theorem deliveryDue_iff (d : Fin 8) (s : State) :
    deliveryDue d s = true ↔ ∃ x, delivery d s = some x ∧ x.state = .sent s.tracker.ownTurnCount := by
  cases h : delivery d s <;> simp [deliveryDue, h]

theorem expireDueWaiter_lowest {w : Fin 32}
    (h : Lowest (fun v => ∃ r, waiter v s = some r ∧ r.deadline = some s.tracker.ownTurnCount) w) :
    expireDueWaiter s = settle (actOnWaiter w s) := by
  have found : dueWaiter s = some w := find_lowest (h.congr fun v => (waiterDue_iff v s).symm)
  simp [expireDueWaiter, found]

theorem actOnDueDelivery_lowest {d : Fin 8}
    (h : Lowest (fun e => ∃ x, delivery e s = some x ∧ x.state = .sent s.tracker.ownTurnCount) d)
    (k : ∀ w r, waiter w s = some r → r.deadline ≠ some s.tracker.ownTurnCount) :
    actOnDueDelivery s = settle (actOnDelivery d s) := by
  have noWaiter : dueWaiter s = none := find_none fun w => by
    rw [Bool.eq_false_iff, ne_eq, waiterDue_iff]
    rintro ⟨r, hr, due⟩
    exact k w r hr due
  have found : dueDelivery s = some d := find_lowest (h.congr fun e => (deliveryDue_iff e s).symm)
  simp [actOnDueDelivery, noWaiter, found]

/-- Settles O7. The own turn is taken first by every command that is taken and by every event of the line, and a second
time it finds nothing to take. -/
theorem ownTurnIsTakenWhole : Obligations.OwnTurnIsTakenWhole := by
  refine ⟨?first, fun s => ⟨finishOwnTurn_closed, fun opened => ?whole⟩, ?entries, ?waiters, ?slots, ?offer⟩
  case first =>
    rintro i s (event | ⟨row, released, idle⟩)
    · rw [exec_lineEvent event, exec_lineEvent event, finishOwnTurn_twice]
    · obtain ⟨c, hc⟩ := Option.isSome_iff_exists.mp row
      rw [exec_command hc, exec_command hc, takeCommand_finishOwnTurn _ released idle]
  case whole =>
    simp only [finishOwnTurn_opened opened, closeOwnTurn, actOnDeadlines, forEach, State.withTracker]
  case entries =>
    intro i s
    refine ⟨actOnEntry_of_not_due, fun due => ?acts, fun lowest => ⟨fun st => ?_, fun st => ?_, fun st => ?_⟩⟩
    case acts =>
      have due' : entryDue i s = true := by simpa [entryDue] using due
      refine ⟨?_, fun st => by simp [actOnEntry, due', st], fun st => by simp [actOnEntry, due', st], fun st => ?_⟩
      · rintro (st | st) <;> simp [actOnEntry, due', st]
      · simp only [actOnEntry, due', if_true]
        split <;> simp_all
    · exact congrArg _ (actOnDueEntry_lowest lowest (by simpa [hasReplyDeadline] using st))
    · exact congrArg _ (actOnDueEntry_lowest (f := fun st => st = .parked) lowest (by simpa using st))
    · exact congrArg _ (actOnDueEntry_lowest (f := fun st => st = .late) lowest (by simpa using st))
  case waiters =>
    intro w s
    refine ⟨fun h => ?_, fun h => ?_, fun lowest => congrArg _ (expireDueWaiter_lowest lowest)⟩
    · simp [actOnWaiter, mt (waiterDue_iff w s).mp h]
    · simp [actOnWaiter, (waiterDue_iff w s).mpr h]
  case slots =>
    intro d s
    refine ⟨fun h => ?_, fun h => ?_, fun lowest none => congrArg _ (actOnDueDelivery_lowest lowest none)⟩
    · simp [actOnDelivery, mt (deliveryDue_iff d s).mp h]
    · simp [actOnDelivery, (deliveryDue_iff d s).mpr h]
  case offer =>
    intro s h k
    simp [settle, h, k, closeOwnTurn, State.withTracker]

/-! ### The status byte and the pins -/

/-- The six flags and the state code of the status byte stand in bits of their own (R178, 12.3). -/
theorem statusByte_bits (busy result cq attn overrun lost : Bool) (st : StationState) :
    let b := byteOf ((if busy then 0x80 else 0) + (if result then 0x40 else 0) + (if cq then 0 else 0x20) +
      (if attn then 0x10 else 0) + (if overrun then 0x08 else 0) + (if lost then 0x04 else 0) + (stateCode st).toNat)
    b.getLsbD 7 = busy ∧ b.getLsbD 6 = result ∧ b.getLsbD 5 = !cq ∧ b.getLsbD 4 = attn ∧ b.getLsbD 3 = overrun ∧
      b.getLsbD 2 = lost ∧ b.extractLsb' 0 2 = (stateCode st).extractLsb' 0 2 := by
  cases st <;> revert busy result cq attn overrun lost <;> decide

theorem statusByte_flags (s : State) :
    ((statusByte s).getLsbD 7 = true ↔ s.port.taking ≠ none) ∧
    ((statusByte s).getLsbD 6 = true ↔ s.port.readPointer < s.port.result.length) ∧
    ((statusByte s).getLsbD 5 = true ↔ s.port.completions ≠ []) ∧
    ((statusByte s).getLsbD 4 = true ↔ attention s = true) ∧
    ((statusByte s).getLsbD 3 = true ↔ s.port.overrun = true) ∧
    ((statusByte s).getLsbD 2 = true ↔ s.port.noticeLost = true) ∧
    (statusByte s).extractLsb' 0 2 = (stateCode s.control.state).extractLsb' 0 2 := by
  obtain ⟨h7, h6, h5, h4, h3, h2, h0⟩ := statusByte_bits s.port.busy
    (decide (s.port.readPointer < s.port.result.length)) s.port.completions.isEmpty (attention s) s.port.overrun
    s.port.noticeLost s.control.state
  simp only [decide_eq_true_eq] at h7 h6 h5 h4 h3 h2 h0
  unfold statusByte
  refine ⟨by rw [h7]; simp [LocalPort.busy, Option.isSome_iff_ne_none], by rw [h6]; simp, by rw [h5]; simp,
    by rw [h4], by rw [h3], by rw [h2], h0⟩

/-- In a valid configuration a byte time is ten bit times. -/
theorem byteTime_bitTime (h : s.control.config ≠ none) : byteTime s = 10 * bitTime s ∧ 0 < bitTime s := by
  obtain ⟨c, hc⟩ := Option.ne_none_iff_exists'.mp h
  simp [byteTime, bitTime, hc, byteTimeAt_bitTimeAt, bitTimeAt_pos]

/-- The place of a moment among the bit times of characters sent back to back. -/
theorem bit_place {start m byte bit k j : Nat} (ten : byte = 10 * bit) (low : start + k * byte + j * bit ≤ m)
    (high : m < start + k * byte + (j + 1) * bit) : (m - start) / bit = 10 * k + j := by
  have at_low : start + (10 * k + j) * bit = start + k * byte + j * bit := by rw [ten]; ring
  have at_high : start + (10 * k + j + 1) * bit = start + k * byte + (j + 1) * bit := by rw [ten]; ring
  exact Nat.div_eq_of_lt_le (by omega) (by omega)

theorem bit_place_after {start m byte bit n : Nat} (ten : byte = 10 * bit) (pos : 0 < bit) (h : start + n * byte ≤ m) :
    10 * n ≤ (m - start) / bit := by
  have at_end : 10 * n * bit = n * byte := by rw [ten]; ring
  rw [Nat.le_div_iff_mul_le pos]
  omega

/-- After its last stop bit the own frame leaves the line idle (R14). -/
theorem txdPin_after {m : Moment} (sending : s.line.tx = .sending) (valid : s.control.config ≠ none)
    (h : s.line.txStart + (withCrc s.line.txBuffer).length * byteTime s ≤ m) : txdPin m s = .idle := by
  obtain ⟨ten, pos⟩ := byteTime_bitTime valid
  rw [txdPin_sending sending (Nat.le_trans (Nat.le_add_right _ _) h), List.getElem?_eq_none, Option.getD_none]
  rw [frameLevels_length]
  exact bit_place_after ten pos h

/-- Bit time `j` of character `k` of the own frame (R1, R14). -/
theorem txdPin_bit {m : Moment} {k j : Nat} {b : Byte} (sending : s.line.tx = .sending)
    (valid : s.control.config ≠ none) (char : (withCrc s.line.txBuffer)[k]? = some b) (hj : j < 10)
    (low : s.line.txStart + k * byteTime s + j * (byteTime s / 10) ≤ m)
    (high : m < s.line.txStart + k * byteTime s + (j + 1) * (byteTime s / 10)) :
    txdPin m s = if j = 0 then .active else if j = 9 then .idle else if b.getLsbD (j - 1) then .idle else .active := by
  obtain ⟨ten, _⟩ := byteTime_bitTime valid
  have bit : byteTime s / 10 = bitTime s := by rw [ten]; exact Nat.mul_div_cancel_left _ (by decide)
  rw [bit] at low high
  have begun : s.line.txStart ≤ m := Nat.le_trans (Nat.le_trans (Nat.le_add_right _ _) (Nat.le_add_right _ _)) low
  rw [txdPin_sending sending begun, bit_place ten low high, frameLevels_get _ _ _ hj, sentCharacters, char,
    Option.bind_some, charLevels_get b j hj, Option.getD_some]

/-- Settles O8. -/
theorem statusByteAndAttention : Obligations.StatusByteAndAttention := by
  refine ⟨statusByte_flags, fun s => ⟨?_, by simp [attnPin]⟩, fun s => by simp [txePin], fun m s =>
    ⟨fun off => by simp [txdPin, off], fun breaking h => by simp [txdPin, breaking, h], txdPin_after,
      fun k j b sending valid char hj low high => txdPin_bit sending valid char hj low high⟩⟩
  simp [attention]

end Sys2Proof.Machine

/-! SUPPORT. The commands of the local processor, each from the state `begun`: what its work is where its checks pass and
where they fail (R43 to R55, R84, R89, R93, R104, R119, R125, R135, R165, R186 to R193). -/

namespace Sys2Proof.Machine

variable {s t u : State} {i : Instr} {p : List Byte} {c : Command}

/-! ### What the taking of a command leaves the blocks -/

@[simp] theorem begun_entry (i : Fin 16) (s : State) : entry i (begun s) = entry i s := rfl
@[simp] theorem begun_entryTag (i : Fin 16) (s : State) : entryTag i (begun s) = entryTag i s := rfl
@[simp] theorem begun_freeEntry (s : State) : freeEntry (begun s) = freeEntry s := rfl
@[simp] theorem begun_exchangeOpen (x : Fin 32) (s : State) : exchangeOpen x (begun s) = exchangeOpen x s := rfl
@[simp] theorem begun_itemOnAir (i : Fin 16) (s : State) : itemOnAir i (begun s) = itemOnAir i s := rfl
@[simp] theorem begun_dirEntry (m : Fin 64) (s : State) : dirEntry m (begun s) = dirEntry m s := rfl
@[simp] theorem begun_hostedSlot (h : Fin 16) (s : State) : hostedSlot h (begun s) = hostedSlot h s := rfl
@[simp] theorem begun_openSlotOf (m : Fin 64) (s : State) : openSlotOf m (begun s) = openSlotOf m s := rfl
@[simp] theorem begun_usedSlotOf (m : Fin 64) (s : State) : usedSlotOf m (begun s) = usedSlotOf m s := rfl
@[simp] theorem begun_freeHosted (s : State) : freeHosted (begun s) = freeHosted s := rfl
@[simp] theorem begun_freeWaiter (s : State) : freeWaiter (begun s) = freeWaiter s := rfl
@[simp] theorem begun_placement (h : Fin 16) (s : State) : placement h (begun s) = placement h s := rfl
@[simp] theorem begun_cell (c : Fin 64) (s : State) : cell c (begun s) = cell c s := rfl
@[simp] theorem begun_self (s : State) : self (begun s) = self s := rfl
@[simp] theorem begun_cycleLength (s : State) : cycleLength (begun s) = cycleLength s := rfl

/-- SEEKING and ACTIVE permit every command but CONFIGURE and JOIN (R56). -/
theorem permitted_of_onBus (on : OnBus s) (h : c ≠ .configure) (k : c ≠ .join) : permitted c s.control.state = true := by
  obtain e | e := on <;> rw [e] <;> cases c <;> first | rfl | exact absurd rfl h | exact absurd rfl k

/-- A command that passes the common checks leaves what its work makes of the state `begun`. -/
theorem exec_of_work {r : List Byte} (work : Work) (row : commandRow i = some c) (run : rowWork i = work)
    (ready : CommandReady p s) (perm : permitted c s.control.state = true) (fits : lengthFits c p = true)
    (h : work p (begun s) = (u, r)) : exec i s = .next (answered r u) := by
  rw [exec_command row, takeCommand_work ready perm fits, run, h]

/-! ### Parameter bytes -/

theorem below_eq_none {n : Nat} {b : Byte} (h : n ≤ b.toNat) : below n b = none := by
  simp [below, Nat.not_lt.mpr h]

theorem byteOf_toNat (b : Byte) : byteOf b.toNat = b := by simp [byteOf]

theorem below_of_lt {n : Nat} {b : Byte} (h : b.toNat < n) : below n b = some ⟨b.toNat, h⟩ := by simp [below, h]

/-! ### Session commands -/

theorem parseConfig_of_legal (c : StationConfig) (h1 : 2 ≤ c.cycle) (h2 : c.cycle ≤ 32) (h3 : c.station.val < c.cycle)
    (h4 : 4 ≤ c.window) (h5 : c.window ≤ 15) (h6 : 2 ≤ c.replyLimit) (h7 : c.replyLimit ≤ 15) :
    parseConfig [byteOf c.station.val, byteOf c.cycle, byteOf c.rate.val, byteOf c.window, byteOf c.replyLimit] =
      some c := by
  have station := toNat_byteOf (n := c.station.val) (by omega)
  have cycle := toNat_byteOf (n := c.cycle) (by omega)
  have rate := toNat_byteOf (n := c.rate.val) (by omega)
  have window := toNat_byteOf (n := c.window) (by omega)
  have limit := toNat_byteOf (n := c.replyLimit) (by omega)
  simp [parseConfig, *]

theorem parseConfig_outside {n m r w l : Byte}
    (h : m.toNat < 2 ∨ 32 < m.toNat ∨ m.toNat ≤ n.toNat ∨ 3 < r.toNat ∨ w.toNat < 4 ∨ 15 < w.toNat ∨ l.toNat < 2 ∨
      15 < l.toNat) : parseConfig [n, m, r, w, l] = none := by
  unfold parseConfig
  dsimp only
  repeat' split
  · omega
  all_goals rfl

/-- Settles O12. -/
theorem configureEffect : Obligations.ConfigureEffect := by
  refine ⟨fun c s st h1 h2 h3 h4 h5 h6 h7 ready => ?_, fun n m r w l s st ready h => ?_⟩
  · refine exec_of_work configureWork rfl rfl ready (by simp [permitted, st]) rfl ?_
    simp [configureWork, parseConfig_of_legal c h1 h2 h3 h4 h5 h6 h7, only, statusCode, signature]
  · refine exec_of_work configureWork rfl rfl ready (by simp [permitted, st]) rfl ?_
    simp [configureWork, parseConfig_outside h, only, statusCode]

/-- Settles O13. -/
theorem joinStartsSession : Obligations.JoinStartsSession := by
  intro m active s st ready
  have perm : permitted .join s.control.state = true := by simp [permitted, st]
  refine ⟨fun valid => exec_of_work (joinWork m active) rfl rfl ready perm rfl ?_, fun invalid => exec_of_work (joinWork m active) rfl rfl ready perm rfl ?_⟩
  · have some : s.control.config.isSome = true := Option.isSome_iff_ne_none.mpr valid
    by_cases breaking : s.line.tx = .breaking <;> simp [breaking, joinWork, some, startSession, enterState, LineUnit.started, TurnTracker.started, RosterEntry.blank,
      Directory.reset, only, statusCode]
  · show joinWork m active [] (begun s) = _
    simp [joinWork, invalid, only, statusCode]

/-- Settles O15. -/
theorem readStatusReport : Obligations.ReadStatusReport := by
  intro s ready
  refine exec_of_work readStatusWork rfl rfl ready rfl rfl ?_
  have live : countEntries isLive s = countEntries (fun e => e.state ≠ .free ∧ e.state ≠ .held) s := by
    simp [countEntries, isLive]
  have report : statusReport (begun s) = statusReport s := rfl
  rw [readStatusWork, report, statusReport, live]
  rfl

/-! ### Directory and roster commands -/

theorem freeHosted_lowest {h : Fin 16} (k : Lowest (fun h => (hostedSlot h s).state = .free) h) :
    freeHosted s = some h := find_lowest (k.congr fun _ => by simp)

theorem freeEntry_lowest {i : Fin 16} (k : Lowest (fun i => (entry i s).state = .free) i) : freeEntry s = some i :=
  find_lowest (k.congr fun _ => by simp)

theorem freeWaiter_lowest {w : Fin 32} (k : Lowest (fun w => waiter w s = none) w) : freeWaiter s = some w :=
  find_lowest (k.congr fun _ => by simp)

theorem freeCell_lowest {c : Fin 64} (k : Lowest (fun c => cell c s = none) c) : freeCell s = some c :=
  find_lowest (k.congr fun _ => by simp)

theorem freeDeliverySlot_lowest {d : Fin 8} (k : Lowest (fun d => delivery d s = none) d) :
    freeDeliverySlot s = some d := find_lowest (k.congr fun _ => by simp)

theorem freeHosted_none (k : ∀ h : Fin 16, (hostedSlot h s).state ≠ .free) : freeHosted s = none :=
  find_none fun h => by simpa using k h

theorem freeEntry_none (k : ∀ i : Fin 16, (entry i s).state ≠ .free) : freeEntry s = none :=
  find_none fun i => by simpa using k i

theorem freeWaiter_none (k : ∀ w : Fin 32, waiter w s ≠ none) : freeWaiter s = none :=
  find_none fun w => by simpa [Option.ne_none_iff_isSome] using k w

theorem freeCell_none (k : ∀ c : Fin 64, cell c s ≠ none) : freeCell s = none :=
  find_none fun c => by simpa [Option.ne_none_iff_isSome] using k c

theorem freeDeliverySlot_none (k : ∀ d : Fin 8, delivery d s ≠ none) : freeDeliverySlot s = none :=
  find_none fun d => by simpa [Option.ne_none_iff_isSome] using k d

theorem freeHosted_exists (k : ∃ h : Fin 16, (hostedSlot h s).state = .free) : ∃ h, freeHosted s = some h := by
  obtain ⟨h, free⟩ := k
  exact Option.isSome_iff_exists.mp (List.find?_isSome.mpr ⟨h, List.mem_finRange h, by simpa using free⟩)

theorem freeEntry_exists (k : ∃ i : Fin 16, (entry i s).state = .free) : ∃ i, freeEntry s = some i := by
  obtain ⟨i, free⟩ := k
  exact Option.isSome_iff_exists.mp (List.find?_isSome.mpr ⟨i, List.mem_finRange i, by simpa using free⟩)

/-- Checks 2 and 3 of R89 pass for a number that is FREE or ORPHANED. -/
theorem openCheck_claimable {m : Fin 64} (h : dirEntry m s = .free ∨ ∃ x, dirEntry m s = .orphaned x) :
    openCheck m s = openRoom s := by
  obtain h | ⟨x, h⟩ := h <;> simp [openCheck, h]

theorem openWork_inRange {m : Fin 64} {b : Byte} (low : 1 ≤ b.toNat) (high : b.toNat ≤ 32) (s : State) :
    openWork [byteOf m.val, b] s = openMailboxAt m b.toNat s := by
  simp [openWork, below_byteOf m (by omega), low, high]

/-- An entry set and then queued with its request item. -/
theorem queueRequest_setEntry (i : Fin 16) (e : Entry) (s : State) :
    queueRequest i (setEntry i e s) =
      { s with
        engine :=
          { s.engine with entries := put s.engine.entries i { e with state := .queued, deadline := none } }
        queue := { s.queue with classB := s.queue.classB ++ [newItem (requestItem i e) (.entry i)] } } := by
  simp [queueRequest, enqueueB, setEntry, entry, put_put, State.withEngine, State.withQueue]

/-- An entry set and then queued with its CANCEL. -/
theorem queueCancel_setEntry (i : Fin 16) (e : Entry) (s : State) :
    queueCancel i (setEntry i e s) =
      { s with
        engine :=
          { s.engine with entries := put s.engine.entries i { e with state := .cancelQueued, deadline := none } }
        queue := { s.queue with classB := s.queue.classB ++ [newItem (cancelItem i e) (.entry i)] } } := by
  simp [queueCancel, enqueueB, setEntry, entry, put_put, State.withEngine, State.withQueue]

/-- Settles O16. -/
theorem openClaimsMailbox : Obligations.OpenClaimsMailbox := by
  intro m depth h i s on low high ready claimable slot free
  have depth' : (byteOf depth).toNat = depth := toNat_byteOf (by omega)
  refine exec_of_work openWork rfl rfl ready (permitted_of_onBus on (by simp) (by simp)) rfl ?_
  rw [openWork_inRange (by omega) (by omega), depth']
  simp only [openMailboxAt, openCheck_claimable (s := begun s) claimable, openRoom, begun_freeHosted, begun_freeEntry,
    freeHosted_lowest slot, freeEntry_lowest free, openTaken, broadcastRequest, queueRequest_setEntry]
  rfl

/-- OPEN is refused with one status byte. -/
theorem exec_open_refused {m : Fin 64} {a b : Byte} {st : Status} (on : OnBus s) (ready : CommandReady [a, b] s)
    (ha : a = byteOf m.val) (low : 1 ≤ b.toNat) (high : b.toNat ≤ 32) (h : openCheck m s = .refused st) :
    exec .openMailbox s = .next (taken (only st) s) := by
  subst ha
  refine exec_of_work openWork rfl rfl ready (permitted_of_onBus on (by simp) (by simp)) rfl ?_
  have check : openCheck m (begun s) = .refused st := h
  rw [openWork_inRange low high, openMailboxAt, check]

theorem exec_open_badParam {a b : Byte} (on : OnBus s) (ready : CommandReady [a, b] s)
    (h : 64 ≤ a.toNat ∨ b.toNat = 0 ∨ 32 < b.toNat) : exec .openMailbox s = .next (taken [0x83] s) := by
  refine exec_of_work openWork rfl rfl ready (permitted_of_onBus on (by simp) (by simp)) rfl ?_
  by_cases high : 64 ≤ a.toNat
  · simp only [openWork, below_eq_none high]
    rfl
  · have depth : ¬ (1 ≤ b.toNat ∧ b.toNat ≤ 32) := by omega
    simp only [openWork, below_of_lt (Nat.not_le.mp high), depth, if_false]
    rfl

theorem closeWork_inRange (m : Fin 64) (s : State) : closeWork [byteOf m.val] s = closeMailboxAt m s := by
  simp [closeWork, below_byteOf m (by omega)]

/-- Settles O17. -/
theorem mailboxCommandRefusals : Obligations.MailboxCommandRefusals := by
  refine ⟨fun a b s on ready => ⟨exec_open_badParam on ready, fun m ha low high => ⟨?_, fun x other homed => ?_, ?_⟩⟩,
    fun a s on ready => ⟨fun high => ?_, fun m ha => ⟨fun elsewhere => ?_, fun here full => ?_⟩⟩⟩
  · rintro (h | h) <;> exact exec_open_refused on ready ha low high (st := .already) (by simp [openCheck, h])
  · exact exec_open_refused on ready ha low high (st := .taken) (by simp [openCheck, homed, other])
  · intro claimable
    refine ⟨fun noSlot => ?_, fun slot full => ?_⟩
    · exact exec_open_refused on ready ha low high (st := .noSlot)
        (by rw [openCheck_claimable claimable, openRoom, freeHosted_none noSlot])
    · obtain ⟨h, found⟩ := freeHosted_exists slot
      exact exec_open_refused on ready ha low high (st := .tableFull)
        (by simp only [openCheck_claimable claimable, openRoom, found, freeEntry_none full])
  · refine exec_of_work closeWork rfl rfl ready (permitted_of_onBus on (by simp) (by simp)) rfl ?_
    simp only [closeWork, below_eq_none high]
    rfl
  · subst ha
    refine exec_of_work closeWork rfl rfl ready (permitted_of_onBus on (by simp) (by simp)) rfl ?_
    simp [closeWork_inRange, closeMailboxAt, elsewhere, only, statusCode]
  · subst ha
    refine exec_of_work closeWork rfl rfl ready (permitted_of_onBus on (by simp) (by simp)) rfl ?_
    simp [closeWork_inRange, closeMailboxAt, here, freeEntry_none full, only, statusCode]

/-- Settles O20. -/
theorem readoutContinues : Obligations.ReadoutContinues := by
  intro s ready
  refine ⟨fun c cursor => exec_readDirectoryContinue ready cursor, fun none => ?_⟩
  refine exec_of_work readDirectoryContinueWork rfl rfl ready rfl rfl ?_
  simp [readDirectoryContinueWork, none, only, statusCode]

/-- The first `n` places of a table are those with a number below `n`. -/
theorem finRange_filter_lt (k n : Nat) : (List.finRange k).filter (fun x => decide (x.val < n)) = (List.finRange k).take n := by
  have first : ((List.finRange k).take n).filter (fun x => decide (x.val < n)) = (List.finRange k).take n := by
    rw [List.filter_eq_self]
    intro x hx
    obtain ⟨j, hj, rfl⟩ := List.mem_take_iff_getElem.mp hx
    simp only [List.getElem_finRange, Fin.val_cast, decide_eq_true_eq]
    omega
  have rest : ((List.finRange k).drop n).filter (fun x => decide (x.val < n)) = [] := by
    rw [List.filter_eq_nil_iff]
    intro x hx
    obtain ⟨j, hj, rfl⟩ := List.mem_drop_iff_getElem.mp hx
    simp only [List.getElem_finRange, Fin.val_cast, decide_eq_true_eq]
    omega
  calc (List.finRange k).filter (fun x => decide (x.val < n))
      = ((List.finRange k).take n ++ (List.finRange k).drop n).filter fun x => decide (x.val < n) := by
        rw [List.take_append_drop]
    _ = (List.finRange k).take n := by rw [List.filter_append, first, rest, List.append_nil]

theorem roster_toList (s : State) : s.roster.toList = (List.finRange 32).map fun x => rosterEntry x s := by
  refine List.ext_getElem (by simp) fun j h1 h2 => ?_
  simp [rosterEntry, look]

/-- Settles O21. -/
theorem readRosterReport : Obligations.ReadRosterReport := by
  intro s ready _
  refine exec_of_work readRosterWork rfl rfl ready rfl rfl ?_
  have bytes : (s.roster.toList.take (cycleLength s)).map rosterByte =
      ((List.finRange 32).filter fun x => decide (x.val < cycleLength s)).map fun x => rosterByte (rosterEntry x s) := by
    rw [roster_toList, finRange_filter_lt, ← List.map_take, List.map_map]
    rfl
  simp [readRosterWork, bytes, only, statusCode]

/-! ### PUT and TAKE -/

theorem putWork_inRange {m : Fin 64} {l : Byte} {data : List Byte} (low : 1 ≤ l.toNat) (high : l.toNat ≤ 24) (s : State) :
    putWork (byteOf m.val :: l :: data) s = putAt m data s := by
  simp [putWork, below_byteOf m (by omega), low, high]

/-- PUT of a mailbox with data of 1 to 24 bytes passes the checks before those of its home. -/
theorem exec_put {m : Fin 64} {data : List Byte} {r : List Byte} (on : OnBus s) (low : 1 ≤ data.length)
    (high : data.length ≤ 24) (ready : CommandReady (byteOf m.val :: byteOf data.length :: data) s)
    (h : putAt m data (begun s) = (u, r)) : exec .put s = .next (answered r u) := by
  have length : (byteOf data.length).toNat = data.length := toNat_byteOf (by omega)
  refine exec_of_work putWork rfl rfl ready (permitted_of_onBus on (by simp) (by simp)) ?_ ?_
  · simp only [lengthFits, length, List.length_cons, decide_eq_true_eq]
    omega
  · rw [putWork_inRange (by omega) (by omega), h]

theorem takeWork_inRange (m : Fin 64) (q : Fin 4) (w : Byte) (s : State) :
    takeWork [byteOf m.val, byteOf q.val, w] s = takeAt m q w s := by
  simp [takeWork, below_byteOf m (by omega), below_byteOf q (by omega)]

/-- TAKE with its parameters in range passes the checks before those of its home. -/
theorem exec_take {m : Fin 64} {q : Fin 4} {w : Byte} {r : List Byte} (on : OnBus s)
    (ready : CommandReady [byteOf m.val, byteOf q.val, w] s) (h : takeAt m q w (begun s) = (u, r)) :
    exec .take s = .next (answered r u) := by
  refine exec_of_work takeWork rfl rfl ready (permitted_of_onBus on (by simp) (by simp)) rfl ?_
  rw [takeWork_inRange, h]

theorem putAt_remote {m : Fin 64} {x : Fin 32} (data : List Byte) (home : dirEntry m s = .homed x) (other : x ≠ self s) :
    putAt m data s = putRemote m x data s := by simp [putAt, home, other]

theorem putAt_local {m : Fin 64} (data : List Byte) (home : dirEntry m s = .homed (self s)) :
    putAt m data s = putLocal m data s := by simp [putAt, home]

theorem takeAt_remote {m : Fin 64} {x : Fin 32} (q : Fin 4) (w : Byte) (home : dirEntry m s = .homed x)
    (other : x ≠ self s) : takeAt m q w s = takeRemote m x q w s := by simp [takeAt, home, other]

theorem takeAt_local {m : Fin 64} (q : Fin 4) (w : Byte) (home : dirEntry m s = .homed (self s)) :
    takeAt m q w s = takeLocal m q w s := by simp [takeAt, home]

/-- With no exchange open a new request is QUEUED with its item (R154). -/
theorem startRequest_closed {i : Fin 16} {x : Fin 32} (e : Entry) (h : exchangeOpen x s = false) :
    startRequest i x e s =
      { s with
        engine :=
          { s.engine with entries := put s.engine.entries i { e with state := .queued, deadline := none } }
        queue := { s.queue with classB := s.queue.classB ++ [newItem (requestItem i e) (.entry i)] } } := by
  rw [startRequest, h, ← queueRequest_setEntry]
  rfl

/-- Behind an open exchange a new request waits at the tail of its home's order (R154). -/
theorem startRequest_open {i : Fin 16} {x : Fin 32} (e : Entry) (h : exchangeOpen x s = true) :
    startRequest i x e s =
      { s with
        engine :=
          { s.engine with
            entries := put s.engine.entries i { e with state := .waiting }
            waiting := put s.engine.waiting x (waitingOrder x s ++ [i]) } } := by
  rw [startRequest, h]
  rfl

/-- Settles O22. -/
theorem remoteRequestTakesEntry : Obligations.RemoteRequestTakesEntry := by
  refine ⟨fun m x data i s on low high ready home other free => ?_, fun m x q w i s on ready home other free => ?_⟩
  · have work : putAt m data (begun s) = (remotePut i x m data (begun s), [0x00, entryTag i s]) := by
      rw [putAt_remote (s := begun s) data home other, putRemote, begun_freeEntry, freeEntry_lowest free]
      rfl
    refine ⟨fun closed => exec_put on low high ready (work.trans ?_),
      fun opened => exec_put on low high ready (work.trans ?_)⟩
    · rw [remotePut, startRequest_closed (s := begun s) _ closed]
      rfl
    · rw [remotePut, startRequest_open (s := begun s) _ opened]
      rfl
  · have work : takeAt m q w (begun s) = (remoteTake i x m q w (begun s), [0x00, entryTag i s]) := by
      rw [takeAt_remote (s := begun s) q w home other, takeRemote, begun_freeEntry, freeEntry_lowest free]
      rfl
    refine ⟨fun closed => exec_take on ready (work.trans ?_), fun opened => exec_take on ready (work.trans ?_)⟩
    · rw [remoteTake, startRequest_closed (s := begun s) _ closed]
      rfl
    · rw [remoteTake, startRequest_open (s := begun s) _ opened]
      rfl

/-! ### Placing a message -/

/-- Where the head waiter cannot be served at once, the message is stored or refused (R117). -/
theorem placement_unserved {h : Fin 16} (k : HeadCannotBeServed h s) : placement h s = placeStored h s := by
  unfold placement
  split
  · rfl
  next w rest waiters =>
    obtain ⟨r, hr, remote, full⟩ := k w rest waiters
    rw [hr]
    simp only [isLocal, remote, decide_false, Bool.false_eq_true, if_false]
    split
    next room =>
      obtain full | full | full := full
      · exact absurd room (Nat.not_lt.mpr full)
      · rw [freeDeliverySlot_none full]
      · rw [freeCell_none full]
        split <;> simp_all
    · rfl

theorem placeStored_full {h : Fin 16} (k : (hostedSlot h s).depth ≤ load h s) : placeStored h s = .full := if_pos k

theorem placeStored_noSpace {h : Fin 16} (k : load h s < (hostedSlot h s).depth) (none : ∀ c : Fin 64, cell c s ≠ none) :
    placeStored h s = .noSpace := by
  rw [placeStored, if_neg (Nat.not_le.mpr k), freeCell_none none]

theorem placeStored_store {h : Fin 16} {c : Fin 64} (k : load h s < (hostedSlot h s).depth)
    (free : Lowest (fun c => cell c s = none) c) : placeStored h s = .store c := by
  rw [placeStored, if_neg (Nat.not_le.mpr k), freeCell_lowest free]

/-- A local head waiter is handed the message (R117). -/
theorem placement_local {h : Fin 16} {w : Fin 32} {rest : List (Fin 32)} {r : Waiter}
    (waiters : (hostedSlot h s).waiters = w :: rest) (hr : waiter w s = some r) (here : r.requester = self s) :
    placement h s = .handLocal w r := by
  simp [placement, waiters, hr, isLocal, here]

/-- A remote head waiter is handed the message below the depth limit, through the lowest FREE delivery slot and the lowest
free cell (R117). -/
theorem placement_remote {h : Fin 16} {w : Fin 32} {rest : List (Fin 32)} {r : Waiter} {d : Fin 8} {c : Fin 64}
    (waiters : (hostedSlot h s).waiters = w :: rest) (hr : waiter w s = some r) (remote : r.requester ≠ self s)
    (room : load h s < (hostedSlot h s).depth) (slot : Lowest (fun d => delivery d s = none) d)
    (free : Lowest (fun c => cell c s = none) c) : placement h s = .handRemote w r d c := by
  simp [placement, waiters, hr, isLocal, remote, room, freeDeliverySlot_lowest slot, freeCell_lowest free]

/-- A waiter leaves its list and its record. -/
theorem removeWaiter_eq {w : Fin 32} {r : Waiter} (h : waiter w s = some r) :
    removeWaiter w s =
      { s with
        store :=
          { s.store with
            waiters := put s.store.waiters w none
            hosted :=
              put s.store.hosted r.hosted
                { hostedSlot r.hosted s with
                  waiters := (hostedSlot r.hosted s).waiters.filter fun v => v ≠ w } } } := by
  rw [removeWaiter, h]
  rfl

/-- A PUT at a mailbox homed here places its message, and its status tells the placement (R120). -/
theorem exec_put_local {m : Fin 64} {data : List Byte} {h : Fin 16} (on : OnBus s) (low : 1 ≤ data.length)
    (high : data.length ≤ 24) (ready : CommandReady (byteOf m.val :: byteOf data.length :: data) s)
    (home : dirEntry m s = .homed (self s)) (slot : openSlotOf m s = some h) :
    exec .put s =
      .next (answered (only (putStatus (placementResult (placement h s))))
        (place (placement h s) h { origin := self s, data := data } (begun s))) := by
  refine exec_put on low high ready ?_
  rw [putAt_local (s := begun s) data home, putLocal, begun_openSlotOf, slot]
  rfl

/-- Settles O23. -/
theorem localPutPlacesMessage : Obligations.LocalPutPlacesMessage := by
  intro m data h s on low high ready home slot unserved
  rw [exec_put_local on low high ready home slot, placement_unserved unserved]
  refine ⟨fun full => ?_, fun room noCell => ?_, fun c room free => ?_⟩
  · rw [placeStored_full full]
    rfl
  · rw [placeStored_noSpace room noCell]
    rfl
  · rw [placeStored_store room free]
    rfl

/-- Settles O24. -/
theorem localPutServesHeadWaiter : Obligations.LocalPutServesHeadWaiter := by
  intro m data h w rest r s on low high ready home slot waiters hr hosted
  subst hosted
  rw [exec_put_local on low high ready home slot]
  refine ⟨fun here => ?_, fun d c remote room free cells => ?_⟩
  · rw [placement_local waiters hr here]
    simp only [place, serveLocal, removeWaiter_eq (s := begun s) hr]
    rfl
  · rw [placement_remote waiters hr remote room free cells]
    simp only [place, serveRemote]
    rw [removeWaiter_eq (s := setCell c _ (begun s)) hr]
    rfl

/-! ### The refusals of PUT and TAKE -/

/-- Settles O25. -/
theorem messageCommandRefusals : Obligations.MessageCommandRefusals := by
  refine ⟨fun a l data s on ready length => ⟨fun h => ?badPut, fun m ha low high => ?put⟩,
    fun a b w s on ready => ⟨fun h => ?badTake, fun m ha low => ?take⟩⟩
  case badPut =>
    have fits : lengthFits .put (a :: l :: data) = true := by
      simp only [lengthFits, length, List.length_cons, decide_eq_true_eq]
      omega
    refine exec_of_work putWork rfl rfl ready (permitted_of_onBus on (by simp) (by simp)) fits ?_
    by_cases high : 64 ≤ a.toNat
    · simp only [putWork, below_eq_none high]
      rfl
    · have range : ¬ (1 ≤ l.toNat ∧ l.toNat ≤ 24) := by omega
      simp only [putWork, below_of_lt (Nat.not_le.mp high), range, if_false]
      rfl
  case put =>
    rw [ha, ← byteOf_toNat l, ← length] at ready
    refine ⟨fun none => exec_put on (by omega) (by omega) ready ?_, fun x other home full => exec_put on (by omega) (by omega) ready ?_⟩
    · unfold putAt
      split
      next x homed => exact absurd homed (none x)
      · rfl
    · rw [putAt_remote (s := begun s) data home other, putRemote, begun_freeEntry, freeEntry_none full]
      rfl
  case badTake =>
    refine exec_of_work takeWork rfl rfl ready (permitted_of_onBus on (by simp) (by simp)) rfl ?_
    by_cases high : 64 ≤ a.toNat
    · simp only [takeWork, below_eq_none high]
      rfl
    · have prio : 4 ≤ b.toNat := by omega
      simp only [takeWork, below_of_lt (Nat.not_le.mp high), below_eq_none prio]
      rfl
  case take =>
    have ready' : CommandReady [byteOf m.val, byteOf (Fin.mk b.toNat low : Fin 4).val, w] s := by
      simpa only [byteOf_toNat, ← ha] using ready
    refine ⟨fun none => exec_take on ready' ?_, fun x other home full => exec_take on ready' ?_⟩
    · unfold takeAt
      split
      next x homed => exact absurd homed (none x)
      · rfl
    · rw [takeAt_remote (s := begun s) _ w home other, takeRemote, begun_freeEntry, freeEntry_none full]
      rfl

/-! ### A local TAKE -/

/-- A TAKE at a mailbox homed here (R135). -/
theorem exec_take_local {m : Fin 64} {q : Fin 4} {w : Byte} {h : Fin 16} {r : List Byte} (on : OnBus s)
    (ready : CommandReady [byteOf m.val, byteOf q.val, w] s) (home : dirEntry m s = .homed (self s))
    (slot : openSlotOf m s = some h) (k : takeLocalAt h m q w (begun s) = (u, r)) :
    exec .take s = .next (answered r u) := by
  refine exec_take on ready ?_
  rw [takeAt_local (s := begun s) q w home, takeLocal, begun_openSlotOf, slot]
  exact k

/-- Without a message that could be given at once, a local take with a wait goes on to its entry (R135). -/
theorem takeLocalAt_waiting {h : Fin 16} {m : Fin 64} {q : Fin 4} {w : Byte}
    (k : (hostedSlot h s).messages = [] ∨ (hostedSlot h s).waiters ≠ []) (wait : w ≠ 0) :
    takeLocalAt h m q w s = takeLocalWaiting h m q w s := by
  unfold takeLocalAt
  split
  · simp_all
  · exact if_neg wait

/-- Settles O26. -/
theorem localTakeEffect : Obligations.LocalTakeEffect := by
  intro m q w h s on ready home slot
  have run {u : State} {r : List Byte} (k : takeLocalAt h m q w (begun s) = (u, r)) :
      exec .take s = .next (answered r u) := exec_take_local on ready home slot k
  refine ⟨fun c rest msg messages waiters hc => run ?given, fun messages wait => run ?empty,
    fun messages waiters wait => run ?busy, fun k wait => ?waits⟩
  case given =>
    simp only [takeLocalAt, begun_hostedSlot, messages, waiters, begun_cell, hc, setCell, dropHead, List.tail_cons]
    rfl
  case empty =>
    subst wait
    simp only [takeLocalAt, begun_hostedSlot, messages]
    rfl
  case busy =>
    subst wait
    obtain ⟨c, rest, hc⟩ := List.exists_cons_of_ne_nil messages
    obtain ⟨v, more, hv⟩ := List.exists_cons_of_ne_nil waiters
    simp only [takeLocalAt, begun_hostedSlot, hc, hv]
    rfl
  case waits =>
    have start : takeLocalAt h m q w (begun s) = takeLocalWaiting h m q w (begun s) :=
      takeLocalAt_waiting (s := begun s) k wait
    refine ⟨fun full => run (start.trans ?_), fun entry full => run (start.trans ?_),
      fun i v entry record => run (start.trans ?_)⟩
    · rw [takeLocalWaiting, begun_freeEntry, freeEntry_none full]
      rfl
    · obtain ⟨i, free⟩ := freeEntry_exists entry
      rw [takeLocalWaiting, begun_freeEntry, free, begun_freeWaiter, freeWaiter_none full]
      rfl
    · rw [takeLocalWaiting, begun_freeEntry, freeEntry_lowest entry, begun_freeWaiter, freeWaiter_lowest record]
      rfl

/-! ### MAILBOX STATUS and the commands of the Local Port -/

theorem usedSlotOf_lowest {m : Fin 64} {h : Fin 16}
    (k : Lowest (fun h => (hostedSlot h s).state ≠ .free ∧ (hostedSlot h s).mailbox = m) h) : usedSlotOf m s = some h :=
  find_lowest (k.congr fun _ => by simp)

theorem usedSlotOf_none {m : Fin 64}
    (k : ∀ h : Fin 16, ¬ ((hostedSlot h s).state ≠ .free ∧ (hostedSlot h s).mailbox = m)) : usedSlotOf m s = none :=
  find_none fun h => by simpa using k h

/-- Settles O28. -/
theorem mailboxStatusReport : Obligations.MailboxStatusReport := by
  intro a s ready
  refine ⟨fun high => ?_, fun m ha => ⟨fun h lowest => ?_, fun unused => ?_⟩⟩
  · refine exec_of_work mailboxStatusWork rfl rfl ready rfl rfl ?_
    simp only [mailboxStatusWork, below_eq_none high]
    rfl
  · subst ha
    refine exec_of_work mailboxStatusWork rfl rfl ready rfl rfl ?_
    simp only [mailboxStatusWork, below_byteOf m (by decide), hostedReport, begun_usedSlotOf, usedSlotOf_lowest lowest]
    rfl
  · subst ha
    refine exec_of_work mailboxStatusWork rfl rfl ready rfl rfl ?_
    simp only [mailboxStatusWork, below_byteOf m (by decide), hostedReport, begun_usedSlotOf, usedSlotOf_none unused]
    rfl

@[simp] theorem begun_completions (s : State) : (begun s).port.completions = s.port.completions := rfl

/-- Settles O29. -/
theorem popCompletionEffect : Obligations.PopCompletionEffect := by
  intro s ready
  refine ⟨fun empty => ?_, fun r rest record none => ?_, fun r rest i held st record head status => ?_⟩ <;>
    refine exec_of_work popWork rfl rfl ready rfl rfl ?_
  · simp only [popWork, begun_completions, empty]
    rfl
  · simp only [popWork, begun_completions, record, moveHeldIn, withPort_engine, begun_engine, none]
    rfl
  · have status' : (look s.engine.entries i).result.status = some st := status
    simp only [popWork, begun_completions, record, moveHeldIn, withPort_engine, begun_engine, head, entry,
      withEngine_engine, status', Option.getD_some]
    rfl

/-- Settles O30. -/
theorem attentionMaskChanges : Obligations.AttentionMaskChanges := by
  refine ⟨fun b s ready => ⟨fun low => ?_, fun high => ?_⟩, fun i s t ha hr h => exec_mask ha hr h⟩ <;>
    refine exec_of_work setAttentionWork rfl rfl ready rfl rfl ?_
  · simp only [setAttentionWork, low, if_true]
    rfl
  · simp only [setAttentionWork, Nat.not_le.mpr high, if_false]
    rfl

/-- Settles O32. -/
theorem clearCountersEffect : Obligations.ClearCountersEffect := fun _ ready =>
  exec_of_work clearCountersWork rfl rfl ready rfl rfl rfl

end Sys2Proof.Machine

/-! SUPPORT. The Request Engine: finishing, promotion, cancelling, deadlines and what comes back from a home (R153, R156 to
R166, R173). -/

namespace Sys2Proof.Machine

variable {s t u : State} {i : Fin 16} {x : Fin 32}

/-! ### Finishing -/

/-- The waiting orders with entry `i` gone from that of its home. -/
def ordersWithout (i : Fin 16) (s : State) : Vector (List (Fin 16)) 32 :=
  match (entry i s).home with
  | some x => put s.engine.waiting x ((waitingOrder x s).filter fun j => j ≠ i)
  | none => s.engine.waiting

/-- The item queue with the item of entry `i` withdrawn. -/
def queueWithout (i : Fin 16) (s : State) : ItemQueue :=
  { s.queue with classB := withdrawFrom (.entry i) s.queue.classB }

/-- Withdrawn and out of its waiting order, an entry is otherwise as it was. -/
theorem leaveWaiting_withdrawEntry (i : Fin 16) (s : State) :
    leaveWaiting i (withdrawEntry i s) =
      { s with queue := queueWithout i s, engine := { s.engine with waiting := ordersWithout i s } } := by
  have same : entry i (withdrawEntry i s) = entry i s := rfl
  unfold leaveWaiting ordersWithout
  rw [same]
  cases (entry i s).home <;> rfl

/-- With a place in the completion queue an entry that finishes leaves its record and is FREE (R153, R173). -/
theorem finish_room (st : Status) (room : s.port.completions.length < 16) :
    finish i st s =
      { s with
        queue := queueWithout i s
        engine :=
          { s.engine with
            waiting := ordersWithout i s
            entries := put s.engine.entries i (Entry.blank ((entry i s).generation + 1)) }
        port := { s.port with completions := s.port.completions ++ [recordOf i (entry i s) st] } } := by
  simp only [finish, leaveWaiting_withdrawEntry, completionRoom, room, decide_true, if_true]
  rfl

/-- With the completion queue full it is HELD with the record's contents (R173). -/
theorem finish_full (st : Status) (full : 16 ≤ s.port.completions.length) :
    finish i st s =
      { s with
        queue := queueWithout i s
        engine :=
          { entries :=
              put s.engine.entries i
                { entry i s with state := .held, deadline := none, result := finishedResult (entry i s) st }
            waiting := ordersWithout i s
            held := s.engine.held ++ [i] } } := by
  simp only [finish, leaveWaiting_withdrawEntry, completionRoom, Nat.not_lt.mpr full, decide_false, Bool.false_eq_true,
    if_false]
  rfl

/-! ### Promotion -/

theorem promote_nothing (h : waitingOrder x s = [] ∨ exchangeOpen x s = true) : promote x s = s := by
  unfold promote
  split
  · rfl
  next order =>
    rw [if_pos (h.resolve_left (by simp [order]))]

/-- The head of the waiting order is promoted where no exchange is open (R157). -/
theorem promote_head {rest : List (Fin 16)} (order : waitingOrder x s = i :: rest) (closed : exchangeOpen x s = false) :
    promote x s = promoteEntry i (setWaiting x rest s) := by
  simp [promote, order, closed]

theorem setEntry_entry (i : Fin 16) (s : State) : setEntry i (entry i s) s = s := by
  simp [setEntry, entry, look, put, State.withEngine]

/-- A waiting entry other than a CANCEL_WAITING one is promoted with its request item. -/
theorem promoteEntry_request (h : (entry i s).state ≠ .cancelWaiting) :
    promoteEntry i s =
      { s with
        engine :=
          { s.engine with entries := put s.engine.entries i { entry i s with state := .queued, deadline := none } }
        queue := { s.queue with classB := s.queue.classB ++ [newItem (requestItem i (entry i s)) (.entry i)] } } := by
  rw [promoteEntry, if_neg h, ← queueRequest_setEntry, setEntry_entry]

theorem promoteEntry_cancel (h : (entry i s).state = .cancelWaiting) :
    promoteEntry i s =
      { s with
        engine :=
          { s.engine with
            entries := put s.engine.entries i { entry i s with state := .cancelQueued, attempts := 0, deadline := none } }
        queue := { s.queue with classB := s.queue.classB ++ [newItem (cancelItem i (entry i s)) (.entry i)] } } := by
  rw [promoteEntry, if_pos h, queueCancel_setEntry]
  rfl

/-- The request items of the four kinds (R154, R155, R171). -/
theorem requestItem_put {e : Entry} (h : e.kind = .put) :
    requestItem i e = ⟨.station (e.home.getD 0), .put e.mailbox (tagOf e.generation i) e.data⟩ := by
  simp only [requestItem, h]

theorem requestItem_take {e : Entry} (h : e.kind = .take) :
    requestItem i e = ⟨.station (e.home.getD 0), .take e.mailbox (tagOf e.generation i) e.priority e.wait⟩ := by
  simp only [requestItem, h]

/-- A WAITING entry at the head of its order becomes QUEUED with its request item (R157). -/
theorem promote_waiting {rest : List (Fin 16)} (order : waitingOrder x s = i :: rest) (closed : exchangeOpen x s = false)
    (st : (entry i s).state = .waiting) :
    promote x s =
      { s with
        engine :=
          { s.engine with
            waiting := put s.engine.waiting x rest
            entries := put s.engine.entries i { entry i s with state := .queued, deadline := none } }
        queue := { s.queue with classB := s.queue.classB ++ [newItem (requestItem i (entry i s)) (.entry i)] } } := by
  have st' : (entry i (setWaiting x rest s)).state ≠ .cancelWaiting := by
    rw [show entry i (setWaiting x rest s) = entry i s from rfl, st]
    nofun
  rw [promote_head order closed, promoteEntry_request st']
  rfl

/-- Settles O46. -/
theorem entryFinishes : Obligations.EntryFinishes := by
  refine ⟨fun i st s => ⟨fun room => ?room, fun full => ?full⟩, fun x s => ⟨promote_nothing, ?promotes, rfl, rfl⟩⟩
  case room =>
    rw [finish_room st room]
    rfl
  case full =>
    rw [finish_full st full]
    rfl
  case promotes =>
    intro i rest order closed
    refine ⟨fun st => ?_, fun st kind => ?_, fun st kind => ?_⟩
    · rw [promote_head order closed, promoteEntry_cancel (s := setWaiting x rest s) st]
      rfl
    · rw [promote_waiting order closed st, requestItem_put kind]
      rfl
    · rw [promote_waiting order closed st, requestItem_take kind]
      rfl

/-! ### CANCEL -/

/-- The states in which a local CANCEL finishes a take at once: its item has put nothing at its home (R165). -/
def NotSent (i : Fin 16) (s : State) : Prop :=
  (entry i s).state = .waiting ∨
    ((entry i s).state = .queued ∧ (entry i s).attempts = 0 ∧ itemOnAir i s = false)

/-- CANCEL of a TAKE entry in use looks at its state (R165). -/
theorem exec_cancel {g : Byte} {r : List Byte} (on : OnBus s) (ready : CommandReady [g] s)
    (tag : entryTag (slotOfTag g) s = g) (kind : (entry (slotOfTag g) s).kind = .take)
    (used : (entry (slotOfTag g) s).state ≠ .free) (h : cancelTake (slotOfTag g) (begun s) = (u, r)) :
    exec .cancel s = .next (answered r u) := by
  refine exec_of_work cancelWork rfl rfl ready (permitted_of_onBus on (by simp) (by simp)) rfl ?_
  simp [cancelWork, cancelTag, tag, kind, used, h]

theorem cancelTake_notSent (h : NotSent i s) : cancelTake i s = (finishAndPromote i .cancelled s, only .ok) := by
  obtain st | ⟨st, attempts, air⟩ := h <;> simp [cancelTake, *]

/-- A take that is out, or on its way out, has its cancel noted (R165). -/
theorem cancelTake_sent (h : (entry i s).state = .sent ∨
    ((entry i s).state = .queued ∧ ((entry i s).attempts ≠ 0 ∨ itemOnAir i s = true))) :
    cancelTake i s = (requestCancel i s, only .ok) := by
  obtain st | ⟨st, sent⟩ := h
  · simp [cancelTake, st]
  · have gone : ¬ ((entry i s).attempts = 0 ∧ itemOnAir i s = false) := by
      rintro ⟨none, still⟩
      simp [none, still] at sent
    simp only [cancelTake, st, gone, if_false]

theorem cancelTake_parked (h : (entry i s).state = .parked) : cancelTake i s = (beginCancel i .localCause s, only .ok) := by
  simp [cancelTake, h]

theorem cancelTake_localParked (h : (entry i s).state = .localParked) : cancelTake i s = (cancelLocal i s, only .ok) := by
  simp [cancelTake, h]

theorem beginCancel_open {cause : CancelCause} (home : (entry i s).home = some x) (k : exchangeOpen x s = true) :
    beginCancel i cause s =
      { s with
        engine :=
          { s.engine with
            entries :=
              put s.engine.entries i
                { entry i s with attempts := 0, deadline := none, cancelCause := cause, state := .cancelWaiting }
            waiting := put s.engine.waiting x (waitingOrder x s ++ [i]) } } := by
  simp only [beginCancel, home, k, if_true]
  rfl

theorem beginCancel_closed {cause : CancelCause} (home : (entry i s).home = some x) (k : exchangeOpen x s = false) :
    beginCancel i cause s =
      { s with
        engine :=
          { s.engine with
            entries :=
              put s.engine.entries i
                { entry i s with attempts := 0, deadline := none, cancelCause := cause, state := .cancelQueued } }
        queue := { s.queue with classB := s.queue.classB ++ [newItem (cancelItem i (entry i s)) (.entry i)] } } := by
  simp only [beginCancel, home, k, Bool.false_eq_true, if_false, queueCancel_setEntry]
  rw [show cancelItem i _ = cancelItem i (entry i s) from by simp only [cancelItem, home]]

/-- An item that a withdrawal of entry `i` leaves, with `i` its originator, is on air and marked withdrawn (R63). -/
theorem mem_withdrawFrom {o : Originator} {l : List QueuedItem} {q : QueuedItem} (h : q ∈ withdrawFrom o l)
    (k : q.originator = o) : q.onAir = true ∧ q.withdrawn = true := by
  simp only [withdrawFrom, List.mem_map, List.mem_filter] at h
  obtain ⟨p, ⟨_, stays⟩, rfl⟩ := h
  by_cases own : p.originator = o
  · simp_all
  · simp [own] at k

/-- Promotion of an entry other than `i` leaves entry `i` and adds at most that entry's item. -/
theorem promote_other (x : Fin 32) (h : i ∉ waitingOrder x s) :
    entry i (promote x s) = entry i s ∧ ∀ q ∈ (promote x s).queue.classB, q.originator = .entry i → q ∈ s.queue.classB := by
  unfold promote
  split
  · exact ⟨rfl, fun q hq _ => hq⟩
  next j rest order =>
    have other : j ≠ i := by
      rintro rfl
      exact h (by simp [order])
    split
    · exact ⟨rfl, fun q hq _ => hq⟩
    · by_cases st : (entry j (setWaiting x rest s)).state = .cancelWaiting
      · rw [promoteEntry_cancel st]
        exact ⟨look_put_ne _ _ _ _ other, fun q hq k => by
          obtain hq | hq := List.mem_append.mp hq
          · exact hq
          · simp_all [newItem]⟩
      · rw [promoteEntry_request st]
        exact ⟨look_put_ne _ _ _ _ other, fun q hq k => by
          obtain hq | hq := List.mem_append.mp hq
          · exact hq
          · simp_all [newItem]⟩

/-- What promotion leaves of the other blocks. -/
theorem promote_blocks (x : Fin 32) (s : State) :
    (promote x s).port = s.port ∧ (promote x s).queue.classA = s.queue.classA ∧ (promote x s).store = s.store ∧
      (promote x s).directory = s.directory ∧ (promote x s).roster = s.roster ∧ (promote x s).control = s.control ∧
      (promote x s).tracker = s.tracker ∧ (promote x s).line = s.line := by
  unfold promote
  split
  · simp
  next j rest order =>
    split
    · simp
    · by_cases st : (entry j (setWaiting x rest s)).state = .cancelWaiting
      · rw [promoteEntry_cancel st]
        simp
      · rw [promoteEntry_request st]
        simp

/-- Finished with a place in the completion queue, an entry stands in no waiting order of its home. -/
theorem not_mem_waitingOrder_finish {st : Status} (home : (entry i s).home = some x)
    (room : s.port.completions.length < 16) : i ∉ waitingOrder x (finish i st s) := by
  have order : waitingOrder x (finish i st s) = (waitingOrder x s).filter fun j => j ≠ i := by
    simp only [finish_room st room, waitingOrder, ordersWithout, home, look_put]
  simp [order]

/-- Promotion for the home of an entry that has finished, with a place in the completion queue, leaves what the finish made
of the entry, its record and its item. -/
theorem finishAndPromote_room {st : Status} (room : s.port.completions.length < 16) :
    let u := finishAndPromote i st s
    entry i u = Entry.blank ((entry i s).generation + 1) ∧
      u.port = { s.port with completions := s.port.completions ++ [recordOf i (entry i s) st] } ∧
      (∀ q ∈ u.queue.classB, q.originator = .entry i → q.onAir = true ∧ q.withdrawn = true) ∧
      u.queue.classA = s.queue.classA ∧ u.store = s.store ∧ u.directory = s.directory ∧ u.roster = s.roster ∧
      u.control = s.control ∧ u.tracker = s.tracker ∧ u.line = s.line := by
  have blank : entry i (finish i st s) = Entry.blank ((entry i s).generation + 1) := by
    simp only [finish_room st room, entry, look_put]
  have withdrawn : (finish i st s).queue.classB = withdrawFrom (.entry i) s.queue.classB := by
    simp only [finish_room st room, queueWithout]
  have classA : (finish i st s).queue.classA = s.queue.classA := by simp only [finish_room st room, queueWithout]
  unfold finishAndPromote promoteFor
  dsimp only
  split
  next x home =>
    obtain ⟨same, items⟩ := promote_other x (not_mem_waitingOrder_finish (st := st) home room)
    obtain ⟨port, sameA, store, directory, roster, control, tracker, line⟩ := promote_blocks x (finish i st s)
    refine ⟨same.trans blank, ?_, fun q hq k => ?_, sameA.trans classA, ?_⟩
    · rw [port, finish_room st room]
    · exact mem_withdrawFrom (withdrawn ▸ items q hq k) k
    · rw [store, directory, roster, control, tracker, line, finish_room st room]
      exact ⟨rfl, rfl, rfl, rfl, rfl, rfl⟩
  · refine ⟨blank, ?_, fun q hq k => mem_withdrawFrom (withdrawn ▸ hq) k, classA, ?_⟩ <;> rw [finish_room st room]
    exact ⟨rfl, rfl, rfl, rfl, rfl, rfl⟩

/-- Settles O27. -/
theorem cancelEffect : Obligations.CancelEffect := by
  have finishes {g : Byte} {s : State} (on : OnBus s) (ready : CommandReady [g] s) (tag : entryTag (slotOfTag g) s = g)
      (kind : (entry (slotOfTag g) s).kind = .take) (h : NotSent (slotOfTag g) s) :
      exec .cancel s = .next (answered [0x00] (finishAndPromote (slotOfTag g) .cancelled (begun s))) := by
    have used : (entry (slotOfTag g) s).state ≠ .free := by obtain st | ⟨st, -⟩ := h <;> rw [st] <;> nofun
    exact exec_cancel on ready tag kind used (cancelTake_notSent (s := begun s) h)
  refine ⟨fun g s on ready tag kind room h => ?finished, ⟨fun g s on ready tag kind => ?underWay,
    fun g s on ready => ⟨fun unknown => ?unknown, fun used tag late => ?notCancellable⟩⟩,
    fun g s on ready tag kind h => finishes on ready tag kind h⟩
  case finished =>
    obtain ⟨blank, port, items, classA, store, directory, roster, control, tracker, line⟩ :=
      finishAndPromote_room (i := slotOfTag g) (s := begun s) (st := .cancelled) room
    refine ⟨_, finishes on ready tag kind h, blank, ?_, items, classA, store, directory, roster, control, tracker, line⟩
    have record : recordOf (slotOfTag g) (entry (slotOfTag g) (begun s)) .cancelled =
        .request .take g .cancelled (entry (slotOfTag g) s).mailbox 0 [] := by
      rw [recordOf, begun_entry, kind, show tagOf (entry (slotOfTag g) s).generation (slotOfTag g) = g from tag]
      rfl
    simp only [answered, port, record]
    rfl
  case underWay =>
    have run {u : State} {r : List Byte} {st : EntryState} (h : (entry (slotOfTag g) s).state = st) (used : st ≠ .free)
        (k : cancelTake (slotOfTag g) (begun s) = (u, r)) : exec .cancel s = .next (answered r u) :=
      exec_cancel on ready tag kind (h ▸ used) k
    refine ⟨fun sent => ?_, fun x st home opened => run st nofun ?_, fun x st home closed => run st nofun ?_,
      fun w st found => run st nofun ?_⟩
    · have used : (entry (slotOfTag g) s).state ≠ .free := by obtain st | ⟨st, -⟩ := sent <;> rw [st] <;> nofun
      exact exec_cancel on ready tag kind used (cancelTake_sent (s := begun s) sent)
    · rw [cancelTake_parked (s := begun s) st, beginCancel_open (s := begun s) home opened]
      rfl
    · have item : cancelItem (slotOfTag g) (entry (slotOfTag g) (begun s)) =
          ⟨.station x, .cancel (entry (slotOfTag g) s).mailbox g⟩ := by
        rw [begun_entry, cancelItem, home, show tagOf (entry (slotOfTag g) s).generation (slotOfTag g) = g from tag]
        rfl
      rw [cancelTake_parked (s := begun s) st, beginCancel_closed (s := begun s) home closed, item]
      rfl
    · have found' : waiterOf (self (begun s)) (entryTag (slotOfTag g) (begun s)) (begun s) = some w := by
        rw [begun_entryTag, tag]
        exact found
      simp only [cancelTake_localParked (s := begun s) st, cancelLocal, removeLocalWaiter, found']
      rfl
  case unknown =>
    refine exec_of_work cancelWork rfl rfl ready (permitted_of_onBus on (by simp) (by simp)) rfl ?_
    obtain free | other := unknown
    · simp [cancelWork, cancelTag, free, only, statusCode]
    · simp [cancelWork, cancelTag, other, only, statusCode]
  case notCancellable =>
    refine exec_of_work cancelWork rfl rfl ready (permitted_of_onBus on (by simp) (by simp)) rfl ?_
    by_cases kind : (entry (slotOfTag g) s).kind = .take
    · have st := late.resolve_left (fun h => h kind)
      simp only [List.mem_cons, List.not_mem_nil, or_false] at st
      obtain st | st | st | st | st := st <;> simp [cancelWork, cancelTag, tag, kind, st, cancelTake, only, statusCode]
    · simp [cancelWork, cancelTag, tag, kind, used, only, statusCode]

end Sys2Proof.Machine

/-! SUPPORT. The deadlines of request entries, and what comes back from a home (R159 to R164). -/

namespace Sys2Proof.Machine

variable {s t u : State} {i : Fin 16} {x : Fin 32}

/-! ### Deadlines of request entries -/

/-- An entry queued with its request item. -/
theorem queueRequest_eq (i : Fin 16) (s : State) :
    queueRequest i s =
      { s with
        engine :=
          { s.engine with entries := put s.engine.entries i { entry i s with state := .queued, deadline := none } }
        queue := { s.queue with classB := s.queue.classB ++ [newItem (requestItem i (entry i s)) (.entry i)] } } := by
  rw [← queueRequest_setEntry, setEntry_entry]

/-- An entry queued with its CANCEL. -/
theorem queueCancel_eq (i : Fin 16) (s : State) :
    queueCancel i s =
      { s with
        engine :=
          { s.engine with entries := put s.engine.entries i { entry i s with state := .cancelQueued, deadline := none } }
        queue := { s.queue with classB := s.queue.classB ++ [newItem (cancelItem i (entry i s)) (.entry i)] } } := by
  rw [← queueCancel_setEntry, setEntry_entry]

/-- The state in which the counter of retransmissions has risen. -/
theorem countRequestRetransmission_setEntry_entry (i : Fin 16) (e : Entry) (s : State) :
    entry i (countRequestRetransmission (setEntry i e s)) = e := look_put _ _ _

/-- A request whose reply is late is sent again below three attempts (R159). -/
theorem replyDeadline_request (st : (entry i s).state = .sent) (few : (entry i s).attempts < 3) :
    replyDeadline i s =
      { s with
        engine :=
          { s.engine with
            entries :=
              put s.engine.entries i
                { entry i s with attempts := (entry i s).attempts + 1, state := .queued, deadline := none } }
        queue := { s.queue with classB := s.queue.classB ++ [newItem (requestItem i (entry i s)) (.entry i)] }
        port := (countRequestRetransmission s).port } := by
  simp only [replyDeadline, few, if_true, st, reduceCtorEq, if_false, queueRequest_eq,
    countRequestRetransmission_setEntry_entry]
  simp only [countRequestRetransmission, State.withCounters, setEntry, State.withPort, State.withEngine, put_put]
  rfl

/-- A CANCEL whose reply is late is sent again below three attempts (R159). -/
theorem replyDeadline_cancel (st : (entry i s).state = .cancelSent) (few : (entry i s).attempts < 3) :
    replyDeadline i s =
      { s with
        engine :=
          { s.engine with
            entries :=
              put s.engine.entries i
                { entry i s with attempts := (entry i s).attempts + 1, state := .cancelQueued, deadline := none } }
        queue := { s.queue with classB := s.queue.classB ++ [newItem (cancelItem i (entry i s)) (.entry i)] }
        port := (countRequestRetransmission s).port } := by
  simp only [replyDeadline, few, if_true, st, queueCancel_eq, countRequestRetransmission_setEntry_entry]
  simp only [countRequestRetransmission, State.withCounters, setEntry, State.withPort, State.withEngine, put_put]
  rfl

theorem actOnEntry_due {f : State} (due : (entry i s).deadline = some s.tracker.ownTurnCount)
    (h : ((entry i s).state = .sent ∨ (entry i s).state = .cancelSent) ∧ f = replyDeadline i s ∨
      (entry i s).state = .parked ∧ f = beginCancel i .backstopCause s ∨
      (entry i s).state = .late ∧ f = lateDeadline i s) : actOnEntry i s = f := by
  have due' : entryDue i s = true := by simpa [entryDue] using due
  obtain ⟨st | st, rfl⟩ | ⟨st, rfl⟩ | ⟨st, rfl⟩ := h <;> simp [actOnEntry, due', st]

/-- Settles O44. -/
theorem entryDeadlineEffect : Obligations.EntryDeadlineEffect := by
  intro i s lowest
  have reply (st : (entry i s).state = .sent ∨ (entry i s).state = .cancelSent) :
      exec .replyDeadline s = .next (settle (replyDeadline i s)) := by
    rw [← actOnEntry_due lowest.1 (.inl ⟨st, rfl⟩)]
    exact congrArg _ (actOnDueEntry_lowest lowest (by simpa [hasReplyDeadline] using st))
  have backstop (st : (entry i s).state = .parked) :
      exec .backstop s = .next (settle (beginCancel i .backstopCause s)) := by
    rw [← actOnEntry_due lowest.1 (.inr (.inl ⟨st, rfl⟩))]
    exact congrArg _ (actOnDueEntry_lowest (f := fun st => st = .parked) lowest (by simpa using st))
  refine ⟨fun st few => ?_, fun st few => ?_, fun st many => ?_, fun x st home opened => ?_,
    fun x st home closed => ?_, fun st => ?_⟩
  · rw [reply (.inl st), replyDeadline_request st few]
    rfl
  · rw [reply (.inr st), replyDeadline_cancel st few]
    rfl
  · rw [reply st, replyDeadline, if_neg (Nat.not_lt.mpr many)]
    rfl
  · rw [backstop st, beginCancel_open home opened]
  · rw [backstop st, beginCancel_closed home closed]
  · have late : actOnEntry i s = lateDeadline i s := actOnEntry_due lowest.1 (.inr (.inr ⟨st, rfl⟩))
    have row : actOnDueEntry (fun st => st = .late) s = settle (actOnEntry i s) :=
      actOnDueEntry_lowest (f := fun st => st = .late) lowest (by simpa using st)
    exact congrArg _ (row.trans (by rw [late]; rfl))

/-! ### Which entry a reply matches -/

theorem entryMatches_iff (x : Fin 32) (g : Byte) (k : RequestKind) (s : State) :
    entryMatches x g k s = true ↔
      (entry (slotOfTag g) s).state ≠ .free ∧ entryTag (slotOfTag g) s = g ∧ (entry (slotOfTag g) s).home = some x ∧
        (entry (slotOfTag g) s).kind = k := by
  simp [entryMatches, and_assoc]

theorem awaitsReply_iff (e : Entry) :
    awaitsReply e = true ↔ e.state = .sent ∨ (e.state = .queued ∧ 0 < e.attempts) := by simp [awaitsReply]

theorem awaitsCancelReply_iff (e : Entry) :
    awaitsCancelReply e = true ↔ e.state = .cancelSent ∨ (e.state = .cancelQueued ∧ 0 < e.attempts) := by
  simp [awaitsCancelReply]

theorem isCancelState_iff (e : Entry) :
    isCancelState e = true ↔ e.state = .cancelWaiting ∨ e.state = .cancelQueued ∨ e.state = .cancelSent := by
  simp [isCancelState, or_assoc]

theorem acceptsDeliver_iff (e : Entry) :
    acceptsDeliver e = true ↔
      awaitsReply e = true ∨ e.state ∈ [.parked, .cancelWaiting, .cancelQueued, .cancelSent, .late] := by
  simp only [acceptsDeliver, Bool.or_eq_true, isCancelState_iff, decide_eq_true_eq, List.mem_cons, List.not_mem_nil,
    or_false]
  tauto

/-- The states in which EXPIRED finishes a take (R161). -/
theorem expires_iff (e : Entry) :
    (awaitsReply e || decide (e.state = .parked) || isCancelState e) = true ↔
      awaitsReply e = true ∨ e.state ∈ [.parked, .cancelWaiting, .cancelQueued, .cancelSent] := by
  simp only [Bool.or_eq_true, isCancelState_iff, decide_eq_true_eq, List.mem_cons, List.not_mem_nil, or_false]
  tauto

/-- An entry that a reply of `x` matches finishes with promotion for `x`. -/
theorem finishAndPromote_home (st : Status) (home : (entry i s).home = some x) :
    finishAndPromote i st s = promote x (finish i st s) := by simp [finishAndPromote, home, promoteFor]

/-! ### What a reply does -/

theorem withdrawEntry_eq (i : Fin 16) (s : State) : withdrawEntry i s = { s with queue := queueWithout i s } := rfl

theorem takeParked_parks (home : (entry i s).home = some x) (k : (entry i s).cancelRequested = false) :
    takeParked i s =
      promote x
        { s with
          queue := queueWithout i s
          engine :=
            { s.engine with
              entries :=
                put s.engine.entries i
                  { entry i s with state := .parked, deadline := backstopOf (entry i s).wait s } } } := by
  have same : entry i (withdrawEntry i s) = entry i s := rfl
  simp only [takeParked, same, k, Bool.false_eq_true, if_false, home, promoteFor]
  rfl

theorem takeParked_cancels (k : (entry i s).cancelRequested = true) :
    takeParked i s =
      { s with
        engine :=
          { s.engine with
            entries :=
              put s.engine.entries i
                { entry i s with attempts := 0, deadline := none, cancelCause := .localCause, state := .cancelQueued } }
        queue :=
          { s.queue with
            classB :=
              withdrawFrom (.entry i) s.queue.classB ++ [newItem (cancelItem i (entry i s)) (.entry i)] } } := by
  have same : entry i (withdrawEntry i s) = entry i s := rfl
  simp only [takeParked, same, k, if_true, queueCancel_setEntry]
  rfl

/-- TOO_LATE makes a take LATE and looks at promotion (R164). -/
theorem takeCancelReply_tooLate {g : Byte} (h : entryMatches x g .take s = true)
    (k : awaitsCancelReply (entry (slotOfTag g) s) = true) :
    takeCancelReply x g .tooLate s =
      promote x
        { s with
          queue := queueWithout (slotOfTag g) s
          engine :=
            { s.engine with
              entries :=
                put s.engine.entries (slotOfTag g)
                  { entry (slotOfTag g) s with
                    state := .late, deadline := some (deadlineIn (4 * replyLimit s + 4) s) } } } := by
  obtain ⟨_, _, home, _⟩ := (entryMatches_iff x g .take s).mp h
  have same : entry (slotOfTag g) (withdrawEntry (slotOfTag g) s) = entry (slotOfTag g) s := rfl
  simp only [takeCancelReply, h, k, Bool.and_self, if_true, same, home, promoteFor]
  rfl

theorem answerRoom_iff (s : State) : answerRoom s = true ↔ s.queue.classA.length < 24 := by
  simp [answerRoom, freePlaces]

theorem answerRoom_full (h : 24 ≤ s.queue.classA.length) : answerRoom s = false := by
  rw [Bool.eq_false_iff, ne_eq, answerRoom_iff]
  omega

theorem enqueueA_room {item : Item} {o : Originator} (h : s.queue.classA.length < 24) :
    enqueueA item o s = { s with queue := { s.queue with classA := s.queue.classA ++ [newItem item o] } } := by
  rw [enqueueA, (answerRoom_iff s).mpr h]
  rfl

/-- With a place in class A an answer stands at its tail. -/
theorem answer_room {b : ItemBody} (h : s.queue.classA.length < 24) :
    answer x b s =
      { s with queue := { s.queue with classA := s.queue.classA ++ [newItem ⟨.station x, b⟩ .nobody] } } :=
  enqueueA_room h

/-- Settles O53. -/
theorem repliesFromHome : Obligations.RepliesFromHome := by
  intro x g s
  have home {k : RequestKind} (h : entryMatches x g k s = true) : (entry (slotOfTag g) s).home = some x :=
    ((entryMatches_iff x g k s).mp h).2.2.1
  refine ⟨fun r h k => ?put, fun r h => ?noPut, fun h k c => ?parks, fun r h => ?noTake, fun r h => ?noCancel,
    fun q o data full => ?shed, fun q o data room h => ?stale,
    ⟨entryMatches_iff x g .put s, entryMatches_iff x g .take s, awaitsReply_iff _, awaitsCancelReply_iff _,
      acceptsDeliver_iff _⟩, ⟨rfl, rfl, rfl, rfl⟩,
    fun h => ⟨fun k c => ?cancels, fun k => ?results, fun k r other => ?noReply, fun k => ?expired, fun k st => ?notExpired,
      fun k => ⟨fun r result => ⟨fun cause => ?cancelled, fun cause => ?backstop⟩, ?tooLate⟩, fun k r => ?noCancelReply,
      fun q o data room k => ?delivers⟩⟩
  case put =>
    simp only [routeItem, takePutReply, h, k, Bool.and_self, if_true]
    exact finishAndPromote_home _ (home h)
  case noPut =>
    have no : (entryMatches x g .put s && awaitsReply (entry (slotOfTag g) s)) = false := by
      rwa [Bool.and_eq_false_iff]
    simp only [routeItem, takePutReply, no, Bool.false_eq_true, if_false]
  case parks =>
    simp only [routeItem, takeTakeReply, h, k, if_true]
    rw [takeParked_parks (home h) c]
    rfl
  case noTake => simp only [routeItem, takeTakeReply, h, Bool.false_eq_true, if_false]
  case noCancel => simp only [routeItem, takeCancelReply, h, Bool.false_and, Bool.false_eq_true, if_false]
  case shed => simp [routeItem, takeDeliver, answerRoom_full full]
  case stale =>
    have no : (entryMatches x g .take s && acceptsDeliver (entry (slotOfTag g) s)) = false := by
      rwa [Bool.and_eq_false_iff]
    simp only [routeItem, takeDeliver, (answerRoom_iff s).mpr room, no, Bool.not_true, Bool.false_eq_true, if_false]
    exact answer_room room
  case cancels =>
    have item : cancelItem (slotOfTag g) (entry (slotOfTag g) s) =
        ⟨.station x, .cancel (entry (slotOfTag g) s).mailbox g⟩ := by
      have tag := ((entryMatches_iff x g .take s).mp h).2.1
      rw [cancelItem, home h, show tagOf (entry (slotOfTag g) s).generation (slotOfTag g) = g from tag]
      rfl
    simp only [routeItem, takeTakeReply, h, k, if_true]
    rw [takeParked_cancels c, item]
  case results =>
    simp only [routeItem, takeTakeReply, h, k, if_true]
    exact ⟨finishAndPromote_home _ (home h), finishAndPromote_home _ (home h), finishAndPromote_home _ (home h),
      finishAndPromote_home _ (home h)⟩
  case noReply =>
    cases r
    case expired => exact absurd rfl other
    all_goals simp [routeItem, takeTakeReply, h, k]
  case expired =>
    simp only [routeItem, takeTakeReply, h, if_true, (expires_iff _).mpr k]
    exact finishAndPromote_home _ (home h)
  case notExpired =>
    have no : (awaitsReply (entry (slotOfTag g) s) || decide ((entry (slotOfTag g) s).state = .parked) ||
        isCancelState (entry (slotOfTag g) s)) = false := by
      rw [Bool.eq_false_iff, ne_eq, expires_iff, not_or]
      exact ⟨by rw [k]; nofun, st⟩
    simp only [routeItem, takeTakeReply, h, if_true, no, Bool.false_eq_true, if_false]
  case cancelled =>
    obtain rfl | rfl := result <;> simp only [routeItem, takeCancelReply, h, k, Bool.and_self, if_true, cause] <;>
      exact finishAndPromote_home _ (home h)
  case backstop =>
    obtain rfl | rfl := result <;>
      simp only [routeItem, takeCancelReply, h, k, Bool.and_self, if_true, cause, reduceCtorEq, if_false] <;>
      exact finishAndPromote_home _ (home h)
  case tooLate =>
    simp only [routeItem]
    rw [takeCancelReply_tooLate h k]
    rfl
  case noCancelReply => simp only [routeItem, takeCancelReply, h, k, Bool.and_false, Bool.false_eq_true, if_false]
  case delivers =>
    simp only [routeItem, takeDeliver, (answerRoom_iff s).mpr room, h, k, Bool.not_true, Bool.false_eq_true, if_false,
      Bool.and_self, if_true, home h, promoteFor]
    rfl

end Sys2Proof.Machine

/-! SUPPORT. The Mailbox Store: delivery slots, pairing, the items from other stations that it takes, and its deadlines
(R114 to R117, R132 to R147). -/

namespace Sys2Proof.Machine

variable {s t u : State}

/-! ### Delivery slots -/

/-- With a place in class A the DELIVER of a slot joins it (R138, R141). -/
theorem queueDeliver_room {d : Fin 8} {y : Delivery} (room : s.queue.classA.length < 24) :
    queueDeliver d y s =
      { s with
        store := { s.store with deliveries := put s.store.deliveries d (some { y with state := .queued }) }
        queue := { s.queue with classA := s.queue.classA ++ [newItem (deliverItem y s) (.delivery d)] } } := by
  rw [queueDeliver, (answerRoom_iff s).mpr room, enqueueA_room room]
  rfl

/-- With class A full the slot is UNQUEUED, last in that order (R139). -/
theorem queueDeliver_full {d : Fin 8} {y : Delivery} (full : 24 ≤ s.queue.classA.length) :
    queueDeliver d y s =
      { s with
        store :=
          { s.store with
            deliveries := put s.store.deliveries d (some { y with state := .unqueued })
            unqueued := s.store.unqueued ++ [d] } } := by
  rw [queueDeliver, answerRoom_full full]
  rfl

theorem deliverItem_cell {y : Delivery} {msg : Message} (h : cell y.cell s = some msg) :
    deliverItem y s = ⟨.station y.dest, .deliver y.tag y.dseq msg.origin msg.data⟩ := by
  simp [deliverItem, h]

/-- A SENT slot sent again, with a place in class A (R141). -/
theorem requeueDelivery_room {d : Fin 8} {y : Delivery} (room : s.queue.classA.length < 24) :
    requeueDelivery d y s =
      { s with
        store := { s.store with deliveries := put s.store.deliveries d (some { y with state := .queued }) }
        queue := { s.queue with classA := s.queue.classA ++ [newItem (deliverItem y s) (.delivery d)] }
        port := (countDeliveryRetransmission s).port } := by
  rw [requeueDelivery, queueDeliver_room room]
  rfl

theorem requeueDelivery_full {d : Fin 8} {y : Delivery} (full : 24 ≤ s.queue.classA.length) :
    requeueDelivery d y s =
      { s with
        store :=
          { s.store with
            deliveries := put s.store.deliveries d (some { y with state := .unqueued })
            unqueued := s.store.unqueued ++ [d] }
        port := (countDeliveryRetransmission s).port } := by
  rw [requeueDelivery, queueDeliver_full full]
  rfl

/-- A class A place offered to an UNQUEUED slot in use (R139). -/
theorem offerPlaceTo_room {d : Fin 8} {y : Delivery} (room : s.queue.classA.length < 24) (h : delivery d s = some y) :
    offerPlaceTo d s =
      { s with
        store :=
          { s.store with
            unqueued := s.store.unqueued.filter fun e => e ≠ d
            deliveries := put s.store.deliveries d (some { y with state := .queued }) }
        queue := { s.queue with classA := s.queue.classA ++ [newItem (deliverItem y s) (.delivery d)] } } := by
  have same (l : List (Fin 8)) : delivery d (setUnqueued l s) = some y := h
  simp only [offerPlaceTo, (answerRoom_iff s).mpr room, if_true, same]
  have room' : (setUnqueued (s.store.unqueued.filter fun e => e ≠ d) s).queue.classA.length < 24 := room
  rw [queueDeliver_room room']
  rfl

theorem offerPlaceTo_full {d : Fin 8} (full : 24 ≤ s.queue.classA.length) : offerPlaceTo d s = s := by
  simp [offerPlaceTo, answerRoom_full full]

/-- A slot that becomes FREE with its message back at the head of its mailbox (R113). -/
theorem returnMessage_eq {d : Fin 8} {y : Delivery} (h : delivery d s = some y) :
    returnMessage d s =
      { s with
        store :=
          { s.store with
            deliveries := put s.store.deliveries d none
            unqueued := s.store.unqueued.filter fun e => e ≠ d
            hosted :=
              put s.store.hosted y.hosted
                { hostedSlot y.hosted s with messages := y.cell :: (hostedSlot y.hosted s).messages } }
        queue := { s.queue with classA := withdrawFrom (.delivery d) s.queue.classA }
        port := (countMessageReturned s).port } := by
  rw [returnMessage, h]
  rfl

/-! ### Deadlines of waiters and deliveries -/

theorem expireWaiter_local {w : Fin 32} {r : Waiter} (h : waiter w s = some r) (here : r.requester = self s) :
    expireWaiter w s = pairing (finish (slotOfTag r.tag) .expired (removeWaiter w s)) := by
  simp [expireWaiter, h, isLocal, here]

theorem expireWaiter_remote {w : Fin 32} {r : Waiter} (h : waiter w s = some r) (other : r.requester ≠ self s) :
    expireWaiter w s =
      pairing (answer r.requester (.takeReply r.tag .expired)
        (revise r.requester r.tag .parked .expired (removeWaiter w s))) := by
  simp [expireWaiter, h, isLocal, other]

theorem deliveryDeadline_again {d : Fin 8} {y : Delivery} (h : delivery d s = some y) (few : y.attempts < 4) :
    deliveryDeadline d s = requeueDelivery d { y with attempts := y.attempts + 1 } s := by
  simp [deliveryDeadline, h, few]

theorem deliveryDeadline_gives_up {d : Fin 8} {y : Delivery} (h : delivery d s = some y) (many : 4 ≤ y.attempts) :
    deliveryDeadline d s = pairing (revise y.dest y.tag (.delivering d) .returned (returnMessage d s)) := by
  simp [deliveryDeadline, h, Nat.not_lt.mpr many]

/-- Settles O45. -/
theorem storeDeadlineEffect : Obligations.StoreDeadlineEffect := by
  intro s
  refine ⟨fun w r hr lowest => ?_, fun d y hy none lowest => ?_⟩
  · have row : exec .waiterExpiry s = .next (settle (expireWaiter w s)) := by
      refine congrArg Host.Outcome.next ((expireDueWaiter_lowest lowest).trans ?_)
      rw [actOnWaiter, if_pos ((waiterDue_iff w s).mpr lowest.1)]
    exact ⟨fun here => by rw [row, expireWaiter_local hr here], fun other => by rw [row, expireWaiter_remote hr other]⟩
  · have row : exec .deliveryDeadline s = .next (settle (deliveryDeadline d s)) := by
      refine congrArg Host.Outcome.next ((actOnDueDelivery_lowest lowest none).trans ?_)
      rw [actOnDelivery, if_pos ((deliveryDue_iff d s).mpr lowest.1)]
    refine ⟨fun few room => ?_, fun few full => ?_, fun many => by rw [row, deliveryDeadline_gives_up hy many]⟩
    · rw [row, deliveryDeadline_again hy few, requeueDelivery_room room]
      rfl
    · rw [row, deliveryDeadline_again hy few, requeueDelivery_full full]
      rfl

/-! ### Pairing -/

theorem fillDelivery_room {d : Fin 8} {h : Fin 16} {c : Fin 64} {x : Fin 32} {g : Byte} {msg : Message}
    (hc : cell c s = some msg) (room : s.queue.classA.length < 24) :
    fillDelivery d h c x g s =
      { s with
        store :=
          { s.store with
            dseq := s.store.dseq + 1
            deliveries := put s.store.deliveries d (some ⟨.queued, s.store.dseq, h, c, x, g, 1⟩) }
        queue :=
          { s.queue with
            classA :=
              s.queue.classA ++ [newItem ⟨.station x, .deliver g s.store.dseq msg.origin msg.data⟩ (.delivery d)] } } := by
  have room' : (s.withStore { s.store with dseq := s.store.dseq + 1 }).queue.classA.length < 24 := room
  have hc' : cell c (s.withStore { s.store with dseq := s.store.dseq + 1 }) = some msg := hc
  rw [fillDelivery, queueDeliver_room room', deliverItem_cell hc']
  rfl

theorem fillDelivery_full {d : Fin 8} {h : Fin 16} {c : Fin 64} {x : Fin 32} {g : Byte}
    (full : 24 ≤ s.queue.classA.length) :
    fillDelivery d h c x g s =
      { s with
        store :=
          { s.store with
            dseq := s.store.dseq + 1
            deliveries := put s.store.deliveries d (some ⟨.unqueued, s.store.dseq, h, c, x, g, 1⟩)
            unqueued := s.store.unqueued ++ [d] } } := by
  have full' : 24 ≤ (s.withStore { s.store with dseq := s.store.dseq + 1 }).queue.classA.length := full
  rw [fillDelivery, queueDeliver_full full']
  rfl

theorem pairOnce_nothing {b : Bool} {h : Fin 16} (k : (hostedSlot h s).messages = [] ∨ (hostedSlot h s).waiters = []) :
    pairOnce b h s = none := by
  unfold pairOnce
  split
  next messages waiters => simp [messages, waiters] at k
  · rfl

/-- A mailbox with a message and a waiter in use (R136). -/
structure Pairable (h : Fin 16) (c : Fin 64) (rest : List (Fin 64)) (w : Fin 32) (ws : List (Fin 32)) (r : Waiter)
    (msg : Message) (s : State) : Prop where
  messages : (hostedSlot h s).messages = c :: rest
  waiters : (hostedSlot h s).waiters = w :: ws
  waiter : waiter w s = some r
  hosted : r.hosted = h
  cell : cell c s = some msg

section
variable {h : Fin 16} {c : Fin 64} {rest : List (Fin 64)} {w : Fin 32} {ws : List (Fin 32)} {r : Waiter} {msg : Message}

/-- The head message and the head waiter of a mailbox gone from their lists. -/
theorem Pairable.removeWaiter (k : Pairable h c rest w ws r msg s) :
    removeWaiter w (dropHead h s) =
      { s with
        store :=
          { s.store with
            waiters := put s.store.waiters w none
            hosted :=
              put s.store.hosted h
                { hostedSlot h s with
                  messages := rest, waiters := (hostedSlot h s).waiters.filter fun v => v ≠ w } } } := by
  obtain ⟨messages, -, hr, rfl, -⟩ := k
  rw [removeWaiter_eq (s := dropHead r.hosted s) hr]
  simp [dropHead, setHosted, hostedSlot, put_put, State.withStore] at messages ⊢
  simp [messages]

/-- A local head collects the message and frees its cell (R136). -/
theorem Pairable.pairOnce_local (k : Pairable h c rest w ws r msg s) (b : Bool) (here : r.requester = self s) :
    pairOnce b h s = some (serveLocal w r msg (setCell c none (dropHead h s))) := by
  simp [pairOnce, k.messages, k.waiters, k.waiter, k.cell, isLocal, here]

/-- A remote head takes the message into the lowest FREE delivery slot (R137). -/
theorem Pairable.pairOnce_remote (k : Pairable h c rest w ws r msg s) {d : Fin 8} (other : r.requester ≠ self s)
    (free : Lowest (fun d => delivery d s = none) d) :
    pairOnce true h s = some (serveRemote w r d h c (dropHead h s)) := by
  simp [pairOnce, k.messages, k.waiters, k.waiter, k.cell, isLocal, other, freeDeliverySlot_lowest free]

theorem Pairable.pairOnce_waits (k : Pairable h c rest w ws r msg s) (other : r.requester ≠ self s)
    (full : ∀ d : Fin 8, delivery d s ≠ none) : pairOnce true h s = none := by
  simp [pairOnce, k.messages, k.waiters, k.waiter, k.cell, isLocal, other, freeDeliverySlot_none full]

end

/-- In the first pass a mailbox with a remote head waits. -/
theorem pairOnce_remote_head {h : Fin 16} {w : Fin 32} {ws : List (Fin 32)} {r : Waiter}
    (waiters : (hostedSlot h s).waiters = w :: ws) (hr : waiter w s = some r) (other : r.requester ≠ self s) :
    pairOnce false h s = none := by
  unfold pairOnce
  split
  next v vs _ waiters' =>
    cases waiters.symm.trans waiters'
    rw [hr]
    split
    next q msg same _ =>
      cases same
      simp [isLocal, other]
    · rfl
  · rfl

theorem removeWaiter_messages (w : Fin 32) (h : Fin 16) (s : State) :
    (hostedSlot h (removeWaiter w s)).messages = (hostedSlot h s).messages := by
  unfold removeWaiter
  split
  next r _ =>
    by_cases e : r.hosted = h
    · subst e
      simp [hostedSlot, setHosted]
    · simp [hostedSlot, setHosted, look_put_ne _ _ _ _ e]
  · rfl

/-- A pairing takes the head message of its mailbox. -/
theorem pairOnce_messages {b : Bool} {h : Fin 16} (k : pairOnce b h s = some u) :
    (hostedSlot h s).messages ≠ [] ∧ (hostedSlot h u).messages = (hostedSlot h s).messages.tail := by
  have dropped (v : State) (e : v.store.hosted = (dropHead h s).store.hosted) :
      (hostedSlot h v).messages = (hostedSlot h s).messages.tail := by
    simp [hostedSlot, e, dropHead, setHosted]
  unfold pairOnce at k
  split at k
  next c rest w ws messages _ =>
    refine ⟨by simp [messages], ?_⟩
    split at k
    next r msg _ _ =>
      split at k
      · cases k
        have store := serveLocal_store w r msg (setCell c none (dropHead h s))
        rw [hostedSlot, store]
        exact (removeWaiter_messages w h _).trans (dropped _ rfl)
      · split at k
        · split at k
          next d _ =>
            cases k
            have hosted : hostedSlot h (serveRemote w r d h c (dropHead h s)) = hostedSlot h (removeWaiter w (dropHead h s)) := by
              have ⟨filled, _⟩ := fillDelivery_views d h c r.requester r.tag
                (revise r.requester r.tag .parked (.delivering d) (removeWaiter w (dropHead h s)))
              have ⟨revised, _⟩ := revise_views r.requester r.tag .parked (.delivering d) (removeWaiter w (dropHead h s))
              exact (filled h).trans (by rw [hostedSlot, revised, hostedSlot])
            rw [hosted]
            exact (removeWaiter_messages w h _).trans (dropped _ rfl)
          · cases k
        · cases k
    · cases k
  · cases k

theorem pairAt_stop {b : Bool} {h : Fin 16} (k : pairOnce b h s = none) : pairAt b h s = s := by
  unfold pairAt
  cases (hostedSlot h s).messages.length <;> simp [pairTimes, k]

theorem pairAt_next {b : Bool} {h : Fin 16} (k : pairOnce b h s = some u) : pairAt b h s = pairAt b h u := by
  obtain ⟨some, tail⟩ := pairOnce_messages k
  obtain ⟨c, rest, messages⟩ := List.exists_cons_of_ne_nil some
  rw [pairAt, pairAt, tail, messages]
  simp [pairTimes, k]

/-- An operation that does nothing at any place of a table does nothing at all of them. -/
theorem forEach_nothing {n : Nat} {f : Fin n → State → State} (h : ∀ i, f i s = s) : forEach f s = s :=
  forEach_keeps (fun u => u = s) f (fun i _ e => e ▸ h i) s rfl

/-- Where no mailbox holds both a message and a waiter, pairing has nothing to do (R131). -/
theorem pairing_nothing (k : ∀ h : Fin 16, (hostedSlot h s).messages = [] ∨ (hostedSlot h s).waiters = []) :
    pairing s = s := by
  have stop (b : Bool) : forEach (pairAt b) s = s := forEach_nothing fun h => pairAt_stop (pairOnce_nothing (k h))
  rw [pairing, stop, stop]

/-- Settles O47. -/
theorem deliveryAndPairing : Obligations.DeliveryAndPairing := by
  refine ⟨fun d h c x g msg s hc => ⟨fillDelivery_room hc, fillDelivery_full⟩, fun h s => ⟨?once, pairing_nothing⟩,
    fun s => rfl, fun b h s => ⟨pairAt_stop, fun _ => pairAt_next, pairOnce_nothing, fun w ws r => pairOnce_remote_head⟩,
    fun s => rfl, fun d s => ⟨offerPlaceTo_full, fun y => offerPlaceTo_room⟩⟩
  intro c rest w ws r msg messages waiters hr hosted hc
  have pair : Pairable h c rest w ws r msg s := ⟨messages, waiters, hr, hosted, hc⟩
  refine ⟨fun b here => ?_, fun d other free => ?_, pair.pairOnce_waits⟩
  · have apart : removeWaiter w (setCell c none (dropHead h s)) = setCell c none (removeWaiter w (dropHead h s)) := by
      rw [removeWaiter_eq (s := setCell c none (dropHead h s)) hr, removeWaiter_eq (s := dropHead h s) hr]
      rfl
    rw [pair.pairOnce_local b here, serveLocal, apart, pair.removeWaiter]
    rfl
  · rw [pair.pairOnce_remote other free, serveRemote, pair.removeWaiter]

/-! ### CANCEL and DELIVER_ACK items -/

theorem takeCancel_new {x : Fin 32} {g : Byte} (h : ∀ r, exchange x s ≠ some ⟨g, .cancel r⟩) :
    takeCancel x g s = takeNewCancel x g s := by
  unfold takeCancel
  split
  next g' r e =>
    by_cases same : g' = g
    · exact absurd (same ▸ e) (h r)
    · rw [if_neg same]
  · rfl

theorem takeCancel_repeat {x : Fin 32} {g : Byte} {r : CancelResult} (h : exchange x s = some ⟨g, .cancel r⟩) :
    takeCancel x g s = if answerRoom s then answer x (.cancelReply g r) s else countShed s := by
  simp [takeCancel, h]

theorem ackedSlot_lowest {x : Fin 32} {g q : Byte} {d : Fin 8}
    (h : Lowest (fun d => ∃ y, delivery d s = some y ∧ y.dest = x ∧ y.tag = g ∧ y.dseq = q) d) :
    ackedSlot x g q s = some d :=
  find_lowest (h.congr fun e => by cases delivery e s <;> simp [and_assoc])

theorem ackedSlot_none {x : Fin 32} {g q : Byte}
    (h : ∀ d y, delivery d s = some y → ¬ (y.dest = x ∧ y.tag = g ∧ y.dseq = q)) : ackedSlot x g q s = none :=
  find_none fun d => by
    cases k : delivery d s with
    | none => rfl
    | some y => simpa using h d y k

/-- Settles O52. -/
theorem cancelAndAckItems : Obligations.CancelAndAckItems := by
  intro x m g q v s
  refine ⟨fun new room => ⟨fun w found => ?removed, fun none => ⟨fun slot => ?late, fun noSlot => ?unknown⟩⟩,
    fun r again room => ?again, fun full => ?shed, fun none => ?unmatched, fun d lowest => ?acked⟩
  case removed =>
    simp only [routeItem]
    rw [takeCancel_new new, takeNewCancel, (answerRoom_iff s).mpr room, found]
    rfl
  case late =>
    have slot' : (deliveryTo x g s).isSome = true := Option.isSome_iff_ne_none.mpr slot
    simp only [routeItem]
    rw [takeCancel_new new, takeNewCancel, (answerRoom_iff s).mpr room, none, slot']
    rfl
  case unknown =>
    simp only [routeItem]
    rw [takeCancel_new new, takeNewCancel, (answerRoom_iff s).mpr room, none, noSlot]
    rfl
  case again =>
    simp only [routeItem]
    rw [takeCancel_repeat again, if_pos ((answerRoom_iff s).mpr room)]
  case shed =>
    have noRoom := answerRoom_full full
    simp only [routeItem]
    by_cases again : ∃ r, exchange x s = some ⟨g, .cancel r⟩
    · obtain ⟨r, again⟩ := again
      rw [takeCancel_repeat again, noRoom]
      rfl
    · rw [takeCancel_new (not_exists.mp again), takeNewCancel, noRoom]
      rfl
  case unmatched => simp only [routeItem, takeDeliverAck, ackedSlot_none none]
  case acked =>
    constructor <;> simp only [routeItem, takeDeliverAck, ackedSlot_lowest lowest] <;> rfl

end Sys2Proof.Machine

/-! SUPPORT. The PUT and TAKE items of other stations at the Mailbox Store (R114 to R117, R132 to R134). -/

namespace Sys2Proof.Machine

variable {s t : State}

/-! ### PUT items -/

theorem takePut_repeat {x : Fin 32} {m : Fin 64} {g : Byte} {data : List Byte} {r : PutResult}
    (h : exchange x s = some ⟨g, .put r⟩) :
    takePut x m g data s = if answerRoom s then answer x (.putReply g r) s else countShed s := by
  simp [takePut, h]

theorem takePut_new {x : Fin 32} {m : Fin 64} {g : Byte} {data : List Byte}
    (h : ∀ r, exchange x s ≠ some ⟨g, .put r⟩) : takePut x m g data s = takeNewPut x m g data s := by
  unfold takePut
  split
  next g' r e =>
    by_cases same : g' = g
    · exact absurd (same ▸ e) (h r)
    · rw [if_neg same]
  · rfl

theorem takePut_full {x : Fin 32} {m : Fin 64} {g : Byte} {data : List Byte} (full : 24 ≤ s.queue.classA.length) :
    takePut x m g data s = countShed s := by
  have noRoom := answerRoom_full full
  by_cases again : ∃ r, exchange x s = some ⟨g, .put r⟩
  · obtain ⟨r, again⟩ := again
    rw [takePut_repeat again, noRoom]
    rfl
  · rw [takePut_new (not_exists.mp again), takeNewPut, noRoom]
    rfl

/-- A PUT taken as new is answered and remembered with the result of its placement, and then it is placed (R116). -/
theorem takeNewPut_place {x : Fin 32} {m : Fin 64} {g : Byte} {data : List Byte} {h : Fin 16}
    (room : s.queue.classA.length < 24) (slot : openSlotOf m s = some h) :
    takeNewPut x m g data s =
      place (placement h s) h ⟨x, data⟩
        { s with
          queue :=
            { s.queue with
              classA := s.queue.classA ++ [newItem ⟨.station x, .putReply g (placementResult (placement h s))⟩ .nobody] }
          store :=
            { s.store with
              exchange := put s.store.exchange x (some ⟨g, .put (placementResult (placement h s))⟩) } } := by
  rw [takeNewPut, (answerRoom_iff s).mpr room, slot]
  exact congrArg (place (placement h s) h ⟨x, data⟩) (answer_room (s := remember x g _ s) room)

/-- A local waiter served: its record and its place in its list are gone, and its entry finishes with the message. -/
theorem serveLocal_eq {w : Fin 32} {r : Waiter} (msg : Message) (hr : waiter w s = some r) :
    serveLocal w r msg s =
      finish (slotOfTag r.tag) .delivered
        { s with
          store :=
            { s.store with
              waiters := put s.store.waiters w none
              hosted :=
                put s.store.hosted r.hosted
                  { hostedSlot r.hosted s with
                    waiters := (hostedSlot r.hosted s).waiters.filter fun v => v ≠ w } }
          engine :=
            { s.engine with
              entries :=
                put s.engine.entries (slotOfTag r.tag)
                  { entry (slotOfTag r.tag) s with
                    result := { status := none, origin := msg.origin, data := msg.data } } } } := by
  rw [serveLocal, removeWaiter_eq hr]
  rfl

/-- A remote waiter served: its record and its place in its list are gone, and a delivery slot takes the message. -/
theorem serveRemote_eq {w : Fin 32} {r : Waiter} (d : Fin 8) (h : Fin 16) (c : Fin 64) (hr : waiter w s = some r) :
    serveRemote w r d h c s =
      fillDelivery d h c r.requester r.tag
        (revise r.requester r.tag .parked (.delivering d)
          { s with
            store :=
              { s.store with
                waiters := put s.store.waiters w none
                hosted :=
                  put s.store.hosted r.hosted
                    { hostedSlot r.hosted s with
                      waiters := (hostedSlot r.hosted s).waiters.filter fun v => v ≠ w } } }) := by
  rw [serveRemote, removeWaiter_eq hr]

/-- Settles O50. -/
theorem putItemEffect : Obligations.PutItemEffect := by
  intro x m g data s
  refine ⟨takePut_full, fun room => ⟨fun r again => ?again, fun new => ⟨fun noSlot => ?noMailbox,
    fun h slot unserved => ⟨fun full => ?full, fun room' noCell => ?noSpace, fun c room' free => ?stored⟩,
    fun h w rest r slot waiters hr hosted => ⟨fun here => ?handLocal, fun d c other room' free cells => ?handRemote⟩⟩⟩⟩
  case again => exact (takePut_repeat again).trans ((if_pos ((answerRoom_iff s).mpr room)).trans (answer_room room))
  all_goals refine (takePut_new new).trans ?_
  case noMailbox =>
    rw [takeNewPut, (answerRoom_iff s).mpr room, noSlot]
    exact answer_room (s := remember x g (.put .noMailbox) s) room
  all_goals rw [takeNewPut_place room slot]
  case full =>
    rw [placement_unserved unserved, placeStored_full full]
    rfl
  case noSpace =>
    rw [placement_unserved unserved, placeStored_noSpace room' noCell]
    rfl
  case stored =>
    rw [placement_unserved unserved, placeStored_store room' free]
    rfl
  case handLocal =>
    subst hosted
    rw [placement_local waiters hr here, place]
    exact serveLocal_eq ⟨x, data⟩ hr
  case handRemote =>
    subst hosted
    rw [placement_remote waiters hr other room' free cells, place]
    exact serveRemote_eq d r.hosted c hr

/-! ### The old pair of a TAKE -/

theorem clearOldPair_nothing {x : Fin 32} {g : Byte} (noWaiter : waiterOf x g s = none)
    (noSlot : deliveryTo x g s = none) : clearOldPair x g s = s := by
  simp [clearOldPair, noWaiter, noSlot]

theorem removeWaiter_deliveryTo (x : Fin 32) (g : Byte) (w : Fin 32) (s : State) :
    deliveryTo x g (removeWaiter w s) = deliveryTo x g s := by
  unfold removeWaiter
  split <;> rfl

theorem clearOldPair_waiter {x : Fin 32} {g : Byte} {w : Fin 32} (found : waiterOf x g s = some w)
    (noSlot : deliveryTo x g s = none) : clearOldPair x g s = removeWaiter w s := by
  simp [clearOldPair, found, removeWaiter_deliveryTo, noSlot]

theorem clearOldPair_slot {x : Fin 32} {g : Byte} {d : Fin 8} (slot : deliveryTo x g s = some d) :
    clearOldPair x g s =
      returnMessage d (match waiterOf x g s with | some w => removeWaiter w s | none => s) := by
  cases found : waiterOf x g s <;> simp [clearOldPair, found, removeWaiter_deliveryTo, slot]

theorem releaseTo_own {d : Fin 8} {y : Delivery} (h : delivery d s = some y) :
    releaseTo y.dest d s = returnMessage d s := by
  simp [releaseTo, h]

theorem dropWaiterOf_own {w : Fin 32} {r : Waiter} (h : waiter w s = some r) :
    dropWaiterOf r.requester w s = removeWaiter w s := by
  simp [dropWaiterOf, h]

/-! ### The course of a TAKE taken as new -/

theorem waitCourse_empty {h : Fin 16} (messages : (hostedSlot h s).messages = []) :
    waitCourse h 0#8 s = .reply .empty := by
  simp [waitCourse, messages]

theorem waitCourse_busy {h : Fin 16} (messages : (hostedSlot h s).messages ≠ []) :
    waitCourse h 0#8 s = .reply .homeBusy := by
  simp [waitCourse, messages]

theorem waitCourse_full {h : Fin 16} {wait : Byte} (nonzero : wait ≠ 0#8) (full : ∀ w : Fin 32, waiter w s ≠ none) :
    waitCourse h wait s = .reply .waitFull := by
  rw [waitCourse, if_neg nonzero, freeWaiter_none full]

theorem waitCourse_park {h : Fin 16} {wait : Byte} {w : Fin 32} (nonzero : wait ≠ 0#8)
    (free : Lowest (fun w => waiter w s = none) w) : waitCourse h wait s = .park w := by
  rw [waitCourse, if_neg nonzero, freeWaiter_lowest free]

/-- The head message is given where no one waits and a delivery slot is FREE (R133 step 4). -/
theorem takeCourse_deliver {h : Fin 16} {wait : Byte} {c : Fin 64} {rest : List (Fin 64)} {d : Fin 8}
    (messages : (hostedSlot h s).messages = c :: rest) (waiters : (hostedSlot h s).waiters = [])
    (free : Lowest (fun d => delivery d s = none) d) : takeCourse h wait s = .deliver d c := by
  simp [takeCourse, messages, waiters, freeDeliverySlot_lowest free]

/-- No message can be given at once: step 5 of R133 is reached. -/
theorem takeCourse_wait {h : Fin 16} {wait : Byte}
    (k : (hostedSlot h s).messages = [] ∨ (hostedSlot h s).waiters ≠ [] ∨ ∀ d : Fin 8, delivery d s ≠ none) :
    takeCourse h wait s = waitCourse h wait s := by
  unfold takeCourse
  split
  next c rest messages waiters =>
    have full : ∀ d : Fin 8, delivery d s ≠ none := by simpa [messages, waiters] using k
    rw [freeDeliverySlot_none full]
  · rfl

theorem takeNewTake_full {x : Fin 32} {m : Fin 64} {g : Byte} {p : Fin 4} {wait : Byte}
    (full : 24 ≤ s.queue.classA.length) : takeNewTake x m g p wait s = countShed s := by
  rw [takeNewTake, answerRoom_full full]
  rfl

theorem takeNewTake_noMailbox {x : Fin 32} {m : Fin 64} {g : Byte} {p : Fin 4} {wait : Byte}
    (room : s.queue.classA.length < 24) (noSlot : openSlotOf m (clearOldPair x g s) = none) :
    takeNewTake x m g p wait s = offerPlaces (pairing (replyTake x g .noMailbox (clearOldPair x g s))) := by
  simp [takeNewTake, (answerRoom_iff s).mpr room, noSlot]

section
variable {x : Fin 32} {m : Fin 64} {g : Byte} {p : Fin 4} {wait : Byte} {h : Fin 16}

theorem takeNewTake_reply {r : TakeResult} (room : s.queue.classA.length < 24)
    (slot : openSlotOf m (clearOldPair x g s) = some h)
    (course : takeCourse h wait (clearOldPair x g s) = .reply r) :
    takeNewTake x m g p wait s = offerPlaces (pairing (replyTake x g r (clearOldPair x g s))) := by
  simp [takeNewTake, (answerRoom_iff s).mpr room, slot, course]

theorem takeNewTake_deliver {d : Fin 8} {c : Fin 64} (room : s.queue.classA.length < 24)
    (slot : openSlotOf m (clearOldPair x g s) = some h)
    (course : takeCourse h wait (clearOldPair x g s) = .deliver d c) :
    takeNewTake x m g p wait s =
      offerPlaces (pairing
        (fillDelivery d h c x g (remember x g (.take (.delivering d)) (dropHead h (clearOldPair x g s))))) := by
  simp [takeNewTake, (answerRoom_iff s).mpr room, slot, course]

theorem takeNewTake_park {w : Fin 32} (room : s.queue.classA.length < 24)
    (slot : openSlotOf m (clearOldPair x g s) = some h)
    (course : takeCourse h wait (clearOldPair x g s) = .park w) :
    takeNewTake x m g p wait s =
      offerPlaces (pairing (replyTake x g .parked (makeWaiter w h x g p wait (clearOldPair x g s)))) := by
  simp [takeNewTake, (answerRoom_iff s).mpr room, slot, course]

end

/-! ### Repeated TAKEs -/

theorem takeTake_new {x : Fin 32} {m : Fin 64} {g : Byte} {p : Fin 4} {wait : Byte}
    (new : ∀ last, exchange x s = some ⟨g, .take last⟩ → last = .returned ∨ last = .expired) :
    takeTake x m g p wait s = takeNewTake x m g p wait s := by
  unfold takeTake
  split
  next g' last e =>
    by_cases same : g' = g
    · rw [if_pos same]
      obtain rfl | rfl := new last (same ▸ e) <;> rfl
    · rw [if_neg same]
  · rfl

theorem takeTake_replied {x : Fin 32} {m : Fin 64} {g : Byte} {p : Fin 4} {wait : Byte} {r : TakeResult}
    (known : r ≠ .expired) (h : exchange x s = some ⟨g, .take (repliedOutcome r)⟩) :
    takeTake x m g p wait s = repeatTakeReply x g r s := by
  cases r
  case expired => exact absurd rfl known
  all_goals simp [takeTake, h, repliedOutcome]

theorem takeTake_delivering {x : Fin 32} {m : Fin 64} {g : Byte} {p : Fin 4} {wait : Byte} {d : Fin 8}
    (h : exchange x s = some ⟨g, .take (.delivering d)⟩) : takeTake x m g p wait s = repeatDelivering x g d s := by
  simp [takeTake, h]

theorem repeatDelivering_sent {d : Fin 8} {y : Delivery} {moment : Word} (h : delivery d s = some y)
    (sent : y.state = .sent moment) :
    repeatDelivering y.dest y.tag d s = if answerRoom s then requeueDelivery d y s else countShed s := by
  simp [repeatDelivering, h, sent]

theorem repeatDelivering_other {x : Fin 32} {g : Byte} {d : Fin 8} {y : Delivery} (h : delivery d s = some y)
    (k : y.state = .unqueued ∨ y.state = .queued ∨ y.dest ≠ x ∨ y.tag ≠ g) : repeatDelivering x g d s = s := by
  simp only [repeatDelivering, h]
  split
  next moment sent =>
    have apart : y.dest ≠ x ∨ y.tag ≠ g := by simpa [sent] using k
    exact if_neg (by simpa [← not_and_or] using apart)
  · rfl

theorem repeatDelivering_free {x : Fin 32} {g : Byte} {d : Fin 8} (h : delivery d s = none) :
    repeatDelivering x g d s = s := by
  simp [repeatDelivering, h]

/-- Settles O51. -/
theorem takeItemEffect : Obligations.TakeItemEffect := by
  intro x m g p wait s
  refine ⟨fun r known again => ?replied, fun d again => ⟨fun y moment hy dest tag sent => ?sent,
      fun y hy other => (takeTake_delivering again).trans (repeatDelivering_other hy other),
      fun free => (takeTake_delivering again).trans (repeatDelivering_free free)⟩,
    fun new => ⟨fun full => (takeTake_new new).trans (takeNewTake_full full), fun room => ?new⟩,
    clearOldPair_nothing, fun v => clearOldPair_waiter, fun d => clearOldPair_slot,
    fun d y hy => (releaseTo_own hy).symm, fun v r hr => (dropWaiterOf_own hr).symm⟩
  case replied =>
    have known' : r ≠ .expired := by
      rintro rfl
      simp at known
    have row := takeTake_replied (m := m) (p := p) (wait := wait) known' again
    exact ⟨fun room => row.trans (if_pos ((answerRoom_iff s).mpr room)),
      fun full => row.trans (if_neg (by simp [answerRoom_full full]))⟩
  case sent =>
    subst dest tag
    have row := (takeTake_delivering (m := m) (p := p) (wait := wait) again).trans (repeatDelivering_sent hy sent)
    refine ⟨fun room => row.trans ?_, fun full => row.trans (if_neg (by simp [answerRoom_full full]))⟩
    rw [if_pos ((answerRoom_iff s).mpr room), requeueDelivery_room room]
    rfl
  case new =>
    have asNew := takeTake_new (m := m) (p := p) (wait := wait) new
    refine ⟨fun noSlot => asNew.trans (takeNewTake_noMailbox room noSlot), fun h slot => ⟨?_, ?_, ?_, ?_⟩⟩
    · intro c rest d messages waiters free
      exact asNew.trans (takeNewTake_deliver room slot (takeCourse_deliver messages waiters free))
    · rintro messages rfl
      exact asNew.trans
        (takeNewTake_reply room slot ((takeCourse_wait (.inl messages)).trans (waitCourse_empty messages)))
    · rintro messages busy rfl
      exact asNew.trans (takeNewTake_reply room slot ((takeCourse_wait (.inr busy)).trans (waitCourse_busy messages)))
    · intro busy nonzero
      have waits := takeCourse_wait (wait := wait) busy
      exact ⟨fun full => asNew.trans (takeNewTake_reply room slot (waits.trans (waitCourse_full nonzero full))),
        fun v free => asNew.trans (takeNewTake_park room slot (waits.trans (waitCourse_park nonzero free)))⟩

end Sys2Proof.Machine

/-! SUPPORT. The roster and the directory: what is heard and missed, the absence of a station, and the items about mailbox
numbers (R75 to R81, R90 to R100, R168, R169). -/

namespace Sys2Proof.Machine

variable {s t : State} {x : Fin 32} {m : Fin 64}

/-! ### The roster -/

theorem heard_known (h : (rosterEntry x s).presence ≠ .absent) :
    heard x s = setRoster x { presence := .present, missed := 0 } s := if_neg h

theorem heard_absent (h : (rosterEntry x s).presence = .absent) :
    heard x s = raiseNotice (.stationPresent x) (setRoster x { presence := .present, missed := 0 } s) := if_pos h

theorem missedTurn_self (h : x = self s) : missedTurn x s = s := if_pos h

section
variable (other : x ≠ self s)
include other

theorem missedTurn_silent (many : 8 ≤ (rosterEntry x s).missed) : missedTurn x s = s := by
  simp [missedTurn, other, many]

theorem missedTurn_counts (few : (rosterEntry x s).missed < 7) :
    missedTurn x s =
      setRoster x { rosterEntry x s with missed := (rosterEntry x s).missed + 1 } s := by
  have notMany : ¬ 8 ≤ (rosterEntry x s).missed := by omega
  rw [missedTurn, if_neg other, if_neg notMany, if_neg few.ne]

theorem missedTurn_eighth_unknown (seven : (rosterEntry x s).missed = 7) (h : (rosterEntry x s).presence ≠ .present) :
    missedTurn x s = setRoster x { presence := .absent, missed := 8 } s := by
  simp [missedTurn, other, seven, h]

theorem missedTurn_eighth_present (seven : (rosterEntry x s).missed = 7) (h : (rosterEntry x s).presence = .present) :
    missedTurn x s = stationAbsent x .silent (setRoster x { presence := .absent, missed := 8 } s) := by
  simp [missedTurn, other, seven, h]

end

theorem takeFarewell_absent (h : (rosterEntry x s).presence = .absent) : takeFarewell x s = s := if_pos h

theorem takeFarewell_known (h : (rosterEntry x s).presence ≠ .absent) :
    takeFarewell x s = stationAbsent x .left (setRoster x { rosterEntry x s with presence := .absent } s) := if_neg h

theorem raiseNotice_room {r : Record} (room : s.port.completions.length < 16) :
    raiseNotice r s = { s with port := { s.port with completions := s.port.completions ++ [r] } } :=
  if_pos (decide_eq_true room)

theorem raiseNotice_full {r : Record} (full : 16 ≤ s.port.completions.length) :
    raiseNotice r s =
      { s with
        port :=
          { s.port with
            noticeLost := true
            counters := { s.port.counters with noticesLost := satInc s.port.counters.noticesLost } } } :=
  if_neg (by simpa [completionRoom] using full)

/-! ### The absence of a station -/

theorem homeLostAt_live {i : Fin 16} (home : (entry i s).home = some x) (live : isLive (entry i s) = true) :
    homeLostAt x i s = finish i .homeLost s := by
  simp [homeLostAt, home, live]

theorem homeLostAt_other {i : Fin 16} (h : (entry i s).home ≠ some x ∨ isLive (entry i s) = false) :
    homeLostAt x i s = s := by
  obtain home | free := h
  · simp [homeLostAt, home]
  · simp [homeLostAt, free]

theorem dropWaiterOf_other {w : Fin 32} (h : ∀ r, waiter w s = some r → r.requester ≠ x) : dropWaiterOf x w s = s := by
  unfold dropWaiterOf
  cases hr : waiter w s with
  | none => rfl
  | some r => simp [h r hr]

theorem releaseTo_other {d : Fin 8} (h : ∀ y, delivery d s = some y → y.dest ≠ x) : releaseTo x d s = s := by
  unfold releaseTo
  cases hy : delivery d s with
  | none => rfl
  | some y => simp [h y hy]

theorem absentAt_homed_silent (h : dirEntry m s = .homed x) : absentAt x .silent m s = setDirEntry m (.orphaned x) s := by
  simp [absentAt, h]

theorem absentAt_homed_left (h : dirEntry m s = .homed x) :
    absentAt x .left m s = mailboxGone m x (setDirEntry m .free s) := by
  simp [absentAt, h]

theorem absentAt_orphaned_silent (h : dirEntry m s = .orphaned x) : absentAt x .silent m s = s := by
  simp [absentAt, h]

theorem absentAt_orphaned_left (h : dirEntry m s = .orphaned x) : absentAt x .left m s = setDirEntry m .free s := by
  simp [absentAt, h]

theorem absentAt_other (cause : AbsenceCause) (homed : dirEntry m s ≠ .homed x) (orphaned : dirEntry m s ≠ .orphaned x) :
    absentAt x cause m s = s := by
  unfold absentAt
  split
  next y e => exact if_neg (by rintro rfl; exact homed e)
  next y e => exact if_neg (by rintro rfl; exact homed e)
  next y e => exact if_neg (by rintro rfl; exact orphaned e)
  · rfl

theorem setExchange_eq (e : Option Exchange) (s : State) :
    setExchange x e s = { s with store := { s.store with exchange := put s.store.exchange x e } } := rfl

/-- The steps of a taker's absence at the Mailbox Store (R123, R147). -/
theorem takerAbsent_eq (x : Fin 32) (s : State) :
    let left := (List.finRange 32).foldl (fun u w => dropWaiterOf x w u) s
    let back := (List.finRange 8).foldl (fun u d => releaseTo x d u) left
    takerAbsent x s =
      pairing (offerPlaces { back with store := { back.store with exchange := put back.store.exchange x none } }) := by
  intro left back
  have released : forEach (releaseTo x) (forEach (dropWaiterOf x) s) = back := rfl
  clear_value left back
  simp only [takerAbsent, released, setExchange_eq]

/-- Settles O48. -/
theorem rosterChangesAndNotices : Obligations.RosterChangesAndNotices := by
  refine ⟨fun x s => ⟨heard_known, heard_absent, missedTurn_self, missedTurn_silent, missedTurn_counts,
      missedTurn_eighth_unknown, missedTurn_eighth_present, takeFarewell_known, takeFarewell_absent⟩,
    fun r x cause s => ⟨raiseNotice_room, raiseNotice_full, rfl⟩,
    fun x s => ⟨rfl, fun i => ⟨fun home notFree notHeld => ?live, ?other⟩, takerAbsent_eq x s,
      fun w => ⟨fun r hr own => ?drops, dropWaiterOf_other⟩, fun d => ⟨fun y hy own => ?releases, releaseTo_other⟩,
      fun cause => ⟨rfl, fun m => ⟨?_, ?_, ?_, ?_, absentAt_other cause⟩⟩⟩⟩
  case live => exact homeLostAt_live home (by simp [isLive, notFree, notHeld])
  case other =>
    rintro (home | free | held)
    · exact homeLostAt_other (.inl home)
    · exact homeLostAt_other (.inr (by simp [isLive, free]))
    · exact homeLostAt_other (.inr (by simp [isLive, held]))
  case drops =>
    subst own
    exact (dropWaiterOf_own hr).trans (removeWaiter_eq hr)
  case releases =>
    subst own
    exact (releaseTo_own hy).trans (returnMessage_eq hy)
  · rintro h rfl
    exact absentAt_homed_silent h
  · rintro h rfl
    exact absentAt_homed_left h
  · rintro h rfl
    exact absentAt_orphaned_silent h
  · rintro h rfl
    exact absentAt_orphaned_left h

/-! ### CLAIM, RELEASE and DISPUTE items -/

theorem setDirEntry_eq (m : Fin 64) (e : DirEntry) (s : State) :
    setDirEntry m e s = { s with directory := { s.directory with entries := put s.directory.entries m e } } := rfl

theorem setDirEntry_discard (st : Status) (h : Fin 16) (m : Fin 64) (e : DirEntry) (s : State) :
    let u := offerPlaces (pairing (discardSteps st h s))
    setDirEntry m e (discard st h s) =
      { u with directory := { u.directory with entries := put u.directory.entries m e } } := by
  intro u
  have discarded : discard st h s = u := rfl
  clear_value u
  rw [discarded, setDirEntry_eq]

theorem takeClaim_unhomed (h : dirEntry m s = .free ∨ ∃ y, dirEntry m s = .orphaned y) :
    takeClaim x m s = setDirEntry m (.homed x) s := by
  obtain h | ⟨y, h⟩ := h <;> simp [takeClaim, h]

theorem takeClaim_claiming (h : dirEntry m s = .claiming) : takeClaim x m s = loseClaim x m s := by
  simp [takeClaim, h]

theorem takeClaim_again (other : x ≠ self s) (h : dirEntry m s = .homed x) : takeClaim x m s = s := by
  simp [takeClaim, h, other]

theorem takeClaim_conflict {y : Fin 32} (notX : y ≠ x) (notSelf : y ≠ self s) (h : dirEntry m s = .homed y) :
    takeClaim x m s = countConflict s := by
  simp [takeClaim, h, notX, notSelf]

theorem takeClaim_own (h : dirEntry m s = .homed (self s)) :
    takeClaim x m s = if answerRoom s then contest x m s else countShed s := by
  simp [takeClaim, h]

theorem contest_room (room : s.queue.classA.length < 24) :
    contest x m s =
      { s with
        port := (countConflict s).port
        queue := { s.queue with classA := s.queue.classA ++ [newItem ⟨.station x, .dispute m⟩ .nobody] } } :=
  answer_room (s := countConflict s) room

theorem broadcastEntry_lowest {k : RequestKind} {i : Fin 16}
    (h : Lowest (fun i => (entry i s).kind = k ∧ (entry i s).mailbox = m ∧ (entry i s).state = .queued) i) :
    broadcastEntry k m s = some i :=
  find_lowest (h.congr fun _ => by simp [and_assoc])

theorem broadcastEntry_none {k : RequestKind}
    (h : ∀ i : Fin 16, ¬ ((entry i s).kind = k ∧ (entry i s).mailbox = m ∧ (entry i s).state = .queued)) :
    broadcastEntry k m s = none :=
  find_none fun i => by simpa using h i

/-- The entry of the lost or won CLAIM, or of the sent RELEASE, finishes. -/
theorem finishBroadcast_lowest {k : RequestKind} {i : Fin 16} (st : Status)
    (h : Lowest (fun i => (entry i s).kind = k ∧ (entry i s).mailbox = m ∧ (entry i s).state = .queued) i) :
    finishBroadcast k m st s = finish i st s := by
  rw [finishBroadcast, broadcastEntry_lowest h]

/-- A pending claim lost: its hosted slot is blank and its entry finishes TAKEN (R92). -/
theorem loseClaim_eq {h : Fin 16} {i : Fin 16}
    (slot : Lowest (fun h => (hostedSlot h s).state ≠ .free ∧ (hostedSlot h s).mailbox = m) h)
    (request : Lowest (fun i => (entry i s).kind = .claim ∧ (entry i s).mailbox = m ∧ (entry i s).state = .queued) i) :
    loseClaim x m s = finish i .taken (setHosted h HostedSlot.blank (setDirEntry m (.homed x) s)) := by
  have found : usedSlotOf m (setDirEntry m (.homed x) s) = some h := usedSlotOf_lowest slot
  rw [loseClaim, freeClaimingSlot, found]
  exact finishBroadcast_lowest .taken request

theorem takeRelease_home (h : dirEntry m s = .homed x) :
    takeRelease x m s = mailboxGone m x (setDirEntry m .free s) := if_pos h

theorem takeRelease_other (h : dirEntry m s ≠ .homed x) : takeRelease x m s = s := if_neg h

theorem takeDispute_other (h : dirEntry m s ≠ .homed (self s)) : takeDispute x m s = s := if_neg h

theorem takeDispute_own (h : dirEntry m s = .homed (self s)) :
    takeDispute x m s = setDirEntry m (.homed x) (discardMailbox .lost m (raiseNotice (.mailboxLost m) s)) := if_pos h

theorem raiseNotice_openSlotOf (r : Record) (m : Fin 64) (s : State) :
    openSlotOf m (raiseNotice r s) = openSlotOf m s := by
  unfold raiseNotice
  split <;> rfl

/-! ### PRESENCE items -/

theorem takePresence_shed {bitmap : BitVec 64} (h : freePlaces s < contestedCount bitmap s) :
    takePresence x bitmap s = countShed s := if_pos h

theorem takePresence_fits {bitmap : BitVec 64} (h : contestedCount bitmap s ≤ freePlaces s) :
    takePresence x bitmap s = forEach (reconcile x bitmap) s := if_neg (Nat.not_lt.mpr h)

/-- A number that the sender lists is taken as its CLAIM would be, but for the shed. -/
theorem reconcile_listed {bitmap : BitVec 64} (h : bitmap.getLsbD m.val = true)
    (room : dirEntry m s = .homed (self s) → s.queue.classA.length < 24) :
    reconcile x bitmap m s = takeClaim x m s := by
  rw [reconcile, if_pos h, takeClaim]
  cases e : dirEntry m s
  case homed y =>
    by_cases own : y = self s
    · simp [own, (answerRoom_iff s).mpr (room (own ▸ e))]
    · simp [own]
  all_goals rfl

section
variable {bitmap : BitVec 64} (h : bitmap.getLsbD m.val = false)
include h

theorem reconcile_gone (homed : dirEntry m s = .homed x) :
    reconcile x bitmap m s = mailboxGone m x (setDirEntry m .free s) := by
  rw [reconcile, h, homed]
  exact if_pos rfl

theorem reconcile_orphan (orphaned : dirEntry m s = .orphaned x) :
    reconcile x bitmap m s = setDirEntry m .free s := by
  rw [reconcile, h, orphaned]
  exact if_pos rfl

theorem reconcile_other (homed : dirEntry m s ≠ .homed x) (orphaned : dirEntry m s ≠ .orphaned x) :
    reconcile x bitmap m s = s := by
  rw [reconcile, h, if_neg Bool.false_ne_true]
  cases e : dirEntry m s
  case homed y => exact if_neg (by rintro rfl; exact homed e)
  case orphaned y => exact if_neg (by rintro rfl; exact orphaned e)
  all_goals rfl

end

/-! ### A mailbox disappears -/

section
variable {i : Fin 16}

theorem goneAt_other (h : (entry i s).mailbox ≠ m ∨ (entry i s).home ≠ some x) : goneAt m x i s = s := by
  obtain h | h := h <;> simp [goneAt, h]

variable (mailbox : (entry i s).mailbox = m) (home : (entry i s).home = some x)
include mailbox home

theorem goneAt_unsent (h : (entry i s).state ∈ [EntryState.waiting, .queued]) :
    goneAt m x i s = finish i .noMailbox s := by
  obtain h | h : (entry i s).state = .waiting ∨ (entry i s).state = .queued := by simpa using h
  all_goals simp [goneAt, mailbox, home, h]

theorem goneAt_parked (h : (entry i s).state ∈ [EntryState.parked, .cancelWaiting, .cancelQueued]) :
    goneAt m x i s = finish i .closed s := by
  obtain h | h | h : (entry i s).state = .parked ∨ (entry i s).state = .cancelWaiting ∨
    (entry i s).state = .cancelQueued := by simpa using h
  all_goals simp [goneAt, mailbox, home, h]

end

theorem goneAt_inFlight {i : Fin 16}
    (h : (entry i s).state ∈ [EntryState.free, .sent, .localParked, .cancelSent, .late, .held]) : goneAt m x i s = s := by
  unfold goneAt
  split
  · split <;> simp_all
  · rfl

/-! ### Dispatch -/

theorem dispatchItem_closed {i : Item} (h : s.control.state = .leaving ∨ s.control.state = .offline) :
    dispatchItem x i s = s := by
  obtain h | h := h <;> simp [dispatchItem, dispatching, h]

theorem dispatchItem_elsewhere {i : Item} (broadcast : i.dest ≠ .broadcast) (station : i.dest ≠ .station (self s)) :
    dispatchItem x i s = s := by
  simp [dispatchItem, addressed, broadcast, station]

section
variable (onBus : s.control.state = .seeking ∨ s.control.state = .active)
include onBus

/-- In SEEKING and ACTIVE an item of another station with a DEST that is met here is routed to its block. -/
theorem dispatchItem_other {i : Item} (other : x ≠ self s) (dest : i.dest = .broadcast ∨ i.dest = .station (self s)) :
    dispatchItem x i s = routeItem x i.body s := by
  simp [dispatchItem, dispatching, addressed, onBus, dest, other]

theorem dispatchItem_own (b : ItemBody) : dispatchItem (self s) ⟨.broadcast, b⟩ s = ownItem b s := by
  simp [dispatchItem, dispatching, addressed, onBus]

end

theorem ownClaim_other (h : dirEntry m s ≠ .claiming) : ownClaim m s = s := if_neg h

/-- A pending claim won: its hosted slot is OPEN and empty, and its entry finishes OK (R90). -/
theorem ownClaim_eq {h : Fin 16} {i : Fin 16} (claiming : dirEntry m s = .claiming)
    (slot : Lowest (fun h => (hostedSlot h s).state ≠ .free ∧ (hostedSlot h s).mailbox = m) h)
    (request : Lowest (fun i => (entry i s).kind = .claim ∧ (entry i s).mailbox = m ∧ (entry i s).state = .queued) i) :
    ownClaim m s =
      finish i .ok
        (setHosted h { hostedSlot h s with state := .opened, messages := [], waiters := [] }
          (setDirEntry m (.homed (self s)) s)) := by
  have found : usedSlotOf m (setDirEntry m (.homed (self s)) s) = some h := usedSlotOf_lowest slot
  rw [ownClaim, if_pos claiming, openClaimedSlot, found]
  exact finishBroadcast_lowest .ok request

/-- Settles O49. -/
theorem directoryItems : Obligations.DirectoryItems := by
  intro x m s other
  refine ⟨takeClaim_unhomed, takeClaim_again other, fun y => takeClaim_conflict, fun own room => ?contest,
    fun own full => ?shed, fun h i claiming slot request => (takeClaim_claiming claiming).trans (loseClaim_eq slot request),
    takeRelease_home, takeRelease_other, takeDispute_other, fun own => ?disputed, fun h own slot => ?discards,
    fun own noSlot => ?noSlot,
    fun bitmap => ⟨fun many contested => takePresence_shed ?many, fun few => takePresence_fits ?few,
      fun bit => ⟨fun h => ?_, fun h => ?_, fun y notX notSelf h => ?_, fun h room => ?_, fun h => ?_⟩,
      fun bit => ⟨reconcile_gone bit, reconcile_orphan bit, reconcile_other bit⟩⟩,
    ⟨rfl, fun i => ⟨fun mailbox home => ⟨goneAt_unsent mailbox home, goneAt_parked mailbox home, goneAt_inFlight⟩,
      goneAt_other⟩⟩,
    fun on => ⟨fun h => ?notPending, fun h i claiming slot request => ?won, fun i request => ?released,
      fun none => ?nothing, fun bitmap => dispatchItem_own on _⟩,
    fun i => ⟨fun closed y => dispatchItem_closed closed, fun broadcast station y => dispatchItem_elsewhere broadcast station,
      fun on dest => dispatchItem_other on other dest, fun rest y => ⟨rfl, rfl⟩⟩⟩
  case contest => exact (takeClaim_own own).trans ((if_pos ((answerRoom_iff s).mpr room)).trans (contest_room room))
  case shed => exact (takeClaim_own own).trans (if_neg (by simp [answerRoom_full full]))
  case disputed => exact (congrArg (dirEntry m) (takeDispute_own own)).trans (by simp)
  case discards =>
    refine (takeDispute_own own).trans ?_
    rw [discardMailbox, raiseNotice_openSlotOf, slot]
    exact setDirEntry_discard .lost h m (.homed x) _
  case noSlot =>
    refine (takeDispute_own own).trans ?_
    rw [discardMailbox, raiseNotice_openSlotOf, noSlot]
    rfl
  case many =>
    rw [freePlaces, contestedCount]
    omega
  case few =>
    rw [freePlaces, contestedCount]
    omega
  · exact (reconcile_listed bit (by rintro e; simp [e] at h)).trans (takeClaim_unhomed h)
  · exact (reconcile_listed bit (by rintro e; simp_all)).trans (takeClaim_again other h)
  · exact (reconcile_listed bit (by rintro e; simp_all)).trans (takeClaim_conflict notX notSelf h)
  · exact (reconcile_listed bit fun _ => room).trans
      ((takeClaim_own h).trans ((if_pos ((answerRoom_iff s).mpr room)).trans (contest_room room)))
  · exact reconcile_listed bit (by rintro e; simp [e] at h)
  case notPending => exact (dispatchItem_own on _).trans (ownClaim_other h)
  case won => exact (dispatchItem_own on _).trans (ownClaim_eq claiming slot request)
  case released => exact (dispatchItem_own on _).trans (finishBroadcast_lowest .ok request)
  case nothing =>
    refine (dispatchItem_own on _).trans ?_
    rw [ownItem, ownRelease, finishBroadcast, broadcastEntry_none none]

end Sys2Proof.Machine

/-! SUPPORT. The ends of sessions: what releases of entries, waiters, delivery slots and cells leave unchanged, entries that
finish one after the other, and the session end (R52, R153, R172, R173). -/

namespace Sys2Proof.Machine

variable {s t u : State}

/-! ### Releases -/

/-- What the release of entries, waiters, delivery slots and cells leaves unchanged: the blocks it does not reach, the
records and held entries there are, and that an entry is not live or an order empty. -/
structure OnlyReleases (s t : State) : Prop where
  control : t.control = s.control
  line : t.line = s.line
  tracker : t.tracker = s.tracker
  roster : t.roster = s.roster
  directory : t.directory = s.directory
  onAir : t.queue.onAir = s.queue.onAir
  port : t.port = { s.port with completions := t.port.completions }
  dseq : t.store.dseq = s.store.dseq
  stamp : t.store.arrivalStamp = s.store.arrivalStamp
  rest : t.rstAsserted = s.rstAsserted ∧ t.pending = s.pending
  records : s.port.completions <+: t.port.completions
  held : s.engine.held <+: t.engine.held
  live : ∀ i : Fin 16, isLive (entry i t) = true → isLive (entry i s) = true
  orders : ∀ h : Fin 32, waitingOrder h s = [] → waitingOrder h t = []

namespace OnlyReleases

theorem refl (s : State) : OnlyReleases s s where
  control := rfl
  line := rfl
  tracker := rfl
  roster := rfl
  directory := rfl
  onAir := rfl
  port := rfl
  dseq := rfl
  stamp := rfl
  rest := ⟨rfl, rfl⟩
  records := List.prefix_refl _
  held := List.prefix_refl _
  live := fun _ => id
  orders := fun _ => id

theorem trans (h : OnlyReleases s t) (k : OnlyReleases t u) : OnlyReleases s u where
  control := k.control.trans h.control
  line := k.line.trans h.line
  tracker := k.tracker.trans h.tracker
  roster := k.roster.trans h.roster
  directory := k.directory.trans h.directory
  onAir := k.onAir.trans h.onAir
  port := by rw [k.port, h.port]
  dseq := k.dseq.trans h.dseq
  stamp := k.stamp.trans h.stamp
  rest := ⟨k.rest.1.trans h.rest.1, k.rest.2.trans h.rest.2⟩
  records := h.records.trans k.records
  held := h.held.trans k.held
  live := fun i => h.live i ∘ k.live i
  orders := fun x => k.orders x ∘ h.orders x

/-- Work on the Mailbox Store alone that keeps its two counters. -/
theorem of_store {m : MailboxStore} (dseq : m.dseq = s.store.dseq) (stamp : m.arrivalStamp = s.store.arrivalStamp) :
    OnlyReleases s (s.withStore m) :=
  { refl s with dseq := dseq, stamp := stamp }

theorem foldl {α : Type} {f : State → α → State} (hf : ∀ s a, OnlyReleases s (f s a)) (l : List α) (s : State) :
    OnlyReleases s (l.foldl f s) :=
  foldl_keeps (OnlyReleases s) f (fun t a k => k.trans (hf t a)) l s (refl s)

theorem forEach {n : Nat} {f : Fin n → State → State} (hf : ∀ i s, OnlyReleases s (f i s)) (s : State) :
    OnlyReleases s (forEach f s) :=
  forEach_keeps (OnlyReleases s) f (fun i t k => k.trans (hf i t)) s (refl s)

theorem recordsKept (h : OnlyReleases s t) : RecordsKept s t := ⟨h.records, h.held⟩

end OnlyReleases

theorem finish_releases (i : Fin 16) (st : Status) (s : State) : OnlyReleases s (finish i st s) := by
  have live := (finish_live i st s).2
  have orders (h : Fin 32) (k : waitingOrder h s = []) : waitingOrder h (finish i st s) = [] := by
    obtain ⟨-, order, -⟩ := finish_engine_eq i st s
    rw [order, k]
    simp
  by_cases room : s.port.completions.length < 16
  · rw [finish_room st room] at live orders ⊢
    exact ⟨rfl, rfl, rfl, rfl, rfl, rfl, rfl, rfl, rfl, ⟨rfl, rfl⟩, List.prefix_append .., List.prefix_refl _, live, orders⟩
  · rw [finish_full st (Nat.not_lt.mp room)] at live orders ⊢
    exact ⟨rfl, rfl, rfl, rfl, rfl, rfl, rfl, rfl, rfl, ⟨rfl, rfl⟩, List.prefix_refl _, List.prefix_append .., live, orders⟩

theorem removeWaiter_releases (w : Fin 32) (s : State) : OnlyReleases s (removeWaiter w s) := by
  unfold removeWaiter
  split
  · exact .of_store rfl rfl
  · exact .refl s

theorem removeLocalWaiter_releases (i : Fin 16) (s : State) : OnlyReleases s (removeLocalWaiter i s) := by
  unfold removeLocalWaiter
  split
  · exact removeWaiter_releases _ s
  · exact .refl s

theorem removeLocalWaiter_engine (i : Fin 16) (s : State) :
    (removeLocalWaiter i s).engine = s.engine ∧ (removeLocalWaiter i s).port = s.port := by
  unfold removeLocalWaiter removeWaiter
  repeat' split
  all_goals exact ⟨rfl, rfl⟩

theorem endEntry_releases (i : Fin 16) (s : State) : OnlyReleases s (endEntry i s) := by
  unfold endEntry
  split
  · refine OnlyReleases.trans ?_ (finish_releases i .sessionEnd _)
    split
    · exact removeLocalWaiter_releases i s
    · exact .refl s
  · exact .refl s

theorem clearWaiting_releases (s : State) : OnlyReleases s (clearWaiting s) :=
  { OnlyReleases.refl s with orders := fun h _ => by simp [waitingOrder, clearWaiting] }

theorem endEntries_releases (s : State) : OnlyReleases s (endEntries s) :=
  (OnlyReleases.forEach endEntry_releases s).trans (clearWaiting_releases _)

/-! ### Entries that finish in order -/

namespace FinishedInOrder

variable {st : Status} {l : List (Fin 16)} {i : Fin 16}

theorem nil (st : Status) (s : State) : FinishedInOrder st [] s s :=
  ⟨by simp, by simp, by simp, by simp, fun _ _ => rfl⟩

/-- What follows without effect on the entries, the held list and the records. -/
theorem after (k : FinishedInOrder st l s t) (engine : ∀ i, entry i u = entry i t) (held : u.engine.held = t.engine.held)
    (port : u.port.completions = t.port.completions) : FinishedInOrder st l s u where
  records := port.trans k.records
  held := held.trans k.held
  freed := fun i h => (engine i).trans (k.freed i h)
  kept := fun i h => (engine i).trans (k.kept i h)
  others := fun i h => (engine i).trans (k.others i h)

/-- What goes before without effect on them. -/
theorem before (k : FinishedInOrder st l t u) (engine : t.engine = s.engine)
    (port : t.port.completions = s.port.completions) : FinishedInOrder st l s u := by
  have same (i : Fin 16) : entry i t = entry i s := by rw [entry, engine, entry]
  have tag (i : Fin 16) : entryTag i t = entryTag i s := by rw [entryTag, same, entryTag]
  obtain ⟨records, held, freed, kept, others⟩ := k
  rw [engine, port] at held
  simp only [same, tag, port] at records freed kept others
  exact ⟨records, held, freed, kept, others⟩

/-- An entry that finishes first, and others after it. -/
theorem cons (k : FinishedInOrder st [i] s t) (k' : FinishedInOrder st l t u) (new : i ∉ l) :
    FinishedInOrder st (i :: l) s u := by
  have same (j : Fin 16) (h : j ∈ l) : entry j t = entry j s := k.others j (by rintro e; simp_all)
  have record (j : Fin 16) (h : j ∈ l) :
      Record.request (entry j t).kind (entryTag j t) st (entry j t).mailbox 0 [] =
        .request (entry j s).kind (entryTag j s) st (entry j s).mailbox 0 [] := by
    rw [entryTag, same j h, entryTag]
  obtain ⟨records, held, freed, kept, others⟩ := k'
  have others' (j : Fin 16) (h : j ∉ i :: l) : entry j u = entry j s := by
    obtain ⟨ne, h⟩ : j ≠ i ∧ j ∉ l := by simpa using h
    rw [others j h, k.others j (by simpa using ne)]
  obtain ⟨n, room⟩ : ∃ n, 16 - s.port.completions.length = n := ⟨_, rfl⟩
  cases n with
  | zero =>
    have tRecords : t.port.completions = s.port.completions := by simpa [room] using k.records
    rw [tRecords, room] at records held freed kept
    have tHeld := k.held
    have tKept := k.kept i
    simp only [room, List.drop_zero, List.mem_singleton, true_imp_iff] at tHeld tKept
    refine ⟨by simpa [room, tRecords] using records, by rw [room, held, tHeld]; simp, by simp [room], fun j h => ?_, others'⟩
    rw [room, List.drop_zero] at h
    obtain rfl | h := List.mem_cons.mp h
    · rw [others j new, tKept]
    · rw [kept j h, same j h]
  | succ n =>
    have tRecords := k.records
    have tHeld := k.held
    have tFreed := k.freed i
    simp only [room, List.take_succ_cons, List.take_nil, List.map_cons, List.map_nil, List.drop_succ_cons, List.drop_nil,
      List.append_nil, List.mem_singleton, true_imp_iff] at tRecords tHeld tFreed
    have left : 16 - t.port.completions.length = n := by
      rw [tRecords, List.length_append, List.length_singleton]
      omega
    rw [left] at records held freed kept
    refine ⟨?_, by rw [room, held, tHeld, List.drop_succ_cons], fun j h => ?_, fun j h => ?_, others'⟩
    · rw [records, tRecords, room, List.take_succ_cons, List.map_cons, List.append_assoc, List.singleton_append]
      rw [List.map_congr_left fun j h => record j (List.mem_of_mem_take h)]
    · rw [room, List.take_succ_cons] at h
      obtain rfl | h := List.mem_cons.mp h
      · rw [others j new, tFreed]
      · rw [freed j h, same j (List.mem_of_mem_take h)]
    · rw [room, List.drop_succ_cons] at h
      rw [kept j h, same j (List.mem_of_mem_drop h)]

end FinishedInOrder

/-- One entry that finishes with a status other than DELIVERED. -/
theorem finish_inOrder {st : Status} (other : st ≠ .delivered) (i : Fin 16) (s : State) :
    FinishedInOrder st [i] s (finish i st s) := by
  have elsewhere (j : Fin 16) (h : j ∉ [i]) : entry j (finish i st s) = entry j s :=
    (finish_engine_eq i st s).1 j (by simpa using h)
  by_cases room : s.port.completions.length < 16
  · obtain ⟨n, places⟩ : ∃ n, 16 - s.port.completions.length = n + 1 := ⟨15 - s.port.completions.length, by omega⟩
    rw [finish_room st room] at elsewhere ⊢
    refine ⟨?_, ?_, ?_, ?_, elsewhere⟩ <;> rw [places]
    · simp [recordOf, other, entryTag]
    · simp
    · simp [entry]
    · simp
  · have places : 16 - s.port.completions.length = 0 := by omega
    rw [finish_full st (Nat.not_lt.mp room)] at elsewhere ⊢
    refine ⟨?_, ?_, ?_, ?_, elsewhere⟩ <;> rw [places]
    · simp
    · simp
    · simp
    · simp [entry, finishedResult, other]

/-- A live entry that ends: alone, with SESSION_END. -/
theorem endEntry_inOrder {i : Fin 16} (live : isLive (entry i s) = true) :
    FinishedInOrder .sessionEnd [i] s (endEntry i s) := by
  rw [endEntry, if_pos live]
  refine (finish_inOrder (by simp) i _).before ?_ ?_ <;> split
  · exact (removeLocalWaiter_engine i s).1
  · rfl
  · rw [(removeLocalWaiter_engine i s).2]
  · rfl

theorem endEntry_idle {i : Fin 16} (idle : isLive (entry i s) = false) : endEntry i s = s := by
  simp [endEntry, idle]

/-- The live entries of a list of slots end in the order of the list. -/
theorem endEntry_list (l : List (Fin 16)) (once : l.Nodup) (s : State) :
    FinishedInOrder .sessionEnd (l.filter fun i => isLive (entry i s)) s (l.foldl (fun t i => endEntry i t) s) := by
  induction l generalizing s with
  | nil => exact .nil _ s
  | cons i l ih =>
    obtain ⟨new, once⟩ := List.nodup_cons.mp once
    rw [List.foldl_cons]
    by_cases live : isLive (entry i s) = true
    · have first := endEntry_inOrder live
      have same : (l.filter fun j => isLive (entry j (endEntry i s))) = l.filter fun j => isLive (entry j s) :=
        List.filter_congr fun j h => by rw [first.others j (by rintro e; simp_all)]
      rw [List.filter_cons, if_pos live, ← same]
      exact first.cons (ih once _) fun h => new (List.mem_of_mem_filter h)
    · rw [List.filter_cons, if_neg live, endEntry_idle (by simpa using live)]
      exact ih once s

/-- Every live entry finishes SESSION_END, in slot order (R172). -/
theorem endEntries_ended (s : State) : LiveEntriesEnded s (endEntries s) := by
  have ended := endEntry_list _ (List.nodup_finRange 16) s
  unfold endEntries forEach
  generalize (List.finRange 16).foldl (fun t i => endEntry i t) s = b at ended ⊢
  exact ended.after (fun _ => rfl) rfl rfl

theorem isLive_eq_false_iff (e : Entry) : isLive e = false ↔ e.state = .free ∨ e.state = .held := by
  by_cases free : e.state = .free <;> simp [isLive, free]

theorem endEntries_nothingLive (s : State) : NothingLive (endEntries s) := by
  obtain ⟨-, -, -, -, -, live, orders⟩ := endEntries_keeps s
  exact ⟨fun i => (isLive_eq_false_iff _).mp (live i), orders⟩

/-! ### The session end -/

/-- What a session end makes of the state (R20, R39, R52, R72, R86, R108, R128, R172, R194). -/
theorem sessionEnd_ended (cause : EndCause) (s : State) : SessionEnded cause s (sessionEnd cause s) := by
  have released := endEntries_releases s
  have ended := endEntries_ended s
  have nothing := endEntries_nothingLive s
  unfold sessionEnd
  generalize endEntries s = b at released ended nothing
  exact
    { control := by simp [enterState, recordCause, clearSession, released.control]
      line := by simp [enterState, recordCause, clearSession, LineUnit.stopped, released.line]
      tracker := by simp [enterState, recordCause, clearSession, TurnTracker.stopped, released.tracker]
      queue := rfl
      roster := fun x => by simp [rosterEntry, enterState, recordCause, clearSession, RosterEntry.blank]
      directory := ⟨rfl, fun m => by simp [dirEntry, enterState, recordCause, clearSession, Directory.reset]⟩
      store := by simp [enterState, recordCause, clearSession, released.dseq, released.stamp]
      engine := nothing
      ended := ended.after (fun _ => rfl) rfl rfl
      records := released.recordsKept
      port := by
        have := released.port
        simp only [enterState, recordCause, clearSession]
        rw [this]
      rest := released.rest }

end Sys2Proof.Machine

/-! SUPPORT. Reception: pieces of activity, verdicts, and what the Turn Tracker and Station Control make of them (R2 to R11,
R23 to R31, R47, R50). -/

namespace Sys2Proof.Machine

variable {s t u : State} {ch : LineChar} {start m : Moment} {x : Fin 32}

/-! ### Verdicts at the tracker -/

theorem loseSync_unsynced (h : s.tracker.rotation = none) : loseSync s = s := by simp [loseSync, h]

theorem loseSync_synced (h : s.tracker.rotation ≠ none) :
    loseSync s = syncLost (s.withTracker { s.tracker with rotation := none, ownTurnOpen := false }) := by
  rw [loseSync, if_pos (Option.isSome_iff_ne_none.mpr h)]

theorem loseSync_active (h : s.tracker.rotation ≠ none) (active : s.control.state = .active) :
    loseSync s = seekingAgain s := by
  simp only [loseSync_synced h, syncLost, State.withTracker, active]
  rfl

/-- A tracker that stands between turns without a rotation ends a session as the state with one does. -/
theorem SessionEnded.of_unsynced {cause : EndCause}
    (k : SessionEnded cause (s.withTracker { s.tracker with rotation := none, ownTurnOpen := false }) t) :
    SessionEnded cause s t :=
  ⟨k.control, k.line, k.tracker, k.queue, k.roster, k.directory, k.store, k.engine, k.ended.before rfl rfl, k.records, k.port, k.rest⟩

theorem loseSync_leaving (h : s.tracker.rotation ≠ none) (leaving : s.control.state = .leaving) :
    SessionEnded .leftUnannounced s (loseSync s) := by
  simp only [loseSync_synced h, syncLost, withTracker_control, leaving]
  exact (sessionEnd_ended .leftUnannounced _).of_unsynced

theorem syncGained_seeking (h : s.control.state = .seeking) : syncGained s = enterState .active s := if_pos h

/-- Settles O35. -/
theorem verdictEffects : Obligations.VerdictEffects := by
  refine fun m s => ⟨fun none => ⟨loseSync_unsynced none, loseSync_unsynced none⟩,
    fun synced active => ⟨loseSync_active synced active, loseSync_active synced active⟩,
    fun synced leaving => ⟨loseSync_leaving synced leaving, loseSync_leaving synced leaving⟩, fun x r h => ?_,
    fun x h seeking => ?_⟩
  · exact ⟨fun own => by simp only [frameToTracker, h, if_pos own]; rfl,
      fun other => by simp only [frameToTracker, h, if_neg other]; rfl⟩
  · simp only [frameToTracker, h]
    exact syncGained_seeking seeking

/-! ### Activity that closes by silence -/

theorem closeBySilence_open (on : s.control.state ≠ .offline) (open' : s.line.rx = .assembling ∨ s.line.rx = .discarding)
    (free : s.line.tx ≠ .breaking) :
    closeBySilence s =
      if s.line.ownActivity then closedAt s.line.lastCharEnd s
      else handOn .corrupt s.line.lastCharEnd (closedAt s.line.lastCharEnd s) := by
  have all : (joined s && openActivity s && decide (s.line.tx ≠ .breaking)) = true := by
    simp [joined, openActivity, on, open', free]
  rw [closeBySilence, if_pos all]
  rfl

theorem closeBySilence_nothing
    (h : s.control.state = .offline ∨ s.line.rx = .idle ∨ s.line.rx = .echo ∨ s.line.tx = .breaking) :
    closeBySilence s = s := by
  obtain h | h | h | h := h <;> simp [closeBySilence, joined, openActivity, h]

/-- Settles O36. -/
theorem silenceClosesActivity : Obligations.SilenceClosesActivity := by
  intro s closed
  have row : exec .activityClosesBySilence s = .next (closeBySilence s) := by
    rw [exec_lineEvent (.inr (.inr (by simp))), finishOwnTurn_closed closed]
    rfl
  exact ⟨fun on open' free => by rw [row, closeBySilence_open on open' free],
    fun nothing => by rw [row, closeBySilence_nothing nothing]⟩

/-! ### Characters -/

/-- An aborted frame leaves station, line and tracker as they are. -/
theorem abortFrame_releases (s : State) :
    (abortFrame s).control = s.control ∧ (abortFrame s).line = s.line ∧ (abortFrame s).tracker = s.tracker :=
  have work := abortFrame_work (.refl s)
  ⟨work.control, work.line, work.tracker⟩

theorem abortWaiting_waiting (h : frameWaiting s = true) :
    abortWaiting s = (abortFrame s).withLine { s.line with txBuffer := [] } :=
  if_pos h

theorem abortWaiting_nothing (h : frameWaiting s = false) : abortWaiting s = s := by simp [abortWaiting, h]

/-- While the line is idle a character opens a piece of activity; OFFLINE nothing comes of it. -/
theorem lineCharacter_idle (ch : LineChar) (start : Moment) (idle : s.line.rx = .idle) (free : s.line.tx ≠ .breaking) :
    lineCharacter ch start s = activityOpens ch start s := by
  cases on : joined s <;> simp [lineCharacter, activityOpens, on, idle, free]

theorem lineCharacter_open (ch : LineChar) (start : Moment) (on : s.control.state ≠ .offline)
    (free : s.line.tx ≠ .breaking) (open' : s.line.rx = .assembling ∨ s.line.rx = .discarding) :
    lineCharacter ch start s = laterCharacter ch start s := by
  have on' := (joined_iff s).mpr on
  obtain h | h := open' <;> simp [lineCharacter, on', free, h]

theorem gapBefore_iff (start : Moment) (s : State) :
    gapBefore start s = true ↔ s.line.lastCharEnd + 2 * byteTime s < start := by simp [gapBefore]

/-- A character that comes within 2 byte times of the last one. -/
theorem laterCharacter_soon (soon : start ≤ s.line.lastCharEnd + 2 * byteTime s) :
    laterCharacter ch start s =
      if s.line.rx = .assembling then assembleCharacter ch start s else discardActivity (charEnd ch start s) s := by
  have near : gapBefore start s = false := by
    rw [Bool.eq_false_iff, ne_eq, gapBefore_iff]
    exact Nat.not_lt.mpr soon
  rw [laterCharacter, near]
  rfl

/-- An activity closed by silence leaves the line idle, between turns, and without a break. -/
theorem closeBySilence_idle (on : s.control.state ≠ .offline) (open' : s.line.rx = .assembling ∨ s.line.rx = .discarding)
    (free : s.line.tx ≠ .breaking) (closed : s.tracker.ownTurnOpen = false) :
    (closeBySilence s).line.rx = .idle ∧ (closeBySilence s).line.tx ≠ .breaking ∧
      (closeBySilence s).tracker.ownTurnOpen = false := by
  rw [closeBySilence_open on open' free]
  split
  · exact ⟨rfl, free, closed⟩
  · rw [handOn]
    generalize counted : countCorrupt (closedAt s.line.lastCharEnd s) = c
    have idle : c.line.rx = .idle ∧ c.line.tx ≠ .breaking ∧ c.tracker.ownTurnOpen = false := by
      rw [← counted]
      exact ⟨rfl, free, closed⟩
    by_cases synced : c.tracker.rotation = none
    · rwa [loseSync_unsynced synced]
    · rw [loseSync_synced synced, syncLost]
      split
      · exact ⟨idle.1, idle.2.1, rfl⟩
      · have ended := sessionEnd_ended .leftUnannounced
          (c.withTracker { c.tracker with rotation := none, ownTurnOpen := false })
        obtain ⟨rx, -, -, tx⟩ := ended.line
        refine ⟨rx, ?_, by rw [ended.tracker]⟩
        rw [tx, withTracker_line, if_neg idle.2.1]
        simp
      · exact ⟨idle.1, idle.2.1, rfl⟩

/-- The five header characters that fail the range check (R5). -/
theorem rangeFails_iff (buf : List Byte) :
    rangeFails buf = true ↔
      ∃ sync sig sender count len, buf = [sync, sig, sender, count, len] ∧
        (count.toNat < 1 ∨ 4 < count.toNat ∨ len.toNat < 2 ∨ 64 < len.toNat) := by
  constructor
  · intro h
    unfold rangeFails at h
    split at h
    next sync sig sender count len =>
      refine ⟨sync, sig, sender, count, len, rfl, ?_⟩
      simp [rangeFits] at h
      omega
    · cases h
  · rintro ⟨sync, sig, sender, count, len, rfl, h⟩
    simp [rangeFails, rangeFits]
    omega

/-- The counted length is reached with two characters behind the payload (R5). -/
theorem countedLength_reached_iff (buf : List Byte) :
    countedLength buf = some buf.length ↔
      ∃ sync sig sender count len rest, buf = sync :: sig :: sender :: count :: len :: rest ∧
        rest.length = 2 + len.toNat := by
  constructor
  · intro h
    unfold countedLength at h
    split at h
    next sync sig sender count len rest =>
      refine ⟨sync, sig, sender, count, len, rest, rfl, ?_⟩
      simp at h
      omega
    · cases h
  · rintro ⟨sync, sig, sender, count, len, rest, rfl, h⟩
    simp [countedLength]
    omega

theorem assembleCharacter_outOfRange {b : Byte} (fails : rangeFails (s.line.assembly ++ [b]) = true) :
    assembleCharacter (.data b) start s = discardActivity (start + byteTime s) s := if_pos fails

theorem assembleCharacter_next {b : Byte} (fits : ¬ rangeFails (s.line.assembly ++ [b]) = true)
    (more : countedLength (s.line.assembly ++ [b]) ≠ some (s.line.assembly ++ [b]).length) :
    assembleCharacter (.data b) start s =
      s.withLine { s.line with assembly := s.line.assembly ++ [b], lastCharEnd := start + byteTime s } :=
  (if_neg fits).trans (if_neg more)

theorem assembleCharacter_last {b : Byte} (fits : ¬ rangeFails (s.line.assembly ++ [b]) = true)
    (last : countedLength (s.line.assembly ++ [b]) = some (s.line.assembly ++ [b]).length) :
    assembleCharacter (.data b) start s =
      handOn (verdictOn (s.line.assembly ++ [b]) s) (start + byteTime s) (closedAt (start + byteTime s) s) :=
  (if_neg fits).trans (if_pos last)

theorem startsFrame_iff (ch : LineChar) (start : Moment) (s : State) :
    startsFrame ch start s = true ↔ ch = .data 0xA7 ∧ ∃ q, quietReference s = some q ∧ q + byteTime s ≤ start := by
  cases h : quietReference s <;> simp [startsFrame, silenceBefore, h]

/-- A character on an idle line with no frame waiting opens its activity. -/
theorem activityOpens_eq (on : s.control.state ≠ .offline) (nothing : frameWaiting s = false) :
    activityOpens ch start s = (suspendWindow s).withLine (opened ch start s) := by
  rw [activityOpens, if_pos ((joined_iff s).mpr on), abortWaiting_nothing nothing]
  rfl

/-- Settles O33. -/
theorem characterEffect : Obligations.CharacterEffect := by
  intro i ch start s char on closed free
  have row : exec i s = .next (lineCharacter ch start s) := by rw [exec_character char, finishOwnTurn_closed closed]
  refine ⟨fun idle waiting => ?aborts, fun idle nothing => ⟨fun starts => ?starts, fun other => ?other⟩,
    fun open' gap => ?gap, fun soon => ⟨fun rx => ?discarding, ?faulty, ?range, ?next⟩⟩
  case aborts =>
    generalize aborted : ({ abortFrame s with line := { s.line with txBuffer := [] } } : State) = v
    obtain ⟨control, -, tracker⟩ := abortFrame_releases s
    have closed' : v.tracker.ownTurnOpen = false := by rw [← aborted]; exact tracker ▸ closed
    have idle' : v.line.rx = .idle := by rw [← aborted]; exact idle
    have free' : v.line.tx ≠ .breaking := by rw [← aborted]; exact free
    have nothing : frameWaiting v = false := by rw [← aborted]; simp [frameWaiting]
    have on' : v.control.state ≠ .offline := by rw [← aborted]; exact control ▸ on
    have waits : abortWaiting s = v := (abortWaiting_waiting waiting).trans aborted
    rw [row, exec_character char, finishOwnTurn_closed closed', lineCharacter_idle ch start idle free,
      lineCharacter_idle ch start idle' free', activityOpens_eq on' nothing, activityOpens,
      if_pos ((joined_iff s).mpr on), waits]
    rfl
  case starts =>
    rw [row, lineCharacter_idle ch start idle free, activityOpens_eq on nothing, opened,
      if_pos ((startsFrame_iff ch start s).mpr starts), if_pos ((startsFrame_iff ch start s).mpr starts), starts.1]
    rfl
  case other =>
    rw [row, lineCharacter_idle ch start idle free, activityOpens_eq on nothing, opened,
      if_neg (mt (startsFrame_iff ch start s).mp other), if_neg (mt (startsFrame_iff ch start s).mp other)]
    rfl
  case gap =>
    obtain ⟨idle', free', closed'⟩ := closeBySilence_idle on open' free closed
    rw [row, exec_character char, finishOwnTurn_closed closed', lineCharacter_idle ch start idle' free',
      lineCharacter_open ch start on free open', laterCharacter, if_pos ((gapBefore_iff start s).mpr gap)]
  case discarding =>
    rw [row, lineCharacter_open ch start on free (.inr rx), laterCharacter_soon soon, if_neg (by simp [rx])]
    simp only [discardActivity, State.withLine, rx]
  case faulty =>
    rintro ends rx rfl
    rw [row, lineCharacter_open _ start on free (.inl rx), laterCharacter_soon soon, if_pos rx]
    rfl
  case range =>
    rintro b sync sig sender count rx rfl assembly bad
    have fails : rangeFails (s.line.assembly ++ [b]) = true :=
      (rangeFails_iff _).mpr ⟨sync, sig, sender, count, b, by simp [assembly], bad⟩
    rw [row, lineCharacter_open _ start on free (.inl rx), laterCharacter_soon soon, if_pos rx,
      assembleCharacter_outOfRange fails]
    rfl
  case next =>
    rintro b rx rfl range more
    have fits : ¬ rangeFails (s.line.assembly ++ [b]) = true := by
      rw [rangeFails_iff]
      rintro ⟨sync, sig, sender, count, len, e, bad⟩
      obtain ⟨assembly, rfl⟩ : s.line.assembly = [sync, sig, sender, count] ∧ b = len := by
        simpa using List.append_inj' (s₂ := [sync, sig, sender, count]) (t₂ := [len]) e rfl
      have := range sync sig sender count assembly
      omega
    have notLast : countedLength (s.line.assembly ++ [b]) ≠ some (s.line.assembly ++ [b]).length := by
      rw [ne_eq, countedLength_reached_iff]
      rintro ⟨sync, sig, sender, count, len, rest, e, length⟩
      exact more sync sig sender count len rest e length
    rw [row, lineCharacter_open _ start on free (.inl rx), laterCharacter_soon soon, if_pos rx,
      assembleCharacter_next fits notLast]
    rfl

/-! ### Frames -/

theorem judge_wrongCrc {c : StationConfig} {f : Frame} (h : crcMatches f = false) : judge c f = .corrupt := by
  simp [judge, h]

theorem judge_foreign {c : StationConfig} {f : Frame} (crc : crcMatches f = true)
    (h : f.sig ≠ signature c ∨ c.cycle ≤ f.sender.toNat ∨ 32 ≤ f.sender.toNat) : judge c f = .foreign := by
  rw [judge, crc]
  by_cases range : f.sender.toNat < 32
  · have outside : f.sig ≠ signature c ∨ c.cycle ≤ f.sender.toNat :=
      h.imp_right fun high => high.resolve_right (Nat.not_le.mpr range)
    simp [below_of_lt range, judgeSender, outside]
  · simp [below_eq_none (Nat.not_lt.mp range)]

section
variable {c : StationConfig} {f : Frame} (crc : crcMatches f = true) (sig : f.sig = signature c)
include crc sig

theorem judge_own (range : c.station.val < c.cycle) (sender : f.sender = byteOf c.station.val) :
    judge c f = .impostor := by
  simp [judge, crc, sender, below_byteOf c.station (by decide), judgeSender, sig, Nat.not_le.mpr range]

variable (range : x.val < c.cycle) (other : x ≠ c.station) (sender : f.sender = byteOf x.val)
include range other sender

theorem judge_unread (unread : parseItems f.count.toNat f.payload = none) : judge c f = .corrupt := by
  simp [judge, crc, sender, below_byteOf x (by decide), judgeSender, sig, Nat.not_le.mpr range, other, unread]

theorem judge_good {items : List Item} (read : parseItems f.count.toNat f.payload = some items) :
    judge c f = .good x items := by
  simp [judge, crc, sender, below_byteOf x (by decide), judgeSender, sig, Nat.not_le.mpr range, other, read]

end

theorem splitFrame_eq (sync : Byte) (f : Frame) (short : f.payload.length < 256) :
    splitFrame ([sync, f.sig, f.sender, f.count, byteOf f.payload.length] ++ f.payload ++ f.crc) = some f := by
  simp [splitFrame, toNat_byteOf short]

/-- Settles O34. -/
theorem frameVerdicts : Obligations.FrameVerdicts := by
  intro i b start s c f sync char on closed free rx soon config buffer crcLength payloadLow payloadHigh
  have split := splitFrame_eq sync f (by omega)
  have fits : ¬ rangeFails (s.line.assembly ++ [b]) = true := by
    rw [rangeFails_iff]
    rintro ⟨_, _, _, _, _, e, -⟩
    have := congrArg List.length (buffer.symm.trans e)
    simp [crcLength] at this
  have last : countedLength (s.line.assembly ++ [b]) = some (s.line.assembly ++ [b]).length :=
    (countedLength_reached_iff _).mpr ⟨_, _, _, _, _, f.payload ++ f.crc, by simpa using buffer, by
      rw [List.length_append, crcLength, toNat_byteOf (by omega)]
      omega⟩
  have verdict : verdictOn (s.line.assembly ++ [b]) s = judge c f := by simp only [verdictOn, config, buffer, split]
  have row : exec i s = .next (handOn (judge c f) (start + byteTime s) (closedAt (start + byteTime s) s)) := by
    rw [exec_character char, finishOwnTurn_closed closed, lineCharacter_open _ start on free (.inl rx),
      laterCharacter_soon soon, if_pos rx, assembleCharacter_last fits last, verdict]
  refine ⟨fun wrong => ?_, fun right => ?_⟩
  · rw [row, judge_wrongCrc (by simpa [crcMatches] using wrong)]
  · have crc : crcMatches f = true := by simpa [crcMatches] using right
    refine ⟨fun foreign => by rw [row, judge_foreign crc foreign], fun sig range sender => ?_,
      fun x sig range other sender => ⟨fun unread => ?_, fun items read => ?_⟩⟩
    · rw [row, judge_own crc sig range sender]
      exact ⟨_, rfl, sessionEnd_ended .duplicate _⟩
    · rw [row, judge_unread crc sig range other sender unread]
    · rw [row, judge_good crc sig range other sender read]
      rfl

end Sys2Proof.Machine

/-! SUPPORT. Rotation and own turns (R24 to R35, R64 to R68). -/

namespace Sys2Proof.Machine

variable {s t u : State} {m : Moment} {x : Fin 32}

/-- An event of the line between own turns. -/
theorem exec_lineEvent_closed {i : Instr} (h : IsLineEvent i) (closed : s.tracker.ownTurnOpen = false) :
    exec i s = .next (lineEffect i s) := by
  rw [exec_lineEvent h, finishOwnTurn_closed closed]

/-! ### Lapses -/

/-- The turn at `x` is an own turn where `x` is this station. -/
theorem handOwnTurn_holder (h : turnHolder s = some x) : handOwnTurn s = if x = self s then ownTurn s else s := by
  simp [handOwnTurn, h]

theorem quietFirst_false {r : Rotation} (h : s.tracker.quietApplied = true ∨ ∀ q, quietMoment s = some q → lapseMoment r s < q) :
    quietFirst r s = false := by
  obtain h | h := h
  · simp [quietFirst, h]
  · cases e : quietMoment s with
    | none => simp [quietFirst, e]
    | some q => simp [quietFirst, e, h q e]

/-- A window that lapses: its holder's turn is missed and the next number has the turn (R25). -/
theorem turnLapse_eq {r : Rotation} (h : s.tracker.rotation = some r) (silent : r.activity = false)
    (nothing : frameWaiting s = false) (quiet : quietFirst r s = false) :
    turnLapse s =
      handOwnTurn (placeTurn (successor s r.holder) (lapseMoment r s) (missedTurn r.holder s)) := by
  simp [turnLapse, h, windowSilent, silent, nothing, quiet]

theorem missedTurn_views (x : Fin 32) (s : State) :
    (missedTurn x s).control = s.control ∧ (missedTurn x s).tracker = s.tracker :=
  have work := missedTurn_work x (.refl s)
  ⟨work.control, work.tracker⟩

theorem placeTurn_eq (x : Fin 32) (m : Moment) (h : u.tracker = s.tracker) :
    placeTurn x m u = { u with tracker := { s.tracker with rotation := some ⟨x, m, false⟩ } } := by
  rw [← h]
  rfl

/-- Settles O37. -/
theorem turnLapseEffect : Obligations.TurnLapseEffect := by
  intro s closed
  have row : exec .turnLapse s = .next (turnLapse s) := exec_lineEvent_closed (.inr (.inr (by simp))) closed
  refine ⟨fun r h silent nothing quiet => ?_, fun nothing => ?_⟩
  · obtain ⟨control, tracker⟩ := missedTurn_views r.holder s
    have self' : self (missedTurn r.holder s) = self s := self_of control
    rw [row, turnLapse_eq h silent nothing (quietFirst_false quiet), placeTurn_eq _ _ tracker, handOwnTurn_holder rfl,
      ← self']
    rfl
  · rw [row, turnLapse]
    obtain h | ⟨r, h, active⟩ := nothing
    · rw [h]
    · simp [h, windowSilent, active]

/-! ### The quiet time -/

/-- Settles O38. -/
theorem quietTimeEffect : Obligations.QuietTimeEffect := by
  intro q s closed idle quiet
  have rule : exec .quietRule s = .next (quietRule s) := exec_lineEvent_closed (.inr (.inr (by simp))) closed
  have resync : exec .quietResync s = .next (quietResync s) := exec_lineEvent_closed (.inr (.inr (by simp))) closed
  refine ⟨fun r h silent nothing fresh first => ?_, fun unsynced seeking off => ?_, fun applied => ?_⟩
  · have due : quietFirst r s = true := by
      have first' : q ≤ lapseMoment r s := first
      simp [quietFirst, fresh, quiet, first']
    have row : quietRule s = handOwnTurn (markQuiet (placeTurn 0 q s)) := by
      simp [quietRule, h, quiet, windowSilent, silent, nothing, idle, due]
    rw [rule, row, handOwnTurn_holder (x := 0) rfl]
    simp only [eq_comm (a := (0 : Fin 32))]
    rfl
  · have row : quietResync s = handOwnTurn (syncGained (countQuietResync (markQuiet (placeTurn 0 q s)))) := by
      simp [quietResync, unsynced, quiet, joined, seeking, idle, off]
    have gained := syncGained_seeking (s := countQuietResync (markQuiet (placeTurn 0 q s))) seeking
    rw [resync, row, gained, handOwnTurn_holder (x := 0) rfl]
    simp only [eq_comm (a := (0 : Fin 32))]
    rfl
  · rw [rule, quietRule]
    cases h : s.tracker.rotation with
    | none => rfl
    | some r => simp [quiet, quietFirst, applied]

/-! ### Choosing items -/

theorem itemBytes_length (i : Item) : (itemBytes i).length = itemSize i.body := by
  obtain ⟨dest, body⟩ := i
  cases body <;> simp [itemBytes, fieldBytes, bitmapBytes, itemSize] <;> omega

theorem payloadBytes_append (a b : List Item) : payloadBytes (a ++ b) = payloadBytes a ++ payloadBytes b := by
  simp [payloadBytes]

section
variable {q : QueuedItem} {rest l : List QueuedItem} {count size : Nat}

/-- An item that fits is taken and marked. -/
theorem chooseFrom_takes (room : count < 4) (fits : size + (itemBytes q.item).length ≤ 64) :
    chooseFrom (q :: rest) count size =
      { list := { q with onAir := true } :: (chooseFrom rest (count + 1) (size + (itemBytes q.item).length)).list
        count := (chooseFrom rest (count + 1) (size + (itemBytes q.item).length)).count
        size := (chooseFrom rest (count + 1) (size + (itemBytes q.item).length)).size } := by
  rw [itemBytes_length] at fits ⊢
  rw [chooseFrom, if_pos ⟨room, fits⟩]

/-- An item that does not fit is passed over. -/
theorem chooseFrom_passes (h : 4 ≤ count ∨ 64 < size + (itemBytes q.item).length) :
    chooseFrom (q :: rest) count size =
      { list := q :: (chooseFrom rest count size).list
        count := (chooseFrom rest count size).count
        size := (chooseFrom rest count size).size } := by
  rw [itemBytes_length] at h
  rw [chooseFrom, if_neg (by rintro ⟨room, fits⟩; simp only [maxItems, maxPayload] at room fits; omega)]

/-- What is taken keeps the bounds of a frame. -/
theorem chooseFrom_bounds (l : List QueuedItem) (few : count ≤ 4) (short : size ≤ 64) :
    (chooseFrom l count size).count ≤ 4 ∧ (chooseFrom l count size).size ≤ 64 := by
  induction l generalizing count size with
  | nil => exact ⟨few, short⟩
  | cons q rest ih =>
    by_cases h : count < 4 ∧ size + (itemBytes q.item).length ≤ 64
    · rw [chooseFrom_takes h.1 h.2]
      exact ih (by omega) h.2
    · rw [chooseFrom_passes (by omega)]
      exact ih few short

theorem marked_marked (q : QueuedItem) (l : List QueuedItem) :
    marked ({ q with onAir := true } :: l) = q.item :: marked l := by
  simp [marked]

theorem marked_unmarked (h : q.onAir = false) (l : List QueuedItem) : marked (q :: l) = marked l := by
  simp [marked, h]

/-- The count and the size reached are those of the items taken. -/
theorem chooseFrom_counts (unmarked : ∀ q ∈ l, q.onAir = false) :
    (chooseFrom l count size).count = count + (marked (chooseFrom l count size).list).length ∧
      (chooseFrom l count size).size = size + (payloadBytes (marked (chooseFrom l count size).list)).length := by
  induction l generalizing count size with
  | nil => simp [chooseFrom, marked, payloadBytes]
  | cons q rest ih =>
    obtain ⟨first, others⟩ := List.forall_mem_cons.mp unmarked
    by_cases h : count < 4 ∧ size + (itemBytes q.item).length ≤ 64
    · rw [chooseFrom_takes h.1 h.2]
      obtain ⟨counts, sizes⟩ := ih others (count := count + 1) (size := size + (itemBytes q.item).length)
      simp only [marked_marked, counts, sizes, payloadBytes, List.map_cons, List.flatten_cons, List.length_append,
        List.length_cons]
      omega
    · rw [chooseFrom_passes (by omega)]
      simpa only [marked_unmarked first] using ih others

/-- The first item that fits a record is taken from an empty frame. -/
theorem chooseFrom_first (fits : ItemFits q.item) : marked (chooseFrom (q :: rest) 0 0).list ≠ [] := by
  have short : 0 + (itemBytes q.item).length ≤ 64 := by
    rw [itemBytes_length]
    obtain ⟨-, fields⟩ := fits
    cases e : q.item.body <;> simp [e, itemSize] at fields ⊢ <;> omega
  rw [chooseFrom_takes (by omega) short, marked_marked]
  simp

end

theorem presencePart_bounds (s : State) :
    (presencePart s).length ≤ 1 ∧ (payloadBytes (presencePart s)).length ≤ 10 := by
  unfold presencePart
  split <;> simp [payloadBytes, presenceItem, itemBytes_length, itemSize]

/-- A frame keeps its bounds (R5, R64). -/
theorem frameItems_bounds (unmarked : ∀ q ∈ s.queue.classA ++ s.queue.classB, q.onAir = false) :
    (frameItems s).length ≤ 4 ∧ (payloadBytes (frameItems s)).length ≤ 64 := by
  obtain ⟨few, short⟩ := presencePart_bounds s
  obtain ⟨fewA, shortA⟩ : (chosenA s).count ≤ 4 ∧ (chosenA s).size ≤ 64 :=
    chooseFrom_bounds _ (few.trans (by decide)) (short.trans (by decide))
  obtain ⟨fewB, shortB⟩ : (chosenB s).count ≤ 4 ∧ (chosenB s).size ≤ 64 := chooseFrom_bounds _ fewA shortA
  obtain ⟨countA, sizeA⟩ : (chosenA s).count = _ ∧ (chosenA s).size = _ :=
    chooseFrom_counts fun q h => unmarked q (List.mem_append_left _ h)
  obtain ⟨countB, sizeB⟩ : (chosenB s).count = _ ∧ (chosenB s).size = _ :=
    chooseFrom_counts fun q h => unmarked q (List.mem_append_right _ h)
  rw [← chosenA] at countA sizeA
  rw [← chosenB] at countB sizeB
  simp only [frameItems, payloadBytes_append, List.length_append]
  omega

/-- With PRESENCE due or a list not empty at least one item is taken (R64). -/
theorem frameItems_some (fits : ∀ q ∈ s.queue.classA ++ s.queue.classB, ItemFits q.item)
    (h : s.tracker.presenceCounter = 3 ∨ s.queue.classA ≠ [] ∨ s.queue.classB ≠ []) : frameItems s ≠ [] := by
  by_cases due : s.tracker.presenceCounter = 3
  · simp [frameItems, presencePart, presenceDue, due]
  · have nothing : presencePart s = [] := by simp [presencePart, presenceDue, due]
    cases a : s.queue.classA with
    | cons q rest =>
      have first := chooseFrom_first (rest := rest) (fits q (by simp [a]))
      simp [frameItems, chosenA, nothing, a, payloadBytes, first]
    | nil =>
      obtain ⟨q, rest, b⟩ := List.exists_cons_of_ne_nil ((h.resolve_left due).resolve_left (not_not.mpr a))
      have first := chooseFrom_first (rest := rest) (fits q (by simp [b]))
      have emptyA : chosenA s = ⟨[], 0, 0⟩ := by simp [chosenA, nothing, a, chooseFrom, payloadBytes]
      simp [frameItems, chosenB, emptyA, b, first]

theorem frameItems_none (a : s.queue.classA = []) (b : s.queue.classB = []) (h : s.tracker.presenceCounter ≠ 3) :
    frameItems s = [] := by
  simp [frameItems, chosenB, chosenA, presencePart, presenceDue, h, a, b, chooseFrom, marked]

/-! ### Own turns -/

theorem settle_due (h : deadlinesDue s = true) : settle s = s := by simp [settle, h]

theorem settle_closes (opened : s.tracker.ownTurnOpen = true) (h : deadlinesDue s = false) :
    settle s = offerTurn (s.withTracker { s.tracker with ownTurnOpen := false }) := by
  simp [settle, opened, h, closeOwnTurn]

theorem offerTurn_leaving {c : StationConfig} (leaving : s.control.state = .leaving) (config : s.control.config = some c) :
    offerTurn s =
      { s with
        queue :=
          { s.queue with onAir := some { items := [farewellItem], presence := false, farewell := true } }
        line := { s.line with txBuffer := frameBytes c [farewellItem] } } := by
  simp only [offerTurn, leaving, offerLeaving, loadBuffer, State.withQueue, State.withLine, config]
  rfl

theorem offerTurn_nothing (active : s.control.state = .active) (nothing : frameItems s = []) :
    offerTurn s = setPresenceCounter (nextPresence s.tracker.presenceCounter) s := by
  simp [offerTurn, active, offerActive, nothing]

theorem offerTurn_frame {c : StationConfig} (active : s.control.state = .active) (config : s.control.config = some c)
    (nonempty : frameItems s ≠ []) :
    offerTurn s =
      { s with
        tracker := { s.tracker with presenceCounter := nextPresence s.tracker.presenceCounter }
        queue :=
          { classA := (chosenA s).list, classB := (chosenB s).list,
            onAir := some { items := frameItems s, presence := presenceDue s, farewell := false } }
        line := { s.line with txBuffer := frameBytes c (frameItems s) } } := by
  have notEmpty : (frameItems s).isEmpty = false := by simpa using nonempty
  simp only [offerTurn, active, offerActive, notEmpty, Bool.false_eq_true, if_false, loadBuffer, setPresenceCounter,
    State.withQueue, State.withLine, State.withTracker, config]
  rfl

/-- Settles O39. -/
theorem ownTurnEffect : Obligations.OwnTurnEffect := by
  intro s u v
  have offered (none : deadlinesDue u = false) : ownTurn s = offerTurn v := settle_closes rfl none
  refine ⟨fun due => ⟨settle_due due, settle_due due⟩, fun none => ⟨rfl, fun c leaving config => ?_,
      fun active a b notDue => ?_, fun c active config nonempty => ?_⟩, frameItems_bounds, offered, ?_, presenceBitmap_bit s, rfl,
    ⟨rfl, rfl⟩, fun count size => rfl, fun q rest count size => ⟨chooseFrom_takes, chooseFrom_passes⟩, frameItems_some⟩
  · exact (offered none).trans (offerTurn_leaving (s := v) leaving config)
  · have next : nextPresence s.tracker.presenceCounter = s.tracker.presenceCounter + 1 := if_neg notDue
    refine (offered none).trans ((offerTurn_nothing (s := v) active (frameItems_none (s := v) a b notDue)).trans ?_)
    exact congrArg (fun n => setPresenceCounter n v) next
  · exact (offered none).trans (offerTurn_frame (s := v) active config nonempty)
  · simp [presencePart, presenceDue, presenceItem]

end Sys2Proof.Machine

/-! SUPPORT. Transmission: the start of a frame, its echo, the good echo, and the collision with its break (R13 to R17, R50,
R69, R70). -/

namespace Sys2Proof.Machine

variable {s t u : State} {m : Moment} {x : Fin 32}

/-! ### The start of a frame -/

theorem frameWaiting_iff (s : State) : frameWaiting s = true ↔ s.line.tx = .off ∧ s.line.txBuffer ≠ [] := by
  simp [frameWaiting]

/-- Settles O40. -/
theorem transmitStartEffect : Obligations.TransmitStartEffect := by
  intro r q s closed rotation quiet off loaded
  have row : exec .frameTransmitStart s = .next (transmitStart s) :=
    exec_lineEvent_closed (.inr (.inr (by simp))) closed
  have waiting := (frameWaiting_iff s).mpr ⟨off, loaded⟩
  refine ⟨fun idle => ?_, fun busy => ?_⟩
  · rw [row]
    simp only [transmitStart, rotation, waiting, idle, transmitMoment, quiet, if_true]
    simp only [suspendWindow, State.withLine, State.withTracker, rotation]
    rfl
  · rw [row]
    simp only [transmitStart, rotation, waiting, busy, if_true, if_false]
    rw [abortWaiting_waiting waiting]
    rfl

/-! ### The echo -/

theorem echoMatches_iff {ch : LineChar} {start : Moment} {b : Byte} (sent : (sentCharacters s)[s.line.echoed]? = some b) :
    echoMatches ch start s = true ↔
      ch = .data b ∧ charTime s.line.echoed s ≤ start ∧ start < charTime (s.line.echoed + 1) s := by
  simp [echoMatches, sent, and_assoc]

theorem lineCharacter_echo (ch : LineChar) (start : Moment) (on : s.control.state ≠ .offline) (echo : s.line.rx = .echo)
    (sending : s.line.tx = .sending) : lineCharacter ch start s = echoCharacter ch start s := by
  simp [lineCharacter, (joined_iff s).mpr on, echo, sending]

/-- Settles O41. -/
theorem echoComparison : Obligations.EchoComparison := by
  intro i ch start b s char on closed echo sending sent due next
  have row : exec i s = .next (echoCharacter ch start s) := by
    rw [exec_character char, finishOwnTurn_closed closed, lineCharacter_echo ch start on echo sending]
  refine ⟨fun same low high more => ?_, fun same low high last => ?_, fun differs => ?_⟩
  · have same' := (echoMatches_iff sent).mpr ⟨same, low, high⟩
    rw [row, echoCharacter, if_pos sending, if_pos same', if_neg more.ne]
    rfl
  · have same' := (echoMatches_iff sent).mpr ⟨same, low, high⟩
    rw [row, echoCharacter, if_pos sending, if_pos same', if_pos last,
      exec_lineEvent_closed (.inr (.inr (by simp))) closed]
    rfl
  · have other : ¬ echoMatches ch start s = true := by
      rw [echoMatches_iff sent]
      rintro ⟨same, low, high⟩
      obtain differs | early | late := differs
      · exact differs same
      · exact Nat.not_lt.mpr low early
      · exact Nat.not_lt.mpr late high
    rw [row, echoCharacter, if_pos sending, if_neg other, exec_lineEvent_closed (.inr (.inl ⟨_, rfl⟩)) closed]
    rfl

/-! ### The good echo at the item queue -/

theorem frameSent_none (h : s.queue.onAir = none) : frameSent s = s := by simp [frameSent, h]

theorem frameSent_some {f : FrameOnAir} (h : s.queue.onAir = some f) :
    frameSent s =
      offerPlaces ((onAirItems s.queue).foldl tellSent
        { s with
          tracker := { s.tracker with presenceCounter := if f.presence then 0 else s.tracker.presenceCounter }
          queue := dropSent s.queue }) := by
  simp only [frameSent, h]
  cases f.presence <;> rfl

section
variable {q : QueuedItem}

theorem tellSent_nothing (h : q.withdrawn = true ∨ q.originator = .nobody) : tellSent s q = s := by
  obtain h | h := h <;> simp [tellSent, h]

variable (standing' : q.withdrawn = false)
include standing'

theorem tellSent_entry {i : Fin 16} (origin : q.originator = .entry i) : tellSent s q = entrySent i s := by
  simp [tellSent, standing', origin]

theorem tellSent_delivery {d : Fin 8} (origin : q.originator = .delivery d) : tellSent s q = deliverySent d s := by
  simp [tellSent, standing', origin]

end

section
variable {i : Fin 16}

theorem entrySent_request (queued : (entry i s).state = .queued) (kind : (entry i s).kind = .put ∨ (entry i s).kind = .take) :
    entrySent i s =
      setEntry i { entry i s with state := .sent, deadline := some (deadlineIn (replyLimit s) s) } s := by
  obtain kind | kind := kind <;> simp [entrySent, queued, kind]

theorem entrySent_broadcast (queued : (entry i s).state = .queued)
    (kind : (entry i s).kind = .claim ∨ (entry i s).kind = .release) : entrySent i s = s := by
  obtain kind | kind := kind <;> simp [entrySent, queued, kind]

theorem entrySent_cancel (queued : (entry i s).state = .cancelQueued) :
    entrySent i s =
      setEntry i { entry i s with state := .cancelSent, deadline := some (deadlineIn (replyLimit s) s) } s := by
  simp [entrySent, queued]

end

theorem deliverySent_eq {d : Fin 8} {y : Delivery} (h : delivery d s = some y) :
    deliverySent d s = setDelivery d (some { y with state := .sent (deadlineIn (replyLimit s) s) }) s := by
  simp [deliverySent, h]

/-! ### The good echo at the receive path -/

theorem offerTurn_views (s : State) :
    (offerTurn s).control = s.control ∧ (offerTurn s).port = s.port ∧ (offerTurn s).line.tx = s.line.tx := by
  unfold offerTurn offerActive offerLeaving
  repeat' split
  all_goals exact ⟨rfl, rfl, rfl⟩

theorem handOwnTurn_views (s : State) :
    (handOwnTurn s).control = s.control ∧ (handOwnTurn s).port = s.port ∧ (handOwnTurn s).line.tx = s.line.tx := by
  unfold handOwnTurn ownTurn settle
  repeat' split
  · exact offerTurn_views _
  all_goals exact ⟨rfl, rfl, rfl⟩

theorem frameToTracker_control (x : Fin 32) (m : Moment) (s : State) :
    (frameToTracker x m s).control = s.control ∨
      s.control.state = .seeking ∧ (frameToTracker x m s).control = { s.control with state := .active } := by
  unfold frameToTracker syncGained
  repeat' split
  · exact .inl rfl
  · exact .inl rfl
  next seeking => exact .inr ⟨seeking, rfl⟩
  · exact .inl rfl

theorem receiveGood_control (x : Fin 32) (items : List Item) (m : Moment) (s : State) :
    (receiveGood x items m s).control = (frameToTracker x m s).control :=
  (handOwnTurn_views _).1.trans (dispatchItems_work x items (heard_work x (.refl _))).control

/-- A frame of a station in LEAVING or not makes the station enter or leave LEAVING not. -/
theorem receiveGood_leaving (x : Fin 32) (items : List Item) (m : Moment) (s : State) :
    ((receiveGood x items m s).control.state = .leaving ↔ s.control.state = .leaving) := by
  rw [receiveGood_control]
  obtain same | ⟨seeking, active⟩ := frameToTracker_control x m s
  · rw [same]
  · simp [seeking, active]

theorem ownFrameReceived_control (s : State) :
    (ownFrameReceived s).control = s.control ∨ s.control.state ≠ .leaving := by
  by_cases leaving : s.control.state = .leaving
  · left
    have sent := frameSent_state (closeActivity (ownFrameEnd s) (stopSending (countFrameSent s)))
    rw [ownFrameReceived, receiveGood_control]
    obtain same | ⟨seeking, -⟩ := frameToTracker_control (self s) (ownFrameEnd s)
      (frameSent (closeActivity (ownFrameEnd s) (stopSending (countFrameSent s))))
    · exact same.trans sent
    · rw [sent] at seeking
      exact absurd (seeking.symm.trans leaving) (by simp)
  · exact .inr leaving

theorem queueDeliver_port (d : Fin 8) (y : Delivery) (s : State) : (queueDeliver d y s).port = s.port := by
  unfold queueDeliver enqueueA
  repeat' split
  all_goals rfl

theorem offerPlaces_port (s : State) : (offerPlaces s).port = s.port := by
  refine foldl_keeps (fun t => t.port = s.port) _ (fun t d same => Eq.trans ?_ same) _ s rfl
  unfold offerPlaceTo
  dsimp only
  repeat' split
  · rw [queueDeliver_port]
    rfl
  all_goals rfl

theorem entrySent_port (i : Fin 16) (s : State) : (entrySent i s).port = s.port := by
  unfold entrySent
  dsimp only
  split <;> rfl

theorem tellSent_port (q : QueuedItem) (s : State) : (tellSent s q).port = s.port := by
  unfold tellSent
  split
  · rfl
  · split
    · rfl
    next i _ => exact entrySent_port i s
    next d _ =>
      unfold deliverySent
      split <;> rfl

theorem frameSent_port (s : State) : (frameSent s).port = s.port := by
  cases h : s.queue.onAir with
  | none => rw [frameSent_none h]
  | some f =>
    rw [frameSent_some h, offerPlaces_port]
    exact foldl_keeps (fun t => t.port = s.port) tellSent (fun t q same => (tellSent_port q t).trans same) _ _ rfl

theorem raiseNotice_framesSent (r : Record) (s : State) :
    (raiseNotice r s).port.counters.framesSent = s.port.counters.framesSent := by
  unfold raiseNotice
  split <;> rfl

theorem heard_framesSent (x : Fin 32) (s : State) :
    (heard x s).port.counters.framesSent = s.port.counters.framesSent := by
  by_cases h : (rosterEntry x s).presence = .absent
  · rw [heard_absent h, raiseNotice_framesSent]
    rfl
  · rw [heard_known h]
    rfl

theorem frameToTracker_framesSent (x : Fin 32) (m : Moment) (s : State) :
    (frameToTracker x m s).port.counters.framesSent = s.port.counters.framesSent := by
  unfold frameToTracker syncGained
  repeat' split
  all_goals rfl

theorem dispatchItems_closed (items : List Item) (h : s.control.state = .leaving ∨ s.control.state = .offline) :
    dispatchItems x items s = s :=
  foldl_keeps (fun t => t = s) _ (fun t i same => by rw [same]; exact dispatchItem_closed h) items s rfl

/-- The own frame is counted once, also where its good echo ends a session. -/
theorem ownFrameReceived_framesSent (leaving : s.control.state = .leaving) :
    (ownFrameReceived s).port.counters.framesSent = satInc s.port.counters.framesSent := by
  generalize sent : frameSent (closeActivity (ownFrameEnd s) (stopSending (countFrameSent s))) = u
  have counted : u.port.counters.framesSent = satInc s.port.counters.framesSent := by
    rw [← sent, frameSent_port]
    rfl
  have control : u.control = s.control := by
    rw [← sent]
    exact frameSent_state _
  have still : (heard (self s) (frameToTracker (self s) (ownFrameEnd s) u)).control.state = .leaving := by
    rw [(heard_work _ (.refl _)).control]
    obtain same | ⟨seeking, -⟩ := frameToTracker_control (self s) (ownFrameEnd s) u
    · rw [same, control, leaving]
    · exact absurd (seeking.symm.trans ((congrArg StationControl.state control).trans leaving)) (by simp)
  rw [ownFrameReceived, sent, receiveGood, dispatchItems_closed _ (.inl still), (handOwnTurn_views _).2.1, heard_framesSent,
    frameToTracker_framesSent, counted]

theorem echoGood_sending (sending : s.line.tx = .sending) (h : farewellOnAir s = false ∨ s.control.state ≠ .leaving) :
    echoGood s = ownFrameReceived s := by
  have goesOn : (farewellOnAir s && decide ((ownFrameReceived s).control.state = .leaving)) = false := by
    obtain noFarewell | other := h
    · simp [noFarewell]
    · have received := receiveGood_leaving (self s) (ownFrameItems s) (ownFrameEnd s)
        (frameSent (closeActivity (ownFrameEnd s) (stopSending (countFrameSent s))))
      rw [frameSent_state] at received
      have other' : (ownFrameReceived s).control.state ≠ .leaving := mt received.mp other
      simp [other']
  rw [echoGood, if_pos sending]
  simp only [goesOn]
  rfl

theorem echoGood_farewell (sending : s.line.tx = .sending) (farewell : farewellOnAir s = true)
    (leaving : s.control.state = .leaving) : echoGood s = sessionEnd .left (ownFrameReceived s) := by
  have same := (ownFrameReceived_control s).resolve_right (not_not.mpr leaving)
  rw [echoGood, if_pos sending]
  simp [farewell, same, leaving]

theorem frameToTracker_line (x : Fin 32) (m : Moment) (s : State) : (frameToTracker x m s).line = s.line := by
  unfold frameToTracker syncGained
  repeat' split
  all_goals rfl

theorem receiveGood_tx (x : Fin 32) (items : List Item) (m : Moment) (s : State) :
    (receiveGood x items m s).line.tx = s.line.tx := by
  obtain ⟨-, -, tx⟩ := handOwnTurn_views (dispatchItems x items (heard x (frameToTracker x m s)))
  rw [receiveGood, tx, (dispatchItems_work x items (heard_work x (.refl _))).line, frameToTracker_line]

theorem frameSent_line (s : State) : (frameSent s).line = s.line := by
  cases h : s.queue.onAir with
  | none => rw [frameSent_none h]
  | some f =>
    rw [frameSent_some h, (offerPlaces_work (.refl _)).line]
    exact foldl_keeps (fun t => t.line = s.line) tellSent
      (fun t q same => (tellSent_work q (.refl t)).line.trans same) _ _ rfl

theorem ownFrameReceived_tx (s : State) : (ownFrameReceived s).line.tx = .off := by
  rw [ownFrameReceived, receiveGood_tx, frameSent_line]
  rfl

/-- Settles O42. -/
theorem echoGoodEffect : Obligations.EchoGoodEffect := by
  refine ⟨fun s closed sending => ?_, fun s => ⟨frameSent_none, fun f => frameSent_some⟩, fun q s =>
    ⟨tellSent_nothing, fun i standing' origin => ⟨fun queued kind => ?request, fun queued kind => ?broadcast, fun queued => ?cancel⟩,
      fun d y standing' origin h => ?delivery⟩⟩
  · have row : exec .echoGood s = .next (echoGood s) := exec_lineEvent_closed (.inr (.inr (by simp))) closed
    refine ⟨fun goesOn => by rw [row, echoGood_sending sending goesOn]; rfl, fun farewell leaving => ?_⟩
    have event := echoGood_farewell sending farewell leaving
    have ended := sessionEnd_ended .left (ownFrameReceived s)
    have same := (ownFrameReceived_control s).resolve_right (not_not.mpr leaving)
    have framesSent := ownFrameReceived_framesSent leaving
    have tx' := ownFrameReceived_tx s
    generalize ownFrameReceived s = v at event ended same framesSent tx'
    generalize sessionEnd .left v = t at event ended
    obtain ⟨rx, -, -, tx⟩ := ended.line
    refine ⟨t, by rw [row, event], ended.control.trans (by rw [same]),
      by rw [ended.tracker], rx, ?_, ended.queue, ended.engine, by rw [ended.port], ?_⟩
    · rw [tx, tx']
      rfl
    · rw [ended.port]
      exact framesSent
  case request => exact (tellSent_entry standing' origin).trans (entrySent_request queued kind)
  case broadcast => exact (tellSent_entry standing' origin).trans (entrySent_broadcast queued kind)
  case cancel => exact (tellSent_entry standing' origin).trans (entrySent_cancel queued)
  case delivery => exact (tellSent_delivery standing' origin).trans (deliverySent_eq h)

/-! ### Collision and break -/

theorem collision_sending (sending : s.line.tx = .sending) (ends : Moment) :
    collision ends s =
      loseSync (abortFrame (countCollision
        (s.withLine { s.line with tx := .breaking, breakEnd := ends + 3 * byteTime s }))) := if_pos sending

theorem breakEnd_joined (breaking : s.line.tx = .breaking) (on : s.control.state ≠ .offline) :
    breakEnd s =
      { s with
        line :=
          { s.line with
            tx := .off, txInProgress := false, txBuffer := [], rx := .discarding, assembly := [],
            ownActivity := true, lastCharEnd := s.line.breakEnd } } := by
  rw [breakEnd, if_pos breaking]
  exact if_pos ((joined_iff s).mpr on)

theorem breakEnd_offline (breaking : s.line.tx = .breaking) (off : s.control.state = .offline) :
    breakEnd s = { s with line := { s.line with tx := .off, txInProgress := false, txBuffer := [] } } := by
  rw [breakEnd, if_pos breaking]
  exact if_neg (by simp [joined, off])

/-- Settles O43. -/
theorem collisionAbortAndBreak : Obligations.CollisionAbortAndBreak := by
  refine ⟨fun ends s closed => ⟨fun sending synced => ?_, fun breaking on => ?_, fun breaking off => ?_⟩,
    fun s none => ?_, fun s => rfl⟩
  · have row : exec (.collision ends) s = .next (collision ends s) := exec_lineEvent_closed (.inr (.inl ⟨_, rfl⟩)) closed
    intro u
    obtain ⟨control, line, tracker⟩ := abortFrame_releases
      (countCollision (s.withLine { s.line with tx := .breaking, breakEnd := ends + 3 * byteTime s }))
    have event : collision ends s = loseSync u := collision_sending sending ends
    have synced' : u.tracker.rotation ≠ none := by
      rw [show u.tracker = s.tracker from tracker]
      exact synced
    have control' : u.control = s.control := control
    have breaking : u.line.tx = .breaking := congrArg LineUnit.tx line
    clear_value u
    rw [row, event]
    refine ⟨fun active => by rw [loseSync_active synced' (control' ▸ active)], fun leaving => ⟨_, rfl, ?_⟩⟩
    have ended := loseSync_leaving synced' (control' ▸ leaving)
    obtain ⟨-, -, -, tx⟩ := ended.line
    exact ⟨ended, by rw [tx, if_pos breaking]⟩
  · rw [exec_lineEvent_closed (.inr (.inr (by simp))) closed]
    exact congrArg Host.Outcome.next (breakEnd_joined breaking on)
  · rw [exec_lineEvent_closed (.inr (.inr (by simp))) closed]
    exact congrArg Host.Outcome.next (breakEnd_offline breaking off)
  · rw [abortFrame, offerPlaces, withQueue_store, none]
    rfl

end Sys2Proof.Machine

/-! SUPPORT. Frames as bytes: the items of a payload are read back as they were written, and a built frame is GOOD at
another station of the same configuration (R5 to R9, 12.2). -/

namespace Sys2Proof.Machine

variable {s : State}

theorem bitmap_read (bitmap : BitVec 64) :
    (bitmap.extractLsb' 56 8 ++ bitmap.extractLsb' 48 8 ++ bitmap.extractLsb' 40 8 ++ bitmap.extractLsb' 32 8 ++
      bitmap.extractLsb' 24 8 ++ bitmap.extractLsb' 16 8 ++ bitmap.extractLsb' 8 8 ++ bitmap.extractLsb' 0 8 : BitVec 64) =
      bitmap := by
  iterate 7 rw [BitVec.extractLsb'_append_extractLsb'_eq_extractLsb' (by rfl)]
  exact BitVec.extractLsb'_eq_self

theorem destOf_destByte (d : Dest) : destOf (destByte d) = some d := by
  cases d with
  | broadcast => rfl
  | station x =>
    have low : (byteOf x.val).toNat = x.val := toNat_byteOf (by omega)
    have other : byteOf x.val ≠ 0x3F#8 := by
      intro e
      rw [e] at low
      simp at low
      omega
    simp [destOf, destByte, other, below_byteOf x (by decide)]

theorem putResultOf_code (r : PutResult) : putResultOf (putResultCode r) = some r := by cases r <;> rfl

theorem takeResultOf_code (r : TakeResult) : takeResultOf (takeResultCode r) = some r := by cases r <;> rfl

theorem cancelResultOf_code (r : CancelResult) : cancelResultOf (cancelResultCode r) = some r := by cases r <;> rfl

theorem verdictOf_code (v : AckVerdict) : verdictOf (verdictCode v) = some v := by cases v <;> rfl

/-- Data of 1 to 24 bytes is read back, with what follows it. -/
theorem parseData_append {data rest : List Byte} (low : 1 ≤ data.length) (high : data.length ≤ 24) :
    parseData (byteOf data.length) (data ++ rest) = some (data, rest) := by
  have length : (byteOf data.length).toNat = data.length := toNat_byteOf (by omega)
  rw [parseData, length, if_pos ⟨low, high, by simp⟩]
  simp

/-- The fields of an item are read back, with what follows them. -/
theorem parseFields_append (d : Dest) {b : ItemBody} (fits : ItemFits ⟨d, b⟩) (rest : List Byte) :
    parseFields (kindByte b) (fieldBytes b ++ rest) = some (b, rest) := by
  obtain ⟨-, data⟩ := fits
  cases b
  case presence bitmap => exact congrArg (fun m => some (ItemBody.presence m, rest)) (bitmap_read bitmap)
  case farewell => rfl
  case put m g data' => simp [parseFields, kindByte, fieldBytes, below_byteOf m, parseData_append data.1 data.2]
  case deliver g q o data' => simp [parseFields, kindByte, fieldBytes, below_byteOf o, parseData_append data.1 data.2]
  case putReply g r => simp [parseFields, kindByte, fieldBytes, putResultOf_code]
  case takeReply g r => simp [parseFields, kindByte, fieldBytes, takeResultOf_code]
  case cancelReply g r => simp [parseFields, kindByte, fieldBytes, cancelResultOf_code]
  case deliverAck g q v => simp [parseFields, kindByte, fieldBytes, verdictOf_code]
  case take m g p w => simp [parseFields, kindByte, fieldBytes, below_byteOf m, below_byteOf p]
  all_goals simp [parseFields, kindByte, fieldBytes, below_byteOf]

/-- An item is read back, with what follows it. -/
theorem parseItem_append {i : Item} (fits : ItemFits i) (rest : List Byte) :
    parseItem (itemBytes i ++ rest) = some (i, rest) := by
  have fields := parseFields_append i.dest (b := i.body) fits rest
  have dest := fits.1
  simp [parseItem, itemBytes, destOf_destByte, fields, dest]

/-- Settles O54. -/
theorem itemsParseBack : Obligations.ItemsParseBack := by
  intro items
  induction items with
  | nil => exact fun _ => rfl
  | cons i rest ih =>
    intro fits
    obtain ⟨first, others⟩ := List.forall_mem_cons.mp fits
    have bytes : payloadBytes (i :: rest) = itemBytes i ++ payloadBytes rest := rfl
    simp [parseItems, bytes, parseItem_append first, ih others]

/-- The fields of the frame that a station builds of its items. -/
def builtFrame (c : StationConfig) (items : List Item) : Frame where
  sig := signature c
  sender := byteOf c.station.val
  count := byteOf items.length
  payload := payloadBytes items
  crc := wordBytes (crc16 (frameBytes c items).tail)

/-- The characters on the line are those fields behind the sync character. -/
theorem withCrc_frameBytes (c : StationConfig) (items : List Item) :
    withCrc (frameBytes c items) =
      [0xA7, (builtFrame c items).sig, (builtFrame c items).sender, (builtFrame c items).count,
        byteOf (builtFrame c items).payload.length] ++ (builtFrame c items).payload ++ (builtFrame c items).crc := rfl

theorem builtFrame_crcMatches (c : StationConfig) (items : List Item) : crcMatches (builtFrame c items) = true := by
  simp [crcMatches, builtFrame, frameBytes]

/-- Settles O55. -/
theorem builtFrameIsGoodElsewhere : Obligations.BuiltFrameIsGoodElsewhere := by
  intro c items s d fits inCycle config sig cycle other
  obtain ⟨each, -, few, short⟩ := fits
  have split := splitFrame_eq 0xA7 (builtFrame c items) (short.trans_lt (by decide))
  have count : (builtFrame c items).count.toNat = items.length := toNat_byteOf (by omega)
  have length : (byteOf (payloadBytes items).length).toNat = (payloadBytes items).length := toNat_byteOf (by omega)
  have read : parseItems (builtFrame c items).count.toNat (builtFrame c items).payload = some items := by
    rw [count]
    exact itemsParseBack items each
  rw [withCrc_frameBytes]
  refine ⟨?_, (countedLength_reached_iff _).mpr ⟨0xA7, signature c, byteOf c.station.val, byteOf items.length,
    byteOf (payloadBytes items).length, payloadBytes items ++ (builtFrame c items).crc, by simp [builtFrame], ?_⟩⟩
  · simp only [verdictOn, config, split]
    exact judge_good (builtFrame_crcMatches c items) sig.symm (cycle ▸ inCycle) other.symm rfl read
  · simp [builtFrame, wordBytes, length]
    omega

end Sys2Proof.Machine

/-! SUPPORT. The discard of a mailbox: its waiters, its delivery slots with their cells, its stored messages, and the
exchange memory (R121, R122); and CLOSE (R93). -/

namespace Sys2Proof.Machine

variable {s t u : State} {h : Fin 16} {w : Fin 32} {st : Status}

/-! ### Exchange memory -/

/-- The exchange memory from `s` to `t`: what refers to something of `P` records NO_MAILBOX, and the rest stays. -/
structure MemoryAdjusted (P : Fin 32 → Byte → TakeOutcome → Prop) (s t : State) : Prop where
  adjusted : ∀ x g o, exchange x s = some ⟨g, .take o⟩ → P x g o → exchange x t = some ⟨g, .take .noMailbox⟩
  kept : ∀ x, (∀ g o, exchange x s = some ⟨g, .take o⟩ → ¬ P x g o) → exchange x t = exchange x s

namespace MemoryAdjusted

variable {P Q : Fin 32 → Byte → TakeOutcome → Prop}

theorem of_same (none : ∀ x g o, ¬ P x g o) (same : t.store.exchange = s.store.exchange) : MemoryAdjusted P s t :=
  ⟨fun x g o _ p => absurd p (none x g o), fun x _ => by rw [exchange, same, exchange]⟩

theorem after (k : MemoryAdjusted P s t) (same : u.store.exchange = t.store.exchange) : MemoryAdjusted P s u := by
  have eq (x : Fin 32) : exchange x u = exchange x t := by rw [exchange, same, exchange]
  exact ⟨fun x g o e p => (eq x).trans (k.adjusted x g o e p), fun x none => (eq x).trans (k.kept x none)⟩

/-- One adjustment behind another; NO_MAILBOX itself refers to nothing. -/
theorem trans (k : MemoryAdjusted P s t) (k' : MemoryAdjusted Q t u) (done : ∀ x g, ¬ Q x g .noMailbox) :
    MemoryAdjusted (fun x g o => P x g o ∨ Q x g o) s u := by
  refine ⟨fun x g o e p => ?_, fun x none => ?_⟩
  · by_cases first : P x g o
    · have e' := k.adjusted x g o e first
      rw [k'.kept x, e']
      rintro g' o' e''
      cases e'.symm.trans e''
      exact done x g
    · have same : exchange x t = exchange x s := k.kept x fun g' o' e' => by
        cases e.symm.trans e'
        exact first
      exact k'.adjusted x g o (same.trans e) (p.resolve_left first)
  · have same : exchange x t = exchange x s := k.kept x fun g o e p => none g o e (.inl p)
    exact (k'.kept x fun g o e p => none g o (same.symm.trans e) (.inr p)).trans same

theorem congr (k : MemoryAdjusted P s t) (same : ∀ x g o, P x g o ↔ Q x g o) : MemoryAdjusted Q s t := by
  have eq : P = Q := by
    funext x g o
    exact propext (same x g o)
  exact eq ▸ k

end MemoryAdjusted

theorem revise_memory (x : Fin 32) (g : Byte) (o : TakeOutcome) (s : State) :
    MemoryAdjusted (fun x' g' o' => x' = x ∧ g' = g ∧ o' = o) s (revise x g o .noMailbox s) := by
  refine ⟨fun x' g' o' e p => ?_, fun x' none => ?_⟩
  · obtain ⟨rfl, rfl, rfl⟩ := p
    rw [revise, if_pos (by simpa [refersTo] using e)]
    simp [exchange, remember, setExchange, State.withStore]
  · unfold revise
    split
    next refers =>
      have e : exchange x s = some ⟨g, .take o⟩ := by simpa [refersTo] using refers
      have other : x ≠ x' := by
        rintro rfl
        exact none g o e ⟨rfl, rfl, rfl⟩
      simp [exchange, remember, setExchange, State.withStore, look_put_ne _ _ _ _ other]
    · rfl

/-- Outside the exchange memory a revision changes nothing. -/
theorem revise_apart (x : Fin 32) (g : Byte) (o p : TakeOutcome) (s : State) :
    revise x g o p s = s.withStore { s.store with exchange := (revise x g o p s).store.exchange } := by
  unfold revise
  split <;> rfl

/-! ### Waiters that leave a mailbox -/

/-- The waiters of `l` have left hosted slot `h` from `s` to `t`, and nothing else of the messages has changed. -/
structure WaitersLeave (h : Fin 16) (l : List (Fin 32)) (s t : State) : Prop where
  slot : hostedSlot h t =
    { hostedSlot h s with waiters := (hostedSlot h s).waiters.filter fun w => decide (w ∉ l) }
  otherSlots : ∀ k, k ≠ h → hostedSlot k t = hostedSlot k s
  waiters : ∀ w, waiter w t = if w ∈ l then none else waiter w s
  pool : t.store.pool = s.store.pool
  deliveries : t.store.deliveries = s.store.deliveries
  unqueued : t.store.unqueued = s.store.unqueued
  classA : t.queue.classA = s.queue.classA
  control : t.control = s.control

namespace WaitersLeave

variable {l l' : List (Fin 32)}

theorem nil (h : Fin 16) (s : State) : WaitersLeave h [] s s :=
  ⟨by simp, fun _ _ => rfl, by simp, rfl, rfl, rfl, rfl, rfl⟩

theorem trans (k : WaitersLeave h l s t) (k' : WaitersLeave h l' t u) : WaitersLeave h (l ++ l') s u where
  slot := by simp [k'.slot, k.slot, List.filter_filter, Bool.and_comm]
  otherSlots := fun i ne => (k'.otherSlots i ne).trans (k.otherSlots i ne)
  waiters := fun w => by
    rw [k'.waiters, k.waiters]
    by_cases a : w ∈ l <;> by_cases b : w ∈ l' <;> simp [a, b]
  pool := k'.pool.trans k.pool
  deliveries := k'.deliveries.trans k.deliveries
  unqueued := k'.unqueued.trans k.unqueued
  classA := k'.classA.trans k.classA
  control := k'.control.trans k.control

/-- What follows without effect on the messages. -/
theorem after (k : WaitersLeave h l s t) (hosted : u.store.hosted = t.store.hosted)
    (waiters : u.store.waiters = t.store.waiters) (pool : u.store.pool = t.store.pool)
    (deliveries : u.store.deliveries = t.store.deliveries) (unqueued : u.store.unqueued = t.store.unqueued)
    (classA : u.queue.classA = t.queue.classA) (control : u.control = t.control) : WaitersLeave h l s u where
  slot := by rw [hostedSlot, hosted]; exact k.slot
  otherSlots := fun i ne => by rw [hostedSlot, hosted]; exact k.otherSlots i ne
  waiters := fun w => by rw [waiter, waiters]; exact k.waiters w
  pool := pool.trans k.pool
  deliveries := deliveries.trans k.deliveries
  unqueued := unqueued.trans k.unqueued
  classA := classA.trans k.classA
  control := control.trans k.control

end WaitersLeave

theorem removeWaiter_leave {r : Waiter} (hr : waiter w s = some r) (hosted : r.hosted = h) :
    WaitersLeave h [w] s (removeWaiter w s) := by
  subst hosted
  obtain ⟨slots, waiters, -⟩ := removeWaiter_views hr
  rw [removeWaiter_eq hr] at slots waiters ⊢
  exact ⟨by simpa using slots r.hosted, fun k ne => by simpa [ne] using slots k, by simpa using waiters, rfl, rfl, rfl, rfl, rfl⟩

theorem finish_store (i : Fin 16) (st : Status) (s : State) :
    (finish i st s).store = s.store ∧ (finish i st s).queue.classA = s.queue.classA ∧
      (finish i st s).control = s.control := by
  obtain ⟨-, -, queue, store, control, -⟩ := finish_engine_eq i st s
  exact ⟨store, by rw [queue], control⟩

/-! ### The local takers -/

/-- The waiter of record `w` is a taker of this station. -/
def localWaiter (s : State) (w : Fin 32) : Bool := ((waiter w s).map fun r => isLocal r s).getD false

/-- The request entries of the local takers among `l`. -/
def takersAmong (l : List (Fin 32)) (s : State) : List (Fin 16) :=
  l.filterMap fun w => (waiter w s).bind fun r => if r.requester = self s then some (slotOfTag r.tag) else none

theorem discardWaiter_taker {r : Waiter} (hr : waiter w s = some r) (here : r.requester = self s) :
    discardWaiter st true w s = finish (slotOfTag r.tag) st (removeWaiter w s) := by
  simp [discardWaiter, hr, isLocal, here]

theorem discardWaiter_notTaker (h : localWaiter s w = false) : discardWaiter st true w s = s := by
  unfold localWaiter at h
  unfold discardWaiter
  split
  next r hr =>
    rw [hr] at h
    have other : isLocal r s = false := h
    simp [other]
  · rfl

/-- The local takers of a list of waiters of the mailbox finish in its order, and leave. -/
theorem discardTakers (other : st ≠ .delivered) (l : List (Fin 32)) (once : l.Nodup) (s : State)
    (listed : ∀ w ∈ l, ∃ r, waiter w s = some r ∧ r.hosted = h) (apart : (takersAmong l s).Nodup) :
    FinishedInOrder st (takersAmong l s) s (l.foldl (fun t w => discardWaiter st true w t) s) ∧
      WaitersLeave h (l.filter (localWaiter s)) s (l.foldl (fun t w => discardWaiter st true w t) s) ∧
      (l.foldl (fun t w => discardWaiter st true w t) s).store.exchange = s.store.exchange := by
  induction l generalizing s with
  | nil => exact ⟨.nil st s, .nil h s, rfl⟩
  | cons w l ih =>
    obtain ⟨new, once⟩ := List.nodup_cons.mp once
    obtain ⟨⟨r, hr, hosted⟩, listed⟩ := List.forall_mem_cons.mp listed
    by_cases here : r.requester = self s
    · have step := discardWaiter_taker (st := st) hr here
      have same (v : Fin 32) (hv : v ∈ l) : waiter v (discardWaiter st true w s) = waiter v s := by
        obtain ⟨-, waiters, -⟩ := removeWaiter_views hr
        rw [step, waiter, (finish_store _ _ _).1]
        exact (waiters v).trans (if_neg (by rintro rfl; exact new hv))
      have self' : self (discardWaiter st true w s) = self s :=
        self_of (discardWaiter_tables st true w s).control
      have takers : takersAmong l (discardWaiter st true w s) = takersAmong l s :=
        List.filterMap_congr fun v hv => by rw [same v hv, self']
      have locals : l.filter (localWaiter (discardWaiter st true w s)) = l.filter (localWaiter s) :=
        List.filter_congr fun v hv => by simp only [localWaiter, same v hv, isLocal, self']
      have all : takersAmong (w :: l) s = slotOfTag r.tag :: takersAmong l s := by
        simp [takersAmong, hr, here]
      rw [all, List.nodup_cons] at apart
      obtain ⟨finished, left, memory⟩ := ih once (discardWaiter st true w s)
        (fun v hv => by rw [same v hv]; exact listed v hv) (takers ▸ apart.2)
      have isTaker : localWaiter s w = true := by simp [localWaiter, hr, isLocal, here]
      have first : FinishedInOrder st [slotOfTag r.tag] s (discardWaiter st true w s) := by
        rw [step]
        refine (finish_inOrder other _ _).before (removeWaiter_engine w s) ?_
        rw [removeWaiter_eq hr]
      have firstLeaves : WaitersLeave h [w] s (discardWaiter st true w s) := by
        obtain ⟨store, classA, control⟩ := finish_store (slotOfTag r.tag) st (removeWaiter w s)
        rw [step]
        exact (removeWaiter_leave hr hosted).after (by rw [store]) (by rw [store]) (by rw [store]) (by rw [store])
          (by rw [store]) classA control
      have firstMemory : (discardWaiter st true w s).store.exchange = s.store.exchange := by
        rw [step, (finish_store _ _ _).1, removeWaiter_eq hr]
      rw [takers] at finished
      rw [locals] at left
      rw [all, List.filter_cons, if_pos isTaker, List.foldl_cons]
      exact ⟨first.cons finished apart.1, firstLeaves.trans left, memory.trans firstMemory⟩
    · have notTaker : localWaiter s w = false := by simp [localWaiter, hr, isLocal, here]
      have all : takersAmong (w :: l) s = takersAmong l s := by simp [takersAmong, hr, here]
      rw [all, List.filter_cons, if_neg (by simp [notTaker]), List.foldl_cons, discardWaiter_notTaker notTaker]
      exact ih once s listed (all ▸ apart)

/-! ### The remote takers -/

theorem discardWaiter_remote {r : Waiter} (hr : waiter w s = some r) (other : r.requester ≠ self s) :
    discardWaiter st false w s = revise r.requester r.tag .parked .noMailbox (removeWaiter w s) := by
  simp [discardWaiter, hr, isLocal, other]

/-- The exchange memory refers to a waiter of `l` (R122). -/
def RefersToWaiter (l : List (Fin 32)) (s : State) (x : Fin 32) (g : Byte) (o : TakeOutcome) : Prop :=
  o = .parked ∧ ∃ w ∈ l, ∃ r, waiter w s = some r ∧ r.requester = x ∧ r.tag = g

/-- Remote waiters of the mailbox leave, and the exchange memory is adjusted. -/
theorem discardRemotes (l : List (Fin 32)) (once : l.Nodup) (s : State)
    (listed : ∀ w ∈ l, ∃ r, waiter w s = some r ∧ r.hosted = h ∧ r.requester ≠ self s) :
    WaitersLeave h l s (l.foldl (fun t w => discardWaiter st false w t) s) ∧
      MemoryAdjusted (RefersToWaiter l s) s (l.foldl (fun t w => discardWaiter st false w t) s) ∧
      (l.foldl (fun t w => discardWaiter st false w t) s).engine = s.engine ∧
      (l.foldl (fun t w => discardWaiter st false w t) s).port = s.port := by
  induction l generalizing s with
  | nil => exact ⟨.nil h s, .of_same (by simp [RefersToWaiter]) rfl, rfl, rfl⟩
  | cons w l ih =>
    obtain ⟨new, once⟩ := List.nodup_cons.mp once
    obtain ⟨⟨r, hr, hosted, remote⟩, listed⟩ := List.forall_mem_cons.mp listed
    have step := discardWaiter_remote (st := st) hr remote
    have apart := revise_apart r.requester r.tag .parked .noMailbox (removeWaiter w s)
    have first : WaitersLeave h [w] s (discardWaiter st false w s) := by
      rw [step, apart]
      exact (removeWaiter_leave hr hosted).after rfl rfl rfl rfl rfl rfl rfl
    have firstMemory : MemoryAdjusted (fun x g o => x = r.requester ∧ g = r.tag ∧ o = .parked) s
        (discardWaiter st false w s) := by
      rw [step]
      have adjusted := revise_memory r.requester r.tag .parked (removeWaiter w s)
      have same (x : Fin 32) : exchange x (removeWaiter w s) = exchange x s := by rw [removeWaiter_eq hr]; rfl
      exact ⟨fun x g o e => adjusted.adjusted x g o ((same x).trans e),
        fun x none => (adjusted.kept x fun g o e => none g o ((same x).symm.trans e)).trans (same x)⟩
    have same (v : Fin 32) (hv : v ∈ l) : waiter v (discardWaiter st false w s) = waiter v s := by
      rw [first.waiters, if_neg]
      simp only [List.mem_singleton]
      rintro rfl
      exact new hv
    obtain ⟨left, memory, engine, port⟩ := ih once (discardWaiter st false w s) fun v hv => by
      rw [same v hv, self_of first.control]
      exact listed v hv
    rw [List.foldl_cons]
    refine ⟨first.trans left, (firstMemory.trans memory fun x g p => by simp [RefersToWaiter] at p).congr fun x g o => ?_,
      engine.trans ?_, port.trans ?_⟩
    · simp only [RefersToWaiter, List.mem_cons]
      constructor
      · rintro (⟨rfl, rfl, rfl⟩ | ⟨rfl, v, hv, q, hq, rest⟩)
        · exact ⟨rfl, w, .inl rfl, r, hr, rfl, rfl⟩
        · exact ⟨rfl, v, .inr hv, q, (same v hv).symm.trans hq, rest⟩
      · rintro ⟨rfl, v, rfl | hv, q, hq, rfl, rfl⟩
        · cases hr.symm.trans hq
          exact .inl ⟨rfl, rfl, rfl⟩
        · exact .inr ⟨rfl, v, hv, q, (same v hv).trans hq, rfl, rfl⟩
    · rw [step, apart]
      exact removeWaiter_engine w s
    · rw [step, apart, removeWaiter_eq hr]
      rfl

end Sys2Proof.Machine

/-! SUPPORT. The delivery slots of a discarded mailbox, and the discard as a whole (R121, R122); CLOSE (R93). -/

namespace Sys2Proof.Machine

variable {s t u : State} {h : Fin 16} {d : Fin 8} {st : Status}

/-! ### Delivery slots that leave a mailbox -/

theorem servesHosted_iff (h : Fin 16) (d : Fin 8) (s : State) :
    servesHosted h d s = true ↔ ∃ y, delivery d s = some y ∧ y.hosted = h := by
  cases e : delivery d s <;> simp [servesHosted, e]

/-- A delivery slot that becomes FREE together with its cell (R121, R143). -/
theorem freeDelivery_eq {y : Delivery} (hy : delivery d s = some y) :
    freeDelivery d s =
      { s with
        store :=
          { s.store with
            deliveries := put s.store.deliveries d none
            unqueued := s.store.unqueued.filter fun e => e ≠ d
            pool := put s.store.pool y.cell none }
        queue := { s.queue with classA := withdrawFrom (.delivery d) s.queue.classA } } := by
  rw [freeDelivery, hy]
  rfl

theorem discardDelivery_other (k : servesHosted h d s = false) : discardDelivery h d s = s := by
  unfold discardDelivery
  split
  next y hy => exact if_neg fun e => by simp [servesHosted, hy, e] at k
  · rfl

theorem discardDelivery_serves {y : Delivery} (hy : delivery d s = some y) (hosted : y.hosted = h) :
    discardDelivery h d s = revise y.dest y.tag (.delivering d) .noMailbox (freeDelivery d s) := by
  simp [discardDelivery, hy, hosted]

/-- The exchange memory refers to a delivery slot of `l` that serves the mailbox (R122). -/
def RefersToSlot (h : Fin 16) (l : List (Fin 8)) (s : State) (x : Fin 32) (g : Byte) (o : TakeOutcome) : Prop :=
  ∃ d ∈ l, ∃ y, delivery d s = some y ∧ y.hosted = h ∧ y.dest = x ∧ y.tag = g ∧ o = .delivering d

/-- The delivery slots of `l` that serve hosted slot `h` have become FREE with their cells from `s` to `t`. -/
structure SlotsLeave (h : Fin 16) (l : List (Fin 8)) (s t : State) : Prop where
  deliveries : ∀ d, delivery d t = if d ∈ l ∧ servesHosted h d s = true then none else delivery d s
  unqueued : t.store.unqueued = s.store.unqueued.filter fun d => !(decide (d ∈ l) && servesHosted h d s)
  freed : ∀ d y, d ∈ l → delivery d s = some y → y.hosted = h → cell y.cell t = none
  kept : ∀ c, (∀ d y, d ∈ l → delivery d s = some y → y.hosted = h → y.cell ≠ c) → cell c t = cell c s
  classA : t.queue.classA =
    l.foldl (fun q d => if servesHosted h d s then withdrawFrom (.delivery d) q else q) s.queue.classA
  memory : MemoryAdjusted (RefersToSlot h l s) s t
  hosted : t.store.hosted = s.store.hosted
  waiters : t.store.waiters = s.store.waiters
  engine : t.engine = s.engine
  port : t.port = s.port

namespace SlotsLeave

variable {l : List (Fin 8)}

theorem nil (h : Fin 16) (s : State) : SlotsLeave h [] s s :=
  ⟨by simp, by simp, by simp, fun _ _ => rfl, rfl, .of_same (by simp [RefersToSlot]) rfl, rfl, rfl, rfl, rfl⟩

/-- A slot that does not serve the mailbox. -/
theorem other (k : servesHosted h d s = false) : SlotsLeave h [d] s s := by
  have none (y : Delivery) (hy : delivery d s = some y) : y.hosted ≠ h := by
    rintro rfl
    simp [servesHosted, hy] at k
  refine ⟨fun e => ?_, ?_, ?_, fun _ _ => rfl, by simp [k], .of_same ?_ rfl, rfl, rfl, rfl, rfl⟩
  · rw [if_neg]
    rintro ⟨mem, serves⟩
    simp_all
  · rw [List.filter_eq_self.mpr]
    intro e _
    by_cases same : e = d
    · simp [same, k]
    · simp [same]
  · rintro e y mem hy hosted
    rw [List.mem_singleton.mp mem] at hy
    exact absurd hosted (none y hy)
  · rintro x g o ⟨e, mem, y, hy, hosted, -⟩
    rw [List.mem_singleton.mp mem] at hy
    exact none y hy hosted

/-- One slot that serves the mailbox. -/
theorem single {y : Delivery} (hy : delivery d s = some y) (hosted : y.hosted = h) :
    SlotsLeave h [d] s (discardDelivery h d s) := by
  have serves : servesHosted h d s = true := (servesHosted_iff h d s).mpr ⟨y, hy, hosted⟩
  have memory := revise_memory y.dest y.tag (.delivering d) (freeDelivery d s)
  obtain ⟨ex, apart⟩ : ∃ ex, revise y.dest y.tag (.delivering d) .noMailbox (freeDelivery d s) =
      (freeDelivery d s).withStore { (freeDelivery d s).store with exchange := ex } := ⟨_, revise_apart ..⟩
  rw [discardDelivery_serves hy hosted]
  rw [apart] at memory ⊢
  rw [freeDelivery_eq hy] at memory ⊢
  refine
    { deliveries := fun e => ?_, unqueued := ?_, freed := fun e z mem hz _ => ?_, kept := fun c other => ?_
      classA := ?_, memory := ?_, hosted := rfl, waiters := rfl, engine := rfl, port := rfl }
  · by_cases same : e = d
    · subst same
      simp [delivery, serves]
    · simp [delivery, same, look_put_ne _ _ _ _ (Ne.symm same)]
  · refine List.filter_congr fun e _ => ?_
    by_cases same : e = d
    · simp [same, serves]
    · simp [same]
  · obtain rfl := List.mem_singleton.mp mem
    cases hy.symm.trans hz
    simp [cell]
  · have ne := other d y (List.mem_singleton_self d) hy hosted
    simp [cell, look_put_ne _ _ _ _ ne]
  · simp [State.withStore, serves]
  · refine MemoryAdjusted.congr ⟨memory.adjusted, memory.kept⟩ fun x g o => ?_
    constructor
    · rintro ⟨rfl, rfl, rfl⟩
      exact ⟨d, List.mem_singleton_self d, y, hy, hosted, rfl, rfl, rfl⟩
    · rintro ⟨e, mem, z, hz, -, rfl, rfl, rfl⟩
      obtain rfl := List.mem_singleton.mp mem
      cases hy.symm.trans hz
      exact ⟨rfl, rfl, rfl⟩

/-- One slot ahead of others. -/
theorem cons (k : SlotsLeave h [d] s t) (k' : SlotsLeave h l t u) (new : d ∉ l) : SlotsLeave h (d :: l) s u := by
  have same (e : Fin 8) (he : e ∈ l) : delivery e t = delivery e s := by
    rw [k.deliveries, if_neg]
    rintro ⟨mem, -⟩
    exact new (List.mem_singleton.mp mem ▸ he)
  have serves (e : Fin 8) (he : e ∈ l) : servesHosted h e t = servesHosted h e s := by simp [servesHosted, same e he]
  refine
    { deliveries := fun e => ?_, unqueued := ?_, freed := fun e y mem hy hosted => ?_, kept := fun c other => ?_
      classA := ?_, memory := ?_, hosted := k'.hosted.trans k.hosted, waiters := k'.waiters.trans k.waiters
      engine := k'.engine.trans k.engine, port := k'.port.trans k.port }
  · rw [k'.deliveries]
    by_cases mem : e ∈ l
    · simp [serves e mem, same e mem, mem]
    · rw [if_neg (by simp [mem]), k.deliveries]
      simp [mem]
  · rw [k'.unqueued, k.unqueued, List.filter_filter]
    refine List.filter_congr fun e _ => ?_
    by_cases mem : e ∈ l
    · have ne : e ≠ d := by
        rintro rfl
        exact new mem
      simp [mem, ne, serves e mem]
    · simp [mem]
  · obtain rfl | mem := List.mem_cons.mp mem
    · by_cases again : ∀ e z, e ∈ l → delivery e t = some z → z.hosted = h → z.cell ≠ y.cell
      · rw [k'.kept _ again]
        exact k.freed e y (List.mem_singleton_self e) hy hosted
      · simp only [not_forall, not_not] at again
        obtain ⟨e', z, mem, hz, zHosted, same'⟩ := again
        rw [← same']
        exact k'.freed e' z mem hz zHosted
    · exact k'.freed e y mem ((same e mem).trans hy) hosted
  · rw [k'.kept c fun e y mem hy => other e y (List.mem_cons_of_mem d mem) ((same e mem).symm.trans hy)]
    exact k.kept c fun e y mem => other e y (by simp_all)
  · rw [k'.classA, k.classA]
    simp only [List.foldl_cons, List.foldl_nil]
    generalize (if servesHosted h d s then withdrawFrom (.delivery d) s.queue.classA else s.queue.classA) = q
    exact List.foldl_ext _ _ q fun q e mem => by rw [serves e mem]
  · refine (k.memory.trans k'.memory ?_).congr fun x g o => ?_
    · rintro x g ⟨e, -, y, -, -, -, -, eq⟩
      cases eq
    · simp only [RefersToSlot, List.mem_cons, List.not_mem_nil, or_false]
      constructor
      · rintro (⟨e, mem, rest⟩ | ⟨e, mem, y, hy, rest⟩)
        · exact ⟨e, .inl mem, rest⟩
        · exact ⟨e, .inr mem, y, (same e mem).symm.trans hy, rest⟩
      · rintro ⟨e, mem | mem, y, hy, rest⟩
        · exact .inl ⟨e, mem, y, hy, rest⟩
        · exact .inr ⟨e, mem, y, (same e mem).trans hy, rest⟩

end SlotsLeave

theorem discardSlots (h : Fin 16) (l : List (Fin 8)) (once : l.Nodup) (s : State) :
    SlotsLeave h l s (l.foldl (fun t d => discardDelivery h d t) s) := by
  induction l generalizing s with
  | nil => exact .nil h s
  | cons d l ih =>
    obtain ⟨new, once⟩ := List.nodup_cons.mp once
    refine SlotsLeave.cons (t := discardDelivery h d s) ?_ (ih once _) new
    by_cases serves : servesHosted h d s = true
    · obtain ⟨y, hy, hosted⟩ := (servesHosted_iff h d s).mp serves
      exact .single hy hosted
    · have not : servesHosted h d s = false := by simpa using serves
      rw [discardDelivery_other not]
      exact .other not

/-! ### The discard as a whole -/

theorem setHosted_releases (h : Fin 16) (x : HostedSlot) (s : State) : OnlyReleases s (setHosted h x s) :=
  .of_store rfl rfl

theorem revise_releases (x : Fin 32) (g : Byte) (o p : TakeOutcome) (s : State) : OnlyReleases s (revise x g o p s) := by
  unfold revise
  split
  · exact .of_store rfl rfl
  · exact .refl s

theorem freeDelivery_releases (d : Fin 8) (s : State) : OnlyReleases s (freeDelivery d s) := by
  cases hy : delivery d s with
  | none => simpa [freeDelivery, hy] using .refl s
  | some y =>
    rw [freeDelivery_eq hy]
    exact { OnlyReleases.refl s with dseq := rfl, stamp := rfl }

theorem discardWaiter_releases (st : Status) (b : Bool) (w : Fin 32) (s : State) :
    OnlyReleases s (discardWaiter st b w s) := by
  unfold discardWaiter
  split
  · split
    · split
      · exact (removeWaiter_releases w s).trans (finish_releases _ st _)
      · exact (removeWaiter_releases w s).trans (revise_releases ..)
    · exact .refl s
  · exact .refl s

theorem discardDelivery_releases (h : Fin 16) (d : Fin 8) (s : State) : OnlyReleases s (discardDelivery h d s) := by
  unfold discardDelivery
  split
  · split
    · exact (freeDelivery_releases d s).trans (revise_releases ..)
    · exact .refl s
  · exact .refl s

/-- The state after the two passes over the waiters of a discarded mailbox. -/
def withoutWaiters (st : Status) (h : Fin 16) (s : State) : State :=
  let a := (hostedSlot h s).waiters.foldl (fun t w => discardWaiter st true w t) s
  (hostedSlot h a).waiters.foldl (fun t w => discardWaiter st false w t) a

/-- The stored messages freed and the slot blank: the last two steps. -/
theorem discardSteps_eq (st : Status) (h : Fin 16) (s : State) :
    discardSteps st h s =
      setHosted h HostedSlot.blank
        ((hostedSlot h (forEach (discardDelivery h) (withoutWaiters st h s))).messages.foldl (fun s c => setCell c none s)
          (forEach (discardDelivery h) (withoutWaiters st h s))) := rfl

theorem withoutWaiters_releases (st : Status) (h : Fin 16) (s : State) : OnlyReleases s (withoutWaiters st h s) := by
  have pass (b : Bool) (l : List (Fin 32)) (s : State) :
      OnlyReleases s (l.foldl (fun s w => discardWaiter st b w s) s) :=
    .foldl (fun s w => discardWaiter_releases st b w s) l s
  exact (pass true _ s).trans (pass false _ _)

theorem discardSteps_releases (st : Status) (h : Fin 16) (s : State) : OnlyReleases s (discardSteps st h s) := by
  have cells (l : List (Fin 64)) (s : State) : OnlyReleases s (l.foldl (fun s c => setCell c none s) s) :=
    .foldl (f := fun s c => setCell c none s) (fun s c => .of_store rfl rfl) l s
  rw [discardSteps_eq]
  exact (withoutWaiters_releases st h s).trans
    ((OnlyReleases.forEach (discardDelivery_releases h) _).trans ((cells _ _).trans (setHosted_releases h _ _)))

/-- The stored cells freed; nothing but the pool changes. -/
theorem freeCells_apart (l : List (Fin 64)) (s : State) :
    l.foldl (fun s c => setCell c none s) s =
      s.withStore { s.store with pool := (l.foldl (fun s c => setCell c none s) s).store.pool } :=
  foldl_keeps (fun t => t = s.withStore { s.store with pool := t.store.pool }) _
    (fun t c same => by rw [same]; rfl) l s rfl

/-- The local takers of a mailbox have request entries of their own. -/
theorem localTakers_nodup (agree : LocalTakersAgree s) (listed : WaitersListed s) (h : Fin 16) : (localTakers h s).Nodup := by
  refine List.Nodup.filterMap (fun w v i hw hv => ?_) (listed.1 h)
  have taker (w : Fin 32) (k : i ∈ (waiter w s).bind fun r =>
      if r.requester = self s then some (slotOfTag r.tag) else none) :
      ∃ r, waiter w s = some r ∧ r.requester = self s ∧ r.tag = entryTag i s := by
    obtain ⟨r, hr, k⟩ := Option.bind_eq_some_iff.mp k
    split at k
    next here =>
      cases k
      exact ⟨r, hr, here, (agree.1 w r hr here).2.symm⟩
    · cases k
  obtain ⟨r, hr, here, tag⟩ := taker w hw
  obtain ⟨q, hq, here', tag'⟩ := taker v hv
  exact agree.2 w v r q hr hq here here' (tag.trans tag'.symm)

/-- The exchange memory refers to a remote waiter of the mailbox (R122). -/
def RefersToRemote (h : Fin 16) (s : State) (x : Fin 32) (g : Byte) (o : TakeOutcome) : Prop :=
  o = .parked ∧ ∃ w ∈ (hostedSlot h s).waiters, ∃ r, waiter w s = some r ∧ r.requester = x ∧ r.tag = g ∧ x ≠ self s

section
variable (other : st ≠ .delivered) (agree : LocalTakersAgree s) (listed : WaitersListed s)
include other agree listed

/-- The two passes: the local takers finish, all waiters leave, and the exchange memory is adjusted for the remote. -/
theorem withoutWaiters_eq (h : Fin 16) :
    FinishedInOrder st (localTakers h s) s (withoutWaiters st h s) ∧
      WaitersLeave h (hostedSlot h s).waiters s (withoutWaiters st h s) ∧
      MemoryAdjusted (RefersToRemote h s) s (withoutWaiters st h s) := by
  have apart := localTakers_nodup agree listed h
  obtain ⟨once, inUse, -⟩ := listed
  obtain ⟨finished, left, memory⟩ := discardTakers (h := h) other _ (once h) s (inUse h) apart
  unfold withoutWaiters
  dsimp only
  generalize (hostedSlot h s).waiters.foldl (fun t w => discardWaiter st true w t) s = a at *
  have selfA : self a = self s := self_of left.control
  have remain (w : Fin 32) : w ∈ (hostedSlot h a).waiters ↔
      w ∈ (hostedSlot h s).waiters ∧ localWaiter s w = false := by
    rw [left.slot]
    simp +contextual [List.mem_filter]
  have same (w : Fin 32) (hw : w ∈ (hostedSlot h a).waiters) : waiter w a = waiter w s := by
    rw [left.waiters, if_neg]
    simp [((remain w).mp hw).2]
  have isRemote (w : Fin 32) (r : Waiter) (hr : waiter w s = some r) :
      localWaiter s w = false ↔ r.requester ≠ self s := by simp [localWaiter, hr, isLocal]
  obtain ⟨leftB, memoryB, engine, port⟩ := discardRemotes (st := st) (h := h) (hostedSlot h a).waiters
    (by rw [left.slot]; exact (once h).filter _) a fun w hw => by
      obtain ⟨mem, remote⟩ := (remain w).mp hw
      obtain ⟨r, hr, hosted⟩ := inUse h w mem
      exact ⟨r, (same w hw).trans hr, hosted, selfA ▸ (isRemote w r hr).mp remote⟩
  have both := left.trans leftB
  refine ⟨finished.after (fun i => by rw [entry, engine, entry]) (by rw [engine]) (by rw [port]), ?_, ?_⟩
  · have all (w : Fin 32) : w ∈ (hostedSlot h s).waiters.filter (localWaiter s) ++ (hostedSlot h a).waiters ↔
        w ∈ (hostedSlot h s).waiters := by
      rw [List.mem_append, List.mem_filter, remain]
      cases localWaiter s w <;> simp
    exact { both with slot := by simpa only [all] using both.slot, waiters := by simpa only [all] using both.waiters }
  · refine MemoryAdjusted.congr (P := RefersToWaiter (hostedSlot h a).waiters a) ?_ fun x g o => ?_
    · have same' (x : Fin 32) : exchange x a = exchange x s := by rw [exchange, memory, exchange]
      exact ⟨fun x g o e => memoryB.adjusted x g o ((same' x).trans e),
        fun x none => (memoryB.kept x fun g o e => none g o ((same' x).symm.trans e)).trans (same' x)⟩
    · constructor
      · rintro ⟨parked, w, hw, r, hr, rfl, tag⟩
        have hr' := (same w hw).symm.trans hr
        obtain ⟨mem, remote⟩ := (remain w).mp hw
        exact ⟨parked, w, mem, r, hr', rfl, tag, (isRemote w r hr').mp remote⟩
      · rintro ⟨parked, w, mem, r, hr, rfl, tag, remote⟩
        have hw := (remain w).mpr ⟨mem, (isRemote w r hr).mpr remote⟩
        exact ⟨parked, w, hw, r, (same w hw).trans hr, rfl, tag⟩

end

/-- A discard adjusts the exchange memory for the remote waiters and for the delivery slots. -/
theorem refersToHosted_iff (h : Fin 16) (x : Fin 32) (g : Byte) (same : t.store.deliveries = s.store.deliveries) :
    RefersToHosted h x g s ↔
      ∃ o, exchange x s = some ⟨g, .take o⟩ ∧ (RefersToRemote h s x g o ∨ RefersToSlot h (List.finRange 8) t x g o) := by
  have deliveries (d : Fin 8) : delivery d t = delivery d s := by rw [delivery, same, delivery]
  constructor
  · rintro (⟨e, w, rest⟩ | ⟨d, y, e, hy, hosted, dest, tag⟩)
    · exact ⟨.parked, e, .inl ⟨rfl, w, rest⟩⟩
    · exact ⟨.delivering d, e, .inr ⟨d, List.mem_finRange d, y, (deliveries d).trans hy, hosted, dest, tag, rfl⟩⟩
  · rintro ⟨o, e, ⟨rfl, w, rest⟩ | ⟨d, -, y, hy, hosted, dest, tag, rfl⟩⟩
    · exact .inl ⟨e, w, rest⟩
    · exact .inr ⟨d, y, e, (deliveries d).symm.trans hy, hosted, dest, tag⟩

/-- What the five steps of a discard make of the state (R121, R122). -/
theorem discardSteps_discarded (other : st ≠ .delivered) (agree : LocalTakersAgree s) (listed : WaitersListed s)
    (h : Fin 16) : Discarded st h s (discardSteps st h s) := by
  have released := discardSteps_releases st h s
  obtain ⟨finished, left, memory⟩ := withoutWaiters_eq other agree listed h
  rw [discardSteps_eq] at released ⊢
  generalize withoutWaiters st h s = b at *
  have slots := discardSlots h (List.finRange 8) (List.nodup_finRange 8) b
  rw [← forEach] at slots
  generalize forEach (discardDelivery h) b = c at *
  have messages : (hostedSlot h c).messages = (hostedSlot h s).messages := by
    rw [hostedSlot, slots.hosted, ← hostedSlot, left.slot]
  obtain ⟨-, -, -, cells, -⟩ := freeCells_views (hostedSlot h c).messages c
  have freed := freeCells_apart (hostedSlot h c).messages c
  generalize (hostedSlot h c).messages.foldl (fun s c => setCell c none s) c = e at *
  obtain ⟨pool, freed⟩ : ∃ pool, e = c.withStore { c.store with pool := pool } := ⟨_, freed⟩
  subst freed
  have deliveries (d : Fin 8) : delivery d b = delivery d s := by rw [delivery, left.deliveries, delivery]
  have serves (d : Fin 8) : servesHosted h d b = servesHosted h d s := by simp only [servesHosted, deliveries]
  have memory := (memory.trans slots.memory) fun x g => by
    rintro ⟨d, -, y, -, -, -, -, e⟩
    cases e
  exact
    { takers := finished.after (fun i => by rw [entry]; simp [slots.engine, entry]) (by simp [slots.engine]) (by simp [slots.port])
      slot := by simp
      otherSlots := fun k ne => by
        have same : hostedSlot k b = hostedSlot k s := left.otherSlots k ne
        rw [hostedSlot_setHosted, if_neg (Ne.symm ne)]
        simpa [hostedSlot, slots.hosted] using same
      waiters := fun w => by
        have same := left.waiters w
        simpa [waiter, slots.waiters] using same
      deliveries := fun d => (slots.deliveries d).trans (by simp [serves, deliveries])
      unqueued := by
        have same := slots.unqueued
        simpa [serves, left.unqueued] using same
      cellsFreed := fun k freed => by
        refine (cells k).trans ?_
        rw [messages]
        split
        · rfl
        next notStored =>
          obtain ⟨d, y, hy, hosted, rfl⟩ := freed.resolve_left notStored
          exact slots.freed d y (List.mem_finRange d) ((deliveries d).trans hy) hosted
      cellsKept := fun k kept => by
        obtain ⟨notStored, notCarried⟩ := not_or.mp kept
        have pool' : cell k b = cell k s := by rw [cell, left.pool, cell]
        refine (cells k).trans ((if_neg (messages ▸ notStored)).trans ((slots.kept k ?_).trans pool'))
        exact fun d y _ hy hosted same => notCarried ⟨d, y, (deliveries d).symm.trans hy, hosted, same⟩
      memoryAdjusted := fun x g refers => by
        obtain ⟨o, e, p⟩ := (refersToHosted_iff h x g left.deliveries).mp refers
        exact memory.adjusted x g o e p
      memoryKept := fun x none =>
        memory.kept x fun g o e p => none g ((refersToHosted_iff h x g left.deliveries).mpr ⟨o, e, p⟩)
      classA := by
        have same := slots.classA
        simpa [withoutDelivers, serves, left.classA] using same
      rest := ⟨released.control, released.line, released.tracker, released.roster, released.directory, released.onAir,
        released.port, released.dseq, released.stamp⟩ }

/-! ### What pairing and the offers of places keep -/

/-- What pairing and the offers leave as it is, beside the blocks of `ItemWork`: the roster, the counters, and the records
and held entries there are. -/
structure RecordsGrow (s t : State) : Prop where
  roster : t.roster = s.roster
  counters : t.port.counters = s.port.counters
  records : RecordsKept s t

namespace RecordsGrow

theorem refl (s : State) : RecordsGrow s s := ⟨rfl, rfl, List.prefix_refl _, List.prefix_refl _⟩

theorem trans (k : RecordsGrow s t) (k' : RecordsGrow t u) : RecordsGrow s u :=
  ⟨k'.roster.trans k.roster, k'.counters.trans k.counters, k.records.1.trans k'.records.1, k.records.2.trans k'.records.2⟩

theorem of_releases (k : OnlyReleases s t) : RecordsGrow s t :=
  ⟨k.roster, by rw [k.port], k.recordsKept⟩

theorem of_same (roster : t.roster = s.roster) (port : t.port = s.port) (engine : t.engine = s.engine) :
    RecordsGrow s t :=
  ⟨roster, by rw [port], by rw [port], by rw [engine]⟩

/-- What goes before on other blocks. -/
theorem before (k : RecordsGrow t u) (roster : t.roster = s.roster) (port : t.port = s.port)
    (engine : t.engine = s.engine) : RecordsGrow s u :=
  (of_same roster port engine).trans k

end RecordsGrow

theorem queueDeliver_grow (d : Fin 8) (y : Delivery) (s : State) : RecordsGrow s (queueDeliver d y s) := by
  unfold queueDeliver enqueueA
  repeat' split
  all_goals exact .of_same rfl rfl rfl

theorem fillDelivery_grow (d : Fin 8) (h : Fin 16) (c : Fin 64) (x : Fin 32) (g : Byte) (s : State) :
    RecordsGrow s (fillDelivery d h c x g s) :=
  (queueDeliver_grow d ⟨.queued, s.store.dseq, h, c, x, g, 1⟩
    (s.withStore { s.store with dseq := s.store.dseq + 1 })).before rfl rfl rfl

theorem offerPlaceTo_grow (d : Fin 8) (s : State) : RecordsGrow s (offerPlaceTo d s) := by
  have filtered (l : List (Fin 8)) : RecordsGrow s (setUnqueued l s) := .of_same rfl rfl rfl
  unfold offerPlaceTo
  dsimp only
  repeat' split
  · exact (filtered _).trans (queueDeliver_grow d _ _)
  · exact filtered _
  · exact .refl s

theorem offerPlaces_grow (s : State) : RecordsGrow s (offerPlaces s) :=
  foldl_keeps (RecordsGrow s) _ (fun t d k => k.trans (offerPlaceTo_grow d t)) _ s (.refl s)

theorem serveLocal_grow (w : Fin 32) (r : Waiter) (msg : Message) (s : State) : RecordsGrow s (serveLocal w r msg s) := by
  have removed := RecordsGrow.of_releases (removeWaiter_releases w s)
  unfold serveLocal
  generalize removeWaiter w s = a at removed ⊢
  have copied (e : Entry) : RecordsGrow a (setEntry (slotOfTag r.tag) e a) :=
    ⟨rfl, rfl, List.prefix_refl _, List.prefix_refl _⟩
  exact removed.trans ((copied _).trans (.of_releases (finish_releases (slotOfTag r.tag) .delivered _)))

theorem serveRemote_grow (w : Fin 32) (r : Waiter) (d : Fin 8) (h : Fin 16) (c : Fin 64) (s : State) :
    RecordsGrow s (serveRemote w r d h c s) :=
  (RecordsGrow.of_releases ((removeWaiter_releases w s).trans (revise_releases ..))).trans (fillDelivery_grow ..)

theorem pairOnce_grow {b : Bool} (k : pairOnce b h s = some u) : RecordsGrow s u := by
  have dropped : RecordsGrow s (dropHead h s) := .of_same rfl rfl rfl
  unfold pairOnce at k
  split at k
  · split at k
    · split at k
      · cases k
        exact (serveLocal_grow _ _ _ _).before rfl rfl rfl
      · split at k
        · split at k
          · cases k
            exact dropped.trans (serveRemote_grow ..)
          · cases k
        · cases k
    · cases k
  · cases k

theorem pairTimes_grow (b : Bool) (h : Fin 16) (n : Nat) (s : State) : RecordsGrow s (pairTimes b h n s) := by
  induction n generalizing s with
  | zero => exact .refl s
  | succ n ih =>
    unfold pairTimes
    split
    next t k => exact (pairOnce_grow k).trans (ih t)
    · exact .refl s

theorem pairing_grow (s : State) : RecordsGrow s (pairing s) := by
  have pass (b : Bool) (s : State) : RecordsGrow s (forEach (pairAt b) s) :=
    forEach_keeps (RecordsGrow s) _ (fun h t k => k.trans (pairTimes_grow b h _ t)) s (.refl s)
  exact (pass false s).trans (pass true _)

theorem discard_grow (st : Status) (h : Fin 16) (s : State) : RecordsGrow s (discard st h s) :=
  (RecordsGrow.of_releases (discardSteps_releases st h s)).trans ((pairing_grow _).trans (offerPlaces_grow _))

theorem discardMailbox_grow (st : Status) (m : Fin 64) (s : State) : RecordsGrow s (discardMailbox st m s) := by
  unfold discardMailbox
  split
  · exact discard_grow ..
  · exact .refl s

/-! ### CLOSE -/

theorem discardMailbox_directory (st : Status) (m : Fin 64) (s : State) :
    (discardMailbox st m s).directory = s.directory := by
  unfold discardMailbox
  split
  · exact (discard_dropped st _ s).1.directory
  · rfl

theorem discardMailbox_slot {st : Status} {m : Fin 64} (slot : openSlotOf m s = some h) :
    (hostedSlot h (discardMailbox st m s)).state = .free := by
  rw [discardMailbox, slot]
  exact (discard_dropped st h s).1.blank

/-- CLOSE of a mailbox homed here, with an entry FREE. -/
theorem closeMailboxAt_own {m : Fin 64} {j : Fin 16} (home : dirEntry m s = .homed (self s)) (free : freeEntry s = some j) :
    closeMailboxAt m s =
      (broadcastRequest ((freeEntry (closedMailbox m s)).getD j) .release m (closedMailbox m s),
        [0x00, entryTag ((freeEntry (closedMailbox m s)).getD j) (closedMailbox m s)]) := by
  simp only [closeMailboxAt, if_pos home, free]
  rfl

/-- CLOSE leaves the RELEASE entry behind the discard. -/
theorem exec_close {m : Fin 64} {j : Fin 16} (on : OnBus s) (ready : CommandReady [byteOf m.val] s)
    (home : dirEntry m s = .homed (self s)) (free : freeEntry s = some j) :
    exec .closeMailbox s =
      .next (answered [0x00, entryTag ((freeEntry (closedMailbox m (begun s))).getD j) (closedMailbox m (begun s))]
        (broadcastRequest ((freeEntry (closedMailbox m (begun s))).getD j) .release m (closedMailbox m (begun s)))) := by
  refine exec_of_work closeWork rfl rfl ready (permitted_of_onBus on (by simp) (by simp)) rfl ?_
  rw [closeWork_inRange]
  exact closeMailboxAt_own (s := begun s) home free

theorem freeEntry_some (h : ∃ i : Fin 16, (entry i s).state = .free) : ∃ i, freeEntry s = some i := by
  obtain ⟨i, hi⟩ := h
  refine Option.isSome_iff_exists.mp (List.find?_isSome.mpr ⟨i, List.mem_finRange i, ?_⟩)
  simpa using hi

/-- Settles O18. -/
theorem closeReleasesMailbox : Obligations.CloseReleasesMailbox := by
  refine ⟨fun m s on ready home free => ?_, fun m h i s on ready home slot free => ?_,
    fun st h s other agree listed => discardSteps_discarded other agree listed h⟩
  · obtain ⟨j, free⟩ := freeEntry_some free
    have row := exec_close on ready home free
    have work : ItemWork (begun s) (closedMailbox m (begun s)) := discardMailbox_work .closed m ((ItemWork.refl _).setDirEntry m .free)
    have grow : RecordsGrow (begun s) (closedMailbox m (begun s)) :=
      (discardMailbox_grow .closed m (setDirEntry m .free (begun s))).before rfl rfl rfl
    have directory : (closedMailbox m (begun s)).directory = (setDirEntry m .free (begun s)).directory :=
      discardMailbox_directory .closed m _
    have freed (h : Fin 16) (slot : openSlotOf m s = some h) : (hostedSlot h (closedMailbox m (begun s))).state = .free :=
      discardMailbox_slot (s := setDirEntry m .free (begun s)) slot
    generalize closedMailbox m (begun s) = v at *
    rw [broadcastRequest, queueRequest_setEntry] at row
    have dir (k : Fin 64) : dirEntry k v = dirEntry k (setDirEntry m .free (begun s)) := by rw [dirEntry, directory, dirEntry]
    generalize (freeEntry v).getD j = i at *
    refine ⟨_, i, row, ?_, (dir m).trans (by simp), fun k ne => (dir k).trans (by rw [dirEntry_set, if_neg ne]; rfl), freed,
      ?_, ?_, ?_, ?_, ?_, ?_, ⟨v.queue.classB, rfl⟩, grow.records, work.control, work.line, work.tracker, grow.roster,
      grow.counters⟩
    all_goals simp [answered, entryTag, entry, newEntry, Entry.blank]
  · obtain ⟨j, free⟩ := freeEntry_some free
    have row := exec_close on ready home free
    intro u lowest
    have slot' : openSlotOf m (setDirEntry m .free (begun s)) = some h := slot
    have closed : closedMailbox m (begun s) = u := by
      rw [closedMailbox, discardMailbox, slot']
      exact congrArg (discard .closed h) (setDirEntry_eq m .free (begun s))
    clear_value u
    rw [row, closed, freeEntry_lowest lowest, broadcastRequest]
    simp only [Option.getD_some, queueRequest_setEntry]
    rfl

end Sys2Proof.Machine

/-! SUPPORT. Entering LEAVING (R48, R49, R106, R127, R172). -/

namespace Sys2Proof.Machine

variable {s t u : State} {i : Fin 16} {w : Fin 32}

/-! ### The waiters of ended entries -/

/-- No taker of this station waits. -/
def NoTakers (s : State) : Prop := ∀ w r, waiter w s = some r → r.requester ≠ self s

/-- What ending entries does to the Mailbox Store: waiters leave, and nothing else. -/
structure TakersLeave (s t : State) : Prop where
  control : t.control = s.control
  pool : t.store.pool = s.store.pool
  deliveries : t.store.deliveries = s.store.deliveries
  slots : ∀ h : Fin 16, ∃ l, hostedSlot h t = { hostedSlot h s with waiters := l }
  waiters : ∀ w r, waiter w t = some r → waiter w s = some r
  listed : WaitersListed s → WaitersListed t

namespace TakersLeave

theorem refl (s : State) : TakersLeave s s := ⟨rfl, rfl, rfl, fun h => ⟨(hostedSlot h s).waiters, rfl⟩, fun _ _ => id, id⟩

theorem trans (k : TakersLeave s t) (k' : TakersLeave t u) : TakersLeave s u where
  control := k'.control.trans k.control
  pool := k'.pool.trans k.pool
  deliveries := k'.deliveries.trans k.deliveries
  slots := fun h => by
    obtain ⟨l, e⟩ := k.slots h
    obtain ⟨l', e'⟩ := k'.slots h
    exact ⟨l', by rw [e', e]⟩
  waiters := fun w r => k.waiters w r ∘ k'.waiters w r
  listed := k'.listed ∘ k.listed

/-- Work that leaves the Mailbox Store alone. -/
theorem of_store (control : t.control = s.control) (store : t.store = s.store) : TakersLeave s t where
  control := control
  pool := by rw [store]
  deliveries := by rw [store]
  slots := fun h => ⟨(hostedSlot h s).waiters, by rw [hostedSlot, store, hostedSlot]⟩
  waiters := fun w r => by rw [waiter, store, waiter]; exact id
  listed := fun ⟨once, inUse, mem⟩ => by
    have slot (h : Fin 16) : hostedSlot h t = hostedSlot h s := by rw [hostedSlot, store, hostedSlot]
    have record (w : Fin 32) : waiter w t = waiter w s := by rw [waiter, store, waiter]
    exact ⟨fun h => slot h ▸ once h, fun h w => by rw [slot, record]; exact inUse h w,
      fun w r => by rw [record, slot]; exact mem w r⟩

end TakersLeave

theorem removeWaiter_takers (w : Fin 32) (s : State) : TakersLeave s (removeWaiter w s) := by
  cases hr : waiter w s with
  | none => simpa [removeWaiter, hr] using .refl s
  | some r =>
    obtain ⟨slots, waiters, pool, deliveries, -, -, control, -⟩ := removeWaiter_views hr
    refine ⟨control, pool, deliveries, fun h => ?_, fun v q => ?_, fun ⟨once, inUse, mem⟩ => ⟨fun h => ?_, fun h v => ?_, fun v q => ?_⟩⟩
    · rw [slots]
      split
      · exact ⟨_, rfl⟩
      · exact ⟨(hostedSlot h s).waiters, rfl⟩
    · rw [waiters]
      split <;> simp
    · rw [slots]
      split
      · exact (once h).filter _
      · exact once h
    · rw [slots, waiters]
      split
      · intro k
        obtain ⟨k, ne⟩ := List.mem_filter.mp k
        rw [if_neg (by simpa using ne)]
        exact inUse h v k
      next other =>
        intro k
        obtain ⟨q, hq, hosted⟩ := inUse h v k
        rw [if_neg]
        · exact ⟨q, hq, hosted⟩
        · rintro rfl
          cases hr.symm.trans hq
          exact other hosted.symm
    · rw [waiters]
      split
      · simp
      next ne =>
        intro hq
        have k := mem v q hq
        rw [slots]
        split
        · exact List.mem_filter.mpr ⟨k, by simpa using ne⟩
        · exact k

theorem removeLocalWaiter_takers (i : Fin 16) (s : State) : TakersLeave s (removeLocalWaiter i s) := by
  unfold removeLocalWaiter
  split
  · exact removeWaiter_takers _ s
  · exact .refl s

theorem endEntry_takers (i : Fin 16) (s : State) : TakersLeave s (endEntry i s) := by
  have finished (s : State) : TakersLeave s (finish i .sessionEnd s) :=
    .of_store (finish_store i .sessionEnd s).2.2 (finish_store i .sessionEnd s).1
  unfold endEntry
  split
  · split
    · exact (removeLocalWaiter_takers i s).trans (finished _)
    · exact finished s
  · exact .refl s

theorem endEntries_takers (s : State) : TakersLeave s (endEntries s) := by
  have all := forEach_keeps (TakersLeave s) endEntry (fun i t k => k.trans (endEntry_takers i t)) s (.refl s)
  unfold endEntries
  generalize forEach endEntry s = b at all ⊢
  exact all.trans (.of_store rfl rfl)

/-- The only local waiter with a tag is the one that is found by it. -/
theorem waiterOf_taker {r : Waiter} (agree : LocalTakersAgree s) (hr : waiter w s = some r) (here : r.requester = self s) :
    waiterOf (self s) r.tag s = some w := by
  refine find_lowest ⟨by simp [hr, here], fun v lt hv => ?_⟩
  cases hq : waiter v s with
  | none => simp [hq] at hv
  | some q =>
    obtain ⟨here', tag⟩ : q.requester = self s ∧ q.tag = r.tag := by simpa [hq] using hv
    exact lt.ne (agree.2 v w q r hq hr here' here tag)

/-- The local waiter of a LOCAL_PARKED entry is gone once its entry has ended. -/
theorem endEntry_noTaker {r : Waiter} (agree : LocalTakersAgree s) (after : waiter w (endEntry i s) = some r)
    (here : r.requester = self s) : slotOfTag r.tag ≠ i := by
  rintro rfl
  have before := (endEntry_takers _ s).waiters w r after
  obtain ⟨parked, same⟩ := agree.1 w r before here
  rw [endEntry, if_pos (by simp [isLive, parked]), if_pos parked, removeLocalWaiter, same, waiterOf_taker agree before here,
    waiter, (finish_store _ .sessionEnd _).1] at after
  obtain ⟨-, waiters, -⟩ := removeWaiter_views before
  exact absurd ((waiters w).symm.trans after) (by simp)

theorem endEntry_other {j : Fin 16} (ne : j ≠ i) (s : State) : entry j (endEntry i s) = entry j s := by
  by_cases live : isLive (entry i s) = true
  · exact (endEntry_inOrder live).others j (by simpa using ne)
  · rw [endEntry_idle (by simpa using live)]

/-- The takers that are left still agree with their entries. -/
theorem endEntry_agree (agree : LocalTakersAgree s) : LocalTakersAgree (endEntry i s) := by
  have left := endEntry_takers i s
  have self' : self (endEntry i s) = self s := self_of left.control
  refine ⟨fun w r hr here => ?_, fun w v r q hr hq here here' => ?_⟩
  · rw [self'] at here
    have same := endEntry_other (endEntry_noTaker agree hr here) s
    rw [entryTag, same]
    exact agree.1 w r (left.waiters w r hr) here
  · rw [self'] at here here'
    exact agree.2 w v r q (left.waiters w r hr) (left.waiters v q hq) here here'

theorem endEntryList_noTakers (l : List (Fin 16)) (agree : LocalTakersAgree s) :
    LocalTakersAgree (l.foldl (fun t i => endEntry i t) s) ∧
      ∀ w r, waiter w (l.foldl (fun t i => endEntry i t) s) = some r → r.requester = self s → slotOfTag r.tag ∉ l := by
  induction l generalizing s with
  | nil => exact ⟨agree, fun _ _ _ _ => by simp⟩
  | cons i l ih =>
    obtain ⟨agree', gone⟩ := ih (endEntry_agree (i := i) agree)
    have left := endEntry_takers i s
    have rest : TakersLeave (endEntry i s) (l.foldl (fun t i => endEntry i t) (endEntry i s)) :=
      foldl_keeps (TakersLeave _) _ (fun t j k => k.trans (endEntry_takers j t)) l _ (.refl _)
    rw [self_of left.control] at gone
    rw [List.foldl_cons]
    refine ⟨agree', fun w r hr here => ?_⟩
    rw [List.mem_cons, not_or]
    exact ⟨endEntry_noTaker agree (rest.waiters w r hr) here, gone w r hr here⟩

/-- With the local takers in agreement none is left once every entry has ended. -/
theorem endEntries_noTakers (agree : LocalTakersAgree s) : NoTakers (endEntries s) := by
  intro w r hr here
  rw [self_of (endEntries_takers s).control] at here
  obtain ⟨-, gone⟩ := endEntryList_noTakers (List.finRange 16) agree
  unfold endEntries forEach at hr
  generalize (List.finRange 16).foldl (fun t i => endEntry i t) s = b at gone hr
  exact gone w r hr here (List.mem_finRange _)

/-! ### Discards without takers -/

theorem discardWaiter_noTakers (st : Status) (b : Bool) (w : Fin 32) (none : NoTakers s) :
    (discardWaiter st b w s).engine = s.engine ∧ (discardWaiter st b w s).port = s.port := by
  unfold discardWaiter
  split
  next r hr =>
    have remote : isLocal r s = false := by simp [isLocal, none w r hr]
    rw [remote]
    cases b with
    | true => exact ⟨rfl, rfl⟩
    | false =>
      simp only [if_true, Bool.false_eq_true, if_false]
      rw [revise_apart]
      cases e : waiter w s with
      | none => simp [removeWaiter, e]
      | some q =>
        rw [removeWaiter_eq e]
        exact ⟨rfl, rfl⟩
  · exact ⟨rfl, rfl⟩

/-- Without takers a discard leaves the Request Engine and the port as they are, and no taker comes. -/
structure NoTakerWork (s t : State) : Prop where
  engine : t.engine = s.engine
  port : t.port = s.port
  none : NoTakers t

theorem NoTakers.of_left (none : NoTakers s) (control : t.control = s.control)
    (left : ∀ w r, waiter w t = some r → waiter w s = some r) : NoTakers t := by
  intro w r hr
  rw [self_of control]
  exact none w r (left w r hr)

theorem withoutWaiters_noTakers (st : Status) (h : Fin 16) (noTakers : NoTakers s) :
    NoTakerWork s (withoutWaiters st h s) := by
  have pass (b : Bool) (l : List (Fin 32)) (s : State) (noTakers : NoTakers s) :
      NoTakerWork s (l.foldl (fun s w => discardWaiter st b w s) s) :=
    foldl_keeps (NoTakerWork s) _ (fun t w k => by
      obtain ⟨engine, port⟩ := discardWaiter_noTakers st b w k.none
      exact ⟨engine.trans k.engine, port.trans k.port, k.none.of_left (discardWaiter_tables st b w t).control
        (discardWaiter_left st b w t).1.records⟩) l s ⟨rfl, rfl, noTakers⟩
  have first := pass true (hostedSlot h s).waiters s noTakers
  unfold withoutWaiters
  dsimp only
  generalize (hostedSlot h s).waiters.foldl (fun t w => discardWaiter st true w t) s = a at first ⊢
  have second := pass false (hostedSlot h a).waiters a first.none
  exact ⟨second.engine.trans first.engine, second.port.trans first.port, second.none⟩

/-- The last three steps of a discard touch no waiter, no entry and no record. -/
theorem discardSteps_tail (st : Status) (h : Fin 16) (s : State) :
    (discardSteps st h s).engine = (withoutWaiters st h s).engine ∧
      (discardSteps st h s).port = (withoutWaiters st h s).port ∧
      (discardSteps st h s).store.waiters = (withoutWaiters st h s).store.waiters := by
  have slots := discardSlots h (List.finRange 8) (List.nodup_finRange 8) (withoutWaiters st h s)
  rw [← forEach] at slots
  rw [discardSteps_eq]
  generalize forEach (discardDelivery h) (withoutWaiters st h s) = c at *
  have freed := freeCells_apart (hostedSlot h c).messages c
  generalize (hostedSlot h c).messages.foldl (fun s c => setCell c none s) c = e at *
  rw [freed]
  exact ⟨slots.engine, slots.port, slots.waiters⟩

theorem discardSteps_noTakers (st : Status) (h : Fin 16) (noTakers : NoTakers s) :
    NoTakerWork s (discardSteps st h s) := by
  have control := (discardSteps_releases st h s).control
  have control' := (withoutWaiters_releases st h s).control
  obtain ⟨engine, port, none⟩ := withoutWaiters_noTakers st h noTakers
  obtain ⟨tEngine, tPort, tWaiters⟩ := discardSteps_tail st h s
  refine ⟨tEngine.trans engine, tPort.trans port, none.of_left (control.trans control'.symm) fun w r hr => ?_⟩
  rwa [waiter, tWaiters, ← waiter] at hr

/-! ### The hosted slots at entry to LEAVING -/

theorem leaveSlot_opened {h : Fin 16} (opened : (hostedSlot h s).state = .opened) :
    leaveSlot h s = discardSteps .sessionEnd h s := by
  simp [leaveSlot, opened]

theorem leaveSlot_claiming {h : Fin 16} (claiming : (hostedSlot h s).state = .claiming) :
    leaveSlot h s = setHosted h HostedSlot.blank s := by
  simp [leaveSlot, claiming]

theorem leaveSlot_free {h : Fin 16} (free : (hostedSlot h s).state = .free) : leaveSlot h s = s := by
  simp [leaveSlot, free]

theorem leaveSlot_releases (h : Fin 16) (s : State) : OnlyReleases s (leaveSlot h s) := by
  cases e : (hostedSlot h s).state with
  | opened => rw [leaveSlot_opened e]; exact discardSteps_releases ..
  | claiming => rw [leaveSlot_claiming e]; exact setHosted_releases ..
  | free => rw [leaveSlot_free e]; exact .refl s

theorem leaveSlot_noTakers (h : Fin 16) (noTakers : NoTakers s) : NoTakerWork s (leaveSlot h s) := by
  cases e : (hostedSlot h s).state with
  | opened => rw [leaveSlot_opened e]; exact discardSteps_noTakers .sessionEnd h noTakers
  | claiming => rw [leaveSlot_claiming e]; exact ⟨rfl, rfl, noTakers⟩
  | free => rw [leaveSlot_free e]; exact ⟨rfl, rfl, noTakers⟩

theorem leaveSlots_noTakers (noTakers : NoTakers s) : NoTakerWork s (forEach leaveSlot s) :=
  forEach_keeps (NoTakerWork s) leaveSlot
    (fun h t k => by
      obtain ⟨engine, port, none⟩ := leaveSlot_noTakers h k.none
      exact ⟨engine.trans k.engine, port.trans k.port, none⟩) s ⟨rfl, rfl, noTakers⟩

theorem NoTakers.agree (noTakers : NoTakers s) : LocalTakersAgree s :=
  ⟨fun w r hr here => absurd here (noTakers w r hr), fun w _ r _ hr _ here => absurd here (noTakers w r hr)⟩

/-- The waiter lists stay whole through a discard. -/
theorem Discarded.listed {st : Status} {h : Fin 16} (k : Discarded st h s t) (listed : WaitersListed s) :
    WaitersListed t := by
  obtain ⟨once, inUse, mem⟩ := listed
  refine ⟨fun i => ?_, fun i w => ?_, fun w r hr => ?_⟩
  · by_cases same : i = h
    · rw [same, k.slot]
      exact List.nodup_nil
    · rw [k.otherSlots i same]
      exact once i
  · by_cases same : i = h
    · rw [same, k.slot]
      simp [HostedSlot.blank]
    · rw [k.otherSlots i same, k.waiters]
      intro hw
      obtain ⟨r, hr, hosted⟩ := inUse i w hw
      rw [if_neg]
      · exact ⟨r, hr, hosted⟩
      · intro hw'
        obtain ⟨q, hq, hosted'⟩ := inUse h w hw'
        cases hr.symm.trans hq
        exact same (hosted.symm.trans hosted')
  · rw [k.waiters] at hr
    split at hr
    · cases hr
    next other =>
      have hw := mem w r hr
      rw [k.otherSlots]
      · exact hw
      · intro same
        exact other (same ▸ hw)

/-- A hosted slot that is not OPEN holds no message, no waiter and no delivery. -/
def SlotsShut (s : State) : Prop :=
  ∀ h : Fin 16, (hostedSlot h s).state ≠ .opened →
    (hostedSlot h s).messages = [] ∧ (hostedSlot h s).waiters = [] ∧ ∀ d y, delivery d s = some y → y.hosted ≠ h

/-- Nothing of the mailboxes in the hosted slots of `l` is left in `u`, and the rest is as in `s`. -/
structure SlotsEmptied (l : List (Fin 16)) (s u : State) : Prop where
  noTakers : NoTakers u
  listed : WaitersListed u
  slots : ∀ h, h ∉ l → hostedSlot h u = hostedSlot h s
  waiters : ∀ w r, waiter w u = some r → r.hosted ∉ l
  deliveries : ∀ d y, delivery d u = some y ↔ delivery d s = some y ∧ y.hosted ∉ l
  cells : ∀ c, cell c u ≠ none → cell c s ≠ none ∧ (∀ h ∈ l, c ∉ (hostedSlot h s).messages) ∧
    ∀ d y, delivery d s = some y → y.hosted ∈ l → y.cell ≠ c

namespace SlotsEmptied

variable {l : List (Fin 16)} {h : Fin 16}

theorem nil (noTakers : NoTakers s) (listed : WaitersListed s) : SlotsEmptied [] s s :=
  ⟨noTakers, listed, fun _ _ => rfl, by simp, by simp, by simp⟩

/-- An OPEN slot more. -/
theorem opened (k : SlotsEmptied l s u) (new : h ∉ l) : SlotsEmptied (h :: l) s (discardSteps .sessionEnd h u) := by
  have d : Discarded .sessionEnd h u (discardSteps .sessionEnd h u) :=
    discardSteps_discarded (by simp) k.noTakers.agree k.listed h
  have noTakers := (discardSteps_noTakers .sessionEnd h k.noTakers).none
  generalize discardSteps .sessionEnd h u = t at *
  have slot := k.slots h new
  refine ⟨noTakers, d.listed k.listed, fun i hi => ?_, fun w r hr => ?_, fun e y => ?_, fun c hc => ?_⟩
  · obtain ⟨ne, hi⟩ : i ≠ h ∧ i ∉ l := by simpa using hi
    rw [d.otherSlots i ne, k.slots i hi]
  · rw [d.waiters] at hr
    split at hr
    · cases hr
    next other =>
      rw [List.mem_cons, not_or]
      refine ⟨?_, k.waiters w r hr⟩
      rintro rfl
      exact other (k.listed.2.2 w r hr)
  · rw [d.deliveries, List.mem_cons, not_or]
    by_cases serves : servesHosted h e u = true
    · obtain ⟨z, hz, hosted⟩ := (servesHosted_iff h e u).mp serves
      simp only [serves, if_true, reduceCtorEq, false_iff]
      rintro ⟨hy, ne, -⟩
      have hz' := ((k.deliveries e z).mp hz).1
      cases hy.symm.trans hz'
      exact ne hosted
    · rw [if_neg serves, k.deliveries]
      refine and_congr_right fun hy => ?_
      constructor
      · refine fun out => ⟨?_, out⟩
        rintro rfl
        exact serves ((servesHosted_iff _ e u).mpr ⟨y, (k.deliveries e y).mpr ⟨hy, out⟩, rfl⟩)
      · exact fun out => out.2
  · have kept : ¬ (c ∈ (hostedSlot h u).messages ∨ ∃ e y, delivery e u = some y ∧ y.hosted = h ∧ y.cell = c) :=
      fun freed => hc (d.cellsFreed c freed)
    rw [d.cellsKept c kept] at hc
    obtain ⟨stored, notListed, notCarried⟩ := k.cells c hc
    obtain ⟨notHere, notCarriedHere⟩ := not_or.mp kept
    refine ⟨stored, ?_, fun e y hy hosted same => ?_⟩
    · exact List.forall_mem_cons.mpr ⟨slot ▸ notHere, notListed⟩
    · by_cases mem : y.hosted ∈ l
      · exact notCarried e y hy mem same
      · exact notCarriedHere ⟨e, y, (k.deliveries e y).mpr ⟨hy, mem⟩, (List.mem_cons.mp hosted).resolve_right mem, same⟩

/-- A slot more that is not OPEN, left or made blank. -/
theorem shut (k : SlotsEmptied l s u) (new : h ∉ l) (shut : SlotsShut s) (closed : (hostedSlot h s).state ≠ .opened)
    (slots : ∀ i, i ≠ h → hostedSlot i t = hostedSlot i u) (slot : (hostedSlot h t).waiters = [])
    (waiters : ∀ w, waiter w t = waiter w u) (deliveries : ∀ d, delivery d t = delivery d u)
    (cells : ∀ c, cell c t = cell c u) (control : t.control = u.control) : SlotsEmptied (h :: l) s t := by
  obtain ⟨noMessages, noWaiters, noDeliveries⟩ := shut h closed
  have empty : (hostedSlot h u).waiters = [] := by rw [k.slots h new]; exact noWaiters
  have lists (i : Fin 16) : (hostedSlot i t).waiters = (hostedSlot i u).waiters := by
    by_cases same : i = h
    · rw [same, slot, empty]
    · rw [slots i same]
  obtain ⟨once, inUse, mem⟩ := k.listed
  refine ⟨k.noTakers.of_left control fun w r hr => (waiters w).symm.trans hr,
    ⟨fun i => lists i ▸ once i, fun i w => by rw [lists, waiters]; exact inUse i w,
      fun w r => by rw [waiters, lists]; exact mem w r⟩, fun i hi => ?_, fun w r hr => ?_, fun d y => ?_, fun c hc => ?_⟩
  · obtain ⟨ne, hi⟩ : i ≠ h ∧ i ∉ l := by simpa using hi
    rw [slots i ne, k.slots i hi]
  · rw [waiters] at hr
    rw [List.mem_cons, not_or]
    refine ⟨?_, k.waiters w r hr⟩
    rintro rfl
    simpa [empty] using mem w r hr
  · rw [deliveries, k.deliveries, List.mem_cons, not_or]
    exact and_congr_right fun hy => ⟨fun out => ⟨noDeliveries d y hy, out⟩, fun out => out.2⟩
  · rw [cells] at hc
    obtain ⟨stored, notListed, notCarried⟩ := k.cells c hc
    refine ⟨stored, List.forall_mem_cons.mpr ⟨by simp [noMessages], notListed⟩, fun d y hy hosted => ?_⟩
    exact notCarried d y hy ((List.mem_cons.mp hosted).resolve_left (noDeliveries d y hy))

/-- One hosted slot more at entry to LEAVING. -/
theorem step (k : SlotsEmptied l s u) (new : h ∉ l) (shut : SlotsShut s) : SlotsEmptied (h :: l) s (leaveSlot h u) := by
  have same := congrArg HostedSlot.state (k.slots h new)
  cases e : (hostedSlot h u).state with
  | opened => rw [leaveSlot_opened e]; exact k.opened new
  | claiming =>
    rw [leaveSlot_claiming e]
    exact k.shut new shut (by rw [← same, e]; simp) (fun i ne => by rw [hostedSlot_setHosted, if_neg (Ne.symm ne)]) (by simp [HostedSlot.blank])
      (fun _ => rfl) (fun _ => rfl) (fun _ => rfl) rfl
  | free =>
    rw [leaveSlot_free e]
    have closed : (hostedSlot h s).state ≠ .opened := by rw [← same, e]; simp
    exact k.shut new shut closed (fun _ _ => rfl) (by rw [k.slots h new]; exact (shut h closed).2.1)
      (fun _ => rfl) (fun _ => rfl) (fun _ => rfl) rfl

end SlotsEmptied

theorem leaveSlots_emptied (l l' : List (Fin 16)) (once : (l.reverse ++ l').Nodup) (k : SlotsEmptied l' s u)
    (shut : SlotsShut s) : SlotsEmptied (l.reverse ++ l') s (l.foldl (fun t h => leaveSlot h t) u) := by
  induction l generalizing l' u with
  | nil => exact k
  | cons h l ih =>
    rw [List.reverse_cons, List.append_assoc, List.singleton_append] at once ⊢
    have new : h ∉ l' := (List.nodup_cons.mp (once.of_append_right)).1
    exact ih (h :: l') once (k.step new shut)

/-- With the tables whole nothing is left in the Mailbox Store once every hosted slot is FREE. -/
theorem leaveSlots_nothing (noTakers : NoTakers s) (listed : WaitersListed s) (shut : SlotsShut s)
    (found : ∀ c, cell c s ≠ none → (∃ h : Fin 16, c ∈ (hostedSlot h s).messages) ∨ ∃ d x, delivery d s = some x ∧ x.cell = c) :
    (∀ w, waiter w (forEach leaveSlot s) = none) ∧ (∀ d, delivery d (forEach leaveSlot s) = none) ∧
      ∀ c, cell c (forEach leaveSlot s) = none := by
  have emptied := leaveSlots_emptied (List.finRange 16) [] (by simpa using List.nodup_finRange 16) (.nil noTakers listed) shut
  rw [← forEach] at emptied
  generalize forEach leaveSlot s = u at *
  have all (h : Fin 16) : h ∈ (List.finRange 16).reverse ++ [] := by simp
  refine ⟨fun w => Option.eq_none_iff_forall_ne_some.mpr fun r hr => emptied.waiters w r hr (all _),
    fun d => Option.eq_none_iff_forall_ne_some.mpr fun y hy => ((emptied.deliveries d y).mp hy).2 (all _), fun c => ?_⟩
  by_contra hc
  obtain ⟨stored, notListed, notCarried⟩ := emptied.cells c hc
  obtain ⟨h, mem⟩ | ⟨d, y, hy, same⟩ := found c stored
  · exact notListed h (all h) mem
  · exact notCarried d y hy (all _) same

end Sys2Proof.Machine

/-! SUPPORT. Entering LEAVING as a whole, and LEAVE (R48, R49, R52, R106). -/

namespace Sys2Proof.Machine

variable {s t u : State}

/-! ### The directory at entry to LEAVING -/

theorem leaveDirEntry_eq (m : Fin 64) (s : State) :
    leaveDirEntry m s =
      if dirEntry m s = .claiming ∨ dirEntry m s = .homed (self s) then setDirEntry m .free s else s := by
  cases e : dirEntry m s <;> simp [leaveDirEntry, e]

/-- The entries of `l` that are CLAIMING or homed here have become FREE, and nothing else has changed. -/
structure EntriesLeft (l : List (Fin 64)) (s t : State) : Prop where
  apart : t = { s with directory := { s.directory with entries := t.directory.entries } }
  entries : ∀ m, dirEntry m t =
    if m ∈ l ∧ (dirEntry m s = .claiming ∨ dirEntry m s = .homed (self s)) then .free else dirEntry m s

theorem leaveDirEntry_left (m : Fin 64) (s : State) : EntriesLeft [m] s (leaveDirEntry m s) := by
  rw [leaveDirEntry_eq]
  split
  next leaves =>
    refine ⟨rfl, fun k => ?_⟩
    rw [dirEntry_set]
    by_cases same : k = m
    · simp [same, leaves]
    · simp [same]
  next stays =>
    refine ⟨rfl, fun k => ?_⟩
    rw [if_neg]
    rintro ⟨mem, leaves⟩
    exact stays (List.mem_singleton.mp mem ▸ leaves)

theorem EntriesLeft.cons {m : Fin 64} {l : List (Fin 64)} (k : EntriesLeft [m] s t) (k' : EntriesLeft l t u) :
    EntriesLeft (m :: l) s u := by
  have self' : self t = self s := self_of (by rw [k.apart])
  refine ⟨?_, fun i => ?_⟩
  · rw [k'.apart, k.apart]
  · rw [k'.entries, k.entries, self']
    by_cases same : i = m
    · subst same
      by_cases leaves : dirEntry i s = .claiming ∨ dirEntry i s = .homed (self s)
      · simp [leaves]
      · simp [leaves]
    · simp [same]

theorem leaveDirEntries_left (l : List (Fin 64)) (s : State) :
    EntriesLeft l s (l.foldl (fun t m => leaveDirEntry m t) s) := by
  induction l generalizing s with
  | nil => exact ⟨rfl, by simp⟩
  | cons m l ih => exact (leaveDirEntry_left m s).cons (ih _)

/-! ### Entering LEAVING -/

theorem leaveSlots_releases (s : State) : OnlyReleases s (forEach leaveSlot s) := OnlyReleases.forEach leaveSlot_releases s

/-- Ended entries leave the hosted slots that are not OPEN empty as they were. -/
theorem TakersLeave.shut (k : TakersLeave s t) (listed : WaitersListed s) (loads : LoadsKept s) : SlotsShut t := by
  intro h closed
  obtain ⟨l, slot⟩ := k.slots h
  rw [slot] at closed
  obtain ⟨noMessages, noWaiters, noDeliveries⟩ := loads.shut h closed
  refine ⟨by rw [slot]; exact noMessages, List.eq_nil_iff_forall_not_mem.mpr fun w hw => ?_, fun d y hy hosted => ?_⟩
  · obtain ⟨r, hr, rfl⟩ := (k.listed listed).2.1 h w hw
    simpa [noWaiters] using listed.2.2 w r (k.waiters w r hr)
  · have hy' : delivery d s = some y := by rwa [delivery, ← k.deliveries]
    have none := List.countP_eq_zero.mp noDeliveries d (List.mem_finRange d)
    simp [hy', hosted] at none

/-- The Mailbox Store after the hosted slots have been left, with its tables whole before. -/
theorem leaving_emptied (listed : WaitersListed s) (agree : LocalTakersAgree s) (loads : LoadsKept s) (cells : CellsPlaced s) :
    (∀ w, waiter w (forEach leaveSlot (endEntries s)) = none) ∧
      (∀ d, delivery d (forEach leaveSlot (endEntries s)) = none) ∧
      ∀ c, cell c (forEach leaveSlot (endEntries s)) = none := by
  have left := endEntries_takers s
  have noTakers := endEntries_noTakers agree
  generalize endEntries s = b at left noTakers ⊢
  refine leaveSlots_nothing noTakers (left.listed listed) (left.shut listed loads) fun c hc => ?_
  have hc' : cell c s ≠ none := by rwa [cell, ← left.pool]
  obtain ⟨h, mem⟩ | ⟨d, y, hy, same⟩ := cells.found c hc'
  · obtain ⟨l, slot⟩ := left.slots h
    exact .inl ⟨h, by rw [slot]; exact mem⟩
  · exact .inr ⟨d, y, by rwa [delivery, left.deliveries], same⟩

theorem OnlyReleases.nothingLive (k : OnlyReleases s t) (nothing : NothingLive s) : NothingLive t := by
  obtain ⟨live, orders⟩ := nothing
  refine ⟨fun i => (isLive_eq_false_iff _).mp (Bool.eq_false_iff.mpr fun alive => ?_), fun h => k.orders h (orders h)⟩
  have ended := (isLive_eq_false_iff _).mpr (live i)
  exact Bool.false_ne_true (ended.symm.trans (k.live i alive))

/-- Entries that end are told by the Request Engine and the records alone. -/
theorem LiveEntriesEnded.congr {s' t' : State} (k : LiveEntriesEnded s t) (engine : s'.engine = s.engine)
    (port : s'.port.completions = s.port.completions) (engine' : t'.engine = t.engine)
    (port' : t'.port.completions = t.port.completions) : LiveEntriesEnded s' t' := by
  have live : liveEntries s' = liveEntries s := by simp only [liveEntries, entry, engine]
  rw [LiveEntriesEnded, live]
  exact (k.after (fun i => by rw [entry, engine', entry]) (by rw [engine']) port').before engine.symm port.symm

/-- What entering LEAVING makes of the state (R49, R106, R127, R172). -/
theorem enterLeaving_entered (s : State) : LeavingEntered s (enterLeaving s) := by
  rw [enterLeaving_eq]
  have silentEnd : Silent (endEntries (emptyLists s)) := endEntries_silent ⟨rfl, rfl⟩
  have silent : Silent (forEach leaveSlot (endEntries (emptyLists s))) := leaveSlots_silent silentEnd
  have ending := endEntries_releases (emptyLists s)
  have ended := endEntries_ended (emptyLists s)
  have nothing := endEntries_nothingLive (emptyLists s)
  have noTakers (agree : LocalTakersAgree s) : NoTakers (endEntries (emptyLists s)) :=
    endEntries_noTakers (s := emptyLists s) agree
  have emptied (listed : WaitersListed s) (agree : LocalTakersAgree s) (loads : LoadsKept s) (cells : CellsPlaced s) :=
    leaving_emptied (s := emptyLists s) listed agree ⟨loads.loads, loads.depths, loads.shut⟩
      ⟨cells.once, cells.apart, cells.stored, cells.carried, cells.alone, cells.found⟩
  generalize endEntries (emptyLists s) = b at *
  have leaving := leaveSlots_releases b
  have untouched := fun agree => leaveSlots_noTakers (noTakers agree)
  obtain ⟨-, -, slots, -⟩ := leaveSlots_dropped (List.finRange 16) b
  rw [← forEach] at slots
  generalize forEach leaveSlot b = c at *
  have released := ending.trans leaving
  have left := leaveDirEntries_left (List.finRange 64) c
  rw [← forEach] at left
  generalize forEach leaveDirEntry c = d at *
  obtain ⟨apart, entries⟩ := left
  have selfC : self c = self s := self_of released.control
  have sameDir (m : Fin 64) : dirEntry m c = dirEntry m s := by rw [dirEntry, released.directory]; rfl
  have cursor : c.directory.cursor = s.directory.cursor := congrArg Directory.cursor released.directory
  generalize d.directory.entries = v at apart
  subst apart
  exact
    { control := by simp [enterState, released.control, emptyLists]
      line := released.line
      tracker := released.tracker
      queue := by
        obtain ⟨classA, classB⟩ := silent
        have parts : c.queue = ⟨c.queue.classA, c.queue.classB, c.queue.onAir⟩ := rfl
        refine parts.trans ?_
        rw [classA, classB, released.onAir]
        rfl
      roster := released.roster
      directory := ⟨cursor, fun m => (entries m).trans (by simp [sameDir, selfC])⟩
      hosted := fun h => slots h (.inl (List.mem_finRange h))
      engine := leaving.nothingLive nothing
      ended := fun agree => by
        obtain ⟨engine, port, -⟩ := untouched agree
        have completions : c.port.completions = b.port.completions := by rw [port]
        exact ended.congr rfl rfl engine completions
      emptied := emptied
      records := released.recordsKept
      port := by
        simp only [enterState]
        rw [released.port]
        rfl
      rest := released.rest }

/-! ### LEAVE -/

/-- The result that a command leaves stands beside what a session end makes of the blocks. -/
theorem SessionEnded.answered {cause : EndCause} (r : List Byte) (k : SessionEnded cause s t) :
    SessionEnded cause (answered r s) (answered r t) :=
  ⟨k.control, k.line, k.tracker, k.queue, k.roster, k.directory, k.store, k.engine,
    k.ended.congr rfl rfl rfl rfl, k.records, congrArg (fun p => { p with taking := some r }) k.port,
    k.rest⟩

theorem LeavingEntered.answered (r : List Byte) (k : LeavingEntered s t) :
    LeavingEntered (answered r s) (answered r t) :=
  ⟨k.control, k.line, k.tracker, k.queue, k.roster, k.directory, k.hosted, k.engine,
    fun agree => (k.ended agree).congr rfl rfl rfl rfl,
    fun listed agree loads cells => k.emptied listed agree ⟨loads.loads, loads.depths, loads.shut⟩
      ⟨cells.once, cells.apart, cells.stored, cells.carried, cells.alone, cells.found⟩,
    k.records, congrArg (fun p => { p with taking := some r }) k.port, k.rest⟩

/-- Settles O14. -/
theorem leaveEffect : Obligations.LeaveEffect := by
  intro s ready
  have row (on : OnBus s) : exec .leave s = .next (answered [0x00] (leaveWork [] (begun s)).1) :=
    exec_of_work leaveWork rfl rfl ready (permitted_of_onBus on (by simp) (by simp)) rfl rfl
  refine ⟨fun active => ⟨_, row (.inr active), ?_⟩, fun seeking => ⟨_, row (.inl seeking), ?_⟩⟩
  · have work : (leaveWork [] (begun s)).1 = enterLeaving (begun s) := if_pos active
    rw [work]
    exact (enterLeaving_entered (begun s)).answered [0x00]
  · have work : (leaveWork [] (begun s)).1 = sessionEnd .leftUnannounced (begun s) :=
      if_neg (by simp [begun, seeking])
    rw [work]
    exact (sessionEnd_ended .leftUnannounced (begun s)).answered [0x00]

end Sys2Proof.Machine
